-- ==== Sys2Proof/Word.lean ====
section
/-! DEFINITION. The words and names of the VG-412: management words, beats, addresses, frames and the index ranges of
its numbered resources (spec/00_scope.md, Tables 0-2 and 0-4). -/

namespace Sys2Proof

/-- One byte. -/
abbrev Byte := BitVec 8

/-- A 32-bit word of the management port (Table 12-5). -/
abbrev Word := BitVec 32

/-- A 16-bit byte offset on the management port (Table 12-4). -/
abbrev Offset := BitVec 16

/-- A 40-bit byte address of the upstream port or of the memory port. -/
abbrev Address := BitVec 40

/-- The 8 data bytes of one beat; byte k holds bits 8k+7 to 8k (R9). -/
abbrev Beat := BitVec 64

/-- The 64 bytes of one copy chunk; byte k holds bits 8k+7 to 8k (Table 6-2). -/
abbrev Chunk := BitVec 512

/-- A frame, named by bits 39:12 of its frame address; the low 12 bits are zero (Table 0-4). -/
abbrev Frame := BitVec 28

/-- A journal domain, 0 to 3. -/
abbrev DomainId := Fin 4

/-- A region window, 0 to 7. -/
abbrev WindowId := Fin 8

/-- An initiator ID, 0 to 15. -/
abbrev InitiatorId := Fin 16

/-- A request tag, 0 to 63. -/
abbrev Tag := Fin 64

/-- A copy slot of the Copy Engine, 0 or 1. -/
abbrev SlotId := Fin 2

/-- The number under which an operation is outstanding on the memory link (R154). -/
abbrev LinkTag := Nat

/-- The level of a line. -/
inductive Level
  | low
  | high
deriving DecidableEq, Repr

end Sys2Proof
end

