-- ==== Sys2Proof/Syntax.lean ====
section
/-! DEFINITION. The commands of the VG-412: one constructor of `Instr` for each row of spec/opcode_table.json, with the
operands that the rule of the row gives it. -/

namespace Sys2Proof

/-- The direction of a transfer (Table 9-1). -/
inductive Kind
  | read
  | write
deriving DecidableEq, Repr

/-- How the address moves from beat to beat (Table 9-1). -/
inductive Burst
  | incr
  | fixed
deriving DecidableEq, Repr

/-- One beat of a WRITE: 8 bytes with 8 byte enables (Table 9-1). -/
structure WriteBeat where
  data : Beat
  enables : BitVec 8
deriving DecidableEq, Repr

/-- An upstream request (Table 9-1). Every request address is a multiple of 8 (R142), so the address is carried in
units of a beat: `beatAddress` is bits 39:3 of the address. A READ carries no beats. -/
structure Request where
  initiator : InitiatorId
  tag : Tag
  kind : Kind
  beatAddress : BitVec 37
  length : Nat
  burst : Burst
  beats : List WriteBeat
deriving DecidableEq, Repr

/-- The status of a completion on the memory port (R154). -/
inductive Completion
  | okay
  | failed
deriving DecidableEq, Repr

/-- The setting words of a region window (Table 12-5). -/
inductive WindowWord
  | control
  | base
  | high
  | mapBase
deriving DecidableEq, Repr

/-- The setting words of a domain (Table 12-5). -/
inductive DomainWord
  | settings0
  | settings1
deriving DecidableEq, Repr

/-- The setting words of an Initiator Table entry (Table 12-5). -/
inductive InitiatorWord
  | control
  | lowBound
  | highBound
deriving DecidableEq, Repr

/-- The words of the management port's register summary (Table 12-5). -/
inductive RegisterWord
  | command
  | argument0
  | argument1
  | commandResult
  | lastWriteStatus
  | resetCause
  | faultRecord (k : Fin 4)
  | alertLatches
  | alertEnables
  | poolThreshold
  | timebaseAndEdge
  | poolStatus
  | markAndOccupancy
  | domainStatus (d : DomainId)
  | domainEpoch (d : DomainId)
  | domainSettings (d : DomainId) (word : DomainWord)
  | window (w : WindowId) (word : WindowWord)
  | initiator (i : InitiatorId) (word : InitiatorWord)
deriving DecidableEq, Repr

/-- The commands. An operand that the spec's text of the row does not name stands for a choice that the spec leaves to
the outside or leaves open: the EPOCH line's level as a reset ends (R166), the link tag of a grant (R154), the order in
which one event is taken for several domains (R32, R97, R106). -/
inductive Instr
  | powerOnReset (line : Level)
  | resetNPinReset (line : Level)
  | upstreamRequest (request : Request)
  | rankLeave (rank : Nat)
  | memoryPortGrant (tag : LinkTag)
  | walkCompletion (tag : LinkTag) (status : Completion) (entry : Beat)
  | publishWriteCompletion (tag : LinkTag) (status : Completion)
  | chunkCompletion (tag : LinkTag) (status : Completion) (data : Chunk)
  | transitCompletion (tag : LinkTag) (status : Completion) (beats : List Beat)
  | tick (order : List DomainId)
  | deadlineExpiry (d : DomainId)
  | markEvent (order : List DomainId)
  | openDomain (d : DomainId)
  | commit (d : DomainId)
  | commitAtMark (d : DomainId)
  | rollback (d : DomainId)
  | poolLoad
  | flushCache
  | clearFault
  | resetAll
  | unknownCommand (word : Word)
  | windowSettingWrite (w : WindowId) (word : WindowWord) (data : Word)
  | domainSettingWrite (d : DomainId) (word : DomainWord) (data : Word)
  | initiatorSettingWrite (i : InitiatorId) (word : InitiatorWord) (data : Word)
  | poolThresholdWrite (data : Word)
  | timebaseAndEdgeWrite (data : Word)
  | alertLatchesWrite (data : Word)
  | alertEnablesWrite (data : Word)
  | settingWrite (offset : Offset) (data : Word)
  | softResetDrainEnd
  | epochLineInactiveChange
deriving DecidableEq, Repr

end Sys2Proof
end

