-- ==== Sys2Proof/Decode.lean ====
section
/-! DEFINITION. From bits to commands. The opcode table gives no row any bits, so `decodeTableWord` answers none for
every word. The one encoding that the spec gives commands is the management frame (Tables 12-4 to 12-6, R174 to R176):
`decodeFrame` reads it and `encodeFrame`, after it, writes it. -/

namespace Sys2Proof

/-- The command that a word spells by the bits of spec/opcode_table.json: no row of the table gives bits. -/
def decodeTableWord (_nbits _w : Nat) : Option Instr := none

/-- The word that a management offset names (Table 12-5), or none for an offset that is not a multiple of 4 or names
no word (R174, R175). -/
def wordAt (offset : Offset) : Option RegisterWord :=
  if offset.extractLsb' 0 2 ≠ 0#2 then none
  else if offset.extractLsb' 7 9 = 0#9 then
    match (offset.extractLsb' 2 5).toNat with
    | 0 => some .command
    | 1 => some .argument0
    | 2 => some .argument1
    | 3 => some .commandResult
    | 4 => some .lastWriteStatus
    | 5 => some .resetCause
    | 8 => some (.faultRecord 0)
    | 9 => some (.faultRecord 1)
    | 10 => some (.faultRecord 2)
    | 11 => some (.faultRecord 3)
    | 12 => some .alertLatches
    | 13 => some .alertEnables
    | 14 => some .poolThreshold
    | 15 => some .timebaseAndEdge
    | 16 => some .poolStatus
    | 17 => some .markAndOccupancy
    | _ => none
  else if offset.extractLsb' 5 11 = 0x08#11 then
    let d : DomainId := (offset.extractLsb' 3 2).toFin
    if offset.getLsbD 2 then some (.domainEpoch d) else some (.domainStatus d)
  else if offset.extractLsb' 5 11 = 0x0A#11 then
    let d : DomainId := (offset.extractLsb' 3 2).toFin
    some (.domainSettings d (if offset.getLsbD 2 then .settings1 else .settings0))
  else if offset.extractLsb' 7 9 = 0x04#9 then
    let w : WindowId := (offset.extractLsb' 4 3).toFin
    match (offset.extractLsb' 2 2).toNat with
    | 0 => some (.window w .control)
    | 1 => some (.window w .base)
    | 2 => some (.window w .high)
    | _ => some (.window w .mapBase)
  else if offset.extractLsb' 8 8 = 0x03#8 then
    let i : InitiatorId := (offset.extractLsb' 4 4).toFin
    match (offset.extractLsb' 2 2).toNat with
    | 0 => some (.initiator i .control)
    | 1 => some (.initiator i .lowBound)
    | 2 => some (.initiator i .highBound)
    | _ => none
  else none

/-- The command that a word written at the command offset names (Table 12-6, R176): a code that names no command, or a
one in any bit above bit 9, is an unknown command. The domain field of the last four commands is ignored. -/
def commandOf (word : Word) : Instr :=
  let d : DomainId := (word.extractLsb' 8 2).toFin
  if word.extractLsb' 10 22 ≠ 0#22 then .unknownCommand word
  else
    match (word.extractLsb' 0 8).toNat with
    | 0x01 => .openDomain d
    | 0x02 => .commit d
    | 0x03 => .commitAtMark d
    | 0x04 => .rollback d
    | 0x10 => .poolLoad
    | 0x11 => .flushCache
    | 0x12 => .clearFault
    | 0x1F => .resetAll
    | _ => .unknownCommand word

/-- The row of the opcode table under which a WRITE frame's offset and data word fall (R175, R176). -/
def writeRow (offset : Offset) (data : Word) : Instr :=
  match wordAt offset with
  | some .command => commandOf data
  | some (.window w word) => .windowSettingWrite w word data
  | some (.domainSettings d word) => .domainSettingWrite d word data
  | some (.initiator i word) => .initiatorSettingWrite i word data
  | some .poolThreshold => .poolThresholdWrite data
  | some .timebaseAndEdge => .timebaseAndEdgeWrite data
  | some .alertLatches => .alertLatchesWrite data
  | some .alertEnables => .alertEnablesWrite data
  | _ => .settingWrite offset data

/-- The operation byte of a READ frame (Table 12-4). -/
def readOperation : Byte := 0x01

/-- The operation byte of a WRITE frame (Table 12-4). -/
def writeOperation : Byte := 0x02

/-- The command that a frame of the management port carries (R174): a WRITE of at least seven bytes; bytes after the
seventh are ignored. A READ, a frame of fewer bytes and a frame with any other operation byte carry no command. -/
def decodeFrame : List Byte → Option Instr
  | operation :: o1 :: o0 :: d3 :: d2 :: d1 :: d0 :: _ =>
    if operation = writeOperation then some (writeRow (o1 ++ o0) (d3 ++ d2 ++ d1 ++ d0)) else none
  | _ => none

/-- The management offset of a word (Table 12-5). -/
def offsetOf : RegisterWord → Offset
  | .command => 0x0000
  | .argument0 => 0x0004
  | .argument1 => 0x0008
  | .commandResult => 0x000C
  | .lastWriteStatus => 0x0010
  | .resetCause => 0x0014
  | .faultRecord k => 0x0020 + BitVec.ofNat 16 (4 * k.val)
  | .alertLatches => 0x0030
  | .alertEnables => 0x0034
  | .poolThreshold => 0x0038
  | .timebaseAndEdge => 0x003C
  | .poolStatus => 0x0040
  | .markAndOccupancy => 0x0044
  | .domainStatus d => 0x0100 + BitVec.ofNat 16 (8 * d.val)
  | .domainEpoch d => 0x0104 + BitVec.ofNat 16 (8 * d.val)
  | .domainSettings d .settings0 => 0x0140 + BitVec.ofNat 16 (8 * d.val)
  | .domainSettings d .settings1 => 0x0144 + BitVec.ofNat 16 (8 * d.val)
  | .window w .control => 0x0200 + BitVec.ofNat 16 (16 * w.val)
  | .window w .base => 0x0204 + BitVec.ofNat 16 (16 * w.val)
  | .window w .high => 0x0208 + BitVec.ofNat 16 (16 * w.val)
  | .window w .mapBase => 0x020C + BitVec.ofNat 16 (16 * w.val)
  | .initiator i .control => 0x0300 + BitVec.ofNat 16 (16 * i.val)
  | .initiator i .lowBound => 0x0304 + BitVec.ofNat 16 (16 * i.val)
  | .initiator i .highBound => 0x0308 + BitVec.ofNat 16 (16 * i.val)

/-- The command word of a code and a domain (Table 12-5, offset 0x0000). -/
def commandWord (code : Byte) (d : DomainId) : Word := 0#22 ++ BitVec.ofFin (w := 2) d ++ code

/-- The offset and the data word of the WRITE frame that carries a command, for the rows that the management port
takes. -/
def managementWrite : Instr → Option (Offset × Word)
  | .openDomain d => some (offsetOf .command, commandWord 0x01 d)
  | .commit d => some (offsetOf .command, commandWord 0x02 d)
  | .commitAtMark d => some (offsetOf .command, commandWord 0x03 d)
  | .rollback d => some (offsetOf .command, commandWord 0x04 d)
  | .poolLoad => some (offsetOf .command, commandWord 0x10 0)
  | .flushCache => some (offsetOf .command, commandWord 0x11 0)
  | .clearFault => some (offsetOf .command, commandWord 0x12 0)
  | .resetAll => some (offsetOf .command, commandWord 0x1F 0)
  | .unknownCommand word => some (offsetOf .command, word)
  | .windowSettingWrite w word data => some (offsetOf (.window w word), data)
  | .domainSettingWrite d word data => some (offsetOf (.domainSettings d word), data)
  | .initiatorSettingWrite i word data => some (offsetOf (.initiator i word), data)
  | .poolThresholdWrite data => some (offsetOf .poolThreshold, data)
  | .timebaseAndEdgeWrite data => some (offsetOf .timebaseAndEdge, data)
  | .alertLatchesWrite data => some (offsetOf .alertLatches, data)
  | .alertEnablesWrite data => some (offsetOf .alertEnables, data)
  | .settingWrite offset data => some (offset, data)
  | .powerOnReset _ | .resetNPinReset _ | .upstreamRequest _ | .rankLeave _ | .memoryPortGrant _
  | .walkCompletion _ _ _ | .publishWriteCompletion _ _ | .chunkCompletion _ _ _ | .transitCompletion _ _ _
  | .tick _ | .deadlineExpiry _ | .markEvent _ | .softResetDrainEnd | .epochLineInactiveChange => none

/-- The seven bytes of the WRITE frame that carries a command, most significant byte first (R174). -/
def encodeFrame (c : Instr) : Option (List Byte) :=
  (managementWrite c).map fun (offset, data) =>
    [writeOperation, offset.extractLsb' 8 8, offset.extractLsb' 0 8,
      data.extractLsb' 24 8, data.extractLsb' 16 8, data.extractLsb' 8 8, data.extractLsb' 0 8]

end Sys2Proof
end

