-- ==== Sys2Proof/Machine/State.lean ====
section
/-! DEFINITION. The state of the VG-412 as plain data, block by block as spec/00_scope.md (Table 0-2) names the blocks,
the reasons a step can stop, and the state after reset. A table whose entries are told apart by age alone (the Hold
Queue, the Transit Table, the walk list) is the list of its occupied entries, oldest first: a FREE entry carries no
meaning (R117, R155). -/

namespace Sys2Proof.Machine

/-! ## RDU: region windows -/

/-- The kind of a region window (Table 1-1). -/
inductive WindowKind
  | pass
  | guarded
  | journaled
deriving DecidableEq, Repr

/-- The six settings of a region window (Table 1-1, R1). `baseHigh` is bits 39:16 of the base and `mapPage` bits 39:12
of the map base: the bits below are held zero. -/
structure Window where
  enable : Bool
  kind : WindowKind
  baseHigh : BitVec 24
  sizeExp : Nat
  domain : DomainId
  mapPage : BitVec 28
deriving DecidableEq, Repr

/-! ## INC: the Initiator Table -/

/-- The state of an initiator (Table 8-1). -/
inductive InitiatorState
  | enabled
  | blocked
deriving DecidableEq, Repr

/-- What the part does at a violation of an initiator (Table 8-1, R139). -/
inductive ViolationPolicy
  | refuse
  | block
deriving DecidableEq, Repr

/-- An Initiator Table entry (Table 8-1). The bounds are carried as multiples of 4096 (R132). -/
structure InitiatorEntry where
  state : InitiatorState
  lowPage : BitVec 28
  highPage : BitVec 29
  mask : BitVec 4
  policy : ViolationPolicy
deriving DecidableEq, Repr

/-! ## TLU: the Translation Cache -/

/-- The contents of a valid Translation Cache entry (Table 2-2). -/
structure CacheEntry where
  window : WindowId
  tile : Nat
  frame : Frame
  writable : Bool
  sw : BitVec 10
deriving DecidableEq, Repr

/-! ## MWK: walk jobs and publication -/

/-- Whether a walk job's read has been sent, and under which link tag (Table 2-4). -/
inductive WalkStatus
  | pending
  | issued (tag : LinkTag)
deriving DecidableEq, Repr

/-- A walk job (Table 2-4). Its waiting requests are the ranks whose reason names its window and tile. -/
structure WalkJob where
  window : WindowId
  tile : Nat
  mapAddress : Address
  domain : DomainId
  status : WalkStatus
deriving DecidableEq, Repr

/-- A domain in the Map Walker's publication order with its cursor: the sequence number of the last entry written, none
before the first (R32). -/
structure Publication where
  domain : DomainId
  cursor : Option Nat
deriving DecidableEq, Repr

/-- The publish write that is outstanding on the memory link: the change entry written (by its tile) and the map address
(R31, R33, R74). -/
structure PublishWrite where
  tag : LinkTag
  domain : DomainId
  window : WindowId
  tile : Nat
  mapAddress : Address
deriving DecidableEq, Repr

/-! ## EPU: Domain Records and the Change Table -/

/-- The phases of COMMITTING that an event can leave behind. RELEASE completes in the event that enters it (R40, R77). -/
inductive CommitPhase
  | drain
  | publish
deriving DecidableEq, Repr

/-- The state of a domain with its phase (Table 3-1). `opened` is OPEN. `rollingBack` is ROLLING_BACK.DRAIN: DISCARD
completes in the event that enters it (R40, R94). -/
inductive DomainState
  | closed
  | opened
  | marked
  | committing (phase : CommitPhase)
  | rollingBack
  | faulted
deriving DecidableEq, Repr

/-- What a failed first-write check does (Table 3-2). -/
inductive OverflowPolicy
  | refuse
  | rollback
deriving DecidableEq, Repr

/-- What becomes of a write while the domain is CLOSED (Table 3-2). -/
inductive ClosedWrite
  | allow
  | refuse
deriving DecidableEq, Repr

/-- What a deadline expiry does (Table 3-2). -/
inductive DeadlineAction
  | alert
  | commit
  | rollback
deriving DecidableEq, Repr

/-- The settings of a domain (Table 3-2). -/
structure DomainSettings where
  quota : Nat
  overflow : OverflowPolicy
  closedWrite : ClosedWrite
  violationAbort : Bool
  autoMark : Bool
  autoReopen : Bool
  deadlineReload : BitVec 16
  deadlineAction : DeadlineAction
deriving DecidableEq, Repr

/-- A Domain Record (Table 3-1). -/
structure DomainRecord where
  state : DomainState
  epoch : BitVec 32
  entryCount : Nat
  nextSequence : Nat
  sequenceSpent : Bool
  settings : DomainSettings
deriving DecidableEq, Repr

/-- The state of a change entry; a COPYING entry names the copy slot bound to it (Tables 3-4, 3-5, R46). -/
inductive EntryState
  | copying (slot : SlotId)
  | live
  | published
deriving DecidableEq, Repr

/-- A change entry (Table 3-4). -/
structure ChangeEntry where
  domain : DomainId
  window : WindowId
  tile : Nat
  oldFrame : Frame
  newFrame : Frame
  savedW : Bool
  savedSw : BitVec 10
  sequence : Nat
  state : EntryState
deriving DecidableEq, Repr

/-! ## CPE: copy slots -/

/-- What has become of a chunk in progress: its read is outstanding; its 64 bytes are held and its write is ready; its
write is outstanding; or it has no operation left, in a slot that is STOPPING (R109, R110, R112). -/
inductive ChunkPhase
  | reading (tag : LinkTag)
  | held (data : Chunk)
  | writing (tag : LinkTag) (data : Chunk)
  | ended
deriving DecidableEq, Repr

/-- A chunk in progress (Table 6-2). -/
structure ChunkInProgress where
  number : Nat
  phase : ChunkPhase
deriving DecidableEq, Repr

/-- A copy slot that is RUNNING, or STOPPING (Table 6-2); its bound entry is named by its tile. The count Outstanding is
the number of its chunks whose operation is outstanding (`outstandingChunks` in Ops.lean). -/
structure CopyJob where
  window : WindowId
  tile : Nat
  source : Frame
  destination : Frame
  nextRead : Nat
  chunks : List ChunkInProgress
  progress : Nat
  stopping : Bool
deriving DecidableEq, Repr

/-! ## UPU and HQU: requests, their pieces and the Hold Queue -/

/-- The window that a request's addresses select, with its kind and, for a JOURNALED window, its domain (R3, R4).
`outside` is a request that selects no window. -/
inductive Region
  | outside
  | pass (w : WindowId)
  | guarded (w : WindowId)
  | journaled (w : WindowId) (d : DomainId)
deriving DecidableEq, Repr

/-- Which piece of its request a piece is (R145). -/
inductive Place
  | oneOfOne
  | oneOfTwo
  | twoOfTwo
deriving DecidableEq, Repr

/-- A piece of a request (R145): the upstream address of its first byte, how many of the request's beats come before it,
how many it holds, and the tile index and tile offset of its first byte. A piece that is not translated has tile 0 and
offset 0, and nothing reads them. -/
structure Piece where
  place : Place
  address : Address
  skip : Nat
  count : Nat
  tile : Nat
  offset : BitVec 12
deriving DecidableEq, Repr

/-- The decode result recorded with a request, with its pieces (R4, R145). -/
structure Decoded where
  region : Region
  pieces : List Piece
deriving DecidableEq, Repr

/-- Why a parked rank waits; WALK names the tile of its walk job, and COPY the tile of the change entry whose copy it
waits for (Table 7-1, R121). -/
inductive WaitReason
  | walk (w : WindowId) (tile : Nat)
  | copy (w : WindowId) (tile : Nat)
  | slot
  | domain
  | transit
  | order
deriving DecidableEq, Repr

/-- The state of an occupied rank (Table 7-1). -/
inductive RankState
  | parked (reason : WaitReason)
  | eligible
deriving DecidableEq, Repr

/-- An occupied rank of the Hold Queue (Table 7-1). -/
structure Rank where
  request : Request
  decoded : Decoded
  state : RankState
deriving DecidableEq, Repr

/-- The status of an upstream response (Table 9-2). -/
inductive ResponseStatus
  | okay
  | refused
  | failed
deriving DecidableEq, Repr

/-- An upstream response (Table 9-2). -/
structure Response where
  initiator : InitiatorId
  tag : Tag
  status : ResponseStatus
  dup : Bool
  beats : List Beat
deriving DecidableEq, Repr

/-- What the Upstream Port Unit holds of a piece whose operation has completed while the other piece of its request is
outstanding (R149, R158). -/
structure PieceResult where
  initiator : InitiatorId
  tag : Tag
  place : Place
  status : Completion
  beats : List Beat
deriving DecidableEq, Repr

/-! ## MPU: the Transit Table and what it sends -/

/-- The state of a claimed transit entry; a SENT entry holds its link tag (Table 10-2). -/
inductive TransitState
  | waiting
  | sent (tag : LinkTag)
deriving DecidableEq, Repr

/-- A claimed transit entry (Table 10-2). -/
structure TransitEntry where
  initiator : InitiatorId
  tag : Tag
  place : Place
  kind : Kind
  burst : Burst
  count : Nat
  domain : Option DomainId
  window : Option WindowId
  upstreamAddress : Address
  memoryAddress : Address
  beats : List WriteBeat
  state : TransitState
deriving DecidableEq, Repr

/-- An operation on the memory port (Table 10-1, R153), under its link tag (R154). -/
structure PortOperation where
  tag : LinkTag
  kind : Kind
  address : Address
  burst : Burst
  count : Nat
  beats : List WriteBeat
deriving DecidableEq, Repr

/-! ## DTU -/

/-- A domain's deadline counter (Table 11-1). -/
structure DeadlineCounter where
  value : Nat
  running : Bool
deriving DecidableEq, Repr

/-- The selected edge of the EPOCH line (Table 11-1). -/
inductive Edge
  | rising
  | falling
deriving DecidableEq, Repr

/-! ## FAU -/

/-- The faults (Table 12-1). -/
inductive FaultCode
  | dupTag
  | initiatorBlocked
  | span
  | bounds
  | guardedWrite
  | domainDenied
  | mapBusy
  | tileInvalid
  | tileReadonly
  | closedWrite
  | domainFaulted
  | journalFull
  | poolEmpty
  | copyFailed
  | mapRead
  | mapWrite
  | memory
deriving DecidableEq, Repr

/-- Who raised a fault (Table 12-2). -/
inductive FaultSource
  | request (initiator : InitiatorId) (tag : Tag)
  | internal
deriving DecidableEq, Repr

/-- The contents of a full fault record, and of a fault report (Table 12-2). -/
structure FaultReport where
  code : FaultCode
  source : FaultSource
  address : Address
  window : Option WindowId
  domain : Option DomainId
  epoch : Option (BitVec 32)
deriving DecidableEq, Repr

/-! ## MGP -/

/-- The result of a command (Table 12-5, offset 0x000C). -/
inductive ResultCode
  | none
  | done
  | busy
  | state
  | arg
deriving DecidableEq, Repr

/-- The command result word: the result and the code of the command (R176). -/
structure CommandResult where
  result : ResultCode
  code : Byte
deriving DecidableEq, Repr

/-- The last-write status (R175). -/
inductive WriteStatus
  | accepted
  | refused
deriving DecidableEq, Repr

/-- The reset cause (R178). -/
inductive ResetCause
  | power
  | pin
  | soft
deriving DecidableEq, Repr

/-! ## The machine -/

/-- Everything the VG-412 keeps between events. `abandoned` holds the link tags of the operations that a power-on or pin
reset abandoned and whose completions have not returned (R161; log entry 5). The last three fields are the model's own: what the part has sent on its
response channel and on its memory port, in order; and the commands that wait, first in, first out. -/
structure State where
  -- RDU
  windows : Vector Window 8
  -- INC
  initiators : Vector InitiatorEntry 16
  -- TLU
  cache : Vector (Option CacheEntry) 32
  cachePointer : Fin 32
  -- MWK
  walkJobs : List WalkJob
  publication : List Publication
  publishWrite : Option PublishWrite
  -- EPU
  domains : Vector DomainRecord 4
  changes : List ChangeEntry
  -- FAL
  freeFrames : List Frame
  poolSize : Nat
  poolThreshold : Nat
  -- CPE
  slots : Vector (Option CopyJob) 2
  -- HQU
  ranks : List Rank
  -- MPU and UPU
  transit : List TransitEntry
  collected : List PieceResult
  starvation : Nat
  abandoned : List LinkTag
  -- DTU
  deadlines : Vector DeadlineCounter 4
  timebase : BitVec 4
  divider : Nat
  edge : Edge
  lineLevel : Level
  markCounter : BitVec 16
  -- FAU
  fault : Option FaultReport
  lost : Bool
  latches : BitVec 18
  enables : BitVec 18
  -- MGP
  argument0 : Word
  argument1 : Word
  commandResult : CommandResult
  lastWrite : WriteStatus
  resetCause : ResetCause
  draining : Bool
  -- the model's own
  responses : List Response
  portOperations : List PortOperation
  pending : List Instr
deriving DecidableEq, Repr

/-- The faults that could stop the machine: none. The spec gives every event an outcome, and the part's own faults
(Table 12-1) are recorded in State, not stops. -/
inductive Fault
deriving DecidableEq, Repr

/-- The refusals. -/
inductive Refusal
  /-- Raised by `exec` for a command that has no meaning in the model: none is left. Safe: the model stops. -/
  | notModelled (mnemonic : String)
deriving DecidableEq, Repr

/-! ## Reset values -/

/-- A region window after any reset (R1). -/
def Window.reset : Window :=
  { enable := false, kind := .pass, baseHigh := 0, sizeExp := 16, domain := 0, mapPage := 0 }

/-- An Initiator Table entry after any reset (R131, Table 8-1): the high bound is 2^40. -/
def InitiatorEntry.reset : InitiatorEntry :=
  { state := .enabled, lowPage := 0, highPage := 0x10000000, mask := 0xF, policy := .refuse }

/-- The domain settings after any reset (Table 3-2). -/
def DomainSettings.reset : DomainSettings :=
  { quota := 64, overflow := .refuse, closedWrite := .allow, violationAbort := false, autoMark := false,
    autoReopen := false, deadlineReload := 0, deadlineAction := .alert }

/-- A Domain Record after any reset (R38). -/
def DomainRecord.reset : DomainRecord :=
  { state := .closed, epoch := 0, entryCount := 0, nextSequence := 0, sequenceSpent := false,
    settings := .reset }

/-- A deadline counter after any reset (R163). -/
def DeadlineCounter.reset : DeadlineCounter := { value := 0, running := false }

/-- The machine right after a power-on reset (R1, R24, R37, R38, R45, R100, R108, R117, R131, R155, R157, R162, R163,
R166, R167, R170, R172, R175, R176, R178). DESIGN CHOICE (log entry 1): the EPOCH line is taken as low as the reset
ends; the spec leaves its level to the outside. -/
def State.reset : State :=
  { windows := Vector.replicate 8 .reset
    initiators := Vector.replicate 16 .reset
    cache := Vector.replicate 32 none
    cachePointer := 0
    walkJobs := []
    publication := []
    publishWrite := none
    domains := Vector.replicate 4 .reset
    changes := []
    freeFrames := []
    poolSize := 0
    poolThreshold := 0
    slots := Vector.replicate 2 none
    ranks := []
    transit := []
    collected := []
    starvation := 0
    abandoned := []
    deadlines := Vector.replicate 4 .reset
    timebase := 10
    divider := 0
    edge := .rising
    lineLevel := .low
    markCounter := 0
    fault := none
    lost := false
    latches := 0
    enables := 0
    argument0 := 0
    argument1 := 0
    commandResult := { result := .none, code := 0 }
    lastWrite := .accepted
    resetCause := .power
    draining := false
    responses := []
    portOperations := []
    pending := [] }

end Sys2Proof.Machine
end

