-- ==== Sys2Proof/Machine/Flags.lean ====
section
/-! DEFINITION. The flags of the part: the alert latches and the ALERT line (Table 12-3, R172, R173), the codes under
which states and faults are reported (Tables 12-1 and 12-5), and which faults are violations (Table 8-3). -/

namespace Sys2Proof.Machine

/-- The eighteen alert latches (Table 12-3). -/
inductive Alert
  | fault
  | poolLow
  | deadline (d : DomainId)
  | commitDone (d : DomainId)
  | rollbackDone (d : DomainId)
  | domainFaulted (d : DomainId)
deriving DecidableEq, Repr

/-- The position of a latch in the alert latch word (Table 12-5, offset 0x0030). -/
def alertBit : Alert → Nat
  | .fault => 0
  | .poolLow => 1
  | .deadline d => 2 + d.val
  | .commitDone d => 6 + d.val
  | .rollbackDone d => 10 + d.val
  | .domainFaulted d => 14 + d.val

/-- The latch word with one position set. -/
def alertMask (a : Alert) : BitVec 18 := 1#18 <<< alertBit a

/-- A latch is set; one that is already set stays set (R172). -/
def setLatch (a : Alert) (s : State) : State := { s with latches := s.latches ||| alertMask a }

/-- Whether a latch is set. -/
def latched (a : Alert) (s : State) : Bool := s.latches.getLsbD (alertBit a)

/-- The ALERT output: active while at least one latch is set with its enable set (R173). -/
def alertLine (s : State) : Bool := (s.latches &&& s.enables) != 0#18

/-- The number of a fault (Table 12-1). -/
def faultNumber : FaultCode → BitVec 5
  | .dupTag => 1
  | .initiatorBlocked => 2
  | .span => 3
  | .bounds => 4
  | .guardedWrite => 5
  | .domainDenied => 6
  | .mapBusy => 7
  | .tileInvalid => 8
  | .tileReadonly => 9
  | .closedWrite => 10
  | .domainFaulted => 11
  | .journalFull => 12
  | .poolEmpty => 13
  | .copyFailed => 14
  | .mapRead => 15
  | .mapWrite => 16
  | .memory => 17

/-- The faults that are violations (Table 8-3). -/
def isViolation : FaultCode → Bool
  | .bounds | .guardedWrite | .domainDenied | .tileReadonly => true
  | .dupTag | .initiatorBlocked | .span | .mapBusy | .tileInvalid | .closedWrite | .domainFaulted | .journalFull
  | .poolEmpty | .copyFailed | .mapRead | .mapWrite | .memory => false

/-- The faults of a failed first-write check (R55). -/
def isOverflow : FaultCode → Bool
  | .journalFull | .poolEmpty => true
  | .dupTag | .initiatorBlocked | .span | .bounds | .guardedWrite | .domainDenied | .mapBusy | .tileInvalid
  | .tileReadonly | .closedWrite | .domainFaulted | .copyFailed | .mapRead | .mapWrite | .memory => false

/-- The code of a domain's state in its status word (Table 12-5, offset 0x0100 + 8d). -/
def stateCode : DomainState → BitVec 3
  | .closed => 0
  | .opened => 1
  | .marked => 2
  | .committing _ => 3
  | .rollingBack => 4
  | .faulted => 5

/-- The code of a domain's phase in its status word (Table 12-5, offset 0x0100 + 8d). -/
def phaseCode : DomainState → BitVec 2
  | .committing .drain => 1
  | .committing .publish => 2
  | .rollingBack => 1
  | .closed | .opened | .marked | .faulted => 0

/-- The code of a command result (Table 12-5, offset 0x000C). -/
def resultNumber : ResultCode → BitVec 3
  | .none => 0
  | .done => 1
  | .busy => 2
  | .state => 3
  | .arg => 4

/-- The code of a reset cause (Table 12-5, offset 0x0014). -/
def resetCauseNumber : ResetCause → BitVec 2
  | .power => 1
  | .pin => 2
  | .soft => 3

end Sys2Proof.Machine
end

