-- ==== Sys2Proof/Config.lean ====
section
/-! DEFINITION. What one VG-412 fixes: the capacities of its tables and queues (spec/00_scope.md, Table 0-2).
The spec leaves no value of the part open, so there is no free value here: every choice the spec leaves open (which of
two events that fall together is taken first, which link tag an operation is given) is an operand of the command that
meets it. -/

namespace Sys2Proof.Config

/-- Ranks of the Hold Queue (R117). -/
abbrev holdRanks : Nat := 8

/-- Entries of the Transit Table (R155). -/
abbrev transitEntries : Nat := 32

/-- Entries of the Change Table (R45). -/
abbrev changeEntries : Nat := 256

/-- Capacity of the Free Frame Queue (R100). -/
abbrev poolCapacity : Nat := 4096

/-- Chunks of one tile copy (R111). -/
abbrev chunksPerTile : Nat := 64

/-- The starvation counter's value at which the guard acts (R157). -/
abbrev starvationLimit : Nat := 8

/-- Bytes of a tile and of a frame (Table 0-4). -/
abbrev tileBytes : Nat := 4096

end Sys2Proof.Config
end

