-- ==== Sys2Proof/Machine/Operands.lean ====
section
/-! DEFINITION. The operand forms: the extent of a request, the windows its addresses select, its pieces, the map areas
it overlaps, the map entry, and the fields of the setting words (Chapters 1 and 9, Table 12-5). -/

namespace Sys2Proof.Machine

/-! ## The extent of a request (R143) -/

/-- The upstream address of a request: a multiple of 8 (R142). -/
def requestAddress (r : Request) : Address := r.beatAddress ++ 0#3

/-- The first byte of a request (R143). -/
def firstByte (r : Request) : Nat := 8 * r.beatAddress.toNat

/-- The last byte of a request; it may lie past the top of the address space (R143). -/
def lastByte (r : Request) : Nat :=
  match r.burst with
  | .incr => firstByte r + 8 * r.length - 1
  | .fixed => firstByte r + 7

/-- The addresses of the beats that a request covers: each once, and the one beat of a FIXED request once (R143). -/
def coveredBeats (r : Request) : List Nat :=
  match r.burst with
  | .incr => (List.range r.length).map fun k => firstByte r + 8 * k
  | .fixed => [firstByte r]

/-! ## Windows (R2, R7, R8) -/

/-- The base of a window, as written. -/
def windowBase (w : Window) : Nat := w.baseHigh.toNat * 65536

/-- An address hits a window that is enabled and whose base it agrees with from bit 39 down to bit s (R2). -/
def windowHit (w : Window) (a : Nat) : Bool :=
  w.enable && decide (a / 2 ^ w.sizeExp = windowBase w / 2 ^ w.sizeExp)

/-- The window selected for an address: of those it hits, the one with the lowest number (R2). -/
def selectWindow (ws : Vector Window 8) (a : Nat) : Option WindowId :=
  (List.finRange 8).find? fun i => windowHit ws[i] a

/-- The effective base of a window: its base with every bit below bit s taken as zero (R2). -/
def effectiveBase (w : Window) : Nat := windowBase w / 2 ^ w.sizeExp * 2 ^ w.sizeExp

/-- The number of tiles of a window (R7). -/
def tileCount (w : Window) : Nat := 2 ^ (w.sizeExp - 12)

/-- The tile index of an address in a window (R7). -/
def tileIndex (w : Window) (a : Nat) : Nat := (a - effectiveBase w) / Config.tileBytes

/-- The tile offset of an address in a window: its distance from the effective base, modulo 4096 (R7). -/
def tileOffset (w : Window) (a : Nat) : BitVec 12 := BitVec.ofNat 12 (a - effectiveBase w)

/-- The upstream address of a tile's first byte (R113). -/
def tileAddress (w : Window) (tile : Nat) : Address :=
  BitVec.ofNat 40 (effectiveBase w + Config.tileBytes * tile)

/-- The map base of a window, its low 12 bits zero (Table 1-1). -/
def mapBase (w : Window) : Address := w.mapPage ++ 0#12

/-- The address of a tile's map entry, taken modulo 2^40 (R8). -/
def mapEntryAddress (w : Window) (tile : Nat) : Address := mapBase w + BitVec.ofNat 40 (8 * tile)

/-! ## The decode of a request (R3 to R7, R145) -/

/-- The region of a selection: the window's kind and, when JOURNALED, its domain (R4). -/
def regionOf (ws : Vector Window 8) : Option WindowId → Region
  | none => .outside
  | some w =>
    match ws[w].kind with
    | .pass => .pass w
    | .guarded => .guarded w
    | .journaled => .journaled w ws[w].domain

/-- The pieces of a request: an INCR request in a JOURNALED window whose first and last bytes lie in different tiles is
split at the boundary between them; every other request is one piece (R145). -/
def cutPieces (ws : Vector Window 8) (r : Request) : Region → List Piece
  | .journaled w _ =>
    let window := ws[w]
    let first := tileIndex window (firstByte r)
    let boundary := effectiveBase window + Config.tileBytes * (first + 1)
    let ahead := (boundary - firstByte r) / 8
    if r.burst = .incr ∧ tileIndex window (lastByte r) ≠ first then
      [{ place := .oneOfTwo, address := requestAddress r, skip := 0, count := ahead,
         tile := first, offset := tileOffset window (firstByte r) },
       { place := .twoOfTwo, address := BitVec.ofNat 40 boundary, skip := ahead, count := r.length - ahead,
         tile := tileIndex window boundary, offset := tileOffset window boundary }]
    else
      [{ place := .oneOfOne, address := requestAddress r, skip := 0, count := r.length,
         tile := first, offset := tileOffset window (firstByte r) }]
  | .outside | .pass _ | .guarded _ =>
    [{ place := .oneOfOne, address := requestAddress r, skip := 0, count := r.length, tile := 0, offset := 0 }]

/-- The decode result of a request, none when it has a span mismatch (R3, R4). -/
def decodeRequest (ws : Vector Window 8) (r : Request) : Option Decoded :=
  let selected := selectWindow ws (firstByte r)
  if selected = selectWindow ws (lastByte r) then
    some { region := regionOf ws selected, pieces := cutPieces ws r (regionOf ws selected) }
  else none

/-- The window of a region, if any. -/
def regionWindow : Region → Option WindowId
  | .outside => none
  | .pass w | .guarded w | .journaled w _ => some w

/-- The domain of a region: only a JOURNALED window has one (R5, R6). -/
def regionDomain : Region → Option DomainId
  | .journaled _ d => some d
  | .outside | .pass _ | .guarded _ => none

/-! ## Map areas (R8, R12) -/

/-- How far an address lies above a window's map base, modulo 2^40 (R8). -/
def mapDistance (w : Window) (a : Nat) : Nat := (a + 2 ^ 40 - (mapBase w).toNat) % 2 ^ 40

/-- The tiles of a window whose map entries a request's span overlaps. Map areas and beats are both aligned to 8 bytes,
so each covered beat is one whole entry or none (R8, R12). -/
def overlappedTiles (w : Window) (r : Request) : List Nat :=
  (coveredBeats r).filterMap fun a =>
    if mapDistance w a < 8 * tileCount w then some (mapDistance w a / 8) else none

/-- A window has a map area that is snooped when it is enabled and JOURNALED (R12). -/
def isMapped (w : Window) : Bool := w.enable && decide (w.kind = .journaled)

/-- The windows whose map areas a request overlaps, lowest number first (R12). -/
def overlappedWindows (ws : Vector Window 8) (r : Request) : List WindowId :=
  (List.finRange 8).filter fun i => isMapped ws[i] && !(overlappedTiles ws[i] r).isEmpty

/-! ## The map entry (Table 1-3, R9, R10) -/

/-- A map entry read by a walk is usable when V is 1 and bits 63:40 are zero (R9). -/
def mapUsable (bits : Beat) : Bool := bits.getLsbD 0 && decide (bits.extractLsb' 40 24 = 0#24)

/-- The W bit of a map entry. -/
def mapWritable (bits : Beat) : Bool := bits.getLsbD 1

/-- The SW field of a map entry. -/
def mapSw (bits : Beat) : BitVec 10 := bits.extractLsb' 2 10

/-- The FRAME field of a map entry. -/
def mapFrame (bits : Beat) : Frame := bits.extractLsb' 12 28

/-- The value of a publish write: V = 1, the saved W and SW, the new frame, and zero high bits (R10). -/
def mapEntryValue (e : ChangeEntry) : Beat :=
  0#24 ++ e.newFrame ++ e.savedSw ++ BitVec.ofBool e.savedW ++ 1#1

/-- The address of a byte of a frame. -/
def frameAddress (f : Frame) (offset : BitVec 12) : Address := f ++ offset

/-! ## Beats of a chunk -/

/-- Beat k of a chunk: the 8 bytes at offset 8k. -/
def chunkBeat (data : Chunk) (k : Nat) : Beat := data.extractLsb' (64 * k) 64

/-- The write beats of a chunk write: all 64 bytes, every byte enable set (R153). -/
def chunkWriteBeats (data : Chunk) : List WriteBeat :=
  (List.range 8).map fun k => { data := chunkBeat data k, enables := 0xFF }

/-! ## Fields of the setting words (Table 12-5) -/

/-- A field of a management word, at its lowest bit. -/
def fieldAt {n : Nat} (at_ : Nat) (x : BitVec n) : Word := x.setWidth 32 <<< at_

/-- A one-bit field of a management word. -/
def flagAt (at_ : Nat) (b : Bool) : Word := fieldAt at_ (BitVec.ofBool b)

/-- The code of a window kind in the window control word (offset 0x0200 + 16w). -/
def kindCode : WindowKind → BitVec 2
  | .pass => 0
  | .guarded => 1
  | .journaled => 2

/-- The kind that a code names; code 3 names none. -/
def kindOfCode (c : BitVec 2) : Option WindowKind :=
  if c = 0 then some .pass else if c = 1 then some .guarded else if c = 2 then some .journaled else none

/-- The value of a window setting word as it is read back (R17). -/
def windowWordValue (w : Window) : WindowWord → Word
  | .control =>
    flagAt 0 w.enable ||| fieldAt 1 (kindCode w.kind) ||| fieldAt 8 (BitVec.ofNat 6 w.sizeExp) |||
      fieldAt 16 (BitVec.ofFin (w := 2) w.domain)
  | .base => fieldAt 16 (w.baseHigh.extractLsb' 0 16)
  | .high => fieldAt 0 (w.baseHigh.extractLsb' 16 8) ||| fieldAt 16 (w.mapPage.extractLsb' 20 8)
  | .mapBase => fieldAt 12 (w.mapPage.extractLsb' 0 20)

/-- The bits that a window setting word names. -/
def windowWordMask : WindowWord → Word
  | .control => 0x00033F07
  | .base => 0xFFFF0000
  | .high => 0x00FF00FF
  | .mapBase => 0xFFFFF000

/-- A window with one setting word written, none when the word carries a one in a bit it does not name, a size exponent
outside 16 to 36 or a kind code that names none (R15, R175). -/
def windowWith (w : Window) (word : WindowWord) (data : Word) : Option Window :=
  if data &&& ~~~(windowWordMask word) ≠ 0#32 then none
  else
    match word with
    | .control =>
      let s := (data.extractLsb' 8 6).toNat
      match kindOfCode (data.extractLsb' 1 2) with
      | some kind =>
        if 16 ≤ s ∧ s ≤ 36 then
          some { w with enable := data.getLsbD 0, kind := kind, sizeExp := s,
                        domain := (data.extractLsb' 16 2).toFin }
        else none
      | none => none
    | .base => some { w with baseHigh := w.baseHigh.extractLsb' 16 8 ++ data.extractLsb' 16 16 }
    | .high =>
      some { w with baseHigh := data.extractLsb' 0 8 ++ w.baseHigh.extractLsb' 0 16,
                    mapPage := data.extractLsb' 16 8 ++ w.mapPage.extractLsb' 0 20 }
    | .mapBase => some { w with mapPage := w.mapPage.extractLsb' 20 8 ++ data.extractLsb' 12 20 }

/-- The code of a deadline action (offset 0x0144 + 8d). -/
def actionCode : DeadlineAction → BitVec 2
  | .alert => 0
  | .commit => 1
  | .rollback => 2

/-- The deadline action that a code names; code 3 names none. -/
def actionOfCode (c : BitVec 2) : Option DeadlineAction :=
  if c = 0 then some .alert else if c = 1 then some .commit else if c = 2 then some .rollback else none

/-- The value of a domain setting word as it is read back (R40). -/
def domainWordValue (t : DomainSettings) : DomainWord → Word
  | .settings0 =>
    fieldAt 0 (BitVec.ofNat 9 t.quota) ||| flagAt 12 (decide (t.overflow = .rollback)) |||
      flagAt 13 (decide (t.closedWrite = .refuse)) ||| flagAt 14 t.violationAbort ||| flagAt 15 t.autoMark |||
      flagAt 16 t.autoReopen
  | .settings1 => fieldAt 0 t.deadlineReload ||| fieldAt 16 (actionCode t.deadlineAction)

/-- The bits that a domain setting word names. -/
def domainWordMask : DomainWord → Word
  | .settings0 => 0x0001F1FF
  | .settings1 => 0x0003FFFF

/-- Domain settings with one setting word written, none when the word carries a one in a bit it does not name, a quota
of 0 or above 256, or an action code that names none (R39, R175). -/
def settingsWith (t : DomainSettings) (word : DomainWord) (data : Word) : Option DomainSettings :=
  if data &&& ~~~(domainWordMask word) ≠ 0#32 then none
  else
    match word with
    | .settings0 =>
      let quota := (data.extractLsb' 0 9).toNat
      if 1 ≤ quota ∧ quota ≤ 256 then
        some { t with quota := quota,
                      overflow := if data.getLsbD 12 then .rollback else .refuse,
                      closedWrite := if data.getLsbD 13 then .refuse else .allow,
                      violationAbort := data.getLsbD 14, autoMark := data.getLsbD 15,
                      autoReopen := data.getLsbD 16 }
      else none
    | .settings1 =>
      (actionOfCode (data.extractLsb' 16 2)).map fun action =>
        { t with deadlineReload := data.extractLsb' 0 16, deadlineAction := action }

/-- The value of an Initiator Table word as it is read back (R131). -/
def initiatorWordValue (e : InitiatorEntry) : InitiatorWord → Word
  | .control =>
    flagAt 0 (decide (e.state = .blocked)) ||| flagAt 1 (decide (e.policy = .block)) ||| fieldAt 4 e.mask
  | .lowBound => fieldAt 0 e.lowPage
  | .highBound => fieldAt 0 e.highPage

/-- The bits that an Initiator Table word names. -/
def initiatorWordMask : InitiatorWord → Word
  | .control => 0x000000F3
  | .lowBound => 0x0FFFFFFF
  | .highBound => 0x1FFFFFFF

/-- An Initiator Table entry with one setting word written, none when the word carries a one in a bit it does not name
or a high bound above 2^40 (R132, R175). -/
def initiatorWith (e : InitiatorEntry) (word : InitiatorWord) (data : Word) : Option InitiatorEntry :=
  if data &&& ~~~(initiatorWordMask word) ≠ 0#32 then none
  else
    match word with
    | .control =>
      some { e with state := if data.getLsbD 0 then .blocked else .enabled,
                    policy := if data.getLsbD 1 then .block else .refuse,
                    mask := data.extractLsb' 4 4 }
    | .lowBound => some { e with lowPage := data.extractLsb' 0 28 }
    | .highBound =>
      if (data.extractLsb' 0 29).toNat ≤ 2 ^ 28 then some { e with highPage := data.extractLsb' 0 29 } else none

/-- The low bound of an initiator's range, as a byte address (Table 8-1). -/
def lowBound (e : InitiatorEntry) : Nat := 4096 * e.lowPage.toNat

/-- The high bound of an initiator's range, as a byte address (Table 8-1). -/
def highBound (e : InitiatorEntry) : Nat := 4096 * e.highPage.toNat

/-! ## The order in which one event is taken for several domains -/

/-- The four domains, each once: first those that the operand names, in its order, then the others in ascending number.
The spec lets several domains that one event moves be taken in either order (R32, R97, R106, R167). -/
def domainOrder (order : List DomainId) : List DomainId := (order ++ List.finRange 4).eraseDups

end Sys2Proof.Machine
end

