-- ==== Sys2Proof/Machine/Ops.lean ====
section
/-! DEFINITION. The named operations over the registers, tables and queues of the part, each at the block that owns the
state (Table 0-3). The meanings of the commands are built from these and touch the state in no other way. -/

namespace Sys2Proof.Machine

/-! ## EPU: Domain Records -/

/-- The state of a domain. -/
def domainState (d : DomainId) (s : State) : DomainState := s.domains[d].state

/-- The settings of a domain. -/
def settingsOf (d : DomainId) (s : State) : DomainSettings := s.domains[d].settings

/-- The domain is OPEN or MARKED. -/
def inEpoch (d : DomainId) (s : State) : Bool :=
  match domainState d s with
  | .opened | .marked => true
  | .closed | .committing _ | .rollingBack | .faulted => false

/-- One Domain Record is changed. -/
def modifyDomain (d : DomainId) (f : DomainRecord → DomainRecord) (s : State) : State :=
  { s with domains := s.domains.set d (f s.domains[d]) }

/-- A domain's state and phase are set. -/
def setDomainState (d : DomainId) (st : DomainState) (s : State) : State :=
  modifyDomain d (fun r => { r with state := st }) s

/-! ## DTU: deadline counters -/

/-- A counter takes the domain's deadline reload: running for 1 to 65535, stopped for 0 (R163). -/
def loadDeadline (d : DomainId) (s : State) : State :=
  let reload := (settingsOf d s).deadlineReload
  { s with deadlines := s.deadlines.set d { value := reload.toNat, running := decide (reload ≠ 0#16) } }

/-- A counter stops and keeps its value (R164). -/
def stopDeadline (d : DomainId) (s : State) : State :=
  { s with deadlines := s.deadlines.set d { s.deadlines[d] with running := false } }

/-- A counter takes a value and a running indication. -/
def setDeadline (d : DomainId) (c : DeadlineCounter) (s : State) : State :=
  { s with deadlines := s.deadlines.set d c }

/-! ## FAU: faults -/

/-- A fault report: it fills an empty record and sets latch FAULT, and sets LOST when the record is full (R170). -/
def reportFault (f : FaultReport) (s : State) : State :=
  { s with
    fault := some (s.fault.getD f)
    lost := s.lost || s.fault.isSome
    latches := if s.fault.isSome then s.latches else s.latches ||| alertMask .fault }

/-- The epoch number supplied with a fault that names a domain (R44). -/
def epochFor (domain : Option DomainId) (s : State) : Option (BitVec 32) :=
  domain.map fun d => s.domains[d].epoch

/-- The report of a fault raised for a request, at its first byte (R133, R22). -/
def requestFault (code : FaultCode) (r : Request) (window : Option WindowId) (domain : Option DomainId) (s : State) :
    FaultReport :=
  { code := code, source := .request r.initiator r.tag, address := requestAddress r, window := window,
    domain := domain, epoch := epochFor domain s }

/-- The report of a fault of the part's own work: COPY_FAILED, MAP_READ or MAP_WRITE (R36, R74, R113). -/
def internalFault (code : FaultCode) (address : Address) (w : WindowId) (d : DomainId) (s : State) : FaultReport :=
  { code := code, source := .internal, address := address, window := some w, domain := some d,
    epoch := epochFor (some d) s }

/-! ## UPU: responses -/

/-- A response without data to a request. -/
def plainResponse (r : Request) (status : ResponseStatus) (dup : Bool) : Response :=
  { initiator := r.initiator, tag := r.tag, status := status, dup := dup, beats := [] }

/-- The response channel takes a response (R148). -/
def sendResponse (a : Response) (s : State) : State := { s with responses := s.responses ++ [a] }

/-- A pair (initiator, tag) is in use while its request waits in the Hold Queue or a piece of it is in the Transit Table:
an issued request is answered at the completion of its last piece (R134, R127, R149). -/
def pairInUse (i : InitiatorId) (t : Tag) (s : State) : Bool :=
  s.ranks.any (fun k => decide (k.request.initiator = i ∧ k.request.tag = t)) ||
    s.transit.any (fun e => decide (e.initiator = i ∧ e.tag = t))

/-! ## HQU: the Hold Queue -/

/-- Whether a rank is parked with a reason. -/
def parkedOn (reason : WaitReason) (k : Rank) : Bool := decide (k.state = .parked reason)

/-- Whether a rank is parked with reason DOMAIN for a domain. -/
def parkedOnDomain (d : DomainId) (k : Rank) : Bool :=
  parkedOn .domain k && decide (regionDomain k.decoded.region = some d)

/-- A rank's reason ends and the rank becomes ELIGIBLE (R121, R122). -/
def wake (p : Rank → Bool) (k : Rank) : Rank := if p k then { k with state := .eligible } else k

/-- The wait reason ends for every rank that `p` selects (R121, R122). -/
def endWaits (p : Rank → Bool) (s : State) : State := { s with ranks := s.ranks.map (wake p) }

/-- The wait reason DOMAIN of every request of a domain ends (R53). -/
def endDomainWaits (d : DomainId) (s : State) : State := endWaits (parkedOnDomain d) s

/-- ORDER ends for the rank that is now the oldest of an initiator (R123). -/
def endOrder (i : InitiatorId) : List Rank → List Rank
  | [] => []
  | k :: ks => if k.request.initiator = i then wake (parkedOn .order) k :: ks else k :: endOrder i ks

/-- An initiator has a rank in the queue (R119). -/
def hasRank (i : InitiatorId) (s : State) : Bool := s.ranks.any fun k => decide (k.request.initiator = i)

/-- A new rank, the youngest (R118). -/
def addRank (k : Rank) (s : State) : State := { s with ranks := s.ranks ++ [k] }

/-- A rank is put back with a new reason and keeps its age (R118). -/
def parkAgain (n : Nat) (reason : WaitReason) (s : State) : State :=
  { s with ranks := s.ranks.modify n fun k => { k with state := .parked reason } }

/-- The rank at a place in age order becomes FREE, and ORDER ends for the next rank of its initiator (R117, R123). -/
def freeRank (n : Nat) (i : InitiatorId) (s : State) : State :=
  { s with ranks := endOrder i (s.ranks.eraseIdx n) }

/-- Every rank that `p` selects is answered without data, in age order, and becomes FREE; ORDER ends for the ranks that
are then the oldest of the answered initiators (R125, R123). -/
def answerRanks (p : Rank → Bool) (status : ResponseStatus) (s : State) : State :=
  let answered := s.ranks.filter p
  { s with
    responses := s.responses ++ answered.map fun k => plainResponse k.request status false
    ranks := (answered.map fun k => k.request.initiator).foldl (fun ks i => endOrder i ks)
      (s.ranks.filter fun k => !p k) }

/-! ## TLU: the Translation Cache -/

/-- Whether a cached translation is of a tile. -/
def cacheKey (w : WindowId) (tile : Nat) (c : CacheEntry) : Bool := decide (c.window = w ∧ c.tile = tile)

/-- The valid entry of a tile, if any (R21). -/
def findCache (w : WindowId) (tile : Nat) (s : State) : Option CacheEntry :=
  (s.cache.toList.filterMap id).find? (cacheKey w tile)

/-- Every valid entry that `p` selects is invalidated; the pointer keeps its value (R27). -/
def dropCache (p : CacheEntry → Bool) (s : State) : State :=
  { s with cache := Vector.ofFn fun i => s.cache[i].filter fun c => !p c }

/-- The whole Translation Cache is invalidated; the pointer keeps its value (R27). -/
def flushEntries (s : State) : State := { s with cache := Vector.replicate 32 none }

/-- The number of the valid entry of a tile. -/
def cacheSlotOf (w : WindowId) (tile : Nat) (s : State) : Option (Fin 32) :=
  (List.finRange 32).find? fun i => s.cache[i].any (cacheKey w tile)

/-- The lowest-numbered invalid entry. -/
def lowestInvalid (s : State) : Option (Fin 32) :=
  (List.finRange 32).find? fun i => s.cache[i].isNone

/-- The entry that a fill of a tile goes to: the tile's own valid entry, else the lowest invalid entry, else the entry at
the round-robin pointer (R25). -/
def fillVictim (w : WindowId) (tile : Nat) (s : State) : Fin 32 :=
  match cacheSlotOf w tile s with
  | some i => i
  | none => (lowestInvalid s).getD s.cachePointer

/-- The pointer after a fill of a tile: it advances, from 31 to 0, just when the victim was taken at it (R25). -/
def pointerAfterFill (w : WindowId) (tile : Nat) (s : State) : Fin 32 :=
  if (cacheSlotOf w tile s).isSome || (lowestInvalid s).isSome then s.cachePointer else s.cachePointer + 1

/-- A fill places a committed translation in the cache (R25). -/
def fillCache (c : CacheEntry) (s : State) : State :=
  { s with
    cache := s.cache.set (fillVictim c.window c.tile s) (some c)
    cachePointer := pointerAfterFill c.window c.tile s }

/-- A completed publish write updates the tile's valid entry to the new frame and the saved W and SW (R26). -/
def publishToCache (e : ChangeEntry) (s : State) : State :=
  { s with cache := Vector.ofFn fun i => s.cache[i].map fun c =>
      if cacheKey e.window e.tile c then
        { c with frame := e.newFrame, writable := e.savedW, sw := e.savedSw }
      else c }

/-! ## EPU: the Change Table -/

/-- Whether a change entry is of a tile. -/
def changeKey (w : WindowId) (tile : Nat) (e : ChangeEntry) : Bool := decide (e.window = w ∧ e.tile = tile)

/-- The change entry of a tile, by its key; the domain is not compared (R20, R45). -/
def findChange (w : WindowId) (tile : Nat) (s : State) : Option ChangeEntry := s.changes.find? (changeKey w tile)

/-- Whether an entry is in COPYING. -/
def isCopying (e : ChangeEntry) : Bool :=
  match e.state with
  | .copying _ => true
  | .live | .published => false

/-- Whether an entry is LIVE. -/
def isLive (e : ChangeEntry) : Bool := decide (e.state = .live)

/-- The entries of a domain. -/
def entriesOf (d : DomainId) (s : State) : List ChangeEntry := s.changes.filter fun e => decide (e.domain = d)

/-- An entry is placed among entries in ascending sequence number. -/
def insertBySequence (e : ChangeEntry) : List ChangeEntry → List ChangeEntry
  | [] => [e]
  | x :: xs => if e.sequence ≤ x.sequence then e :: x :: xs else x :: insertBySequence e xs

/-- Entries in ascending sequence number (R45). -/
def bySequence : List ChangeEntry → List ChangeEntry
  | [] => []
  | e :: es => insertBySequence e (bySequence es)

/-- The state of the entries of a tile is set. -/
def setEntryState (w : WindowId) (tile : Nat) (st : EntryState) (s : State) : State :=
  { s with changes := s.changes.map fun e => if changeKey w tile e then { e with state := st } else e }

/-- Whether a frame is the new frame of an entry in COPYING or LIVE (R35). -/
def isUnpublishedFrame (f : Frame) (s : State) : Bool :=
  s.changes.any fun e => decide (e.newFrame = f) && decide (e.state ≠ .published)

/-! ## FAL: the Free Frame Queue -/

/-- Frames join the queue at its tail, in order (R106). -/
def appendFrames (fs : List Frame) (s : State) : State := { s with freeFrames := s.freeFrames ++ fs }

/-- The queue loses its head. The allocation that brings the free count from the pool threshold to one below it sets
POOL_LOW (R105). -/
def takeFrame (s : State) : State :=
  { s with
    freeFrames := s.freeFrames.tail
    latches := if s.freeFrames.length = s.poolThreshold then s.latches ||| alertMask .poolLow else s.latches }

/-! ## CPE: copy slots -/

/-- What a copy slot can send: the read of a chunk, or the write of one whose bytes it holds (R109). -/
inductive CopyAction
  | readChunk (number : Nat)
  | writeChunk (number : Nat) (data : Chunk)
deriving DecidableEq, Repr

/-- The lowest-numbered chunk whose read has completed and whose write is not sent, with its bytes (R109). -/
def lowestHeld : List ChunkInProgress → Option (Nat × Chunk)
  | [] => none
  | c :: cs =>
    match c.phase, lowestHeld cs with
    | .held data, some (k, other) => if c.number ≤ k then some (c.number, data) else some (k, other)
    | .held data, none => some (c.number, data)
    | .reading _, rest | .writing _ _, rest | .ended, rest => rest

/-- The ready operation of a slot: a held chunk's write first, else the next read while fewer than two chunks are in
progress; a STOPPING slot has none (R109, R112). -/
def readyOperation (c : CopyJob) : Option CopyAction :=
  if c.stopping then none
  else
    match lowestHeld c.chunks with
    | some (k, data) => some (.writeChunk k data)
    | none =>
      if c.chunks.length < 2 ∧ c.nextRead < Config.chunksPerTile then some (.readChunk c.nextRead) else none

/-- A slot waits for the memory port while it has an operation ready (R156). -/
def slotWaits (k : SlotId) (s : State) : Bool := (s.slots[k].bind readyOperation).isSome

/-- The Copy Engine waits while at least one slot does (R156). -/
def copyWaits (s : State) : Bool := slotWaits 0 s || slotWaits 1 s

/-- The link tag of a chunk's outstanding operation, if it has one. -/
def chunkTag (c : ChunkInProgress) : Option LinkTag :=
  match c.phase with
  | .reading tag | .writing tag _ => some tag
  | .held _ | .ended => none

/-- The number of a slot's operations granted and not yet completed (Table 6-2). -/
def outstandingChunks (c : CopyJob) : Nat := c.chunks.countP fun k => (chunkTag k).isSome

/-- One slot is set. -/
def setSlot (k : SlotId) (c : Option CopyJob) (s : State) : State := { s with slots := s.slots.set k c }

/-- The slot that a new entry is bound to: slot 0 when it is free, else slot 1 (R58). -/
def freeSlot (s : State) : Option SlotId :=
  if s.slots[(0 : SlotId)].isNone then some 0 else if s.slots[(1 : SlotId)].isNone then some 1 else none

/-- A copy at its start (R108). -/
def newCopy (w : WindowId) (tile : Nat) (source destination : Frame) : CopyJob :=
  { window := w, tile := tile, source := source, destination := destination, nextRead := 0, chunks := [],
    progress := 0, stopping := false }

/-- The starvation counter returns to 0 in an event in which the Copy Engine stops waiting (R157): `before` is the state
in which the event was taken. -/
def settleStarvation (before s : State) : State :=
  { s with starvation := if copyWaits before && !copyWaits s then 0 else s.starvation }

/-! ## MWK: the Map Walker -/

/-- Whether a walk job is of a tile. -/
def jobKey (w : WindowId) (tile : Nat) (j : WalkJob) : Bool := decide (j.window = w ∧ j.tile = tile)

/-- A walk job of a tile is posted, unless the walk list holds one (R23, R30). -/
def postWalk (w : WindowId) (tile : Nat) (s : State) : State :=
  { s with walkJobs :=
      if s.walkJobs.any (jobKey w tile) then s.walkJobs
      else s.walkJobs ++ [{ window := w, tile := tile, mapAddress := mapEntryAddress s.windows[w] tile,
                            domain := s.windows[w].domain, status := .pending }] }

/-- Whether an entry's sequence number lies above a publication cursor (R32). -/
def aboveCursor (cursor : Option Nat) (e : ChangeEntry) : Bool :=
  match cursor with
  | none => true
  | some n => decide (n < e.sequence)

/-- The entry of a publication's next write: the LIVE entry with the smallest sequence number above the cursor (R32). -/
def nextPublish (p : Publication) (s : State) : Option ChangeEntry :=
  (bySequence ((entriesOf p.domain s).filter fun e => isLive e && aboveCursor p.cursor e)).head?

/-- The link tag of an issued walk, if it is issued. -/
def walkTag (j : WalkJob) : Option LinkTag :=
  match j.status with
  | .issued tag => some tag
  | .pending => none

/-- The Map Walker has a memory operation outstanding (R31). -/
def walkerBusy (s : State) : Bool := s.publishWrite.isSome || s.walkJobs.any fun j => (walkTag j).isSome

/-! ## MPU: link tags -/

/-- The link tag of a transit entry, if its operation is SENT (Table 10-2). -/
def transitTag (e : TransitEntry) : Option LinkTag :=
  match e.state with
  | .sent tag => some tag
  | .waiting => none

/-- The link tags of the operations that the part has outstanding, under the Map Walker, the transit entries and the copy
slots (R154). -/
def outstandingTags (s : State) : List LinkTag :=
  s.walkJobs.filterMap walkTag ++ s.publishWrite.toList.map (·.tag) ++ s.transit.filterMap transitTag ++
    s.slots.toList.flatMap fun c => (c.toList.flatMap (·.chunks)).filterMap chunkTag

/-- A link tag is held by an operation on the memory link: one that the part has outstanding (R154), or one that a
power-on or pin reset abandoned and whose completion has not returned (R161; log entry 5). -/
def tagHeld (tag : LinkTag) (s : State) : Bool := (outstandingTags s).contains tag || s.abandoned.contains tag

/-- The completion of an abandoned operation has returned: its link tag is given up, and it is not acted on (R116, R151,
R161). -/
def dropAbandoned (tag : LinkTag) (s : State) : State :=
  { s with abandoned := s.abandoned.filter fun t => !decide (t = tag) }

/-! ## MGP -/

/-- The last-write status is set (R175). -/
def setLastWrite (status : WriteStatus) (s : State) : State := { s with lastWrite := status }

/-- The command result word takes a result and the code written (R176). -/
def setResult (result : ResultCode) (code : Byte) (s : State) : State :=
  { s with commandResult := { result := result, code := code } }

/-- The upstream port accepts requests while fewer than 8 ranks are occupied and no soft reset drains (R126, R142). -/
def accepting (s : State) : Bool := decide (s.ranks.length < Config.holdRanks) && !s.draining

end Sys2Proof.Machine
end

