-- ==== Sys2Proof/Machine/Epoch.lean ====
section
/-! DEFINITION. The Epoch Unit's transitions (Table 3-3): entry into OPEN, the phases of a commit (Chapter 4) and of a
rollback (Chapter 5), and the causes that move a domain. Each transition is whole: a phase that completes in the event
that enters it is completed here. -/

namespace Sys2Proof.Machine

/-- A domain enters OPEN: the epoch number advances, the sequence numbers start again, and the deadline is loaded
(R43, R44, R78, R163). -/
def enterOpen (d : DomainId) (s : State) : State :=
  loadDeadline d
    (modifyDomain d (fun r => { r with state := .opened, epoch := r.epoch + 1, nextSequence := 0,
                                       sequenceSpent := false }) s)

/-- Every entry of a domain is made free and its entry count becomes 0 (R77, R94). -/
def freeEntries (d : DomainId) (s : State) : State :=
  modifyDomain d (fun r => { r with entryCount := 0 })
    { s with changes := s.changes.filter fun e => !decide (e.domain = d) }

/-- The old frames of a domain's entries in ascending sequence number (R77). -/
def releasedFrames (d : DomainId) (s : State) : List Frame := (bySequence (entriesOf d s)).map (·.oldFrame)

/-- The new frames of a domain's entries in descending sequence number (R94). -/
def discardedFrames (d : DomainId) (s : State) : List Frame :=
  (bySequence (entriesOf d s)).reverse.map (·.newFrame)

/-- COMMITTING.RELEASE, whole: the old frames return, the entries are freed, COMMIT_DONE is set, the domain is CLOSED or
OPEN again, and its DOMAIN waits end (R77, R78). -/
def releaseDomain (d : DomainId) (s : State) : State :=
  let s₁ := setLatch (.commitDone d) (freeEntries d (appendFrames (releasedFrames d s) s))
  let s₂ := if (settingsOf d s).autoReopen then enterOpen d s₁ else setDomainState d .closed s₁
  endDomainWaits d s₂

/-- ROLLING_BACK.DISCARD, whole: the new frames return, the entries are freed, ROLLBACK_DONE is set, the domain is
CLOSED, and its DOMAIN waits end (R94). -/
def discardDomain (d : DomainId) (s : State) : State :=
  endDomainWaits d
    (setDomainState d .closed
      (setLatch (.rollbackDone d) (freeEntries d (appendFrames (discardedFrames d s) s))))

/-- A domain enters FAULTED (R79). Its place in the publication order is given up where the pass ends. -/
def enterFaulted (d : DomainId) (s : State) : State :=
  endDomainWaits d (setLatch (.domainFaulted d) (setDomainState d .faulted s))

/-- The outcome of a publication pass: FAULTED when an entry of the domain is still LIVE, RELEASE otherwise (R76). -/
def endPass (d : DomainId) (s : State) : State :=
  if (entriesOf d s).any isLive then enterFaulted d s else releaseDomain d s

/-- A domain enters COMMITTING.PUBLISH: it joins the publication order behind every domain already there, or, with no
LIVE entry, its pass ends at once (R72, R32). Its deadline counter is stopped (R164). -/
def enterPublish (d : DomainId) (s : State) : State :=
  let s₁ := stopDeadline d (setDomainState d (.committing .publish) s)
  if (entriesOf d s).any isLive then
    { s₁ with publication := s₁.publication ++ [{ domain := d, cursor := none }] }
  else endPass d s₁

/-- The commit's DRAIN condition: no COPYING entry and no WRITE transit entry of the domain (R69). -/
def commitDrained (d : DomainId) (s : State) : Bool :=
  !((entriesOf d s).any isCopying) && !(s.transit.any fun e => decide (e.kind = .write ∧ e.domain = some d))

/-- The rollback's DRAIN condition: no COPYING entry and no transit entry of the domain (R90). -/
def rollbackDrained (d : DomainId) (s : State) : Bool :=
  !((entriesOf d s).any isCopying) && !(s.transit.any fun e => decide (e.domain = some d))

/-- The Epoch Unit tests a commit's DRAIN condition; a domain that leaves DRAIN for PUBLISH ends its DOMAIN waits
(R69, R53). -/
def testCommitDrain (d : DomainId) (s : State) : State :=
  if domainState d s = .committing .drain ∧ commitDrained d s then enterPublish d (endDomainWaits d s) else s

/-- The Epoch Unit tests a rollback's DRAIN condition; a domain that leaves DRAIN completes DISCARD (R90, R94). -/
def testRollbackDrain (d : DomainId) (s : State) : State :=
  if domainState d s = .rollingBack ∧ rollbackDrained d s then discardDomain d s else s

/-- The Epoch Unit tests the DRAIN condition of whichever kind the domain waits for (R111, R113). -/
def testDrain (d : DomainId) (s : State) : State :=
  match domainState d s with
  | .committing .drain => testCommitDrain d s
  | .rollingBack => testRollbackDrain d s
  | .closed | .opened | .marked | .committing .publish | .faulted => s

/-- A domain enters COMMITTING.DRAIN: its deadline counter stops and its DRAIN condition is tested (R68). -/
def enterCommit (d : DomainId) (s : State) : State :=
  testCommitDrain d (stopDeadline d (setDomainState d (.committing .drain) s))

/-- A domain enters ROLLING_BACK.DRAIN: its deadline counter stops and its DRAIN condition is tested (R89). -/
def enterRollback (d : DomainId) (s : State) : State :=
  testRollbackDrain d (stopDeadline d (setDomainState d .rollingBack s))

/-- A cause of commit other than a command: it moves a domain that is OPEN or MARKED (R42, R165). -/
def causeCommit (d : DomainId) (s : State) : State := if inEpoch d s then enterCommit d s else s

/-- A cause of rollback other than a command: it moves a domain that is OPEN or MARKED (R42, R86, R87, R56). -/
def causeRollback (d : DomainId) (s : State) : State := if inEpoch d s then enterRollback d s else s

/-- A violation report: it starts a rollback when the domain's violation-abort is on (R87, R141). -/
def reportViolation (d : DomainId) (s : State) : State :=
  if (settingsOf d s).violationAbort then causeRollback d s else s

/-- An overflow: it starts a rollback when the domain's overflow policy is ROLLBACK (R56). -/
def reportOverflow (d : DomainId) (s : State) : State :=
  if (settingsOf d s).overflow = .rollback then causeRollback d s else s

/-! ## The end of a copy (R111, R113) -/

/-- A copy has completed: its entry becomes LIVE, its slot IDLE, the COPY waits bound to it and every SLOT wait end, and
the DRAIN condition of the entry's domain is tested (R111). -/
def completeCopy (k : SlotId) (c : CopyJob) (s : State) : State :=
  let s₁ := setSlot k none (setEntryState c.window c.tile .live s)
  let s₂ := endWaits (parkedOn .slot) (endWaits (parkedOn (.copy c.window c.tile)) s₁)
  match findChange c.window c.tile s with
  | some e => testDrain e.domain s₂
  | none => s₂

/-- The entry of a failed copy is removed, its domain's entry count falls by one, and its new frame joins the queue
(R113, steps 1 and 2). -/
def removeEntry (e : ChangeEntry) (s : State) : State :=
  appendFrames [e.newFrame]
    (modifyDomain e.domain (fun r => { r with entryCount := r.entryCount - 1 })
      { s with changes := s.changes.eraseP (changeKey e.window e.tile) })

/-- The failure of a copy is finished: its entry is removed, its waiters are answered FAILED, COPY_FAILED is reported,
its slot becomes IDLE, every SLOT wait ends, and the DRAIN condition of the entry's domain is tested (R113). -/
def failCopy (k : SlotId) (c : CopyJob) (s : State) : State :=
  match findChange c.window c.tile s with
  | some e =>
    let s₁ := answerRanks (parkedOn (.copy c.window c.tile)) .failed (removeEntry e s)
    let address := tileAddress s.windows[c.window] c.tile
    let s₂ := reportFault (internalFault .copyFailed address c.window e.domain s₁) s₁
    testDrain e.domain (endWaits (parkedOn .slot) (setSlot k none s₂))
  | none => endWaits (parkedOn .slot) (setSlot k none s)

end Sys2Proof.Machine
end

