-- ==== Sys2Proof/Machine/Translation.lean ====
section
/-! DEFINITION. Translation and issue: the routing of a piece by domain state (Chapter 3), the lookup (Chapter 2), the
first write to a tile (R54 to R59), the claim of transit entries (R146), and RANK_LEAVE (R124). -/

namespace Sys2Proof.Machine

/-- The outcome of a piece's translation (R18). -/
inductive PieceOutcome
  | forward (address : Address)
  | park (reason : WaitReason)
  | refuse (code : FaultCode)
deriving DecidableEq, Repr

/-- A domain's sequence number and entry count after it takes an entry (R47). -/
def takeSequence (r : DomainRecord) : DomainRecord :=
  { r with
    entryCount := r.entryCount + 1
    nextSequence := if r.nextSequence < 255 then r.nextSequence + 1 else r.nextSequence
    sequenceSpent := r.sequenceSpent || !decide (r.nextSequence < 255) }

/-- A change entry of a tile is created in COPYING with a slot bound, a frame is taken, the cache loses every entry that
holds the new frame, and the copy starts (R58, R59, R28, R105, R108). -/
def createEntry (d : DomainId) (c : CacheEntry) (f : Frame) (k : SlotId) (s : State) : State :=
  let entry : ChangeEntry :=
    { domain := d, window := c.window, tile := c.tile, oldFrame := c.frame, newFrame := f, savedW := c.writable,
      savedSw := c.sw, sequence := s.domains[d].nextSequence, state := .copying k }
  let s₁ := modifyDomain d takeSequence (takeFrame { s with changes := s.changes ++ [entry] })
  setSlot k (some (newCopy c.window c.tile c.frame f)) (dropCache (fun e => decide (e.frame = f)) s₁)

/-- The quota check: the entry count is below the quota and the sequence is not spent (R54). -/
def quotaHolds (r : DomainRecord) : Bool := decide (r.entryCount < r.settings.quota) && !r.sequenceSpent

/-- The first write to a tile: the quota, table and pool checks in order, then the slot test, then the creation of the
entry, on whose copy the write waits (R54, R55, R57, R58). -/
def firstWrite (d : DomainId) (c : CacheEntry) (s : State) : PieceOutcome × State :=
  if !quotaHolds s.domains[d] then (.refuse .journalFull, s)
  else if s.changes.length ≥ Config.changeEntries then (.refuse .journalFull, s)
  else
    match s.freeFrames with
    | [] => (.refuse .poolEmpty, s)
    | f :: _ =>
      match freeSlot s with
      | none => (.park .slot, s)
      | some k => (.park (.copy c.window c.tile), createEntry d c f k s)

/-- A write in a CLOSED domain that has its committed translation: to the committed frame, or refused (R48). -/
def closedWrite (d : DomainId) (p : Piece) (c : CacheEntry) (s : State) : PieceOutcome × State :=
  match (settingsOf d s).closedWrite with
  | .allow => (.forward (frameAddress c.frame p.offset), s)
  | .refuse => (.refuse .closedWrite, s)

/-- A piece that found a change entry: a COPYING entry sends a read to the old frame and makes a write wait; a LIVE or
PUBLISHED entry sends both to the new frame (R20). -/
def routeChanged (kind : Kind) (p : Piece) (e : ChangeEntry) : PieceOutcome :=
  match e.state, kind with
  | .copying _, .read => .forward (frameAddress e.oldFrame p.offset)
  | .copying _, .write => .park (.copy e.window e.tile)
  | .live, _ | .published, _ => .forward (frameAddress e.newFrame p.offset)

/-- The lookup of a piece: the Change Table, then the Translation Cache, then a walk (R20, R21, R23). A write that has a
committed translation passes the W check (R22) and then goes where its domain's state sends it. -/
def lookup (kind : Kind) (w : WindowId) (p : Piece) (onWrite : CacheEntry → State → PieceOutcome × State)
    (s : State) : PieceOutcome × State :=
  match findChange w p.tile s with
  | some e => (routeChanged kind p e, s)
  | none =>
    match findCache w p.tile s with
    | none => (.park (.walk w p.tile), postWalk w p.tile s)
    | some c =>
      match kind with
      | .read => (.forward (frameAddress c.frame p.offset), s)
      | .write => if c.writable then onWrite c s else (.refuse .tileReadonly, s)

/-- The translation of one piece: the domain state is tested first (R18, R48 to R52). -/
def translatePiece (kind : Kind) (w : WindowId) (d : DomainId) (p : Piece) (s : State) : PieceOutcome × State :=
  match domainState d s, kind with
  | .closed, _ => lookup kind w p (closedWrite d p) s
  | .opened, _ | .marked, _ => lookup kind w p (firstWrite d) s
  | .committing _, .read => lookup .read w p (fun _ s' => (.park .domain, s')) s
  | .committing _, .write => (.park .domain, s)
  | .rollingBack, _ => (.park .domain, s)
  | .faulted, _ => (.refuse .domainFaulted, s)

/-- What the translation of a request decides (R19): its pieces with their memory addresses, or a wait, or a refusal. -/
inductive Verdict
  | forward (targets : List (Piece × Address))
  | park (reason : WaitReason)
  | refuse (code : FaultCode)
deriving DecidableEq, Repr

/-- The translation of a request's pieces, in address order; the first piece that is not forwardable decides the request
and the pieces after it are not translated (R18, R19, R62). -/
def translatePieces (kind : Kind) (w : WindowId) (d : DomainId) : List Piece → State → Verdict × State
  | [], s => (.forward [], s)
  | p :: ps, s =>
    match translatePiece kind w d p s with
    | (.park reason, s₁) => (.park reason, s₁)
    | (.refuse code, s₁) => (.refuse code, s₁)
    | (.forward a, s₁) =>
      match translatePieces kind w d ps s₁ with
      | (.forward targets, s₂) => (.forward ((p, a) :: targets), s₂)
      | (.park reason, s₂) => (.park reason, s₂)
      | (.refuse code, s₂) => (.refuse code, s₂)

/-- The evaluation of a request from translation onward: only a request in a JOURNALED window is translated (R5, R6,
R124). -/
def evaluate (r : Request) (dec : Decoded) (s : State) : Verdict × State :=
  match dec.region with
  | .journaled w d => translatePieces r.kind w d dec.pieces s
  | .outside | .pass _ | .guarded _ => (.forward (dec.pieces.map fun p => (p, p.address)), s)

/-! ## Consequences of a refusal -/

/-- An Initiator Table entry after a violation: BLOCKED under policy BLOCK, as it was under policy REFUSE (R139). -/
def afterViolation (e : InitiatorEntry) : InitiatorEntry :=
  match e.policy with
  | .refuse => e
  | .block => { e with state := .blocked }

/-- The initiator's violation policy is applied (R139). -/
def applyPolicy (i : InitiatorId) (s : State) : State :=
  { s with initiators := s.initiators.set i (afterViolation s.initiators[i]) }

/-- The consequences of a violation besides the refusal and its report: the initiator's policy, and the hand-off of a
write in a JOURNALED window to the Epoch Unit (R139, R141). -/
def takeViolation (r : Request) (region : Region) (s : State) : State :=
  let s₁ := applyPolicy r.initiator s
  match r.kind, region with
  | .write, .journaled _ d => reportViolation d s₁
  | .write, .outside | .write, .pass _ | .write, .guarded _ | .read, _ => s₁

/-- A request is refused at translation: it is answered REFUSED, its fault is reported, and a violation or an overflow
has its consequences (R19, R22, R48, R52, R55, R56). -/
def refuseTranslated (r : Request) (region : Region) (code : FaultCode) (s : State) : State :=
  let s₁ := sendResponse (plainResponse r .refused false) s
  let s₂ := reportFault (requestFault code r (regionWindow region) (regionDomain region) s₁) s₁
  let s₃ := if isViolation code then takeViolation r region s₂ else s₂
  match regionDomain region with
  | some d => if isOverflow code then reportOverflow d s₃ else s₃
  | none => s₃

/-! ## Issue (R146, R147) -/

/-- The transit entry that a piece claims (R146, R147). -/
def transitEntry (r : Request) (region : Region) (target : Piece × Address) : TransitEntry :=
  { initiator := r.initiator, tag := r.tag, place := target.1.place, kind := r.kind, burst := r.burst,
    count := target.1.count, domain := regionDomain region, window := regionWindow region,
    upstreamAddress := target.1.address, memoryAddress := target.2,
    beats := (r.beats.drop target.1.skip).take target.1.count, state := .waiting }

/-- A request claims one transit entry for each piece, piece 1's the older, or none when too few are free (R146). -/
def claimEntries (r : Request) (region : Region) (targets : List (Piece × Address)) (s : State) : State :=
  { s with transit := s.transit ++ targets.map (transitEntry r region) }

/-- What becomes of a request at its evaluation: the reason it parks for, or none when it has been issued or refused
(R19, R124, R146). -/
def settle (r : Request) (dec : Decoded) (s : State) : Option WaitReason × State :=
  match evaluate r dec s with
  | (.forward targets, s₁) =>
    if s₁.transit.length + targets.length ≤ Config.transitEntries then
      (none, claimEntries r dec.region targets s₁)
    else (some .transit, s₁)
  | (.park reason, s₁) => (some reason, s₁)
  | (.refuse code, s₁) => (none, refuseTranslated r dec.region code s₁)

/-- A rank leaves: its request is evaluated from translation onward, and the rank becomes FREE or is parked again with
its age kept (R124). -/
def leaveRank (n : Nat) (k : Rank) (s : State) : State :=
  match settle k.request k.decoded s with
  | (none, s₁) => freeRank n k.request.initiator s₁
  | (some reason, s₁) => parkAgain n reason s₁

/-- RANK_LEAVE (R124): the rank at a place in age order, the oldest being 0, leaves if it is ELIGIBLE; there is no such
event for a rank that is FREE or PARKED (log entry 2). -/
def execRankLeave (n : Nat) (s : State) : Host.Outcome State Fault Refusal :=
  match s.ranks[n]? with
  | none => .next s
  | some k =>
    match k.state with
    | .eligible => .next (leaveRank n k s)
    | .parked _ => .next s

end Sys2Proof.Machine
end

