-- ==== Sys2Proof/WellFormed.lean ====
section
/-! DEFINITION. Which commands are well-formed: the ranges of the operands that the links and the management port can
carry (Table 9-1, R142, Table 12-5, Table 12-6). -/

namespace Sys2Proof

/-- A request that the upstream link can carry: 1 to 16 beats, and for a WRITE as many write beats as its length
(Table 9-1, R142). -/
def Request.wellFormed (r : Request) : Bool :=
  decide (1 ≤ r.length) && decide (r.length ≤ 16) &&
    (match r.kind with
     | .read => r.beats.isEmpty
     | .write => r.beats.length == r.length)

/-- A command that its row of the table describes: the request is one the link can carry, the rank is one of the eight,
a completion carries no more beats than a request has and a FAILED one none (R154), an unknown
command's word names no command, and an "other" setting write's offset belongs to no other row. -/
def Instr.wellFormed : Instr → Bool
  | .upstreamRequest r => r.wellFormed
  | .rankLeave k => decide (k < Config.holdRanks)
  | .transitCompletion _ status beats => decide (beats.length ≤ 16 ∧ (status = .failed → beats = []))
  | .unknownCommand word => commandOf word == .unknownCommand word
  | .settingWrite offset data => writeRow offset data == .settingWrite offset data
  | .powerOnReset _ | .resetNPinReset _ | .memoryPortGrant _ | .walkCompletion _ _ _ | .publishWriteCompletion _ _
  | .chunkCompletion _ _ _ | .tick _ | .deadlineExpiry _ | .markEvent _ | .openDomain _ | .commit _ | .commitAtMark _
  | .rollback _ | .poolLoad | .flushCache | .clearFault | .resetAll | .windowSettingWrite _ _ _
  | .domainSettingWrite _ _ _ | .initiatorSettingWrite _ _ _ | .poolThresholdWrite _ | .timebaseAndEdgeWrite _
  | .alertLatchesWrite _ | .alertEnablesWrite _ | .softResetDrainEnd | .epochLineInactiveChange => true

end Sys2Proof
end

