-- ==== Sys2Proof/Machine/Intake.lean ====
section
/-! DEFINITION. UPSTREAM_REQUEST: the intake of a request in its arrival event (R133, R142), the map snoop (R12 to R14),
the ordering test (R119) and the first evaluation. -/

namespace Sys2Proof.Machine

/-- The bounds check fails: the first byte is below the low bound, or the last byte at or above the high bound (R137). -/
def outOfBounds (r : Request) (s : State) : Bool :=
  decide (firstByte r < lowBound s.initiators[r.initiator]) ||
    decide (highBound s.initiators[r.initiator] ≤ lastByte r)

/-- The guarded-write check fails (R6). -/
def guardedWrite (r : Request) (region : Region) : Bool :=
  match r.kind, region with
  | .write, .guarded _ => true
  | .write, .outside | .write, .pass _ | .write, .journaled _ _ | .read, _ => false

/-- The domain-write check fails: the domain's bit of the mask is clear (R138). -/
def domainDenied (r : Request) (region : Region) (s : State) : Bool :=
  match r.kind, region with
  | .write, .journaled _ d => !s.initiators[r.initiator].mask.getLsbD d.val
  | .write, .outside | .write, .pass _ | .write, .guarded _ | .read, _ => false

/-- The lowest-numbered window whose map area a write overlaps and whose domain is not CLOSED (R14). -/
def busyWindow (r : Request) (s : State) : Option WindowId :=
  match r.kind with
  | .read => none
  | .write =>
    (overlappedWindows s.windows r).find? fun w => decide (domainState s.windows[w].domain s ≠ .closed)

/-- The window and domain that a refusal at intake names (R133, R14). -/
structure IntakeRefusal where
  code : FaultCode
  window : Option WindowId
  domain : Option DomainId
deriving DecidableEq, Repr

/-- A refusal that names the request's decode result (R133). -/
def refusalIn (code : FaultCode) (region : Region) : IntakeRefusal :=
  { code := code, window := regionWindow region, domain := regionDomain region }

/-- The access checks of a decoded request, the fourth to the seventh (Table 8-2). -/
def accessChecks (r : Request) (region : Region) (s : State) : Option IntakeRefusal :=
  if outOfBounds r s then some (refusalIn .bounds region)
  else if guardedWrite r region then some (refusalIn .guardedWrite region)
  else if domainDenied r region s then some (refusalIn .domainDenied region)
  else
    (busyWindow r s).map fun w =>
      { code := .mapBusy, window := some w, domain := some s.windows[w].domain }

/-- The intake checks in the order of Table 8-2: the first that fails decides the refusal (R133). -/
def intakeChecks (r : Request) (s : State) : Option IntakeRefusal :=
  if pairInUse r.initiator r.tag s then some { code := .dupTag, window := none, domain := none }
  else if s.initiators[r.initiator].state = .blocked then
    some { code := .initiatorBlocked, window := none, domain := none }
  else
    match decodeRequest s.windows r with
    | none => some { code := .span, window := none, domain := none }
    | some dec => accessChecks r dec.region s

/-- The region of a request, for the consequences of a violation; a violation has a decode result (R136). -/
def requestRegion (r : Request) (s : State) : Region :=
  match decodeRequest s.windows r with
  | some dec => dec.region
  | none => .outside

/-- A request is refused at intake: it is answered REFUSED at once, with DUP set for a duplicate pair, its fault is
reported, and a violation has its consequences (R133, R134, R139). -/
def refuseIntake (r : Request) (f : IntakeRefusal) (s : State) : State :=
  let s₁ := sendResponse (plainResponse r .refused (decide (f.code = .dupTag))) s
  let s₂ := reportFault (requestFault f.code r f.window f.domain s₁) s₁
  if isViolation f.code then takeViolation r (requestRegion r s) s₂ else s₂

/-- Whether a cached translation is of a tile whose map entry a write overlaps (R12, R13). -/
def snooped (r : Request) (s : State) (c : CacheEntry) : Bool :=
  isMapped s.windows[c.window] && (overlappedTiles s.windows[c.window] r).contains c.tile

/-- A write that passes the map snoop invalidates the cache entries of the tiles whose map entries it overlaps (R13). -/
def snoopInvalidate (r : Request) (s : State) : State :=
  match r.kind with
  | .read => s
  | .write => dropCache (snooped r s) s

/-- A request that has passed intake: it parks with reason ORDER behind a rank of its initiator (R119), or is evaluated,
and takes a new rank when it must wait (R118). -/
def takeIn (r : Request) (dec : Decoded) (s : State) : State :=
  if hasRank r.initiator s then addRank { request := r, decoded := dec, state := .parked .order } s
  else
    match settle r dec s with
    | (none, s₁) => s₁
    | (some reason, s₁) => addRank { request := r, decoded := dec, state := .parked reason } s₁

/-- The arrival of a request (R133). -/
def arrive (r : Request) (s : State) : State :=
  match intakeChecks r s, decodeRequest s.windows r with
  | some f, _ => refuseIntake r f s
  | none, some dec => takeIn r dec (snoopInvalidate r s)
  | none, none => s

/-- UPSTREAM_REQUEST (R133, R142): the request is taken from the channel when the port is accepting and the request is
one the link carries with all its beats. Otherwise nothing is taken: the interconnect keeps what it has presented, and
presents it again (R126, R152; log entry 4). -/
def execUpstreamRequest (r : Request) (s : State) : Host.Outcome State Fault Refusal :=
  .next (if accepting s && r.wellFormed then arrive r s else s)

end Sys2Proof.Machine
end

