-- ==== Sys2Proof/Machine/Resets.lean ====
section
/-! DEFINITION. The resets (R178): POWER_ON_RESET, RESET_N_PIN_RESET, the RESET_ALL drain and SOFT_RESET_DRAIN_END. -/

namespace Sys2Proof.Machine

/-- Every block takes its power-on values. The EPOCH line's previous level is its level as the reset ends (R166). What
has already gone out on the response channel and the memory port stays sent, and the waiting commands stay waiting. The
operations that were outstanding on the memory link are abandoned: their completions have still to return (R116, R151,
R161). -/
def hardReset (cause : ResetCause) (line : Level) (s : State) : State :=
  { State.reset with
    lineLevel := line, resetCause := cause, abandoned := s.abandoned ++ outstandingTags s, responses := s.responses,
    portOperations := s.portOperations, pending := s.pending }

/-- Nothing is outstanding: no transit entry is WAITING or SENT, no copy slot is RUNNING or STOPPING, and the Map Walker
has no operation outstanding (R178). -/
def quiescent (s : State) : Bool :=
  s.transit.isEmpty && s.slots[(0 : SlotId)].isNone && s.slots[(1 : SlotId)].isNone && !walkerBusy s

/-- The end of a soft reset drain: every block takes its soft-reset values, the fault record and LOST are kept, the EPOCH
line's previous level is its level at that moment, and the reset cause becomes SOFT (R178, R169, R170). Nothing is
outstanding, and what an earlier power-on or pin reset abandoned stays abandoned (R161). -/
def endDrain (s : State) : State :=
  { State.reset with
    fault := s.fault, lost := s.lost, lineLevel := s.lineLevel, resetCause := .soft, abandoned := s.abandoned,
    responses := s.responses, portOperations := s.portOperations, pending := s.pending }

/-- The drain ends in the event in which nothing is outstanding any more (R178). -/
def endDrainIfDone (s : State) : State := if s.draining && quiescent s then endDrain s else s

/-- RESET_ALL is taken: intake stops, every rank is answered FAILED, oldest first, and the PENDING walk jobs leave
(R178, R129, R37). -/
def beginDrain (s : State) : State :=
  let s₁ := answerRanks (fun _ => true) .failed s
  { s₁ with draining := true, walkJobs := s₁.walkJobs.filter fun j => (walkTag j).isSome }

/-- POWER_ON_RESET (R178). -/
def execPowerOnReset (line : Level) (s : State) : Host.Outcome State Fault Refusal :=
  .next (hardReset .power line s)

/-- RESET_N_PIN_RESET (R178, R151, R161). -/
def execResetNPinReset (line : Level) (s : State) : Host.Outcome State Fault Refusal :=
  .next (hardReset .pin line s)

/-- SOFT_RESET_DRAIN_END (R178). The rule ends the drain in the very event that leaves nothing outstanding, and the
events that can do so end it themselves (`endDrainIfDone`); taken by itself, the step ends a drain that is due to end
and otherwise there is no such event (log entry 3). -/
def execSoftResetDrainEnd (s : State) : Host.Outcome State Fault Refusal :=
  .next (endDrainIfDone s)

end Sys2Proof.Machine
end

