-- ==== Sys2Proof/Machine/Management.lean ====
section
/-! DEFINITION. The management port's commands (R176) and setting writes (R175): OPEN, COMMIT, COMMIT_AT_MARK, ROLLBACK,
POOL_LOAD, FLUSH_CACHE, CLEAR_FAULT, RESET_ALL, UNKNOWN_COMMAND and the setting-write rows of the table. -/

namespace Sys2Proof.Machine

/-! ## Commands -/

/-- A command is taken: BUSY while a soft reset drains, else decided by its own rule; the result word takes the outcome
and the code written (R176, R178). -/
def takeCommand (code : Byte) (decide_ : State → ResultCode × State) (s : State) : State :=
  if s.draining then setResult .busy code s
  else setResult (decide_ s).1 code (decide_ s).2

/-- OPEN is decided: a CLOSED domain enters OPEN (R43, R41). -/
def decideOpen (d : DomainId) (s : State) : ResultCode × State :=
  match domainState d s with
  | .closed => (.done, enterOpen d s)
  | .opened | .marked | .committing _ | .rollingBack | .faulted => (.state, s)

/-- COMMIT is decided: OPEN and MARKED enter COMMITTING.DRAIN, FAULTED returns to PUBLISH (R65, R68, R81). -/
def decideCommit (d : DomainId) (s : State) : ResultCode × State :=
  match domainState d s with
  | .opened | .marked => (.done, enterCommit d s)
  | .faulted => (.done, enterPublish d s)
  | .closed | .committing _ | .rollingBack => (.state, s)

/-- COMMIT_AT_MARK is decided: OPEN enters MARKED, MARKED stays (R66). -/
def decideCommitAtMark (d : DomainId) (s : State) : ResultCode × State :=
  match domainState d s with
  | .opened => (.done, setDomainState d .marked s)
  | .marked => (.done, s)
  | .closed | .committing _ | .rollingBack | .faulted => (.state, s)

/-- ROLLBACK is decided: OPEN and MARKED enter ROLLING_BACK.DRAIN (R85, R89). -/
def decideRollback (d : DomainId) (s : State) : ResultCode × State :=
  match domainState d s with
  | .opened | .marked => (.done, enterRollback d s)
  | .closed | .committing _ | .rollingBack | .faulted => (.state, s)

/-- The base of a POOL_LOAD, from the argument words (R176). -/
def poolBase (s : State) : Address := s.argument1.extractLsb' 0 8 ++ s.argument0

/-- The count of a POOL_LOAD, from argument word 1 (R176). -/
def poolCount (s : State) : Nat := (s.argument1.extractLsb' 16 13).toNat

/-- The argument check of POOL_LOAD: a count of 1 to 4096, an aligned base, and a last frame inside the address space
(R103). -/
def poolArgumentsHold (base : Address) (count : Nat) : Bool :=
  decide (1 ≤ count ∧ count ≤ Config.poolCapacity) && decide (base.extractLsb' 0 12 = 0#12) &&
    decide (base.toNat + 4096 * count ≤ 2 ^ 40)

/-- Every domain is CLOSED and the Change Table holds no entry (R103). -/
def poolIdle (s : State) : Bool :=
  (List.finRange 4).all (fun d => decide (domainState d s = .closed)) && s.changes.isEmpty

/-- The frames of a pool load, ascending from the base (R104). -/
def poolFrames (base : Address) (count : Nat) : List Frame :=
  (List.range count).map fun k => base.extractLsb' 12 28 + BitVec.ofNat 28 k

/-- POOL_LOAD is decided (R103, R104). -/
def decidePoolLoad (s : State) : ResultCode × State :=
  if !poolArgumentsHold (poolBase s) (poolCount s) then (.arg, s)
  else if !poolIdle s then (.busy, s)
  else (.done, { s with freeFrames := poolFrames (poolBase s) (poolCount s), poolSize := poolCount s })

/-- FLUSH_CACHE is decided (R177). -/
def decideFlushCache (s : State) : ResultCode × State := (.done, flushEntries s)

/-- CLEAR_FAULT is decided: the record and LOST are emptied, latch FAULT stays (R171). -/
def decideClearFault (s : State) : ResultCode × State := (.done, { s with fault := none, lost := false })

/-- RESET_ALL is decided: the drain begins (R178). -/
def decideResetAll (s : State) : ResultCode × State := (.done, beginDrain s)

/-- OPEN (R43). -/
def execOpen (d : DomainId) (s : State) : Host.Outcome State Fault Refusal :=
  .next (takeCommand 0x01 (decideOpen d) s)

/-- COMMIT (R65). -/
def execCommit (d : DomainId) (s : State) : Host.Outcome State Fault Refusal :=
  .next (takeCommand 0x02 (decideCommit d) s)

/-- COMMIT_AT_MARK (R66). -/
def execCommitAtMark (d : DomainId) (s : State) : Host.Outcome State Fault Refusal :=
  .next (takeCommand 0x03 (decideCommitAtMark d) s)

/-- ROLLBACK (R85). -/
def execRollback (d : DomainId) (s : State) : Host.Outcome State Fault Refusal :=
  .next (takeCommand 0x04 (decideRollback d) s)

/-- POOL_LOAD (R103). -/
def execPoolLoad (s : State) : Host.Outcome State Fault Refusal := .next (takeCommand 0x10 decidePoolLoad s)

/-- FLUSH_CACHE (R177). -/
def execFlushCache (s : State) : Host.Outcome State Fault Refusal := .next (takeCommand 0x11 decideFlushCache s)

/-- CLEAR_FAULT (R171). -/
def execClearFault (s : State) : Host.Outcome State Fault Refusal := .next (takeCommand 0x12 decideClearFault s)

/-- RESET_ALL (R178): the drain may end in this very event, when nothing is outstanding. A RESET_ALL taken during a drain
is answered BUSY like every command. -/
def resetAll (s : State) : State := endDrainIfDone (takeCommand 0x1F decideResetAll s)

/-- RESET_ALL (R178). -/
def execResetAll (s : State) : Host.Outcome State Fault Refusal :=
  .next (if s.draining then takeCommand 0x1F decideResetAll s else resetAll s)

/-- A word written at the command offset (R176): it names a command, or it gets result ARG and nothing else changes. A
word that names no command is not a command to be answered BUSY (log entry 8). -/
def takeCommandWord (word : Word) (s : State) : Host.Outcome State Fault Refusal :=
  match commandOf word with
  | .openDomain d => execOpen d s
  | .commit d => execCommit d s
  | .commitAtMark d => execCommitAtMark d s
  | .rollback d => execRollback d s
  | .poolLoad => execPoolLoad s
  | .flushCache => execFlushCache s
  | .clearFault => execClearFault s
  | .resetAll => execResetAll s
  | _ => .next (setResult .arg (word.extractLsb' 0 8) s)

/-- UNKNOWN_COMMAND (R176). -/
def execUnknownCommand (word : Word) (s : State) : Host.Outcome State Fault Refusal := takeCommandWord word s

/-! ## Setting writes -/

/-- A setting write that is refused changes nothing but the last-write status (R175). -/
def refuseWrite (s : State) : State := setLastWrite .refused s

/-- A rank or a transit entry holds a request whose recorded decode result names a window (R15). -/
def windowInUse (w : WindowId) (s : State) : Bool :=
  s.ranks.any (fun k => decide (regionWindow k.decoded.region = some w)) ||
    s.transit.any fun e => decide (e.window = some w)

/-- A window is JOURNALED under a domain that is not CLOSED (R15). -/
def windowHeld (w : Window) (s : State) : Bool :=
  decide (w.kind = .journaled) && decide (domainState w.domain s ≠ .closed)

/-- A window setting write is accepted (R15): no soft reset drains, the window is not held before or after the write, and
a JOURNALED window is not in use. -/
def windowWriteHolds (w : WindowId) (new : Window) (s : State) : Bool :=
  !s.draining && !windowHeld s.windows[w] s &&
    !(decide (s.windows[w].kind = .journaled) && windowInUse w s) && !windowHeld new s

/-- A write to a window setting word (R15, R16). -/
def writeWindow (w : WindowId) (word : WindowWord) (data : Word) (s : State) : State :=
  match windowWith s.windows[w] word data with
  | none => refuseWrite s
  | some new =>
    if windowWriteHolds w new s then
      setLastWrite .accepted
        (dropCache (fun c => decide (c.window = w)) { s with windows := s.windows.set w new })
    else refuseWrite s

/-- A write to a domain setting word: accepted while the domain is CLOSED and no soft reset drains (R39). -/
def writeDomainSetting (d : DomainId) (word : DomainWord) (data : Word) (s : State) : State :=
  match settingsWith (settingsOf d s) word data with
  | none => refuseWrite s
  | some new =>
    if domainState d s = .closed ∧ s.draining = false then
      setLastWrite .accepted (modifyDomain d (fun r => { r with settings := new }) s)
    else refuseWrite s

/-- A write to an Initiator Table word (R132). -/
def writeInitiator (i : InitiatorId) (word : InitiatorWord) (data : Word) (s : State) : State :=
  match initiatorWith s.initiators[i] word data with
  | none => refuseWrite s
  | some new =>
    if s.draining then refuseWrite s
    else setLastWrite .accepted { s with initiators := s.initiators.set i new }

/-- A write of the pool threshold: 0 to 4096 (R107). -/
def writePoolThreshold (data : Word) (s : State) : State :=
  if s.draining = false ∧ data.toNat ≤ Config.poolCapacity then
    setLastWrite .accepted { s with poolThreshold := data.toNat }
  else refuseWrite s

/-- The value of the timebase and edge word (Table 12-5, offset 0x003C). -/
def edgeOfBit (b : Bool) : Edge := if b then .falling else .rising

/-- A write of the timebase and edge word: an accepted write restarts the divider (R162, R166). -/
def writeTimebase (data : Word) (s : State) : State :=
  if s.draining = false ∧ data &&& ~~~(0x10F#32) = 0#32 then
    setLastWrite .accepted
      { s with timebase := data.extractLsb' 0 4, divider := 0, edge := edgeOfBit (data.getLsbD 8) }
  else refuseWrite s

/-- A write to the alert latch word: it clears every latch whose position carries a one, in every state of the part,
a soft reset drain included (R172). -/
def writeLatches (data : Word) (s : State) : State :=
  if data &&& ~~~(0x3FFFF#32) = 0#32 then
    setLastWrite .accepted { s with latches := s.latches &&& ~~~(data.extractLsb' 0 18) }
  else refuseWrite s

/-- A write of the alert enable word, outside a soft reset drain (R172). -/
def writeEnables (data : Word) (s : State) : State :=
  if s.draining = false ∧ data &&& ~~~(0x3FFFF#32) = 0#32 then
    setLastWrite .accepted { s with enables := data.extractLsb' 0 18 }
  else refuseWrite s

/-- A write of command argument word 0 (R175). -/
def writeArgument0 (data : Word) (s : State) : State :=
  if s.draining then refuseWrite s else setLastWrite .accepted { s with argument0 := data }

/-- A write of command argument word 1: bits 7:0 and 28:16 (R175). -/
def writeArgument1 (data : Word) (s : State) : State :=
  if s.draining = false ∧ data &&& ~~~(0x1FFF00FF#32) = 0#32 then
    setLastWrite .accepted { s with argument1 := data }
  else refuseWrite s

/-- A WRITE frame at any offset but 0x0000: decided by the block that owns the word, and refused at a read-only word or
an offset that names none (R175). -/
def writeWord (offset : Offset) (data : Word) (s : State) : State :=
  match wordAt offset with
  | some .argument0 => writeArgument0 data s
  | some .argument1 => writeArgument1 data s
  | some .alertLatches => writeLatches data s
  | some .alertEnables => writeEnables data s
  | some .poolThreshold => writePoolThreshold data s
  | some .timebaseAndEdge => writeTimebase data s
  | some (.domainSettings d word) => writeDomainSetting d word data s
  | some (.window w word) => writeWindow w word data s
  | some (.initiator i word) => writeInitiator i word data s
  | some .command | some .commandResult | some .lastWriteStatus | some .resetCause | some (.faultRecord _)
  | some .poolStatus | some .markAndOccupancy | some (.domainStatus _) | some (.domainEpoch _) | none => refuseWrite s

/-- WINDOW_SETTING_WRITE (R15). -/
def execWindowSettingWrite (w : WindowId) (word : WindowWord) (data : Word) (s : State) :
    Host.Outcome State Fault Refusal :=
  .next (writeWindow w word data s)

/-- DOMAIN_SETTING_WRITE (R39). -/
def execDomainSettingWrite (d : DomainId) (word : DomainWord) (data : Word) (s : State) :
    Host.Outcome State Fault Refusal :=
  .next (writeDomainSetting d word data s)

/-- INITIATOR_SETTING_WRITE (R132). -/
def execInitiatorSettingWrite (i : InitiatorId) (word : InitiatorWord) (data : Word) (s : State) :
    Host.Outcome State Fault Refusal :=
  .next (writeInitiator i word data s)

/-- POOL_THRESHOLD_WRITE (R107). -/
def execPoolThresholdWrite (data : Word) (s : State) : Host.Outcome State Fault Refusal :=
  .next (writePoolThreshold data s)

/-- TIMEBASE_AND_EDGE_WRITE (R162, R166). -/
def execTimebaseAndEdgeWrite (data : Word) (s : State) : Host.Outcome State Fault Refusal :=
  .next (writeTimebase data s)

/-- ALERT_LATCHES_WRITE (R172). -/
def execAlertLatchesWrite (data : Word) (s : State) : Host.Outcome State Fault Refusal :=
  .next (writeLatches data s)

/-- ALERT_ENABLES_WRITE (R172). -/
def execAlertEnablesWrite (data : Word) (s : State) : Host.Outcome State Fault Refusal :=
  .next (writeEnables data s)

/-- SETTING_WRITE (R175): any other management write. An offset that another row names is decided under that row's rule,
and the command offset takes a command (R176). -/
def execSettingWrite (offset : Offset) (data : Word) (s : State) : Host.Outcome State Fault Refusal :=
  if offset = 0#16 then takeCommandWord data s else .next (writeWord offset data s)

end Sys2Proof.Machine
end

