-- ==== Sys2Proof/Machine/MemoryPort.lean ====
section
/-! DEFINITION. The memory port: the arbiter and MEMORY_PORT_GRANT (R153 to R157), and the completions WALK_COMPLETION
(R34 to R36), PUBLISH_WRITE_COMPLETION (R33, R73, R74), CHUNK_COMPLETION (R110 to R113) and TRANSIT_COMPLETION (R158,
R159). -/

namespace Sys2Proof.Machine

/-! ## The arbiter -/

/-- Whether a walk job is PENDING. -/
def isPending (j : WalkJob) : Bool := decide (j.status = .pending)

/-- Whether a transit entry is WAITING. -/
def isWaiting (e : TransitEntry) : Bool := decide (e.state = .waiting)

/-- The publication whose write goes next: the domain that entered PUBLISH earliest among those that have publish writes
still to issue (R31). -/
def publishTurn (s : State) : Option (Publication × ChangeEntry) :=
  s.publication.findSome? fun p => (nextPublish p s).map fun e => (p, e)

/-- The Map Walker waits while it has work and no operation outstanding; during a soft reset drain it does not request
the port (R31, R37, R156). -/
def walkerWaits (s : State) : Bool :=
  !walkerBusy s && !s.draining && (s.walkJobs.any isPending || (publishTurn s).isSome)

/-- Forwarded traffic waits while a transit entry is WAITING (R156). -/
def forwardedWaits (s : State) : Bool := s.transit.any isWaiting

/-- A requester of the memory port. -/
inductive Requester
  | mapWalker
  | forwarded
  | copySlot (k : SlotId)
deriving DecidableEq, Repr

/-- The slot that the Copy Engine is granted for: slot 0 if it waits, else slot 1 (R156). -/
def copyTurn (s : State) : SlotId := if slotWaits 0 s then 0 else 1

/-- The grant order (Table 10-3, R156, R157). -/
def arbitrate (s : State) : Option Requester :=
  if s.starvation = Config.starvationLimit ∧ copyWaits s then some (.copySlot (copyTurn s))
  else if walkerWaits s then some .mapWalker
  else if forwardedWaits s then some .forwarded
  else if copyWaits s then some (.copySlot (copyTurn s))
  else none

/-- The memory port takes an operation (R153). -/
def sendOperation (o : PortOperation) (s : State) : State := { s with portOperations := s.portOperations ++ [o] }

/-! ## Grants -/

/-- The oldest PENDING job becomes ISSUED. -/
def issueOldest (tag : LinkTag) : List WalkJob → List WalkJob
  | [] => []
  | j :: js => if isPending j then { j with status := .issued tag } :: js else j :: issueOldest tag js

/-- The walk of a job: one 8-byte READ at its map address (R153). Every operation has a burst kind, and the spec gives a
walk none: INCR with 1 beat is the model's choice (DESIGN CHOICE, log entry 26). -/
def walkOperation (tag : LinkTag) (j : WalkJob) : PortOperation :=
  { tag := tag, kind := .read, address := j.mapAddress, burst := .incr, count := 1, beats := [] }

/-- The publish write of an entry: one 8-byte WRITE of the value of R10, every byte enable set, at the map address formed
from the window's current map base (R32, R153). Every operation has a burst kind, and the spec gives a publish write none:
INCR with 1 beat is the model's choice (DESIGN CHOICE, log entry 26). -/
def publishOperation (tag : LinkTag) (e : ChangeEntry) (s : State) : PortOperation :=
  { tag := tag, kind := .write, address := mapEntryAddress s.windows[e.window] e.tile, burst := .incr, count := 1,
    beats := [{ data := mapEntryValue e, enables := 0xFF }] }

/-- A publication's cursor takes the sequence number of the entry written (R32). -/
def advanceCursor (p : Publication) (n : Nat) (q : Publication) : Publication :=
  if q.domain = p.domain then { q with cursor := some n } else q

/-- The Map Walker sends the operation it chooses at the grant: the oldest PENDING walk, else the next publish write of
the domain whose turn it is (R31, R32). -/
def grantWalker (tag : LinkTag) (s : State) : State :=
  match s.walkJobs.find? isPending with
  | some j => sendOperation (walkOperation tag j) { s with walkJobs := issueOldest tag s.walkJobs }
  | none =>
    match publishTurn s with
    | none => s
    | some (p, e) =>
      sendOperation (publishOperation tag e s)
        { s with
          publication := s.publication.map (advanceCursor p e.sequence)
          publishWrite := some { tag := tag, domain := p.domain, window := e.window, tile := e.tile,
                                 mapAddress := mapEntryAddress s.windows[e.window] e.tile } }

/-- The oldest WAITING transit entry becomes SENT (R155). -/
def sendOldest (tag : LinkTag) : List TransitEntry → List TransitEntry
  | [] => []
  | e :: es => if isWaiting e then { e with state := .sent tag } :: es else e :: sendOldest tag es

/-- The operation of a transit entry (R147, R153). -/
def transitOperation (tag : LinkTag) (e : TransitEntry) : PortOperation :=
  { tag := tag, kind := e.kind, address := e.memoryAddress, burst := e.burst, count := e.count, beats := e.beats }

/-- A grant to forwarded traffic: the oldest WAITING entry is sent, and the starvation counter rises by one when the Copy
Engine waits (R155, R157). -/
def grantForwarded (tag : LinkTag) (s : State) : State :=
  match s.transit.find? isWaiting with
  | none => s
  | some e =>
    sendOperation (transitOperation tag e)
      { s with
        transit := sendOldest tag s.transit
        starvation := if copyWaits s then s.starvation + 1 else s.starvation }

/-- The address of a chunk of a frame: 64 times its number above the frame address (R109). -/
def chunkAddress (f : Frame) (number : Nat) : Address := frameAddress f (BitVec.ofNat 12 (64 * number))

/-- The operation of a slot's action: one INCR operation of 8 beats (R109, R153). -/
def chunkOperation (tag : LinkTag) (c : CopyJob) : CopyAction → PortOperation
  | .readChunk number =>
    { tag := tag, kind := .read, address := chunkAddress c.source number, burst := .incr, count := 8, beats := [] }
  | .writeChunk number data =>
    { tag := tag, kind := .write, address := chunkAddress c.destination number, burst := .incr, count := 8,
      beats := chunkWriteBeats data }

/-- A slot after it sends its ready operation (R109). -/
def afterSend (tag : LinkTag) (c : CopyJob) : CopyAction → CopyJob
  | .readChunk number =>
    { c with chunks := c.chunks ++ [{ number := number, phase := .reading tag }], nextRead := c.nextRead + 1 }
  | .writeChunk number data =>
    { c with chunks := c.chunks.map fun k =>
        if k.number = number then { k with phase := .writing tag data } else k }

/-- A grant to a copy slot: it sends its ready operation, and the starvation counter returns to 0 (R109, R157). -/
def grantSlot (k : SlotId) (tag : LinkTag) (s : State) : State :=
  match s.slots[k] with
  | none => s
  | some c =>
    match readyOperation c with
    | none => s
    | some action =>
      sendOperation (chunkOperation tag c action)
        { setSlot k (some (afterSend tag c action)) s with starvation := 0 }

/-- A grant to a requester. -/
def grant (tag : LinkTag) (s : State) : Requester → State
  | .mapWalker => grantWalker tag s
  | .forwarded => grantForwarded tag s
  | .copySlot k => grantSlot k tag s

/-- MEMORY_PORT_GRANT (R156): the memory port can take an operation. The operand is the link tag that the MPU gives the
operation sent; the MPU gives none that another operation on the link holds (R154), one that a reset abandoned included
(R161), so no such event exists for a held tag (log entry 5). When nothing waits, no grant is made. -/
def execMemoryPortGrant (tag : LinkTag) (s : State) : Host.Outcome State Fault Refusal :=
  if tagHeld tag s then .next s
  else
    match arbitrate s with
    | none => .next s
    | some q => .next (grant tag s q)

/-! ## The completion of a walk (R34 to R36) -/

/-- The report of a TILE_INVALID refusal (R35). -/
def tileInvalidFault (j : WalkJob) (s : State) (k : Rank) : FaultReport :=
  requestFault .tileInvalid k.request (some j.window) (some j.domain) s

/-- Several faults of one event, in order (R170). -/
def reportFaults (fs : List FaultReport) (s : State) : State := fs.foldl (fun t f => reportFault f t) s

/-- Whether a walk's result gives a translation: the entry is usable and its frame is not the new frame of an entry in
COPYING or LIVE (R34, R35). -/
def walkUsable (entry : Beat) (s : State) : Bool := mapUsable entry && !isUnpublishedFrame (mapFrame entry) s

/-- A walk completed with a usable entry: the cache is filled and the bound ranks become ELIGIBLE (R34). -/
def walkFill (j : WalkJob) (entry : Beat) (s : State) : State :=
  endWaits (parkedOn (.walk j.window j.tile))
    (fillCache { window := j.window, tile := j.tile, frame := mapFrame entry, writable := mapWritable entry,
                 sw := mapSw entry } s)

/-- A walk completed with an entry that gives no translation: the bound ranks are refused with TILE_INVALID, oldest
first (R35). -/
def walkInvalid (j : WalkJob) (s : State) : State :=
  let bound := s.ranks.filter (parkedOn (.walk j.window j.tile))
  reportFaults (bound.map (tileInvalidFault j s)) (answerRanks (parkedOn (.walk j.window j.tile)) .refused s)

/-- A walk FAILED: the bound ranks are answered FAILED, MAP_READ is reported and the whole cache is invalidated (R36). -/
def walkFailed (j : WalkJob) (s : State) : State :=
  let s₁ := answerRanks (parkedOn (.walk j.window j.tile)) .failed s
  flushEntries (reportFault (internalFault .mapRead j.mapAddress j.window j.domain s₁) s₁)

/-- The job leaves the list at its walk's completion and the outcome is acted on (R34 to R36). -/
def completeWalk (j : WalkJob) (status : Completion) (entry : Beat) (s : State) : State :=
  let s₁ := { s with walkJobs := s.walkJobs.eraseP (jobKey j.window j.tile) }
  match status with
  | .okay => if walkUsable entry s₁ then walkFill j entry s₁ else walkInvalid j s₁
  | .failed => walkFailed j s₁

/-- WALK_COMPLETION: the completion that returns under an issued walk's link tag. One of an operation that a reset
abandoned, and one that matches no walk, is not acted on (R154, R161). -/
def execWalkCompletion (tag : LinkTag) (status : Completion) (entry : Beat) (s : State) :
    Host.Outcome State Fault Refusal :=
  if s.abandoned.contains tag then .next (dropAbandoned tag s)
  else
    match s.walkJobs.find? (fun j => walkTag j == some tag) with
    | none => .next s
    | some j => .next (endDrainIfDone (completeWalk j status entry s))

/-! ## The completion of a publish write (R33, R73, R74, R76) -/

/-- The outcome of a publish write at the Epoch Unit and the cache: PUBLISHED with the cache updated, or left LIVE with
MAP_WRITE reported (R73, R74, R26). -/
def publishOutcome (p : PublishWrite) (status : Completion) (s : State) : State :=
  match status with
  | .okay =>
    match findChange p.window p.tile s with
    | some e => publishToCache e (setEntryState p.window p.tile .published s)
    | none => s
  | .failed => reportFault (internalFault .mapWrite p.mapAddress p.window p.domain s) s

/-- Whether a domain's pass has publish writes still to issue (R32). -/
def passContinues (d : DomainId) (s : State) : Bool :=
  s.publication.any fun p => decide (p.domain = d) && (nextPublish p s).isSome

/-- The pass goes on, or at its last write the domain leaves the publication order and its outcome is decided
(R32, R33, R76). -/
def continuePass (d : DomainId) (s : State) : State :=
  if passContinues d s then s
  else endPass d { s with publication := s.publication.filter fun p => !decide (p.domain = d) }

/-- PUBLISH_WRITE_COMPLETION (R33). One of an operation that a reset abandoned is not acted on (R161). -/
def execPublishWriteCompletion (tag : LinkTag) (status : Completion) (s : State) :
    Host.Outcome State Fault Refusal :=
  if s.abandoned.contains tag then .next (dropAbandoned tag s)
  else
    match s.publishWrite with
    | none => .next s
    | some p =>
      if p.tag = tag then
        .next (endDrainIfDone (continuePass p.domain (publishOutcome p status { s with publishWrite := none })))
      else .next s

/-! ## The completion of a chunk operation (R110 to R113) -/

/-- The chunk whose operation is outstanding under a link tag. -/
def chunkUnder (tag : LinkTag) (c : CopyJob) : Option ChunkInProgress :=
  c.chunks.find? fun k => chunkTag k == some tag

/-- The phase of the chunk whose operation is outstanding under a link tag is set. -/
def setChunkPhase (tag : LinkTag) (phase : ChunkPhase) (c : CopyJob) : CopyJob :=
  { c with chunks := c.chunks.map fun k => if chunkTag k == some tag then { k with phase := phase } else k }

/-- A chunk write completed: the chunk leaves the chunks in progress and progress rises by one (R110). -/
def finishChunk (tag : LinkTag) (c : CopyJob) : CopyJob :=
  { c with chunks := c.chunks.filter (fun k => !(chunkTag k == some tag)), progress := c.progress + 1 }

/-- A STOPPING slot waits for its other operation, or, with none outstanding, its copy's failure is finished
(R112, R113). -/
def stopCopy (k : SlotId) (c : CopyJob) (s : State) : State :=
  if outstandingChunks c = 0 then failCopy k c s else setSlot k (some c) s

/-- A chunk operation completes in a slot (R110 to R112). -/
def completeChunk (k : SlotId) (c : CopyJob) (tag : LinkTag) (chunk : ChunkInProgress) (status : Completion)
    (data : Chunk) (s : State) : State :=
  if c.stopping then stopCopy k (setChunkPhase tag .ended c) s
  else
    match status with
    | .failed => stopCopy k { setChunkPhase tag .ended c with stopping := true } s
    | .okay =>
      match chunk.phase with
      | .reading _ => setSlot k (some (setChunkPhase tag (.held data) c)) s
      | .writing _ _ =>
        let c₁ := finishChunk tag c
        if c₁.progress = Config.chunksPerTile then completeCopy k c₁ s else setSlot k (some c₁) s
      | .held _ | .ended => s

/-- The slot, the copy and the chunk that a link tag belongs to. -/
def findChunk (tag : LinkTag) (s : State) : Option (SlotId × CopyJob × ChunkInProgress) :=
  (List.finRange 2).findSome? fun k => (s.slots[k]).bind fun c => (chunkUnder tag c).map fun chunk => (k, c, chunk)

/-- CHUNK_COMPLETION (R110). One of an operation that a reset abandoned is not acted on (R116, R161). -/
def execChunkCompletion (tag : LinkTag) (status : Completion) (data : Chunk) (s : State) :
    Host.Outcome State Fault Refusal :=
  if s.abandoned.contains tag then .next (dropAbandoned tag s)
  else
    match findChunk tag s with
    | none => .next s
    | some (k, c, chunk) =>
      .next (endDrainIfDone (settleStarvation s (completeChunk k c tag chunk status data s)))

/-! ## The completion of a forwarded operation (R158, R159) -/

/-- Whether a transit entry is of a request. -/
def ofPair (i : InitiatorId) (t : Tag) (e : TransitEntry) : Bool := decide (e.initiator = i ∧ e.tag = t)

/-- What is held of an earlier piece of a request. -/
def resultsOf (i : InitiatorId) (t : Tag) (s : State) : List PieceResult :=
  s.collected.filter fun q => decide (q.initiator = i ∧ q.tag = t)

/-- The place of a piece in beat order. -/
def placeOrder : Place → Nat
  | .oneOfOne => 0
  | .oneOfTwo => 1
  | .twoOfTwo => 2

/-- The read beats of a request's pieces, piece 1's first (R148). -/
def joinBeats (q : PieceResult) (earlier : List PieceResult) : List Beat :=
  ((earlier.filter fun x => placeOrder x.place < placeOrder q.place).flatMap (·.beats)) ++ q.beats ++
    ((earlier.filter fun x => !decide (placeOrder x.place < placeOrder q.place)).flatMap (·.beats))

/-- The response of an issued request at the completion of its last outstanding piece: OKAY when every piece completed
OKAY, with the read beats of all pieces in beat order, and FAILED without data otherwise (R149, R158). -/
def issuedResponse (e : TransitEntry) (q : PieceResult) (earlier : List PieceResult) : Response :=
  if (q :: earlier).all (fun x => decide (x.status = .okay)) then
    { initiator := e.initiator, tag := e.tag, status := .okay, dup := false,
      beats := match e.kind with
        | .read => joinBeats q earlier
        | .write => [] }
  else { initiator := e.initiator, tag := e.tag, status := .failed, dup := false, beats := [] }

/-- The data that a completion hands on: the beats read, for an OKAY READ, and none otherwise (R154, R158, R159). -/
def handedOn (kind : Kind) (status : Completion) (beats : List Beat) : List Beat :=
  match kind, status with
  | .read, .okay => beats
  | .read, .failed | .write, _ => []

/-- What the Upstream Port Unit takes of a completed piece. -/
def pieceResult (e : TransitEntry) (status : Completion) (beats : List Beat) : PieceResult :=
  { initiator := e.initiator, tag := e.tag, place := e.place, status := status,
    beats := handedOn e.kind status beats }

/-- The response is sent when no other piece of the request is outstanding; else the piece's result is held
(R158, step 2). -/
def answerPiece (e : TransitEntry) (status : Completion) (beats : List Beat) (s : State) : State :=
  if s.transit.any (ofPair e.initiator e.tag) then
    { s with collected := s.collected ++ [pieceResult e status beats] }
  else
    sendResponse (issuedResponse e (pieceResult e status beats) (resultsOf e.initiator e.tag s))
      { s with collected := s.collected.filter fun q => !decide (q.initiator = e.initiator ∧ q.tag = e.tag) }

/-- The report of a FAILED forwarded operation, at the piece's upstream address (R159). -/
def memoryFault (e : TransitEntry) (s : State) : FaultReport :=
  { code := .memory, source := .request e.initiator e.tag, address := e.upstreamAddress, window := e.window,
    domain := e.domain, epoch := epochFor e.domain s }

/-- A fault MEMORY is reported when the operation FAILED (R159). -/
def reportMemory (e : TransitEntry) (status : Completion) (s : State) : State :=
  match status with
  | .okay => s
  | .failed => reportFault (memoryFault e s) s

/-- The Epoch Unit is told of a freed entry: a commit's DRAIN is tested for a WRITE, a rollback's for either kind
(R158, step 4). -/
def tellFreed (e : TransitEntry) (s : State) : State :=
  match e.domain with
  | none => s
  | some d =>
    match e.kind with
    | .write => testDrain d s
    | .read => testRollbackDrain d s

/-- Whether a transit entry's operation is outstanding under a link tag. -/
def sentUnder (tag : LinkTag) (e : TransitEntry) : Bool := decide (e.state = .sent tag)

/-- The operation of a transit entry completes (R158, R159). -/
def completeTransit (e : TransitEntry) (tag : LinkTag) (status : Completion) (beats : List Beat) (s : State) : State :=
  let s₁ := { s with transit := s.transit.eraseP (sentUnder tag) }
  let s₂ := answerPiece e status beats (reportMemory e status s₁)
  tellFreed e (endWaits (parkedOn .transit) s₂)

/-- TRANSIT_COMPLETION (R158, R159). One of an operation that a reset abandoned is not acted on (R151, R161). -/
def execTransitCompletion (tag : LinkTag) (status : Completion) (beats : List Beat) (s : State) :
    Host.Outcome State Fault Refusal :=
  if s.abandoned.contains tag then .next (dropAbandoned tag s)
  else
    match s.transit.find? (sentUnder tag) with
    | none => .next s
    | some e => .next (endDrainIfDone (completeTransit e tag status beats s))

end Sys2Proof.Machine
end

