-- ==== Sys2Proof/Machine/Timers.lean ====
section
/-! DEFINITION. The Deadline Timer Unit's events: TICK (R162, R164), DEADLINE_EXPIRY (R165), MARK_EVENT (R166, R167) and
EPOCH_LINE_INACTIVE_CHANGE (R166). -/

namespace Sys2Proof.Machine

/-! ## Deadlines -/

/-- The expiry of a counter: it stops at 0, DEADLINE is set, and the deadline action is applied to the domain in the same
event (R165). -/
def expire (d : DomainId) (s : State) : State :=
  let s₁ := setLatch (.deadline d) (setDeadline d { value := 0, running := false } s)
  match (settingsOf d s).deadlineAction with
  | .alert => s₁
  | .commit => causeCommit d s₁
  | .rollback => causeRollback d s₁

/-- A tick reaches one domain's counter: a running counter above 0 is lowered by one, and the tick that brings it from 1
to 0 is its expiry (R164, R165). -/
def tickCounter (d : DomainId) (s : State) : State :=
  let c := s.deadlines[d]
  if c.running = true ∧ 0 < c.value then
    if c.value = 1 then expire d s else setDeadline d { c with value := c.value - 1 } s
  else s

/-- A tick: the divider begins its next period, and the tick reaches the four counters. When several expire in it, their
domains are taken in the order of the operand (R162, R164, R97, R106; log entry 6). -/
def takeTick (order : List DomainId) (s : State) : State :=
  (domainOrder order).foldl (fun t d => tickCounter d t) { s with divider := 0 }

/-- TICK (R162). -/
def execTick (order : List DomainId) (s : State) : Host.Outcome State Fault Refusal := .next (takeTick order s)

/-- One period of REFCLK passes: the divider counts it, and gives a tick at the last of its 2^p periods (R162). No row of
the table is a REFCLK period: it is what the block does while no command waits (log entries 9 and 10). -/
def refclkPeriod (s : State) : State :=
  if s.divider + 1 < 2 ^ s.timebase.toNat then { s with divider := s.divider + 1 } else takeTick [] s

/-- DEADLINE_EXPIRY (R165): a running counter reaches 0. The rule makes the expiry in the event of the tick, and `execTick`
does so; taken by itself, the step is the part of a tick that reaches a counter that is about to expire (log entry 7). -/
def execDeadlineExpiry (d : DomainId) (s : State) : Host.Outcome State Fault Refusal :=
  .next (if s.deadlines[d].running = true ∧ s.deadlines[d].value ≤ 1 then expire d s else s)

/-! ## The EPOCH line -/

/-- The level of the line after an active edge (R166). -/
def activeLevel : Edge → Level
  | .rising => .high
  | .falling => .low

/-- The level of the line after the opposite change (R166). -/
def inactiveLevel : Edge → Level
  | .rising => .low
  | .falling => .high

/-- A mark event reaches one domain: MARKED, or OPEN with auto-mark on, enters COMMITTING.DRAIN (R167). -/
def deliverMark (d : DomainId) (s : State) : State :=
  match domainState d s with
  | .marked => enterCommit d s
  | .opened => if (settingsOf d s).autoMark then enterCommit d s else s
  | .closed | .committing _ | .rollingBack | .faulted => s

/-- A mark event: the mark counter rises by one, from 65535 to 0, and the event is delivered for each domain, in the order
of the operand where several of them reach PUBLISH (R167, R32; log entry 6). -/
def takeMark (order : List DomainId) (s : State) : State :=
  (domainOrder order).foldl (fun t d => deliverMark d t)
    { s with lineLevel := activeLevel s.edge, markCounter := s.markCounter + 1 }

/-- MARK_EVENT (R166, R167): an active edge of the EPOCH line. The line has no active edge while it already stands at the
level that an active edge leads to: there is then no such event (R166; log entry 2). -/
def execMarkEvent (order : List DomainId) (s : State) : Host.Outcome State Fault Refusal :=
  .next (if s.lineLevel = inactiveLevel s.edge then takeMark order s else s)

/-- EPOCH_LINE_INACTIVE_CHANGE (R166): the line changes in the direction opposite to the selected edge, and the previous
line level follows it. A line that already stands there does not change. -/
def execEpochLineInactiveChange (s : State) : Host.Outcome State Fault Refusal :=
  .next { s with lineLevel := inactiveLevel s.edge }

end Sys2Proof.Machine
end

