-- ==== Sys2Proof/Machine/Dispatch.lean ====
section
/-! DEFINITION. The dispatch: one arm per command, each one call of the command's meaning. -/

namespace Sys2Proof.Machine

def exec (i : Instr) (s : State) : Host.Outcome State Fault Refusal :=
  match i with
  | .powerOnReset line => Sys2Proof.Machine.execPowerOnReset line s
  | .resetNPinReset line => Sys2Proof.Machine.execResetNPinReset line s
  | .upstreamRequest request => Sys2Proof.Machine.execUpstreamRequest request s
  | .rankLeave rank => Sys2Proof.Machine.execRankLeave rank s
  | .memoryPortGrant tag => Sys2Proof.Machine.execMemoryPortGrant tag s
  | .walkCompletion tag status entry => Sys2Proof.Machine.execWalkCompletion tag status entry s
  | .publishWriteCompletion tag status => Sys2Proof.Machine.execPublishWriteCompletion tag status s
  | .chunkCompletion tag status data => Sys2Proof.Machine.execChunkCompletion tag status data s
  | .transitCompletion tag status beats => Sys2Proof.Machine.execTransitCompletion tag status beats s
  | .tick order => Sys2Proof.Machine.execTick order s
  | .deadlineExpiry d => Sys2Proof.Machine.execDeadlineExpiry d s
  | .markEvent order => Sys2Proof.Machine.execMarkEvent order s
  | .openDomain d => Sys2Proof.Machine.execOpen d s
  | .commit d => Sys2Proof.Machine.execCommit d s
  | .commitAtMark d => Sys2Proof.Machine.execCommitAtMark d s
  | .rollback d => Sys2Proof.Machine.execRollback d s
  | .poolLoad => Sys2Proof.Machine.execPoolLoad s
  | .flushCache => Sys2Proof.Machine.execFlushCache s
  | .clearFault => Sys2Proof.Machine.execClearFault s
  | .resetAll => Sys2Proof.Machine.execResetAll s
  | .unknownCommand word => Sys2Proof.Machine.execUnknownCommand word s
  | .windowSettingWrite w word data => Sys2Proof.Machine.execWindowSettingWrite w word data s
  | .domainSettingWrite d word data => Sys2Proof.Machine.execDomainSettingWrite d word data s
  | .initiatorSettingWrite j word data => Sys2Proof.Machine.execInitiatorSettingWrite j word data s
  | .poolThresholdWrite data => Sys2Proof.Machine.execPoolThresholdWrite data s
  | .timebaseAndEdgeWrite data => Sys2Proof.Machine.execTimebaseAndEdgeWrite data s
  | .alertLatchesWrite data => Sys2Proof.Machine.execAlertLatchesWrite data s
  | .alertEnablesWrite data => Sys2Proof.Machine.execAlertEnablesWrite data s
  | .settingWrite offset data => Sys2Proof.Machine.execSettingWrite offset data s
  | .softResetDrainEnd => Sys2Proof.Machine.execSoftResetDrainEnd s
  | .epochLineInactiveChange => Sys2Proof.Machine.execEpochLineInactiveChange s

end Sys2Proof.Machine
end

