-- ==== Sys2Proof/Machine/Registers.lean ====
section
/-! DEFINITION. The read side of the management port: the value of every word of Table 12-5, and what a frame returns
(R17, R40, R100, R131, R174). A read changes nothing, so it is a function of State and no command. -/

namespace Sys2Proof.Machine

/-- The code of an EPOCH edge (offset 0x003C). -/
def edgeBit : Edge → Bool
  | .rising => false
  | .falling => true

/-- The source fields of fault record word 0. Table 12-5 gives the initiator and tag bits no value when the source is
internal: that they read 0 is the model's choice (DESIGN CHOICE, log entry 27). -/
def sourceField : FaultSource → Word
  | .request i t => fieldAt 8 (BitVec.ofFin (w := 4) i) ||| fieldAt 0 (BitVec.ofFin (w := 6) t)
  | .internal => flagAt 15 true

/-- The window field of fault record word 2, or the window none bit. That the window's number then reads 0 is given for
an empty record (R170), and for a full one is the model's choice (DESIGN CHOICE, log entry 27). -/
def windowField : Option WindowId → Word
  | some w => fieldAt 16 (BitVec.ofFin (w := 3) w)
  | none => flagAt 19 true

/-- The domain field of fault record word 2, or the domain none bit. That the domain's number then reads 0 is given for
an empty record (R170), and for a full one is the model's choice (DESIGN CHOICE, log entry 27). -/
def domainField : Option DomainId → Word
  | some d => fieldAt 20 (BitVec.ofFin (w := 2) d)
  | none => flagAt 22 true

/-- Fault record words 0 to 3 of a full record (offsets 0x0020 to 0x002C). Word 3 of a full record without an epoch number
reads 0: the spec gives it a value only for an empty record, and this is the model's choice (DESIGN CHOICE, log entry
27). -/
def fullFaultWord (lost : Bool) (f : FaultReport) (k : Fin 4) : Word :=
  if k = 0 then
    flagAt 31 lost ||| flagAt 30 true ||| fieldAt 16 (faultNumber f.code) ||| sourceField f.source
  else if k = 1 then f.address.extractLsb' 0 32
  else if k = 2 then fieldAt 0 (f.address.extractLsb' 32 8) ||| windowField f.window ||| domainField f.domain
  else f.epoch.getD 0

/-- Fault record words 0 to 3 of an empty record: the window none bit and the domain none bit of word 2 are set, and
every other bit but LOST is 0 (R170). -/
def emptyFaultWord (lost : Bool) (k : Fin 4) : Word :=
  if k = 0 then flagAt 31 lost else if k = 2 then windowField none ||| domainField none else 0

/-- The fault record words (offsets 0x0020 to 0x002C). -/
def faultWord (s : State) (k : Fin 4) : Word :=
  match s.fault with
  | none => emptyFaultWord s.lost k
  | some f => fullFaultWord s.lost f k

/-- A domain's status word (offset 0x0100 + 8d, R40). -/
def domainStatusWord (r : DomainRecord) : Word :=
  fieldAt 0 (stateCode r.state) ||| fieldAt 4 (phaseCode r.state) ||| fieldAt 16 (BitVec.ofNat 9 r.entryCount)

/-- The value of a word of the register summary (Table 12-5). Two values are the model's choice, because the spec gives
none: the command word, which Table 12-5 makes write-only, returns zero to a READ (DESIGN CHOICE, log entry 28), and the
bits that a read-only word does not name read as zero (DESIGN CHOICE, log entry 29). -/
def registerValue (s : State) : RegisterWord → Word
  | .command => 0
  | .argument0 => s.argument0
  | .argument1 => s.argument1
  | .commandResult => fieldAt 0 (resultNumber s.commandResult.result) ||| fieldAt 8 s.commandResult.code
  | .lastWriteStatus => flagAt 0 (decide (s.lastWrite = .refused))
  | .resetCause => fieldAt 0 (resetCauseNumber s.resetCause) ||| flagAt 31 s.draining
  | .faultRecord k => faultWord s k
  | .alertLatches => fieldAt 0 s.latches
  | .alertEnables => fieldAt 0 s.enables
  | .poolThreshold => fieldAt 0 (BitVec.ofNat 13 s.poolThreshold)
  | .timebaseAndEdge => fieldAt 0 s.timebase ||| flagAt 8 (edgeBit s.edge)
  | .poolStatus => fieldAt 0 (BitVec.ofNat 13 s.freeFrames.length) ||| fieldAt 16 (BitVec.ofNat 13 s.poolSize)
  | .markAndOccupancy => fieldAt 0 s.markCounter ||| fieldAt 16 (BitVec.ofNat 9 s.changes.length)
  | .domainStatus d => domainStatusWord s.domains[d]
  | .domainEpoch d => s.domains[d].epoch
  | .domainSettings d word => domainWordValue s.domains[d].settings word
  | .window w word => windowWordValue s.windows[w] word
  | .initiator i word => initiatorWordValue s.initiators[i] word

/-- The word that a READ of an offset returns; zero for an offset that names no word (R174). -/
def readWord (s : State) (offset : Offset) : Word := ((wordAt offset).map (registerValue s)).getD 0

/-- The data bytes that a frame returns to the host (R174): the four bytes of the addressed word for a READ, most
significant first; zero on every data byte of a discarded frame; none for a WRITE. -/
def frameReply (s : State) (frame : List Byte) : List Byte :=
  match frame with
  | operation :: o1 :: o0 :: _ :: _ :: _ :: _ :: _ =>
    if operation = readOperation then
      let word := readWord s (o1 ++ o0)
      [word.extractLsb' 24 8, word.extractLsb' 16 8, word.extractLsb' 8 8, word.extractLsb' 0 8]
    else if operation = writeOperation then []
    else List.replicate 4 0
  | _ => List.replicate (frame.length - 3) 0

end Sys2Proof.Machine
end

