-- ==== Sys2Proof/Safety.lean ====
section
/-! DEFINITION. What counts as a safe state of the part, in the terms the statements use: the balances, bounds and
disciplines that the rules of spec/ say hold at all times. Each is a predicate on one state; that every step keeps it is
a statement. -/

namespace Sys2Proof.Machine

/-! ## Pool and Change Table -/

/-- The free count plus the number of change entries equals the pool size (R101). -/
def PoolBalanced (s : State) : Prop := s.freeFrames.length + s.changes.length = s.poolSize

/-- Every domain's entry count is the number of its entries (R47). -/
def EntriesCounted (s : State) : Prop := ∀ d : DomainId, (entriesOf d s).length = s.domains[d].entryCount

/-- No domain's entry count exceeds its quota, and a quota lies in its range (R47, Table 3-2). -/
def QuotaRespected (s : State) : Prop :=
  ∀ d : DomainId, s.domains[d].entryCount ≤ s.domains[d].settings.quota ∧ 1 ≤ s.domains[d].settings.quota ∧
    s.domains[d].settings.quota ≤ 256

/-- The Change Table holds at most 256 entries (R45). -/
def TableBounded (s : State) : Prop := s.changes.length ≤ Config.changeEntries

/-- At most one entry for any tile (R45). -/
def KeysUnique (s : State) : Prop := (s.changes.map fun e => (e.window, e.tile)).Nodup

/-- A domain in CLOSED holds no change entry (R47). -/
def ClosedHoldsNone (s : State) : Prop :=
  ∀ e ∈ s.changes, domainState e.domain s ≠ .closed

/-- The entries of COPYING and the copy slots match: a COPYING entry's slot copies its tile, from its old frame to its new
frame, and a slot that is RUNNING or STOPPING has its COPYING entry (R46, R108). -/
def SlotsMatch (s : State) : Prop :=
  (∀ e ∈ s.changes, ∀ k, e.state = .copying k →
    ∃ c, s.slots[k] = some c ∧ c.window = e.window ∧ c.tile = e.tile ∧ c.source = e.oldFrame ∧
      c.destination = e.newFrame) ∧
  (∀ k : SlotId, ∀ c, s.slots[k] = some c →
    ∃ e ∈ s.changes, e.state = .copying k ∧ e.window = c.window ∧ e.tile = c.tile)

/-- Which states a domain's entries may be in: a domain in PUBLISH or FAULTED has no COPYING entry, and only such a domain
has a PUBLISHED one (R72, R81, R89). -/
def EntryStatesFit (s : State) : Prop :=
  ∀ e ∈ s.changes,
    (isCopying e = true → domainState e.domain s ≠ .committing .publish ∧ domainState e.domain s ≠ .faulted) ∧
    (e.state = .published → domainState e.domain s = .committing .publish ∨ domainState e.domain s = .faulted)

/-- An entry's sequence number was taken before the domain's next one, and entries of one domain stand in the order of
their sequence numbers (R47). -/
def SequencesOrdered (s : State) : Prop :=
  (∀ e ∈ s.changes, e.sequence < s.domains[e.domain].nextSequence ∨
    (s.domains[e.domain].sequenceSpent = true ∧ e.sequence = 255 ∧ s.domains[e.domain].nextSequence = 255)) ∧
  (∀ d : DomainId, s.domains[d].nextSequence ≤ 255) ∧
  s.changes.Pairwise fun a b => a.domain = b.domain → a.sequence < b.sequence

/-- At most one valid cache entry for any tile (R24). -/
def CacheKeysUnique (s : State) : Prop :=
  ∀ i j : Fin 32, ∀ a b, s.cache[i] = some a → s.cache[j] = some b → a.window = b.window → a.tile = b.tile → i = j

/-! ## Hold Queue and Transit Table -/

/-- At most 8 ranks are occupied (R126). -/
def RanksBounded (s : State) : Prop := s.ranks.length ≤ Config.holdRanks

/-- At most 32 transit entries are claimed (R155). -/
def TransitBounded (s : State) : Prop := s.transit.length ≤ Config.transitEntries

/-- Every rank of an initiator but its oldest is parked with ORDER, and its oldest is not: the first rank of the list is
the oldest (R120). -/
def orderHolds : List InitiatorId → List Rank → Bool
  | _, [] => true
  | seen, k :: ks =>
    (parkedOn .order k == seen.contains k.request.initiator) && orderHolds (k.request.initiator :: seen) ks

/-- Order within an initiator (R120). -/
def OrderKept (s : State) : Prop := orderHolds [] s.ranks = true

/-- What a parked rank waits for is there: its walk job, its copy, both slots bound, its domain committing or rolling
back, a claimed transit entry, an older rank of its initiator (Table 7-2 and the Remark after R126). -/
def waitBacked (s : State) (k : Rank) : Prop :=
  match k.state with
  | .eligible => True
  | .parked (.walk w t) => ∃ j ∈ s.walkJobs, j.window = w ∧ j.tile = t
  | .parked (.copy w t) => ∃ e ∈ s.changes, e.window = w ∧ e.tile = t ∧ isCopying e = true
  | .parked .slot => ∀ i : SlotId, s.slots[i].isSome = true
  | .parked .domain =>
    ∃ d, regionDomain k.decoded.region = some d ∧
      ((∃ phase, domainState d s = .committing phase) ∨ domainState d s = .rollingBack)
  | .parked .transit => s.transit ≠ []
  | .parked .order => ∃ j ∈ s.ranks, j.request.initiator = k.request.initiator ∧ parkedOn .order j = false

/-- No rank waits for something that is not there. -/
def WaitsBacked (s : State) : Prop := ∀ k ∈ s.ranks, waitBacked s k

/-- No two requests that wait in the queue have the same pair, and no request waits whose pair is in transit (R134). -/
def PairsUnique (s : State) : Prop :=
  (s.ranks.map fun k => (k.request.initiator, k.request.tag)).Nodup ∧
    ∀ k ∈ s.ranks, ∀ e ∈ s.transit, ¬ (e.initiator = k.request.initiator ∧ e.tag = k.request.tag)

/-- A waiting request has one piece or two (R145). -/
def PiecesFit (s : State) : Prop :=
  ∀ k ∈ s.ranks, 1 ≤ k.decoded.pieces.length ∧ k.decoded.pieces.length ≤ 2

/-- A request that its arrival event takes through every intake check, with the decode result it gets, and that no older
request of its initiator keeps from being evaluated (R119, R133). -/
def Admitted (r : Request) (dec : Decoded) (s : State) : Prop :=
  accepting s = true ∧ r.wellFormed = true ∧ intakeChecks r s = none ∧ decodeRequest s.windows r = some dec ∧
    hasRank r.initiator s = false

/-- A piece of tile (w, p.tile) is forwarded to a memory address (R20, R21, R22, R48, R50): the domain lets it be looked
up; a change entry sends a read of a tile that is being copied to the old frame, and whatever comes after the copy to the
new frame; with no change entry, a read goes to the committed frame, and so does a write of a writable tile in a CLOSED
domain that allows it. -/
def Forwards (kind : Kind) (w : WindowId) (d : DomainId) (p : Piece) (a : Address) (s : State) : Prop :=
  domainState d s ≠ .rollingBack ∧ domainState d s ≠ .faulted ∧
  (kind = .write → domainState d s ≠ .committing .drain ∧ domainState d s ≠ .committing .publish) ∧
  ((∃ e, findChange w p.tile s = some e ∧
      ((isCopying e = true ∧ kind = .read ∧ a = e.oldFrame ++ p.offset) ∨
        (isCopying e = false ∧ a = e.newFrame ++ p.offset))) ∨
    (findChange w p.tile s = none ∧ ∃ c, findCache w p.tile s = some c ∧ a = c.frame ++ p.offset ∧
      (kind = .read ∨
        (c.writable = true ∧ domainState d s = .closed ∧ (settingsOf d s).closedWrite = .allow))))

/-! ## Map Walker, Copy Engine, arbiter -/

/-- The number of operations that the Map Walker has outstanding. -/
def walkerOutstanding (s : State) : Nat :=
  s.walkJobs.countP (fun j => (walkTag j).isSome) + s.publishWrite.toList.length

/-- The Map Walker has at most one memory operation outstanding (R31). -/
def WalkerSingle (s : State) : Prop := walkerOutstanding s ≤ 1

/-- At most one walk job for any tile (R30). -/
def JobsUnique (s : State) : Prop := (s.walkJobs.map fun j => (j.window, j.tile)).Nodup

/-- A copy slot has at most two chunks in progress (R109). -/
def ChunksBounded (s : State) : Prop :=
  ∀ k : SlotId, ∀ c, s.slots[k] = some c → c.chunks.length ≤ 2 ∧ c.nextRead ≤ Config.chunksPerTile

/-- The starvation counter is at most 8, and above 0 only while the Copy Engine waits (R157). -/
def StarvationFits (s : State) : Prop :=
  s.starvation ≤ Config.starvationLimit ∧ (0 < s.starvation → copyWaits s = true)

/-- No operation is outstanding under the link tag of an operation that a power-on or pin reset abandoned and whose
completion is still to come (R161). -/
def AbandonedApart (s : State) : Prop := ∀ tag ∈ s.abandoned, tag ∉ outstandingTags s

/-! ## Domains and timers -/

/-- A deadline counter runs only while its domain is OPEN or MARKED, and above 0 (R164, R165). -/
def DeadlinesFit (s : State) : Prop :=
  ∀ d : DomainId, s.deadlines[d].running = true → inEpoch d s = true ∧ 0 < s.deadlines[d].value

/-- A domain stays in DRAIN only while its DRAIN condition does not hold (R69, R90). -/
def DrainsHeld (s : State) : Prop :=
  ∀ d : DomainId, (domainState d s = .committing .drain → commitDrained d s = false) ∧
    (domainState d s = .rollingBack → rollbackDrained d s = false)

/-- The publication order holds the domains in PUBLISH, each once, and a publish write is outstanding only for a domain in
PUBLISH (R32, R33). -/
def PublicationFits (s : State) : Prop :=
  (s.publication.map (·.domain)).Nodup ∧
    (∀ d : DomainId, (∃ p ∈ s.publication, p.domain = d) ↔ domainState d s = .committing .publish) ∧
    ∀ p, s.publishWrite = some p → domainState p.domain s = .committing .publish

/-- The entry of the outstanding publish write is in the Change Table, LIVE and of the domain being published (R32, R33). -/
def PublishMatches (s : State) : Prop :=
  ∀ p, s.publishWrite = some p →
    ∃ e ∈ s.changes, e.window = p.window ∧ e.tile = p.tile ∧ e.domain = p.domain ∧ e.state = .live

/-- The divider stands within its 2^p periods (R162). -/
def DividerFits (s : State) : Prop := s.divider < 2 ^ s.timebase.toNat

/-- What the Epoch Unit, the Copy Engine and the Map Walker's publication hold of each other, taken together: the parts
rest on one another, so a step keeps them together. -/
def EpochSound (s : State) : Prop :=
  KeysUnique s ∧ ClosedHoldsNone s ∧ SlotsMatch s ∧ EntryStatesFit s ∧ DrainsHeld s ∧ PublicationFits s ∧
    PublishMatches s ∧ DeadlinesFit s

/-! ## Completions and resets -/

/-- The four completions of the memory port (R154). -/
def IsCompletion (c : Instr) : Prop :=
  (∃ tag status entry, c = .walkCompletion tag status entry) ∨ (∃ tag status, c = .publishWriteCompletion tag status) ∨
    (∃ tag status data, c = .chunkCompletion tag status data) ∨
    ∃ tag status beats, c = .transitCompletion tag status beats

/-- In this command's event the part takes its reset values: a power-on reset, a pin reset, or the end of a soft reset
drain, which falls in RESET_ALL itself, in a completion, or in a drain end that is due (R178). -/
def ResetBy (c : Instr) (s t : State) : Prop :=
  exec c s = .next t ∧
    ((∃ line, c = .powerOnReset line ∨ c = .resetNPinReset line) ∨ (c = .resetAll ∧ t.draining = false) ∨
      ((IsCompletion c ∨ c = .softResetDrainEnd) ∧ s.draining = true ∧ t.draining = false))

/-! ## Faults, windows, soft reset -/

/-- LOST is set only while the fault record is full (R170). -/
def LostFits (s : State) : Prop := s.lost = true → s.fault.isSome = true

/-- Every window's size exponent lies in 16 to 36 (Table 1-1). -/
def WindowsFit (s : State) : Prop := ∀ w : WindowId, 16 ≤ s.windows[w].sizeExp ∧ s.windows[w].sizeExp ≤ 36

/-- While a soft reset drains, the queue is empty, no walk is PENDING and something is outstanding (R129, R37, R178). -/
def DrainFits (s : State) : Prop :=
  s.draining = true → s.ranks = [] ∧ (∀ j ∈ s.walkJobs, j.status ≠ .pending) ∧ quiescent s = false

end Sys2Proof.Machine
end

