-- ==== Sys2Proof/Certificates/Slice0/Obligations.lean ====
section
/-! DEFINITION. The statements about the model, for the provers: the step and the resets, the management commands and
settings, the timers, requests, the memory port, the management frame, and the invariants that every step keeps. An
explicit next state is a frame too: every field that it does not name is unchanged. -/

open Sys2Proof Sys2Proof.Machine

/-! ## The step and the resets -/

/-- The command at the front of the queue runs with the queue's rest (log entry 10). -/
def Obligations.StepRunsFrontCommand : Prop :=
  ∀ (c : Instr) (rest : List Instr) (s : State), s.pending = c :: rest →
    step s = exec c { s with pending := rest }

/-- While no command waits, a step is one period of REFCLK, and the last period of the 2^p is a TICK: the model's choice
(log entries 9 and 10). -/
def Obligations.EmptyQueueIsOneRefclkPeriod : Prop :=
  ∀ s : State, s.pending = [] →
    step s = if s.divider + 1 < 2 ^ s.timebase.toNat then .next { s with divider := s.divider + 1 }
      else exec (.tick []) s

/-- POWER_ON_RESET and RESET_N_PIN_RESET take every block to its reset values, whatever was in progress; the EPOCH
line's previous level is its level as the reset ends (R166, R178), and every operation outstanding on the memory
link is abandoned (R116, R151, R161; that its link tag is remembered until its completion returns is log entry 5).
The reset values that the spec gives (R1, R24, R37, R38, R45, R100, R108, R117, R131, R155, R157, R162, R163, R166,
R167, R170, R172, R175, R176, R178); what is held of completed pieces is empty, because no request is (R151; log
entry 24). -/
def Obligations.HardResetsTakeResetValues : Prop :=
  (∀ (line : Level) (s : State),
    exec (.powerOnReset line) s = .next
      { State.reset with lineLevel := line, resetCause := .power, abandoned := s.abandoned ++ outstandingTags s,
                         responses := s.responses, portOperations := s.portOperations, pending := s.pending } ∧
    exec (.resetNPinReset line) s = .next
      { State.reset with lineLevel := line, resetCause := .pin, abandoned := s.abandoned ++ outstandingTags s,
                         responses := s.responses, portOperations := s.portOperations, pending := s.pending }) ∧
  ((∀ w : WindowId, State.reset.windows[w] =
    { enable := false, kind := .pass, baseHigh := 0, sizeExp := 16, domain := 0, mapPage := 0 }) ∧
  (∀ i : InitiatorId, State.reset.initiators[i] =
    { state := .enabled, lowPage := 0, highPage := BitVec.ofNat 29 (2 ^ 28), mask := 0xF, policy := .refuse }) ∧
  (∀ e : Fin 32, State.reset.cache[e] = none) ∧ State.reset.cachePointer = 0 ∧
  State.reset.walkJobs = [] ∧ State.reset.publication = [] ∧ State.reset.publishWrite = none ∧
  (∀ d : DomainId, State.reset.domains[d] =
    { state := .closed, epoch := 0, entryCount := 0, nextSequence := 0, sequenceSpent := false,
      settings := { quota := 64, overflow := .refuse, closedWrite := .allow, violationAbort := false,
                    autoMark := false, autoReopen := false, deadlineReload := 0, deadlineAction := .alert } }) ∧
  State.reset.changes = [] ∧ State.reset.freeFrames = [] ∧ State.reset.poolSize = 0 ∧
  State.reset.poolThreshold = 0 ∧ (∀ k : SlotId, State.reset.slots[k] = none) ∧
  State.reset.ranks = [] ∧ State.reset.transit = [] ∧ State.reset.collected = [] ∧ State.reset.starvation = 0 ∧
  (∀ d : DomainId, State.reset.deadlines[d] = { value := 0, running := false }) ∧
  State.reset.timebase = 10 ∧ State.reset.divider = 0 ∧ State.reset.edge = .rising ∧ State.reset.markCounter = 0 ∧
  State.reset.fault = none ∧ State.reset.lost = false ∧ State.reset.latches = 0 ∧ State.reset.enables = 0 ∧
  State.reset.argument0 = 0 ∧ State.reset.argument1 = 0 ∧
  State.reset.commandResult = { result := .none, code := 0 } ∧ State.reset.lastWrite = .accepted ∧
  State.reset.resetCause = .power ∧ State.reset.draining = false ∧ State.reset.pending = [])

/-- RESET_ALL with an operation outstanding begins the drain: intake stops, every waiting request is answered FAILED,
oldest first, and the PENDING walk jobs leave (R178, R129, R37). -/
def Obligations.ResetAllBeginsDrain : Prop :=
  ∀ s : State, s.draining = false → quiescent s = false →
    exec .resetAll s = .next
      { s with
        draining := true
        ranks := []
        responses := s.responses ++ s.ranks.map fun k =>
          { initiator := k.request.initiator, tag := k.request.tag, status := .failed, dup := false, beats := [] }
        walkJobs := s.walkJobs.filter fun j => decide (j.status ≠ .pending)
        commandResult := { result := .done, code := 0x1F } }

/-- The drain ends in the event that leaves nothing outstanding: every block takes its reset values, the fault
record and LOST are kept and the cause is SOFT (R178). In a drain with something outstanding, a completion does what
it does outside a drain, and ends the drain when that leaves nothing outstanding; RESET_ALL that finds nothing
outstanding ends its drain in its own event (log entry 8). SOFT_RESET_DRAIN_END as a command of its own ends a drain
that is due, in states that no run reaches, and changes nothing in a drain that is not due: the model's reading of
the row (log entry 3). A tag that an earlier power-on or pin reset abandoned stays abandoned (R161; log entry 5). -/
def Obligations.DrainEnds : Prop :=
  (∀ s : State, s.draining = true → quiescent s = true →
    exec .softResetDrainEnd s = .next
      { State.reset with fault := s.fault, lost := s.lost, lineLevel := s.lineLevel, resetCause := .soft,
                         abandoned := s.abandoned, responses := s.responses, portOperations := s.portOperations, pending := s.pending }) ∧
  (∀ s : State, s.draining = true → quiescent s = false → exec .softResetDrainEnd s = .next s) ∧
  (∀ s : State, s.draining = false → quiescent s = true →
    exec .resetAll s = .next
      { State.reset with
        fault := s.fault, lost := s.lost, lineLevel := s.lineLevel, resetCause := .soft, abandoned := s.abandoned
        responses := s.responses ++ s.ranks.map fun k =>
          { initiator := k.request.initiator, tag := k.request.tag, status := .failed, dup := false, beats := [] }
        portOperations := s.portOperations, pending := s.pending }) ∧
  ∀ (c : Instr) (s : State), IsCompletion c → s.draining = true → quiescent s = false →
    ∃ t, exec c { s with draining := false } = .next t ∧
      exec c s = .next (if quiescent t = true then
        { State.reset with
          fault := t.fault, lost := t.lost, lineLevel := s.lineLevel, resetCause := .soft, abandoned := t.abandoned
          responses := t.responses, portOperations := s.portOperations, pending := s.pending }
      else { t with draining := true })

/-- While a soft reset drains, every command is answered BUSY and changes nothing else (R178, R41, R176). While a
soft reset drains, every setting write but the clearing of alert latches is refused (R15, R39, R107, R132, R162,
R166, R172, R175), and no request is taken (R126, R178). -/
def Obligations.DrainAnswersBusyAndRefuses : Prop :=
  (∀ (d : DomainId) (s : State), s.draining = true →
    exec (.openDomain d) s = .next { s with commandResult := { result := .busy, code := 0x01 } } ∧
    exec (.commit d) s = .next { s with commandResult := { result := .busy, code := 0x02 } } ∧
    exec (.commitAtMark d) s = .next { s with commandResult := { result := .busy, code := 0x03 } } ∧
    exec (.rollback d) s = .next { s with commandResult := { result := .busy, code := 0x04 } } ∧
    exec .poolLoad s = .next { s with commandResult := { result := .busy, code := 0x10 } } ∧
    exec .flushCache s = .next { s with commandResult := { result := .busy, code := 0x11 } } ∧
    exec .clearFault s = .next { s with commandResult := { result := .busy, code := 0x12 } } ∧
    exec .resetAll s = .next { s with commandResult := { result := .busy, code := 0x1F } }) ∧
  (∀ s : State, s.draining = true →
    (∀ w word data, exec (.windowSettingWrite w word data) s = .next { s with lastWrite := .refused }) ∧
    (∀ d word data, exec (.domainSettingWrite d word data) s = .next { s with lastWrite := .refused }) ∧
    (∀ i word data, exec (.initiatorSettingWrite i word data) s = .next { s with lastWrite := .refused }) ∧
    (∀ data, exec (.poolThresholdWrite data) s = .next { s with lastWrite := .refused }) ∧
    (∀ data, exec (.timebaseAndEdgeWrite data) s = .next { s with lastWrite := .refused }) ∧
    (∀ data, exec (.alertEnablesWrite data) s = .next { s with lastWrite := .refused }) ∧
    (∀ offset data, offset ≠ 0x0000#16 → offset ≠ 0x0030#16 →
      exec (.settingWrite offset data) s = .next { s with lastWrite := .refused }) ∧
    ∀ r, exec (.upstreamRequest r) s = .next s)

/-! ## Management commands -/

/-- OPEN in CLOSED: the domain enters OPEN, its epoch number advances, its sequence numbers start again and its
deadline counter takes the reload (R43, R44, R163). A domain command in a state that gives it no row of Table 3-3 is
refused with STATE and changes nothing else (R41). -/
def Obligations.OpenEntersOpen : Prop :=
  (∀ (d : DomainId) (s : State), s.draining = false → s.domains[d].state = .closed →
    exec (.openDomain d) s = .next
      { s with
        domains := s.domains.set d
          { s.domains[d] with state := .opened, epoch := s.domains[d].epoch + 1, nextSequence := 0,
                              sequenceSpent := false }
        deadlines := s.deadlines.set d
          { value := s.domains[d].settings.deadlineReload.toNat,
            running := decide (s.domains[d].settings.deadlineReload ≠ 0) }
        commandResult := { result := .done, code := 0x01 } }) ∧
  (∀ (d : DomainId) (s : State), s.draining = false →
    (s.domains[d].state ≠ .closed →
      exec (.openDomain d) s = .next { s with commandResult := { result := .state, code := 0x01 } }) ∧
    (s.domains[d].state ≠ .opened → s.domains[d].state ≠ .marked → s.domains[d].state ≠ .faulted →
      exec (.commit d) s = .next { s with commandResult := { result := .state, code := 0x02 } }) ∧
    (s.domains[d].state ≠ .opened → s.domains[d].state ≠ .marked →
      exec (.rollback d) s = .next { s with commandResult := { result := .state, code := 0x04 } }))

/-- COMMIT and ROLLBACK of an OPEN or MARKED domain whose DRAIN condition does not hold: the domain enters DRAIN and its
deadline counter stops with its value kept (R65, R68, R69, R85, R89, R90, R164). -/
def Obligations.CommitAndRollbackEnterDrain : Prop :=
  ∀ (d : DomainId) (s : State), s.draining = false →
    (s.domains[d].state = .opened ∨ s.domains[d].state = .marked) →
    (commitDrained d s = false →
      exec (.commit d) s = .next
        { s with
          domains := s.domains.set d { s.domains[d] with state := .committing .drain }
          deadlines := s.deadlines.set d { s.deadlines[d] with running := false }
          commandResult := { result := .done, code := 0x02 } }) ∧
    (rollbackDrained d s = false →
      exec (.rollback d) s = .next
        { s with
          domains := s.domains.set d { s.domains[d] with state := .rollingBack }
          deadlines := s.deadlines.set d { s.deadlines[d] with running := false }
          commandResult := { result := .done, code := 0x04 } })

/-- COMMIT of a drained domain that has a LIVE entry reaches PUBLISH in its event: the domain joins the publication
order behind every domain already there and its DOMAIN waits end; a FAULTED domain publishes again (R65, R68, R69,
R72, R53, R81). COMMIT of an epoch that journaled nothing and has no write in transit goes through DRAIN, PUBLISH
and RELEASE in its event: COMMIT_DONE is set, the DOMAIN waits end, and the domain is CLOSED, or OPEN in a new epoch
with automatic reopen (R68, R72, R77, R78). -/
def Obligations.CommitReachesPublishOrReleases : Prop :=
  (∀ (d : DomainId) (s : State), s.draining = false → (entriesOf d s).any isLive = true →
    ((s.domains[d].state = .opened ∨ s.domains[d].state = .marked) → commitDrained d s = true →
      exec (.commit d) s = .next
        { s with
          domains := s.domains.set d { s.domains[d] with state := .committing .publish }
          deadlines := s.deadlines.set d { s.deadlines[d] with running := false }
          publication := s.publication ++ [{ domain := d, cursor := none }]
          ranks := s.ranks.map (wake (parkedOnDomain d))
          commandResult := { result := .done, code := 0x02 } }) ∧
    (s.domains[d].state = .faulted →
      exec (.commit d) s = .next
        { s with
          domains := s.domains.set d { s.domains[d] with state := .committing .publish }
          deadlines := s.deadlines.set d { s.deadlines[d] with running := false }
          publication := s.publication ++ [{ domain := d, cursor := none }]
          commandResult := { result := .done, code := 0x02 } })) ∧
  (∀ (d : DomainId) (s : State), s.draining = false →
    (s.domains[d].state = .opened ∨ s.domains[d].state = .marked) → entriesOf d s = [] → commitDrained d s = true →
    exec (.commit d) s = .next
      { s with
        domains := s.domains.set d
          (if s.domains[d].settings.autoReopen then
            { s.domains[d] with state := .opened, epoch := s.domains[d].epoch + 1, entryCount := 0,
                                nextSequence := 0, sequenceSpent := false }
          else { s.domains[d] with state := .closed, entryCount := 0 })
        deadlines := s.deadlines.set d
          (if s.domains[d].settings.autoReopen then
            { value := s.domains[d].settings.deadlineReload.toNat,
              running := decide (s.domains[d].settings.deadlineReload ≠ 0) }
          else { s.deadlines[d] with running := false })
        latches := s.latches ||| 1#18 <<< (6 + d.val)
        ranks := s.ranks.map (wake (parkedOnDomain d))
        commandResult := { result := .done, code := 0x02 } })

/-- COMMIT_AT_MARK moves OPEN to MARKED with everything else of the domain unchanged, changes nothing in MARKED, is refused
with STATE in every other state and answered BUSY in a drain; a MARKED domain's commit starts at the next mark event
(R66). -/
def Obligations.CommitAtMarkArms : Prop :=
  ∀ (d : DomainId) (s : State),
    (s.draining = true →
      exec (.commitAtMark d) s = .next { s with commandResult := { result := .busy, code := 0x03 } }) ∧
    (s.draining = false →
      (s.domains[d].state = .opened →
        exec (.commitAtMark d) s = .next
          { s with
            domains := s.domains.set d { s.domains[d] with state := .marked }
            commandResult := { result := .done, code := 0x03 } }) ∧
      (s.domains[d].state = .marked →
        exec (.commitAtMark d) s = .next { s with commandResult := { result := .done, code := 0x03 } }) ∧
      (s.domains[d].state ≠ .opened → s.domains[d].state ≠ .marked →
        exec (.commitAtMark d) s = .next { s with commandResult := { result := .state, code := 0x03 } })) ∧
    (s.domains[d].state = .marked → s.lineLevel = inactiveLevel s.edge →
      ∀ order : List DomainId, ∃ t, exec (.markEvent order) s = .next t ∧ t.domains[d].state ≠ .marked ∧
        (commitDrained d s = false → t.domains[d].state = .committing .drain))

/-- ROLLBACK of a drained domain discards the epoch in its event: the new frames return in descending sequence number, the
entries are removed, ROLLBACK_DONE is set, the domain is CLOSED and its DOMAIN waits end (R85, R89, R94). -/
def Obligations.RollbackDiscards : Prop :=
  ∀ (d : DomainId) (s : State) (es : List ChangeEntry), s.draining = false →
    (s.domains[d].state = .opened ∨ s.domains[d].state = .marked) → rollbackDrained d s = true →
    es.Perm (entriesOf d s) → es.Pairwise (fun a b => b.sequence < a.sequence) →
    exec (.rollback d) s = .next
      { s with
        domains := s.domains.set d { s.domains[d] with state := .closed, entryCount := 0 }
        deadlines := s.deadlines.set d { s.deadlines[d] with running := false }
        changes := s.changes.filter fun e => !decide (e.domain = d)
        freeFrames := s.freeFrames ++ es.map (·.newFrame)
        latches := s.latches ||| 1#18 <<< (10 + d.val)
        ranks := s.ranks.map (wake (parkedOnDomain d))
        commandResult := { result := .done, code := 0x04 } }

/-- POOL_LOAD: a count outside 1 to 4096, a base that is not a multiple of 4096 or frames past the address space are
refused with ARG; a domain that is not CLOSED or an entry of the Change Table with BUSY; else the queue is replaced by
the count of frames that rise from the base (R103, R104, R176). -/
def Obligations.PoolLoadDecides : Prop :=
  ∀ (base count : Nat) (s : State), s.draining = false →
    base = (s.argument1.extractLsb' 0 8).toNat * 2 ^ 32 + s.argument0.toNat →
    count = (s.argument1.extractLsb' 16 13).toNat →
    exec .poolLoad s = .next
      (if 1 ≤ count ∧ count ≤ 4096 ∧ base % 4096 = 0 ∧ base + 4096 * count ≤ 2 ^ 40 then
        if (∀ d : DomainId, s.domains[d].state = .closed) ∧ s.changes = [] then
          { s with
            freeFrames := (List.range count).map fun k => BitVec.ofNat 28 (base / 4096 + k)
            poolSize := count
            commandResult := { result := .done, code := 0x10 } }
        else { s with commandResult := { result := .busy, code := 0x10 } }
      else { s with commandResult := { result := .arg, code := 0x10 } })

/-- FLUSH_CACHE outside a drain empties the cache, keeps the pointer and changes nothing else; a walk that completes after
it fills the cache with the value it read (R177, R27, R29). -/
def Obligations.FlushCacheEmptiesCache : Prop :=
  ∀ s : State, s.draining = false →
    exec .flushCache s = .next
      { s with cache := Vector.replicate 32 none, commandResult := { result := .done, code := 0x11 } } ∧
    ∀ (tag : LinkTag) (j : WalkJob) (entry : Beat),
      tag ∉ s.abandoned → s.walkJobs.find? (fun k => walkTag k == some tag) = some j →
      mapUsable entry = true → isUnpublishedFrame (mapFrame entry) s = false →
      ∃ t, exec (.walkCompletion tag .okay entry)
          { s with cache := Vector.replicate 32 none, commandResult := { result := .done, code := 0x11 } } = .next t ∧
        t.cache[(0 : Fin 32)] = some { window := j.window, tile := j.tile, frame := entry.extractLsb' 12 28,
                                       writable := entry.getLsbD 1, sw := entry.extractLsb' 2 10 }

/-- CLEAR_FAULT outside a drain empties the record and LOST and leaves latch FAULT; a report taken before it is lost, and
one taken after it fills the empty record; in a drain it is answered BUSY (R171). -/
def Obligations.ClearFaultEmptiesRecord : Prop :=
  ∀ s : State,
    (s.draining = true → exec .clearFault s = .next { s with commandResult := { result := .busy, code := 0x12 } }) ∧
    (s.draining = false →
      exec .clearFault s = .next
        { s with fault := none, lost := false, commandResult := { result := .done, code := 0x12 } } ∧
      ∀ f : FaultReport,
        exec .clearFault (reportFault f s) = .next
          { s with fault := none, lost := false, latches := (reportFault f s).latches,
                   commandResult := { result := .done, code := 0x12 } } ∧
        (reportFault f { s with fault := none, lost := false }).fault = some f ∧
        (reportFault f { s with fault := none, lost := false }).lost = false)

/-- A word written at the command offset that names no command gets result ARG with its code and changes nothing
else (R176, Table 12-6). In a soft reset drain, where R176 also says that every command is answered BUSY, ARG is the
model's reading (log entry 8). -/
def Obligations.UnknownCommandAnswersArg : Prop :=
  ∀ (word : Word) (s : State),
    (word.extractLsb' 10 22 ≠ 0 ∨ word.extractLsb' 0 8 ∉ ([1, 2, 3, 4, 0x10, 0x11, 0x12, 0x1F] : List Byte)) →
    exec (.unknownCommand word) s = .next
      { s with commandResult := { result := .arg, code := word.extractLsb' 0 8 } }

/-! ## Setting writes -/

/-- A write to a window setting word (R15, R16, R175): refused when the word's value names no setting, when the
window is JOURNALED under a domain that is not CLOSED before or after the write, or when it is JOURNALED and a
waiting or issued request names it; accepted otherwise, and then the cache loses every entry of the window. The
values that the four setting words give a window: a size exponent outside 16 to 36, the kind code 3 and a one in a
bit that the word does not name are refused (Tables 1-1 and 12-5, R15, R175). -/
def Obligations.WindowSettingWriteDecides : Prop :=
  (∀ (w : WindowId) (word : WindowWord) (data : Word) (s : State), s.draining = false →
    exec (.windowSettingWrite w word data) s = .next
      (match windowWith s.windows[w] word data with
       | none => { s with lastWrite := .refused }
       | some new =>
         if (s.windows[w].kind = .journaled ∧
              (s.domains[s.windows[w].domain].state ≠ .closed ∨
                (∃ k ∈ s.ranks, regionWindow k.decoded.region = some w) ∨ ∃ e ∈ s.transit, e.window = some w)) ∨
            (new.kind = .journaled ∧ s.domains[new.domain].state ≠ .closed) then
           { s with lastWrite := .refused }
         else
           { s with
             windows := s.windows.set w new
             cache := Vector.ofFn fun i => s.cache[i].filter fun c => decide (c.window ≠ w)
             lastWrite := .accepted })) ∧
  (∀ (old : Window) (data : Word),
    (∀ new, windowWith old .control data = some new ↔
      data &&& 0xFFFCC0F8 = 0 ∧ data.extractLsb' 1 2 ≠ 3 ∧ 16 ≤ (data.extractLsb' 8 6).toNat ∧
        (data.extractLsb' 8 6).toNat ≤ 36 ∧
        new = { old with
          enable := data.getLsbD 0
          kind := if data.extractLsb' 1 2 = 0 then .pass else if data.extractLsb' 1 2 = 1 then .guarded else .journaled
          sizeExp := (data.extractLsb' 8 6).toNat
          domain := (data.extractLsb' 16 2).toFin }) ∧
    (∀ new, windowWith old .base data = some new ↔
      data &&& 0x0000FFFF = 0 ∧
        new = { old with baseHigh := old.baseHigh.extractLsb' 16 8 ++ data.extractLsb' 16 16 }) ∧
    (∀ new, windowWith old .high data = some new ↔
      data &&& 0xFF00FF00 = 0 ∧
        new = { old with baseHigh := data.extractLsb' 0 8 ++ old.baseHigh.extractLsb' 0 16
                         mapPage := data.extractLsb' 16 8 ++ old.mapPage.extractLsb' 0 20 }) ∧
    ∀ new, windowWith old .mapBase data = some new ↔
      data &&& 0x00000FFF = 0 ∧ new = { old with mapPage := old.mapPage.extractLsb' 20 8 ++ data.extractLsb' 12 20 })

/-- A write to a domain setting word is accepted while the domain is CLOSED, and refused in any other state, for a quota
outside 1 to 256, an action code 3, or a one in a bit that the word does not name (R39, R175, Table 3-2). -/
def Obligations.DomainSettingWriteDecides : Prop :=
  ∀ (d : DomainId) (data : Word) (s : State), s.draining = false →
    exec (.domainSettingWrite d .settings0 data) s = .next
      (if s.domains[d].state = .closed ∧ data &&& 0xFFFE0E00 = 0 ∧ 1 ≤ (data.extractLsb' 0 9).toNat ∧
          (data.extractLsb' 0 9).toNat ≤ 256 then
        { s with
          domains := s.domains.set d
            { s.domains[d] with
              settings := { s.domains[d].settings with
                quota := (data.extractLsb' 0 9).toNat
                overflow := if data.getLsbD 12 then .rollback else .refuse
                closedWrite := if data.getLsbD 13 then .refuse else .allow
                violationAbort := data.getLsbD 14
                autoMark := data.getLsbD 15
                autoReopen := data.getLsbD 16 } }
          lastWrite := .accepted }
      else { s with lastWrite := .refused }) ∧
    exec (.domainSettingWrite d .settings1 data) s = .next
      (if s.domains[d].state = .closed ∧ data &&& 0xFFFC0000 = 0 ∧ data.extractLsb' 16 2 ≠ 3 then
        { s with
          domains := s.domains.set d
            { s.domains[d] with
              settings := { s.domains[d].settings with
                deadlineReload := data.extractLsb' 0 16
                deadlineAction := if data.extractLsb' 16 2 = 0 then .alert
                  else if data.extractLsb' 16 2 = 1 then .commit else .rollback } }
          lastWrite := .accepted }
      else { s with lastWrite := .refused })

/-- A write to an Initiator Table word is accepted in every domain state; a high bound above 2^40 and a one in a bit
that the word does not name are refused (R132, R175, Table 8-1). The other setting words outside a drain: the pool
threshold from 0 to 4096 (R107), the timebase and edge word with its divider restarted (R162, R166), the alert
enables and the clearing of alert latches (R172), and the argument words (R175); a value that a word does not name
is refused. A write to the alert latch word clears the latches whose positions carry a one and leaves the others, in
every state of the part, a soft reset drain included; a one above position 17 is refused (R172, R175). -/
def Obligations.OtherSettingWritesDecide : Prop :=
  (∀ (i : InitiatorId) (data : Word) (s : State), s.draining = false →
    exec (.initiatorSettingWrite i .control data) s = .next
      (if data &&& 0xFFFFFF0C = 0 then
        { s with
          initiators := s.initiators.set i
            { s.initiators[i] with
              state := if data.getLsbD 0 then .blocked else .enabled
              policy := if data.getLsbD 1 then .block else .refuse
              mask := data.extractLsb' 4 4 }
          lastWrite := .accepted }
      else { s with lastWrite := .refused }) ∧
    exec (.initiatorSettingWrite i .lowBound data) s = .next
      (if data &&& 0xF0000000 = 0 then
        { s with
          initiators := s.initiators.set i { s.initiators[i] with lowPage := data.extractLsb' 0 28 }
          lastWrite := .accepted }
      else { s with lastWrite := .refused }) ∧
    exec (.initiatorSettingWrite i .highBound data) s = .next
      (if data.toNat ≤ 2 ^ 28 then
        { s with
          initiators := s.initiators.set i { s.initiators[i] with highPage := data.extractLsb' 0 29 }
          lastWrite := .accepted }
      else { s with lastWrite := .refused })) ∧
  (∀ (data : Word) (s : State), s.draining = false →
    exec (.poolThresholdWrite data) s = .next
      (if data.toNat ≤ 4096 then { s with poolThreshold := data.toNat, lastWrite := .accepted }
      else { s with lastWrite := .refused }) ∧
    exec (.timebaseAndEdgeWrite data) s = .next
      (if data &&& 0xFFFFFEF0 = 0 then
        { s with timebase := data.extractLsb' 0 4, divider := 0,
                 edge := if data.getLsbD 8 then .falling else .rising, lastWrite := .accepted }
      else { s with lastWrite := .refused }) ∧
    exec (.alertEnablesWrite data) s = .next
      (if data &&& 0xFFFC0000 = 0 then { s with enables := data.extractLsb' 0 18, lastWrite := .accepted }
      else { s with lastWrite := .refused }) ∧
    exec (.settingWrite 0x0004 data) s = .next { s with argument0 := data, lastWrite := .accepted } ∧
    exec (.settingWrite 0x0008 data) s = .next
      (if data &&& 0xE000FF00 = 0 then { s with argument1 := data, lastWrite := .accepted }
      else { s with lastWrite := .refused })) ∧
  (∀ (data : Word) (s : State),
    (data &&& 0xFFFC0000 = 0 →
      ∃ t, exec (.alertLatchesWrite data) s = .next { s with latches := t, lastWrite := .accepted } ∧
        ∀ n : Nat, n < 18 → t.getLsbD n = (s.latches.getLsbD n && !data.getLsbD n)) ∧
    (data &&& 0xFFFC0000 ≠ 0 → exec (.alertLatchesWrite data) s = .next { s with lastWrite := .refused }))

/-- A write to a read-only word or to an offset that names no word is refused and changes nothing but the last-write
status (R175, Table 12-5). A management write to the offset of another row's setting word has that row's effect
(R175). -/
def Obligations.SettingWriteDispatches : Prop :=
  (∀ (offset : Offset) (data : Word) (s : State),
    (offset.toNat % 4 ≠ 0 ∨ 0x000C ≤ offset.toNat ∧ offset.toNat < 0x0030 ∨
      0x0040 ≤ offset.toNat ∧ offset.toNat < 0x0140 ∨ 0x0160 ≤ offset.toNat ∧ offset.toNat < 0x0200 ∨
      0x0280 ≤ offset.toNat ∧ offset.toNat < 0x0300 ∨ 0x0300 ≤ offset.toNat ∧ offset.toNat % 16 = 12 ∨
      0x0400 ≤ offset.toNat) →
    exec (.settingWrite offset data) s = .next { s with lastWrite := .refused }) ∧
  (∀ (offset : Offset) (data : Word) (s : State), exec (.settingWrite offset data) s = exec (writeRow offset data) s)

/-- What an accepted setting write wrote is what the word reads back, bit for bit, for every setting word of the port
(R17, R40, R131, R174). -/
def Obligations.SettingsReadBack : Prop :=
  ∀ (s t : State) (data : Word), t.lastWrite = .accepted →
    (∀ w word, exec (.windowSettingWrite w word data) s = .next t → registerValue t (.window w word) = data) ∧
    (∀ d word, exec (.domainSettingWrite d word data) s = .next t →
      registerValue t (.domainSettings d word) = data) ∧
    (∀ i word, exec (.initiatorSettingWrite i word data) s = .next t → registerValue t (.initiator i word) = data) ∧
    (exec (.poolThresholdWrite data) s = .next t → registerValue t .poolThreshold = data) ∧
    (exec (.timebaseAndEdgeWrite data) s = .next t → registerValue t .timebaseAndEdge = data) ∧
    (exec (.alertEnablesWrite data) s = .next t → registerValue t .alertEnables = data) ∧
    (exec (.settingWrite 0x0004 data) s = .next t → registerValue t .argument0 = data) ∧
    (exec (.settingWrite 0x0008 data) s = .next t → registerValue t .argument1 = data)

/-! ## Faults and alerts -/

/-- A fault report fills an empty record and sets latch FAULT; with the record full it sets LOST and nothing else
(R170). -/
def Obligations.FaultReportFillsRecord : Prop :=
  ∀ (f : FaultReport) (s : State),
    (s.fault = none → reportFault f s = { s with fault := some f, latches := s.latches ||| 1#18 }) ∧
    (s.fault ≠ none → reportFault f s = { s with lost := true })

/-- ALERT is active just while a latch is set with its enable set; a write of the enables that enables a set latch
makes it active in its event, and it is inactive after every reset, the end of a soft reset drain in whatever event
included (R173). -/
def Obligations.AlertLineFollowsLatches : Prop :=
  (∀ s : State, alertLine s = true ↔ ∃ a : Alert, s.latches.getLsbD (alertBit a) = true ∧
    s.enables.getLsbD (alertBit a) = true) ∧
  (∀ (a : Alert) (data : Word) (s t : State), s.latches.getLsbD (alertBit a) = true →
    data.getLsbD (alertBit a) = true → exec (.alertEnablesWrite data) s = .next t → t.lastWrite = .accepted →
    alertLine t = true) ∧
  ∀ (c : Instr) (s t : State), ResetBy c s t → alertLine t = false

/-! ## Deadlines and the EPOCH line -/

/-- The tick that brings running counters from 1 to 0 stops them at 0 and sets their DEADLINE latches; with action
ALERT it does nothing else to their domains (R164, R165). That a TICK given as a command begins a new period of the
divider is the model's choice (log entry 9), and so is the operand that orders the domains (log entry 6). -/
def Obligations.TickExpiryAlerts : Prop :=
  ∀ (order : List DomainId) (s : State),
    (∀ d : DomainId, s.deadlines[d].running = true → s.deadlines[d].value = 1 →
      s.domains[d].settings.deadlineAction = .alert) →
    ∃ latches : BitVec 18,
      exec (.tick order) s = .next
        { s with
          divider := 0
          deadlines := Vector.ofFn fun d =>
            if s.deadlines[d].running = true ∧ 0 < s.deadlines[d].value then
              { value := s.deadlines[d].value - 1, running := decide (s.deadlines[d].value ≠ 1) }
            else s.deadlines[d]
          latches := latches } ∧
      ∀ a : Alert, latches.getLsbD (alertBit a) =
        (s.latches.getLsbD (alertBit a) ||
          decide (∃ d : DomainId, a = .deadline d ∧ s.deadlines[d].running = true ∧ s.deadlines[d].value = 1))

/-- The expiry of a counter that is about to reach 0: it stops at 0, DEADLINE is set, and the deadline action is
decided in the same event: ALERT, and any action in a domain that is neither OPEN nor MARKED, does nothing more;
COMMIT and ROLLBACK do to an OPEN or MARKED domain what the command does (R165, R42). DEADLINE_EXPIRY taken by
itself, at a running counter of 1 or less, is the model's choice (log entry 7). A tick in which one counter expires
does to its domain what the expiry does, and lowers the others (R164, R165): the decision is made in the tick's own
event. That the tick begins a new period of the divider is the model's choice (log entry 9), and so is the operand
that orders the domains (log entry 6). -/
def Obligations.ExpiryDecidesInItsEvent : Prop :=
  (∀ (d : DomainId) (s : State), s.draining = false → s.deadlines[d].running = true → s.deadlines[d].value ≤ 1 →
    let expired : State := { s with
      deadlines := s.deadlines.set d { value := 0, running := false }
      latches := s.latches ||| 1#18 <<< (2 + d.val) }
    ((s.domains[d].settings.deadlineAction = .alert ∨
        (s.domains[d].state ≠ .opened ∧ s.domains[d].state ≠ .marked)) →
      exec (.deadlineExpiry d) s = .next expired) ∧
    (s.domains[d].settings.deadlineAction = .commit → (s.domains[d].state = .opened ∨ s.domains[d].state = .marked) →
      ∃ t, exec (.commit d) expired = .next t ∧
        exec (.deadlineExpiry d) s = .next { t with commandResult := s.commandResult }) ∧
    (s.domains[d].settings.deadlineAction = .rollback →
      (s.domains[d].state = .opened ∨ s.domains[d].state = .marked) →
      ∃ t, exec (.rollback d) expired = .next t ∧
        exec (.deadlineExpiry d) s = .next { t with commandResult := s.commandResult })) ∧
  (∀ (order : List DomainId) (d : DomainId) (s : State), s.deadlines[d].running = true → s.deadlines[d].value = 1 →
    (∀ e : DomainId, e ≠ d → ¬ (s.deadlines[e].running = true ∧ s.deadlines[e].value = 1)) →
    (s.domains[d].state = .opened ∨ s.domains[d].state = .marked) →
    let lowered : Vector DeadlineCounter 4 := Vector.ofFn fun e =>
      if e = d then { value := 0, running := false }
      else if s.deadlines[e].running = true ∧ 0 < s.deadlines[e].value then
        { value := s.deadlines[e].value - 1, running := true }
      else s.deadlines[e]
    (s.domains[d].settings.deadlineAction = .commit → commitDrained d s = false →
      exec (.tick order) s = .next
        { s with divider := 0, deadlines := lowered, latches := s.latches ||| 1#18 <<< (2 + d.val)
                 domains := s.domains.set d { s.domains[d] with state := .committing .drain } }) ∧
    (s.domains[d].settings.deadlineAction = .rollback → rollbackDrained d s = false →
      exec (.tick order) s = .next
        { s with divider := 0, deadlines := lowered, latches := s.latches ||| 1#18 <<< (2 + d.val)
                 domains := s.domains.set d { s.domains[d] with state := .rollingBack } }))

/-- A mark event raises the mark counter by one, from 65535 to 0, and reaches all four domains in its event: MARKED,
and OPEN with auto-mark on, enter COMMITTING.DRAIN with their deadline counters stopped, and no other domain moves;
of these, a domain whose DRAIN condition already holds and that has a LIVE entry goes on to PUBLISH in the event,
joins the publication order, and ends its DOMAIN waits (R68, R69, R72, R166, R167, R53), in the order that the
operand gives (log entry 6); and one that journaled nothing goes through RELEASE in the event (R72, R77, R78). That
MARK_EVENT at a line already at its active level is no event is the model's choice (log entry 2). The change of the
EPOCH line opposite to the selected edge moves the previous level and nothing else: it is no mark event (R166). -/
def Obligations.EpochLineChanges : Prop :=
  (∀ (order : List DomainId) (s : State),
    let armed : DomainId → Bool := fun d =>
      decide (s.domains[d].state = .marked) ||
        (decide (s.domains[d].state = .opened) && s.domains[d].settings.autoMark)
    let level : Level := match s.edge with | .rising => .high | .falling => .low
    (s.lineLevel = inactiveLevel s.edge →
      (∀ d : DomainId, armed d = true → commitDrained d s = true → (entriesOf d s).any isLive = true) →
      exec (.markEvent order) s = .next
        { s with
          lineLevel := level
          markCounter := s.markCounter + 1
          domains := Vector.ofFn fun d =>
            if armed d then
              { s.domains[d] with state := if commitDrained d s then .committing .publish else .committing .drain }
            else s.domains[d]
          deadlines := Vector.ofFn fun d =>
            if armed d then { s.deadlines[d] with running := false } else s.deadlines[d]
          publication := s.publication ++
            ((domainOrder order).filter fun d => armed d && commitDrained d s).map fun d =>
              { domain := d, cursor := none }
          ranks := s.ranks.map fun k =>
            if ∃ d, armed d = true ∧ commitDrained d s = true ∧ regionDomain k.decoded.region = some d ∧
                k.state = .parked .domain then
              { k with state := .eligible }
            else k }) ∧
    (∀ d : DomainId, s.lineLevel = inactiveLevel s.edge → armed d = true → (∀ e, armed e = true → e = d) →
      entriesOf d s = [] → commitDrained d s = true →
      exec (.markEvent order) s = .next
        { s with
          lineLevel := level
          markCounter := s.markCounter + 1
          domains := s.domains.set d
            (if s.domains[d].settings.autoReopen then
              { s.domains[d] with state := .opened, epoch := s.domains[d].epoch + 1, entryCount := 0,
                                  nextSequence := 0, sequenceSpent := false }
            else { s.domains[d] with state := .closed, entryCount := 0 })
          deadlines := s.deadlines.set d
            (if s.domains[d].settings.autoReopen then
              { value := s.domains[d].settings.deadlineReload.toNat,
                running := decide (s.domains[d].settings.deadlineReload ≠ 0) }
            else { s.deadlines[d] with running := false })
          latches := s.latches ||| 1#18 <<< (6 + d.val)
          ranks := s.ranks.map (wake (parkedOnDomain d)) }) ∧
    (s.lineLevel ≠ inactiveLevel s.edge → exec (.markEvent order) s = .next s)) ∧
  (∀ s : State, exec .epochLineInactiveChange s = .next
    { s with lineLevel := match s.edge with | .rising => .low | .falling => .high })

/-! ## Requests: intake -/

/-- A request presented while the port is not accepting, or with other beats than its length, is not taken (R126,
R142, R152): the model's choice for the second (log entry 4). There is no RANK_LEAVE for a rank that is FREE or
PARKED (R124; log entry 2). A completion that returns under no outstanding operation's link tag is not acted on
(R154, R161). The completion of an operation that a power-on or pin reset abandoned is not acted on: it frees no
entry, sends no response, reports no fault and ends no wait (R116, R151, R161); until then its link tag is given to
no operation, which is the model's reading (log entry 5). -/
def Obligations.EventsThatDoNotOccur : Prop :=
  (∀ (r : Request) (s : State),
    (s.ranks.length ≥ 8 ∨ s.draining = true ∨ r.length = 0 ∨ 16 < r.length ∨
      (r.kind = .write ∧ r.beats.length ≠ r.length) ∨ (r.kind = .read ∧ r.beats ≠ [])) →
    exec (.upstreamRequest r) s = .next s) ∧
  (∀ (n : Nat) (s : State), (∀ k, s.ranks[n]? = some k → k.state ≠ .eligible) → exec (.rankLeave n) s = .next s) ∧
  (∀ (tag : LinkTag) (status : Completion) (s : State), tagHeld tag s = false →
    (∀ entry, exec (.walkCompletion tag status entry) s = .next s) ∧
    exec (.publishWriteCompletion tag status) s = .next s ∧
    (∀ data, exec (.chunkCompletion tag status data) s = .next s) ∧
    ∀ beats, exec (.transitCompletion tag status beats) s = .next s) ∧
  (∀ (tag : LinkTag) (s : State), tag ∈ s.abandoned →
    let returned : State := { s with abandoned := s.abandoned.filter fun x => decide (x ≠ tag) }
    (∀ status entry, exec (.walkCompletion tag status entry) s = .next returned) ∧
    (∀ status, exec (.publishWriteCompletion tag status) s = .next returned) ∧
    (∀ status data, exec (.chunkCompletion tag status data) s = .next returned) ∧
    (∀ status beats, exec (.transitCompletion tag status beats) s = .next returned) ∧
    exec (.memoryPortGrant tag) s = .next s)

/-- The first three intake checks in their order: a duplicate pair is refused with DUP_TAG and the DUP indication, a
request of a BLOCKED initiator with INITIATOR_BLOCKED, one whose first and last bytes select differently with SPAN; none
of the three names a window or a domain (R133, R134, R135, R136, R3). -/
def Obligations.IntakeRefusesBeforeDecode : Prop :=
  ∀ (r : Request) (s : State), accepting s = true → r.wellFormed = true →
    (((∃ k ∈ s.ranks, k.request.initiator = r.initiator ∧ k.request.tag = r.tag) ∨
        (∃ e ∈ s.transit, e.initiator = r.initiator ∧ e.tag = r.tag)) →
      exec (.upstreamRequest r) s = .next
        { reportFault (requestFault .dupTag r none none s) s with
          responses := s.responses ++
            [{ initiator := r.initiator, tag := r.tag, status := .refused, dup := true, beats := [] }] }) ∧
    (pairInUse r.initiator r.tag s = false → s.initiators[r.initiator].state = .blocked →
      exec (.upstreamRequest r) s = .next
        { reportFault (requestFault .initiatorBlocked r none none s) s with
          responses := s.responses ++
            [{ initiator := r.initiator, tag := r.tag, status := .refused, dup := false, beats := [] }] }) ∧
    (pairInUse r.initiator r.tag s = false → s.initiators[r.initiator].state = .enabled →
      selectWindow s.windows (firstByte r) ≠ selectWindow s.windows (lastByte r) →
      exec (.upstreamRequest r) s = .next
        { reportFault (requestFault .span r none none s) s with
          responses := s.responses ++
            [{ initiator := r.initiator, tag := r.tag, status := .refused, dup := false, beats := [] }] })

/-- The access checks refuse in their order BOUNDS, GUARDED_WRITE, DOMAIN_DENIED: the request is answered REFUSED,
the fault is reported with the request's window and domain, an initiator of policy BLOCK becomes BLOCKED, and a
write of a domain with violation-abort on that is OPEN or MARKED starts its rollback, which is discarded in the same
event when its DRAIN condition already holds (R6, R87, R89, R94, R137, R138, R139, R141). -/
def Obligations.ViolationsAtIntake : Prop :=
  ∀ (r : Request) (dec : Decoded) (s : State), accepting s = true → r.wellFormed = true →
    pairInUse r.initiator r.tag s = false → s.initiators[r.initiator].state = .enabled →
    decodeRequest s.windows r = some dec →
    let bounds : Bool := decide (firstByte r < 4096 * s.initiators[r.initiator].lowPage.toNat) ||
      decide (4096 * s.initiators[r.initiator].highPage.toNat ≤ lastByte r)
    let guarded : Bool := decide (r.kind = .write ∧ ∃ w, dec.region = .guarded w)
    let denied : Bool := decide (r.kind = .write ∧ ∃ w d, dec.region = .journaled w d ∧
      s.initiators[r.initiator].mask.getLsbD d.val = false)
    let code : FaultCode := if bounds then .bounds else if guarded then .guardedWrite else .domainDenied
    let refused : State :=
      { reportFault (requestFault code r (regionWindow dec.region) (regionDomain dec.region) s) s with
        responses := s.responses ++
          [{ initiator := r.initiator, tag := r.tag, status := .refused, dup := false, beats := [] }]
        initiators := if s.initiators[r.initiator].policy = .block then
          s.initiators.set r.initiator { s.initiators[r.initiator] with state := .blocked } else s.initiators }
    (bounds || guarded || denied) = true →
    (∀ d, regionDomain dec.region = some d → r.kind = .write → s.domains[d].settings.violationAbort = true →
      (s.domains[d].state = .opened ∨ s.domains[d].state = .marked) → rollbackDrained d s = false →
      exec (.upstreamRequest r) s = .next
        { refused with
          domains := s.domains.set d { s.domains[d] with state := .rollingBack }
          deadlines := s.deadlines.set d { s.deadlines[d] with running := false } }) ∧
    (∀ (d : DomainId) (es : List ChangeEntry), regionDomain dec.region = some d → r.kind = .write →
      s.domains[d].settings.violationAbort = true → (s.domains[d].state = .opened ∨ s.domains[d].state = .marked) →
      rollbackDrained d s = true → es.Perm (entriesOf d s) → es.Pairwise (fun a b => b.sequence < a.sequence) →
      exec (.upstreamRequest r) s = .next
        { refused with
          domains := s.domains.set d { s.domains[d] with state := .closed, entryCount := 0 }
          deadlines := s.deadlines.set d { s.deadlines[d] with running := false }
          changes := s.changes.filter fun e => !decide (e.domain = d)
          freeFrames := s.freeFrames ++ es.map (·.newFrame)
          latches := refused.latches ||| 1#18 <<< (10 + d.val)
          ranks := s.ranks.map (wake (parkedOnDomain d)) }) ∧
    ((∀ d, regionDomain dec.region = some d → r.kind = .write → s.domains[d].settings.violationAbort = true →
      s.domains[d].state ≠ .opened ∧ s.domains[d].state ≠ .marked) →
      exec (.upstreamRequest r) s = .next refused)

/-- A write over the map area of an enabled JOURNALED window whose domain is not CLOSED is refused with MAP_BUSY, and the
fault names the lowest-numbered such window and its domain (R12, R14). -/
def Obligations.MapSnoopRefusesBusy : Prop :=
  ∀ (r : Request) (dec : Decoded) (w : WindowId) (s : State), accepting s = true → r.wellFormed = true →
    pairInUse r.initiator r.tag s = false → s.initiators[r.initiator].state = .enabled →
    decodeRequest s.windows r = some dec → outOfBounds r s = false → guardedWrite r dec.region = false →
    domainDenied r dec.region s = false → r.kind = .write → lastByte r < 2 ^ 40 →
    let busy : WindowId → Prop := fun v =>
      s.windows[v].enable = true ∧ s.windows[v].kind = .journaled ∧
      (∃ tile, tile < tileCount s.windows[v] ∧
        ((mapEntryAddress s.windows[v] tile).toNat ∈ coveredBeats r)) ∧
      s.domains[s.windows[v].domain].state ≠ .closed
    busy w → (∀ v : WindowId, v < w → ¬ busy v) →
    exec (.upstreamRequest r) s = .next
      { reportFault (requestFault .mapBusy r (some w) (some s.windows[w].domain) s) s with
        responses := s.responses ++
          [{ initiator := r.initiator, tag := r.tag, status := .refused, dup := false, beats := [] }] }

/-- A request of a PASS window, a GUARDED window or no window is forwarded untranslated as one piece: it claims a WAITING
transit entry at its own address, without a domain, or waits with reason TRANSIT when none is free. A write that passes
the map snoop first takes every tile whose map entry it overlaps out of the cache (R5, R6, R12, R13, R146, R147). -/
def Obligations.UntranslatedRequestIssues : Prop :=
  ∀ (r : Request) (dec : Decoded) (s : State), Admitted r dec s → regionDomain dec.region = none →
    let snooped : State := { s with
      cache := Vector.ofFn fun i => s.cache[i].filter fun c =>
        !(decide (r.kind = .write) && s.windows[c.window].enable && decide (s.windows[c.window].kind = .journaled) &&
          (overlappedTiles s.windows[c.window] r).contains c.tile) }
    (s.transit.length < 32 →
      exec (.upstreamRequest r) s = .next
        { snooped with
          transit := s.transit ++
            [{ initiator := r.initiator, tag := r.tag, place := .oneOfOne, kind := r.kind, burst := r.burst,
               count := r.length, domain := none, window := regionWindow dec.region,
               upstreamAddress := r.beatAddress ++ 0#3, memoryAddress := r.beatAddress ++ 0#3, beats := r.beats,
               state := .waiting }] }) ∧
    (32 ≤ s.transit.length →
      exec (.upstreamRequest r) s = .next
        { snooped with ranks := s.ranks ++ [{ request := r, decoded := dec, state := .parked .transit }] })

/-- A request whose initiator has a rank in the queue passes intake and waits behind it with reason ORDER as the youngest
rank, untranslated (R118, R119). -/
def Obligations.RequestWaitsInOrder : Prop :=
  ∀ (r : Request) (dec : Decoded) (s : State), accepting s = true → r.wellFormed = true →
    intakeChecks r s = none → decodeRequest s.windows r = some dec →
    (∃ k ∈ s.ranks, k.request.initiator = r.initiator) →
    exec (.upstreamRequest r) s = .next
      { snoopInvalidate r s with
        ranks := s.ranks ++ [{ request := r, decoded := dec, state := .parked .order }] }

/-! ## Requests: translation -/

/-- A request of a JOURNALED window whose pieces are all forwarded claims one WAITING transit entry for each of them, in
address order, at the translated addresses, or waits with reason TRANSIT when too few are free (R18 to R21, R48, R50,
R145, R146, R147). -/
def Obligations.TranslatedRequestIssues : Prop :=
  ∀ (r : Request) (dec : Decoded) (w : WindowId) (d : DomainId) (a : Piece → Address) (s : State), Admitted r dec s →
    dec.region = .journaled w d → (∀ p ∈ dec.pieces, Forwards r.kind w d p (a p) (snoopInvalidate r s)) →
    (s.transit.length + dec.pieces.length ≤ 32 →
      exec (.upstreamRequest r) s = .next
        { snoopInvalidate r s with
          transit := s.transit ++ dec.pieces.map fun p =>
            { initiator := r.initiator, tag := r.tag, place := p.place, kind := r.kind, burst := r.burst,
              count := p.count, domain := some d, window := some w, upstreamAddress := p.address,
              memoryAddress := a p, beats := (r.beats.drop p.skip).take p.count, state := .waiting } }) ∧
    (32 < s.transit.length + dec.pieces.length →
      exec (.upstreamRequest r) s = .next
        { snoopInvalidate r s with ranks := s.ranks ++ [{ request := r, decoded := dec, state := .parked .transit }] })

/-- A read of a tile with no change entry and no cached translation parks with reason WALK, and a PENDING walk job
of the tile is posted unless the walk list has one (R23, R30); a read of a ROLLING_BACK domain waits with reason
DOMAIN and posts no walk (R51); a read of a FAULTED domain is refused with DOMAIN_FAULTED (R52); at its arrival and
when it leaves a rank alike (R118, R124). The first piece that is not forwarded decides, and the forwarded pieces
before it claim nothing (R18, R19, R62). -/
def Obligations.ReadParksOrIsRefused : Prop :=
  ∀ (before : List Piece) (p : Piece) (ps : List Piece) (w : WindowId) (d : DomainId) (s : State),
    (∀ q ∈ before, ∃ a, Forwards .read w d q a s) →
    let posted : List WalkJob :=
      if (∃ j ∈ s.walkJobs, j.window = w ∧ j.tile = p.tile) then s.walkJobs
      else s.walkJobs ++ [{ window := w, tile := p.tile, mapAddress := mapEntryAddress s.windows[w] p.tile,
                            domain := s.windows[w].domain, status := .pending }]
    let missed : Prop := s.domains[d].state ≠ .rollingBack ∧ s.domains[d].state ≠ .faulted ∧
      findChange w p.tile s = none ∧ findCache w p.tile s = none
    (∀ r : Request, r.kind = .read →
      let dec : Decoded := { region := .journaled w d, pieces := before ++ p :: ps }
      Admitted r dec s →
      (missed → exec (.upstreamRequest r) s = .next
        { s with
          walkJobs := posted
          ranks := s.ranks ++ [{ request := r, decoded := dec, state := .parked (.walk w p.tile) }] }) ∧
      (s.domains[d].state = .rollingBack → exec (.upstreamRequest r) s = .next
        { s with ranks := s.ranks ++ [{ request := r, decoded := dec, state := .parked .domain }] }) ∧
      (s.domains[d].state = .faulted → exec (.upstreamRequest r) s = .next
        { reportFault (requestFault .domainFaulted r (some w) (some d) s) s with
          responses := s.responses ++
            [{ initiator := r.initiator, tag := r.tag, status := .refused, dup := false, beats := [] }] })) ∧
    ∀ (n : Nat) (k : Rank), s.ranks[n]? = some k → k.state = .eligible → k.request.kind = .read →
      k.decoded.region = .journaled w d → k.decoded.pieces = before ++ p :: ps →
      (missed → exec (.rankLeave n) s = .next
        { s with walkJobs := posted, ranks := s.ranks.set n { k with state := .parked (.walk w p.tile) } }) ∧
      (s.domains[d].state = .rollingBack → exec (.rankLeave n) s = .next
        { s with ranks := s.ranks.set n { k with state := .parked .domain } }) ∧
      (s.domains[d].state = .faulted → exec (.rankLeave n) s = .next
        { reportFault (requestFault .domainFaulted k.request (some w) (some d) s) s with
          responses := s.responses ++ [{ initiator := k.request.initiator, tag := k.request.tag, status := .refused,
                                         dup := false, beats := [] }]
          ranks := endOrder k.request.initiator (s.ranks.eraseIdx n) })

/-- Where a request is cut: one that runs over a tile boundary of its JOURNALED window has two pieces, in address order,
that hold all of its beats, each within one tile, and every other request is one piece (R145, R7). -/
def Obligations.RequestsAreCutAtTileBoundaries : Prop :=
  ∀ (ws : Vector Window 8) (r : Request) (dec : Decoded) (w : WindowId) (d : DomainId),
    16 ≤ ws[w].sizeExp → ws[w].sizeExp ≤ 36 → 1 ≤ r.length → r.length ≤ 16 →
    decodeRequest ws r = some dec → dec.region = .journaled w d →
    let offset : Nat := firstByte r - effectiveBase ws[w]
    (r.burst = .fixed ∨ offset % 4096 + 8 * r.length ≤ 4096 →
      dec.pieces = [{ place := .oneOfOne, address := r.beatAddress ++ 0#3, skip := 0, count := r.length,
                      tile := offset / 4096, offset := BitVec.ofNat 12 offset }]) ∧
    (r.burst = .incr ∧ 4096 < offset % 4096 + 8 * r.length →
      dec.pieces =
        [{ place := .oneOfTwo, address := r.beatAddress ++ 0#3, skip := 0, count := (4096 - offset % 4096) / 8,
           tile := offset / 4096, offset := BitVec.ofNat 12 offset },
         { place := .twoOfTwo, address := BitVec.ofNat 40 (firstByte r + (4096 - offset % 4096)),
           skip := (4096 - offset % 4096) / 8, count := r.length - (4096 - offset % 4096) / 8,
           tile := offset / 4096 + 1, offset := 0 }])

/-! ## Requests: the Hold Queue and the first write -/

/-- RANK_LEAVE of an ELIGIBLE request that is not translated, or whose pieces are all forwarded: it claims one
transit entry for each piece and its rank becomes FREE, and ORDER ends for the next rank of its initiator; with too
few entries free it parks again with TRANSIT and its age kept (R117, R118, R123, R124, R146). The end of ORDER: the
first rank of the initiator, if it is parked with ORDER, becomes ELIGIBLE; no other rank changes (R123). An arrival
that is evaluated is decided as the leaving of the same request from a new youngest rank (R118, R119, R124, R133). -/
def Obligations.RankLeaveIssues : Prop :=
  (∀ (n : Nat) (k : Rank) (p : Piece) (s : State), s.ranks[n]? = some k → k.state = .eligible →
    regionDomain k.decoded.region = none → k.decoded.pieces = [p] →
    (s.transit.length < 32 →
      exec (.rankLeave n) s = .next
        { s with
          ranks := endOrder k.request.initiator (s.ranks.eraseIdx n)
          transit := s.transit ++
            [{ initiator := k.request.initiator, tag := k.request.tag, place := p.place, kind := k.request.kind,
               burst := k.request.burst, count := p.count, domain := none, window := regionWindow k.decoded.region,
               upstreamAddress := p.address, memoryAddress := p.address,
               beats := (k.request.beats.drop p.skip).take p.count, state := .waiting }] }) ∧
    (32 ≤ s.transit.length →
      exec (.rankLeave n) s = .next { s with ranks := s.ranks.set n { k with state := .parked .transit } })) ∧
  (∀ (n : Nat) (k : Rank) (w : WindowId) (d : DomainId) (a : Piece → Address) (s : State), s.ranks[n]? = some k →
    k.state = .eligible → k.decoded.region = .journaled w d →
    (∀ p ∈ k.decoded.pieces, Forwards k.request.kind w d p (a p) s) →
    (s.transit.length + k.decoded.pieces.length ≤ 32 →
      exec (.rankLeave n) s = .next
        { s with
          ranks := endOrder k.request.initiator (s.ranks.eraseIdx n)
          transit := s.transit ++ k.decoded.pieces.map fun p =>
            { initiator := k.request.initiator, tag := k.request.tag, place := p.place, kind := k.request.kind,
              burst := k.request.burst, count := p.count, domain := some d, window := some w,
              upstreamAddress := p.address, memoryAddress := a p,
              beats := (k.request.beats.drop p.skip).take p.count, state := .waiting } }) ∧
    (32 < s.transit.length + k.decoded.pieces.length →
      exec (.rankLeave n) s = .next { s with ranks := s.ranks.set n { k with state := .parked .transit } })) ∧
  (∀ (r : Request) (dec : Decoded) (s : State), Admitted r dec s →
    exec (.upstreamRequest r) s = exec (.rankLeave s.ranks.length)
      { snoopInvalidate r s with ranks := s.ranks ++ [{ request := r, decoded := dec, state := .eligible }] }) ∧
  (∀ (i : InitiatorId) (before : List Rank) (k : Rank) (after : List Rank),
    (∀ x ∈ before, x.request.initiator ≠ i) →
    (k.request.initiator = i → k.state = .parked .order →
      endOrder i (before ++ k :: after) = before ++ { k with state := .eligible } :: after) ∧
    (k.request.initiator = i → k.state ≠ .parked .order → endOrder i (before ++ k :: after) = before ++ k :: after) ∧
    endOrder i before = before)

/-- A write of an OPEN or MARKED domain to a writable tile that the epoch has not written, with quota, table, pool
and a slot at hand, creates a COPYING entry with the domain's next sequence number, takes the head of the free
queue, drops that frame from the cache, starts the copy in the lowest free slot, and waits for it in its own rank;
so does a write whose second piece is the first of its tile, its first piece being forwarded (R47, R54, R57, R58,
R59, R62, R28, R105, R108). -/
def Obligations.FirstWriteCreatesEntry : Prop :=
  ∀ (n : Nat) (k : Rank) (before : List Piece) (p : Piece) (ps : List Piece) (w : WindowId) (d : DomainId) (c : CacheEntry) (f : Frame)
    (fs : List Frame) (b : SlotId) (s : State),
    s.ranks[n]? = some k → k.state = .eligible → k.request.kind = .write → k.decoded.region = .journaled w d →
    k.decoded.pieces = before ++ p :: ps → (∀ q ∈ before, ∃ a, Forwards .write w d q a s) →
    (s.domains[d].state = .opened ∨ s.domains[d].state = .marked) →
    findChange w p.tile s = none → findCache w p.tile s = some c → c.writable = true →
    s.domains[d].entryCount < s.domains[d].settings.quota → s.domains[d].sequenceSpent = false →
    s.changes.length < 256 → s.freeFrames = f :: fs →
    ((s.slots[(0 : SlotId)] = none ∧ b = 0) ∨
      (s.slots[(0 : SlotId)] ≠ none ∧ s.slots[(1 : SlotId)] = none ∧ b = 1)) →
    exec (.rankLeave n) s = .next
      { s with
        changes := s.changes ++
          [{ domain := d, window := w, tile := p.tile, oldFrame := c.frame, newFrame := f, savedW := true,
             savedSw := c.sw, sequence := s.domains[d].nextSequence, state := .copying b }]
        domains := s.domains.set d
          { s.domains[d] with
            entryCount := s.domains[d].entryCount + 1
            nextSequence := if s.domains[d].nextSequence < 255 then s.domains[d].nextSequence + 1
              else s.domains[d].nextSequence
            sequenceSpent := decide (255 ≤ s.domains[d].nextSequence) }
        freeFrames := fs
        latches := if fs.length + 1 = s.poolThreshold then s.latches ||| 2#18 else s.latches
        cache := Vector.ofFn fun i => s.cache[i].filter fun x => decide (x.frame ≠ f)
        slots := s.slots.set b
          (some { window := w, tile := p.tile, source := c.frame, destination := f, nextRead := 0, chunks := [],
                  progress := 0, stopping := false })
        ranks := s.ranks.set n { k with state := .parked (.copy w p.tile) } }

/-- A first write that fails a check is refused: JOURNAL_FULL when the quota is reached, the sequence numbers are
spent or the Change Table is full, else POOL_EMPTY with no free frame; overflow policy ROLLBACK then starts the
domain's rollback, which is discarded in the same event when its DRAIN condition already holds. With the checks
passed and both slots bound, it waits with reason SLOT and takes nothing (R54, R55, R56, R57, R89, R94). A write
that has its committed translation and is not forwarded: TILE_READONLY when its tile is not writable, with the
consequences of a violation, the rollback of violation-abort among them; CLOSED_WRITE in a CLOSED domain that
refuses writes (R22, R48, R87, R139, R141); a write whose tile is being copied waits with reason COPY (R49); one
with no translation waits with reason WALK and posts its walk (R23, R30); a write of a COMMITTING or ROLLING_BACK
domain waits with reason DOMAIN before any lookup (R50, R51); and one of a FAULTED domain is refused with
DOMAIN_FAULTED (R52). The first piece that is not forwarded decides, and the forwarded pieces before it claim
nothing (R18, R19, R62). -/
def Obligations.WritesThatAreNotForwarded : Prop :=
  (∀ (n : Nat) (k : Rank) (before : List Piece) (p : Piece) (ps : List Piece) (w : WindowId) (d : DomainId) (c : CacheEntry) (s : State),
    s.ranks[n]? = some k → k.state = .eligible → k.request.kind = .write → k.decoded.region = .journaled w d →
    k.decoded.pieces = before ++ p :: ps → (∀ q ∈ before, ∃ a, Forwards .write w d q a s) →
    (s.domains[d].state = .opened ∨ s.domains[d].state = .marked) →
    findChange w p.tile s = none → findCache w p.tile s = some c → c.writable = true →
    let full : Prop := s.domains[d].settings.quota ≤ s.domains[d].entryCount ∨ s.domains[d].sequenceSpent = true ∨
      256 ≤ s.changes.length
    let refused : FaultCode → State := fun code =>
      { reportFault (requestFault code k.request (some w) (some d) s) s with
        responses := s.responses ++ [{ initiator := k.request.initiator, tag := k.request.tag, status := .refused,
                                       dup := false, beats := [] }]
        ranks := endOrder k.request.initiator (s.ranks.eraseIdx n) }
    let rolledBack : FaultCode → State := fun code =>
      { refused code with
        domains := s.domains.set d { s.domains[d] with state := .rollingBack }
        deadlines := s.deadlines.set d { s.deadlines[d] with running := false } }
    let discarded : FaultCode → List ChangeEntry → State := fun code es =>
      { rolledBack code with
        domains := s.domains.set d { s.domains[d] with state := .closed, entryCount := 0 }
        changes := s.changes.filter fun e => !decide (e.domain = d)
        freeFrames := s.freeFrames ++ es.map (·.newFrame)
        latches := (refused code).latches ||| 1#18 <<< (10 + d.val)
        ranks := endOrder k.request.initiator ((s.ranks.map (wake (parkedOnDomain d))).eraseIdx n) }
    (s.domains[d].settings.overflow = .refuse →
      (full → exec (.rankLeave n) s = .next (refused .journalFull)) ∧
      (¬ full → s.freeFrames = [] → exec (.rankLeave n) s = .next (refused .poolEmpty))) ∧
    (s.domains[d].settings.overflow = .rollback → rollbackDrained d s = false →
      (full → exec (.rankLeave n) s = .next (rolledBack .journalFull)) ∧
      (¬ full → s.freeFrames = [] → exec (.rankLeave n) s = .next (rolledBack .poolEmpty))) ∧
    (∀ es : List ChangeEntry, s.domains[d].settings.overflow = .rollback → rollbackDrained d s = true →
      es.Perm (entriesOf d s) → es.Pairwise (fun x y => y.sequence < x.sequence) →
      (full → exec (.rankLeave n) s = .next (discarded .journalFull es)) ∧
      (¬ full → s.freeFrames = [] → exec (.rankLeave n) s = .next (discarded .poolEmpty es))) ∧
    (¬ full → s.freeFrames ≠ [] → s.slots[(0 : SlotId)] ≠ none → s.slots[(1 : SlotId)] ≠ none →
      exec (.rankLeave n) s = .next { s with ranks := s.ranks.set n { k with state := .parked .slot } })) ∧
  (∀ (n : Nat) (k : Rank) (before : List Piece) (p : Piece) (ps : List Piece) (w : WindowId) (d : DomainId) (s : State),
    s.ranks[n]? = some k → k.state = .eligible → k.request.kind = .write → k.decoded.region = .journaled w d →
    k.decoded.pieces = before ++ p :: ps → (∀ q ∈ before, ∃ a, Forwards .write w d q a s) →
    let refused : FaultCode → State := fun code =>
      { reportFault (requestFault code k.request (some w) (some d) s) s with
        responses := s.responses ++ [{ initiator := k.request.initiator, tag := k.request.tag, status := .refused,
                                       dup := false, beats := [] }]
        ranks := endOrder k.request.initiator (s.ranks.eraseIdx n) }
    let lookedUp : Prop :=
      s.domains[d].state = .closed ∨ s.domains[d].state = .opened ∨ s.domains[d].state = .marked
    let readonly : State :=
      { refused .tileReadonly with
        initiators := if s.initiators[k.request.initiator].policy = .block then
          s.initiators.set k.request.initiator { s.initiators[k.request.initiator] with state := .blocked }
          else s.initiators }
    (∀ c, findChange w p.tile s = none → findCache w p.tile s = some c → c.writable = false → lookedUp →
      ((s.domains[d].settings.violationAbort = false ∨ s.domains[d].state = .closed) →
        exec (.rankLeave n) s = .next readonly) ∧
      (s.domains[d].settings.violationAbort = true → s.domains[d].state ≠ .closed →
        (rollbackDrained d s = false →
          exec (.rankLeave n) s = .next
            { readonly with
              domains := s.domains.set d { s.domains[d] with state := .rollingBack }
              deadlines := s.deadlines.set d { s.deadlines[d] with running := false } }) ∧
        (∀ es : List ChangeEntry, rollbackDrained d s = true → es.Perm (entriesOf d s) →
          es.Pairwise (fun x y => y.sequence < x.sequence) →
          exec (.rankLeave n) s = .next
            { readonly with
              domains := s.domains.set d { s.domains[d] with state := .closed, entryCount := 0 }
              deadlines := s.deadlines.set d { s.deadlines[d] with running := false }
              changes := s.changes.filter fun e => !decide (e.domain = d)
              freeFrames := s.freeFrames ++ es.map (·.newFrame)
              latches := readonly.latches ||| 1#18 <<< (10 + d.val)
              ranks := endOrder k.request.initiator ((s.ranks.map (wake (parkedOnDomain d))).eraseIdx n) }))) ∧
    (lookedUp → (∃ e, findChange w p.tile s = some e ∧ isCopying e = true) →
      exec (.rankLeave n) s = .next { s with ranks := s.ranks.set n { k with state := .parked (.copy w p.tile) } }) ∧
    (lookedUp → findChange w p.tile s = none → findCache w p.tile s = none →
      exec (.rankLeave n) s = .next
        { s with
          walkJobs := if (∃ j ∈ s.walkJobs, j.window = w ∧ j.tile = p.tile) then s.walkJobs
            else s.walkJobs ++ [{ window := w, tile := p.tile, mapAddress := mapEntryAddress s.windows[w] p.tile,
                                  domain := s.windows[w].domain, status := .pending }]
          ranks := s.ranks.set n { k with state := .parked (.walk w p.tile) } }) ∧
    (s.domains[d].state = .faulted → exec (.rankLeave n) s = .next (refused .domainFaulted)) ∧
    (∀ c, findChange w p.tile s = none → findCache w p.tile s = some c → c.writable = true →
      s.domains[d].state = .closed → s.domains[d].settings.closedWrite = .refuse →
      exec (.rankLeave n) s = .next (refused .closedWrite)) ∧
    ((s.domains[d].state = .committing .drain ∨ s.domains[d].state = .committing .publish ∨
        s.domains[d].state = .rollingBack) →
      exec (.rankLeave n) s = .next { s with ranks := s.ranks.set n { k with state := .parked .domain } }))

/-! ## The memory port: grants -/

/-- The order of the grants: the Copy Engine when it waits and the starvation counter stands at 8; else the Map Walker,
then forwarded traffic, then the Copy Engine, slot 0 before slot 1; with nothing waiting, or under a link tag that another
operation holds, no grant is made (R154, R156, R157; log entry 5). -/
def Obligations.GrantOrder : Prop :=
  ∀ (tag : LinkTag) (s : State),
    let slot : State := grantSlot (if slotWaits 0 s then 0 else 1) tag s
    (tagHeld tag s = true → exec (.memoryPortGrant tag) s = .next s) ∧
    (tagHeld tag s = false →
      (copyWaits s = true → s.starvation = 8 → exec (.memoryPortGrant tag) s = .next slot) ∧
      ((copyWaits s = true → s.starvation ≠ 8) →
        (walkerWaits s = true → exec (.memoryPortGrant tag) s = .next (grantWalker tag s)) ∧
        (walkerWaits s = false →
          ((∃ e ∈ s.transit, e.state = .waiting) → exec (.memoryPortGrant tag) s = .next (grantForwarded tag s)) ∧
          ((∀ e ∈ s.transit, e.state ≠ .waiting) →
            (copyWaits s = true → exec (.memoryPortGrant tag) s = .next slot) ∧
            (copyWaits s = false → exec (.memoryPortGrant tag) s = .next s)))))

/-- A grant to the Map Walker with a walk pending sends the oldest PENDING job's walk, one 8-byte READ of its map
address, before any publish write; the job is then ISSUED (R31, R153, R156). A grant to the Map Walker with no walk
pending sends the next publish write of the domain that entered PUBLISH earliest among those with writes still to
issue: the LIVE entry with the smallest sequence number above the cursor, whose whole map entry is written with V =
1, the saved W and SW and the new frame (R10, R31, R32, R153). That the cursor moves at the grant is the model's
reading (log entry 13), and that both operations are sent as INCR of one beat is the model's choice (log entry 26). -/
def Obligations.GrantSendsWalkOrPublishWrite : Prop :=
  (∀ (tag : LinkTag) (s : State) (before after : List WalkJob) (j : WalkJob),
    tagHeld tag s = false → (copyWaits s = true → s.starvation ≠ 8) → walkerBusy s = false → s.draining = false →
    s.walkJobs = before ++ j :: after → (∀ k ∈ before, k.status ≠ .pending) → j.status = .pending →
    exec (.memoryPortGrant tag) s = .next
      { s with
        walkJobs := before ++ { j with status := .issued tag } :: after
        portOperations := s.portOperations ++
          [{ tag := tag, kind := .read, address := j.mapAddress, burst := .incr, count := 1, beats := [] }] }) ∧
  (∀ (tag : LinkTag) (s : State) (before after : List Publication) (p : Publication) (e : ChangeEntry),
    tagHeld tag s = false → (copyWaits s = true → s.starvation ≠ 8) → walkerBusy s = false → s.draining = false →
    (∀ j ∈ s.walkJobs, j.status ≠ .pending) → s.publication = before ++ p :: after →
    (s.publication.map (·.domain)).Nodup →
    (∀ q ∈ before, ∀ x ∈ s.changes, x.domain = q.domain → x.state = .live → aboveCursor q.cursor x = false) →
    e ∈ s.changes → e.domain = p.domain → e.state = .live → aboveCursor p.cursor e = true →
    (∀ x ∈ s.changes, x.domain = p.domain → x.state = .live → aboveCursor p.cursor x = true →
      x = e ∨ e.sequence < x.sequence) →
    exec (.memoryPortGrant tag) s = .next
      { s with
        publication := before ++ { p with cursor := some e.sequence } :: after
        publishWrite := some { tag := tag, domain := p.domain, window := e.window, tile := e.tile,
                               mapAddress := mapEntryAddress s.windows[e.window] e.tile }
        portOperations := s.portOperations ++
          [{ tag := tag, kind := .write, address := mapEntryAddress s.windows[e.window] e.tile, burst := .incr,
             count := 1,
             beats := [{ data := 0#24 ++ e.newFrame ++ e.savedSw ++ BitVec.ofBool e.savedW ++ 1#1,
                         enables := 0xFF }] }] })

/-- A grant to forwarded traffic sends the oldest WAITING transit entry as it was claimed, and the starvation counter rises
by one when the Copy Engine waits (R147, R153, R155, R157). -/
def Obligations.GrantSendsForwarded : Prop :=
  ∀ (tag : LinkTag) (s : State) (before after : List TransitEntry) (e : TransitEntry),
    tagHeld tag s = false → (copyWaits s = true → s.starvation ≠ 8) → walkerWaits s = false →
    s.transit = before ++ e :: after → (∀ x ∈ before, x.state ≠ .waiting) → e.state = .waiting →
    exec (.memoryPortGrant tag) s = .next
      { s with
        transit := before ++ { e with state := .sent tag } :: after
        starvation := if copyWaits s then s.starvation + 1 else s.starvation
        portOperations := s.portOperations ++
          [{ tag := tag, kind := e.kind, address := e.memoryAddress, burst := e.burst, count := e.count,
             beats := e.beats }] }

/-- A grant to a copy slot sends its lowest held chunk's write, whole, to the destination frame, or, with none held and
fewer than two chunks in progress, its next chunk's read of the source frame, and the starvation counter returns to 0
(R109, R153, R156, R157). -/
def Obligations.GrantSendsChunk : Prop :=
  ∀ (tag : LinkTag) (k : SlotId) (c : CopyJob) (s : State),
    tagHeld tag s = false → (s.starvation = 8 ∨ (walkerWaits s = false ∧ ∀ e ∈ s.transit, e.state ≠ .waiting)) →
    s.slots[k] = some c → (k = 0 ∨ slotWaits 0 s = false) → c.stopping = false →
    (∀ (n : Nat) (data : Chunk), { number := n, phase := .held data } ∈ c.chunks →
      (∀ x ∈ c.chunks, ∀ other, x.phase = .held other → x = { number := n, phase := .held data } ∨ n < x.number) →
      exec (.memoryPortGrant tag) s = .next
        { s with
          slots := s.slots.set k (some { c with chunks := c.chunks.map fun x =>
            if x.number = n then { x with phase := .writing tag data } else x })
          starvation := 0
          portOperations := s.portOperations ++
            [{ tag := tag, kind := .write, address := c.destination ++ BitVec.ofNat 12 (64 * n), burst := .incr,
               count := 8,
               beats := (List.range 8).map fun b => { data := data.extractLsb' (64 * b) 64, enables := 0xFF } }] }) ∧
    ((∀ x ∈ c.chunks, ∀ data, x.phase ≠ .held data) → c.chunks.length < 2 → c.nextRead < 64 →
      exec (.memoryPortGrant tag) s = .next
        { s with
          slots := s.slots.set k (some { c with
            chunks := c.chunks ++ [{ number := c.nextRead, phase := .reading tag }], nextRead := c.nextRead + 1 })
          starvation := 0
          portOperations := s.portOperations ++
            [{ tag := tag, kind := .read, address := c.source ++ BitVec.ofNat 12 (64 * c.nextRead), burst := .incr,
               count := 8, beats := [] }] })

/-! ## The memory port: completions -/

/-- A fill takes the tile's own valid entry, else the lowest-numbered invalid entry, with the pointer left as it is; with
every entry valid for other tiles it takes the entry at the pointer, which advances, from 31 to 0; a publish write fills no
invalid entry (R25). -/
def Obligations.CacheFillVictim : Prop :=
  ∀ (c : CacheEntry) (s : State),
    (∀ (i : Fin 32) (x : CacheEntry), s.cache[i] = some x → x.window = c.window → x.tile = c.tile →
      CacheKeysUnique s → fillCache c s = { s with cache := s.cache.set i (some c) }) ∧
    ((∀ (i : Fin 32) (x : CacheEntry), s.cache[i] = some x → ¬ (x.window = c.window ∧ x.tile = c.tile)) →
      (∀ i : Fin 32, s.cache[i] = none → (∀ j : Fin 32, j < i → s.cache[j] ≠ none) →
        fillCache c s = { s with cache := s.cache.set i (some c) }) ∧
      ((∀ i : Fin 32, s.cache[i] ≠ none) →
        fillCache c s = { s with cache := s.cache.set s.cachePointer (some c)
                                 cachePointer := Fin.ofNat 32 (s.cachePointer.val + 1) })) ∧
    ∀ (e : ChangeEntry) (i : Fin 32), s.cache[i] = none → (publishToCache e s).cache[i] = none

/-- The completion of a walk: the job leaves the list; OKAY with V = 1, zero high bits and a frame that is no unpublished
new frame fills the cache and makes the bound ranks ELIGIBLE (R34); OKAY with any other entry refuses them with
TILE_INVALID, oldest first (R35); FAILED answers them FAILED, reports MAP_READ and invalidates the whole cache (R36,
R27). -/
def Obligations.WalkCompletionResolves : Prop :=
  ∀ (tag : LinkTag) (entry : Beat) (j : WalkJob) (s : State), s.draining = false → tag ∉ s.abandoned →
    s.walkJobs.find? (fun k => walkTag k == some tag) = some j →
    let jobs : List WalkJob := s.walkJobs.eraseP (jobKey j.window j.tile)
    let bound : List Rank := s.ranks.filter fun k => decide (k.state = .parked (.walk j.window j.tile))
    let answered : ResponseStatus → List Response := fun status => bound.map fun k =>
      { initiator := k.request.initiator, tag := k.request.tag, status := status, dup := false, beats := [] }
    let left : List Rank := (bound.map (·.request.initiator)).foldl (fun ks i => endOrder i ks)
      (s.ranks.filter fun k => decide (k.state ≠ .parked (.walk j.window j.tile)))
    let usable : Prop := entry.getLsbD 0 = true ∧ entry.extractLsb' 40 24 = 0 ∧
      ∀ e ∈ s.changes, e.newFrame = entry.extractLsb' 12 28 → e.state = .published
    (usable →
      exec (.walkCompletion tag .okay entry) s = .next
        { fillCache { window := j.window, tile := j.tile, frame := entry.extractLsb' 12 28,
                      writable := entry.getLsbD 1, sw := entry.extractLsb' 2 10 } s with
          walkJobs := jobs
          ranks := s.ranks.map (wake (parkedOn (.walk j.window j.tile))) }) ∧
    (¬ usable →
      exec (.walkCompletion tag .okay entry) s = .next
        { bound.foldl (fun t k => reportFault
              (requestFault .tileInvalid k.request (some j.window) (some j.domain) s) t) s with
          walkJobs := jobs
          responses := s.responses ++ answered .refused
          ranks := left }) ∧
    exec (.walkCompletion tag .failed entry) s = .next
      { reportFault { code := .mapRead, source := .internal, address := j.mapAddress, window := some j.window,
                      domain := some j.domain, epoch := some s.domains[j.domain].epoch } s with
        walkJobs := jobs
        responses := s.responses ++ answered .failed
        ranks := left
        cache := Vector.replicate 32 none }

/-- A publish write that completes while its pass goes on: OKAY makes its entry PUBLISHED and updates the tile's
cached translation to the new frame with the saved W and SW; FAILED leaves the entry LIVE and reports MAP_WRITE
(R26, R33, R73, R74). A pass that ends with an entry still LIVE leaves the domain FAULTED, whether its last publish
write FAILED or completed OKAY after an earlier one FAILED: DOMAIN_FAULTED is set, the DOMAIN waits end, and every
entry stays (R33, R74, R76, R79). -/
def Obligations.PublishWriteCompletesOrFaults : Prop :=
  (∀ (tag : LinkTag) (p : PublishWrite) (q : Publication) (e : ChangeEntry) (x : ChangeEntry) (s : State),
    s.draining = false → tag ∉ s.abandoned → s.publishWrite = some p → p.tag = tag → findChange p.window p.tile s = some e →
    q ∈ s.publication → q.domain = p.domain → x ∈ s.changes → x.domain = p.domain → x.state = .live →
    aboveCursor q.cursor x = true → ¬ (x.window = p.window ∧ x.tile = p.tile) →
    exec (.publishWriteCompletion tag .okay) s = .next
      { s with
        publishWrite := none
        changes := s.changes.map fun y =>
          if y.window = p.window ∧ y.tile = p.tile then { y with state := .published } else y
        cache := Vector.ofFn fun i => s.cache[i].map fun c =>
          if c.window = p.window ∧ c.tile = p.tile then
            { c with frame := e.newFrame, writable := e.savedW, sw := e.savedSw }
          else c } ∧
    exec (.publishWriteCompletion tag .failed) s = .next
      { reportFault { code := .mapWrite, source := .internal, address := p.mapAddress, window := some p.window,
                      domain := some p.domain, epoch := some s.domains[p.domain].epoch } s with
        publishWrite := none }) ∧
  (∀ (tag : LinkTag) (p : PublishWrite) (e : ChangeEntry) (s : State),
    s.draining = false → tag ∉ s.abandoned → s.publishWrite = some p → p.tag = tag → e ∈ s.changes →
    e.domain = p.domain → e.state = .live →
    (∀ q ∈ s.publication, q.domain = p.domain → ∀ x ∈ s.changes, x.domain = p.domain → x.state = .live →
      aboveCursor q.cursor x = false) →
    exec (.publishWriteCompletion tag .failed) s = .next
      { reportFault { code := .mapWrite, source := .internal, address := p.mapAddress, window := some p.window,
                      domain := some p.domain, epoch := some s.domains[p.domain].epoch } s with
        publishWrite := none
        publication := s.publication.filter fun q => !decide (q.domain = p.domain)
        domains := s.domains.set p.domain { s.domains[p.domain] with state := .faulted }
        latches := (if s.fault = none then s.latches ||| 1#18 else s.latches) ||| 1#18 <<< (14 + p.domain.val)
        ranks := s.ranks.map (wake (parkedOnDomain p.domain)) }) ∧
  (∀ (tag : LinkTag) (p : PublishWrite) (e x : ChangeEntry) (s : State),
    s.draining = false → tag ∉ s.abandoned → s.publishWrite = some p → p.tag = tag →
    findChange p.window p.tile s = some e → x ∈ s.changes → x.domain = p.domain → x.state = .live →
    ¬ (x.window = p.window ∧ x.tile = p.tile) →
    (∀ q ∈ s.publication, q.domain = p.domain → ∀ y ∈ s.changes, y.domain = p.domain → y.state = .live →
      ¬ (y.window = p.window ∧ y.tile = p.tile) → aboveCursor q.cursor y = false) →
    exec (.publishWriteCompletion tag .okay) s = .next
      { s with
        publishWrite := none
        publication := s.publication.filter fun q => !decide (q.domain = p.domain)
        changes := s.changes.map fun y =>
          if y.window = p.window ∧ y.tile = p.tile then { y with state := .published } else y
        cache := Vector.ofFn fun i => s.cache[i].map fun c =>
          if c.window = p.window ∧ c.tile = p.tile then
            { c with frame := e.newFrame, writable := e.savedW, sw := e.savedSw }
          else c
        domains := s.domains.set p.domain { s.domains[p.domain] with state := .faulted }
        latches := s.latches ||| 1#18 <<< (14 + p.domain.val)
        ranks := s.ranks.map (wake (parkedOnDomain p.domain)) })

/-- The last publish write of a pass, completed OKAY with every other entry PUBLISHED, ends the commit in its event: the
domain leaves the publication order, the old frames return in ascending sequence number, the entries are removed,
COMMIT_DONE is set, the domain is CLOSED or, with automatic reopen, OPEN in a new epoch, and its DOMAIN waits end (R33,
R44, R76, R77, R78, R106, R163). -/
def Obligations.LastPublishReleases : Prop :=
  ∀ (tag : LinkTag) (p : PublishWrite) (e : ChangeEntry) (es : List ChangeEntry) (s : State),
    s.draining = false → tag ∉ s.abandoned → s.publishWrite = some p → p.tag = tag → KeysUnique s → e ∈ s.changes →
    e.window = p.window → e.tile = p.tile → e.domain = p.domain →
    (∀ x ∈ s.changes, x.domain = p.domain → x = e ∨ x.state = .published) →
    es.Perm (entriesOf p.domain s) → es.Pairwise (fun a b => a.sequence < b.sequence) →
    let r : DomainRecord := s.domains[p.domain]
    exec (.publishWriteCompletion tag .okay) s = .next
      { s with
        publishWrite := none
        publication := s.publication.filter fun q => !decide (q.domain = p.domain)
        changes := s.changes.filter fun x => !decide (x.domain = p.domain)
        freeFrames := s.freeFrames ++ es.map (·.oldFrame)
        cache := Vector.ofFn fun i => s.cache[i].map fun c =>
          if c.window = p.window ∧ c.tile = p.tile then
            { c with frame := e.newFrame, writable := e.savedW, sw := e.savedSw }
          else c
        latches := s.latches ||| 1#18 <<< (6 + p.domain.val)
        domains := s.domains.set p.domain
          (if r.settings.autoReopen then
            { r with state := .opened, epoch := r.epoch + 1, entryCount := 0, nextSequence := 0,
                     sequenceSpent := false }
          else { r with state := .closed, entryCount := 0 })
        deadlines := if r.settings.autoReopen then
            s.deadlines.set p.domain { value := r.settings.deadlineReload.toNat,
                                       running := decide (r.settings.deadlineReload ≠ 0) }
          else s.deadlines
        ranks := s.ranks.map (wake (parkedOnDomain p.domain)) }

/-- An OKAY chunk completion in a RUNNING slot that does not end the copy: a read's bytes are held for the chunk's write;
a write's chunk leaves the chunks in progress and progress rises by one (R110). -/
def Obligations.ChunkCompletionsAdvanceCopy : Prop :=
  ∀ (tag : LinkTag) (k : SlotId) (c : CopyJob) (n : Nat) (data held : Chunk) (s : State),
    s.draining = false → tag ∉ s.abandoned → s.slots[k] = some c → c.stopping = false →
    (∀ (j : SlotId) (c' : CopyJob), s.slots[j] = some c' → ∀ x ∈ c'.chunks, chunkTag x = some tag →
      j = k ∧ x.number = n) →
    ({ number := n, phase := .reading tag } ∈ c.chunks →
      (∀ x ∈ c.chunks, chunkTag x = some tag → x = { number := n, phase := .reading tag }) →
      exec (.chunkCompletion tag .okay data) s = .next
        { s with slots := s.slots.set k (some { c with
            chunks := c.chunks.map fun x => if chunkTag x = some tag then { x with phase := .held data } else x }) }) ∧
    ({ number := n, phase := .writing tag held } ∈ c.chunks →
      (∀ x ∈ c.chunks, chunkTag x = some tag → x = { number := n, phase := .writing tag held }) →
      c.progress + 1 ≠ 64 →
      exec (.chunkCompletion tag .okay data) s = .next
        { s with slots := s.slots.set k (some { c with
            chunks := c.chunks.filter fun x => decide (chunkTag x ≠ some tag)
            progress := c.progress + 1 }) })

/-- The chunk write that brings progress to 64 completes the copy: its entry is LIVE, its slot is free, the COPY
waits bound to it and every SLOT wait end, and the DRAIN condition of the entry's domain is tested (R111, R46). A
copy fails: at a FAILED completion the slot is STOPPING and waits for its other operation (R112); when none is
outstanding the failure is finished: the entry is removed and its frame returned, its waiting requests are answered
FAILED, COPY_FAILED is reported at the tile, the slot is free, every SLOT wait ends, and the DRAIN condition is
tested (R113). -/
def Obligations.CopyCompletesOrFails : Prop :=
  (∀ (tag : LinkTag) (k : SlotId) (c : CopyJob) (n : Nat) (data held : Chunk) (e : ChangeEntry) (s : State),
    s.draining = false → tag ∉ s.abandoned → s.slots[k] = some c → c.stopping = false →
    { number := n, phase := .writing tag held } ∈ c.chunks → c.progress = 63 →
    (∀ (j : SlotId) (c' : CopyJob), s.slots[j] = some c' → ∀ x ∈ c'.chunks, chunkTag x = some tag →
      j = k ∧ x = { number := n, phase := .writing tag held }) →
    findChange c.window c.tile s = some e →
    let slots : Vector (Option CopyJob) 2 := s.slots.set k none
    exec (.chunkCompletion tag .okay data) s = .next
      (testDrain e.domain
        { s with
          slots := slots
          starvation := if copyWaits s = true ∧ copyWaits { s with slots := slots } = false then 0 else s.starvation
          changes := s.changes.map fun x =>
            if x.window = c.window ∧ x.tile = c.tile then { x with state := .live } else x
          ranks := s.ranks.map fun x =>
            if x.state = .parked (.copy c.window c.tile) ∨ x.state = .parked .slot then
              { x with state := .eligible } else x })) ∧
  (∀ (tag : LinkTag) (k : SlotId) (c : CopyJob) (x : ChunkInProgress) (status : Completion) (data : Chunk)
    (e : ChangeEntry) (s : State), s.draining = false → tag ∉ s.abandoned → s.slots[k] = some c → x ∈ c.chunks → chunkTag x = some tag →
    (∀ (j : SlotId) (c' : CopyJob), s.slots[j] = some c' → ∀ y ∈ c'.chunks, chunkTag y = some tag → j = k ∧ y = x) →
    (c.stopping = true ∨ status = .failed) → findChange c.window c.tile s = some e →
    ((∃ y ∈ c.chunks, chunkTag y ≠ none ∧ chunkTag y ≠ some tag) →
      let slots : Vector (Option CopyJob) 2 := s.slots.set k (some { c with
        stopping := true
        chunks := c.chunks.map fun y => if chunkTag y = some tag then { y with phase := .ended } else y })
      exec (.chunkCompletion tag status data) s = .next
        { s with
          slots := slots
          starvation := if copyWaits s = true ∧ copyWaits { s with slots := slots } = false then 0
            else s.starvation }) ∧
    ((∀ y ∈ c.chunks, chunkTag y = none ∨ chunkTag y = some tag) →
      let slots : Vector (Option CopyJob) 2 := s.slots.set k none
      let bound : List Rank := s.ranks.filter fun y => decide (y.state = .parked (.copy c.window c.tile))
      exec (.chunkCompletion tag status data) s = .next
        (testDrain e.domain
          { reportFault { code := .copyFailed, source := .internal, address := tileAddress s.windows[c.window] c.tile,
                          window := some c.window, domain := some e.domain,
                          epoch := some s.domains[e.domain].epoch } s with
            slots := slots
            starvation := if copyWaits s = true ∧ copyWaits { s with slots := slots } = false then 0
              else s.starvation
            changes := s.changes.eraseP fun y => decide (y.window = c.window ∧ y.tile = c.tile)
            domains := s.domains.set e.domain
              { s.domains[e.domain] with entryCount := s.domains[e.domain].entryCount - 1 }
            freeFrames := s.freeFrames ++ [e.newFrame]
            responses := s.responses ++ bound.map fun y =>
              { initiator := y.request.initiator, tag := y.request.tag, status := .failed, dup := false, beats := [] }
            ranks := ((bound.map (·.request.initiator)).foldl (fun ks i => endOrder i ks)
              (s.ranks.filter fun y => decide (y.state ≠ .parked (.copy c.window c.tile)))).map
                (wake (parkedOn .slot)) })))

/-- The completion of a forwarded operation: its entry becomes FREE, the TRANSIT waits end and the DRAIN condition
of its domain is tested, a commit's only for a WRITE. With the request's last piece the response is sent, OKAY with
the read beats of the pieces in beat order when every piece completed OKAY, else FAILED without data. A FAILED piece
reports MEMORY at its upstream address and hands no data on (R148, R149, R158, R159). That an earlier piece's status
and read beats are held in a field of State until the last piece completes is the model's reading (log entry 24),
and that the beats are taken as they come, however many, is the model's choice (log entry 14). -/
def Obligations.TransitCompletionAnswers : Prop :=
  ∀ (tag : LinkTag) (beats : List Beat) (e : TransitEntry) (s : State), s.draining = false → tag ∉ s.abandoned →
    s.transit.find? (fun x => decide (x.state = .sent tag)) = some e →
    let left : List TransitEntry := s.transit.eraseP fun x => decide (x.state = .sent tag)
    let other : Prop := ∃ x ∈ left, x.initiator = e.initiator ∧ x.tag = e.tag
    let held : List PieceResult := s.collected.filter fun q => decide (q.initiator = e.initiator ∧ q.tag = e.tag)
    let tested : State → State := fun t =>
      match e.domain, e.kind with
      | none, _ => t
      | some d, .write => testDrain d t
      | some d, .read => testRollbackDrain d t
    let freed : State := { s with
      transit := left
      ranks := s.ranks.map (wake (parkedOn .transit)) }
    let failed : State := { reportFault { code := .memory, source := .request e.initiator e.tag,
                                          address := e.upstreamAddress, window := e.window, domain := e.domain,
                                          epoch := e.domain.map fun d => s.domains[d].epoch } s with
      transit := left
      ranks := s.ranks.map (wake (parkedOn .transit)) }
    let answer : ResponseStatus → List Beat → State → State := fun status data t =>
      { t with
        responses := s.responses ++
          [{ initiator := e.initiator, tag := e.tag, status := status, dup := false, beats := data }]
        collected := s.collected.filter fun q => !decide (q.initiator = e.initiator ∧ q.tag = e.tag) }
    (¬ other → held = [] →
      exec (.transitCompletion tag .okay beats) s = .next
        (tested (answer .okay (if e.kind = .read then beats else []) freed)) ∧
      exec (.transitCompletion tag .failed beats) s = .next (tested (answer .failed [] failed))) ∧
    (∀ q, ¬ other → held = [q] →
      exec (.transitCompletion tag .failed beats) s = .next (tested (answer .failed [] failed)) ∧
      (q.status = .failed →
        exec (.transitCompletion tag .okay beats) s = .next (tested (answer .failed [] freed))) ∧
      (q.status = .okay → e.kind = .write →
        exec (.transitCompletion tag .okay beats) s = .next (tested (answer .okay [] freed))) ∧
      (q.status = .okay → e.kind = .read → q.place = .oneOfTwo → e.place = .twoOfTwo →
        exec (.transitCompletion tag .okay beats) s = .next (tested (answer .okay (q.beats ++ beats) freed))) ∧
      (q.status = .okay → e.kind = .read → q.place = .twoOfTwo → e.place = .oneOfTwo →
        exec (.transitCompletion tag .okay beats) s = .next (tested (answer .okay (beats ++ q.beats) freed)))) ∧
    (other →
      exec (.transitCompletion tag .okay beats) s = .next
        (tested { freed with collected := s.collected ++
          [{ initiator := e.initiator, tag := e.tag, place := e.place, status := .okay,
             beats := if e.kind = .read then beats else [] }] }) ∧
      exec (.transitCompletion tag .failed beats) s = .next
        (tested { failed with collected := s.collected ++
          [{ initiator := e.initiator, tag := e.tag, place := e.place, status := .failed, beats := [] }] }))

/-- What a test of the DRAIN condition does: a commit's DRAIN that holds goes to PUBLISH with its DOMAIN waits
ended, and, with no LIVE entry left, through RELEASE in the same event; a rollback's DRAIN that holds is discarded
whole, and nothing else moves (R53, R69, R72, R77, R78, R90, R94). -/
def Obligations.DrainTestMovesDomain : Prop :=
  ∀ (d : DomainId) (es : List ChangeEntry) (s : State),
    (s.domains[d].state = .committing .drain → commitDrained d s = true → (entriesOf d s).any isLive = true →
      testDrain d s =
        { s with
          domains := s.domains.set d { s.domains[d] with state := .committing .publish }
          deadlines := s.deadlines.set d { s.deadlines[d] with running := false }
          publication := s.publication ++ [{ domain := d, cursor := none }]
          ranks := s.ranks.map (wake (parkedOnDomain d)) }) ∧
    (s.domains[d].state = .committing .drain → commitDrained d s = true → (entriesOf d s).any isLive = false →
      es.Perm (entriesOf d s) → es.Pairwise (fun a b => a.sequence < b.sequence) →
      testDrain d s =
        { s with
          domains := s.domains.set d
            (if s.domains[d].settings.autoReopen then
              { s.domains[d] with state := .opened, epoch := s.domains[d].epoch + 1, entryCount := 0,
                                  nextSequence := 0, sequenceSpent := false }
            else { s.domains[d] with state := .closed, entryCount := 0 })
          deadlines := s.deadlines.set d
            (if s.domains[d].settings.autoReopen then
              { value := s.domains[d].settings.deadlineReload.toNat,
                running := decide (s.domains[d].settings.deadlineReload ≠ 0) }
            else { s.deadlines[d] with running := false })
          changes := s.changes.filter fun e => !decide (e.domain = d)
          freeFrames := s.freeFrames ++ es.map (·.oldFrame)
          latches := s.latches ||| 1#18 <<< (6 + d.val)
          ranks := s.ranks.map (wake (parkedOnDomain d)) }) ∧
    (s.domains[d].state = .rollingBack → rollbackDrained d s = true → es.Perm (entriesOf d s) →
      es.Pairwise (fun a b => b.sequence < a.sequence) →
      testDrain d s =
        { s with
          domains := s.domains.set d { s.domains[d] with state := .closed, entryCount := 0 }
          changes := s.changes.filter fun e => !decide (e.domain = d)
          freeFrames := s.freeFrames ++ es.map (·.newFrame)
          latches := s.latches ||| 1#18 <<< (10 + d.val)
          ranks := s.ranks.map (wake (parkedOnDomain d)) }) ∧
    ((s.domains[d].state = .committing .drain → commitDrained d s = false) →
      (s.domains[d].state = .rollingBack → rollbackDrained d s = false) → testDrain d s = s)

/-! ## The management frame -/

/-- A WRITE frame carries its command: the frame of a well-formed management command decodes to that command, with every
operand at every value, whatever bytes follow the seventh (R174, R175, R176, Tables 12-4 to 12-6). -/
def Obligations.FrameRoundTrip : Prop :=
  ∀ (c : Instr) (bytes rest : List Byte), c.wellFormed = true → encodeFrame c = some bytes →
    decodeFrame (bytes ++ rest) = some c

/-- What the frames of the port do: a frame of fewer than seven bytes, or with an operation byte other than WRITE,
carries no command; a frame that carries one carries a well-formed one; and a READ of a word's offset returns that
word's value, most significant byte first, and zeros where an offset names no word (R174). The value of the command
word and of the bits that a read-only word does not name is the model's choice (log entries 28 and 29). -/
def Obligations.FramesCarryCommandsAndReads : Prop :=
  (∀ frame : List Byte, (frame.length < 7 ∨ frame.head? ≠ some 0x02) → decodeFrame frame = none) ∧
  (∀ (frame : List Byte) (c : Instr), decodeFrame frame = some c → c.wellFormed = true) ∧
  (∀ (s : State) (word : RegisterWord) (x y z u : Byte) (rest : List Byte),
    let o := offsetOf word
    let v := registerValue s word
    frameReply s (0x01 :: o.extractLsb' 8 8 :: o.extractLsb' 0 8 :: x :: y :: z :: u :: rest) =
      [v.extractLsb' 24 8, v.extractLsb' 16 8, v.extractLsb' 8 8, v.extractLsb' 0 8]) ∧
  ∀ (s : State) (offset : Offset), (∀ word, offsetOf word ≠ offset) → readWord s offset = 0

/-! ## What every step keeps -/

/-- The free count plus the number of change entries equals the pool size of the last POOL_LOAD, and every reset
sets all three to 0, the end of a soft reset drain in whatever event included (R101). -/
def Obligations.PoolBalanceKept : Prop :=
  (∀ s t : State, PoolBalanced s → step s = .next t → PoolBalanced t) ∧
  ∀ (c : Instr) (s t : State), ResetBy c s t →
    t.freeFrames.length = 0 ∧ t.changes.length = 0 ∧ t.poolSize = 0

/-- A domain's entry count is the number of its entries and stays within its quota, a CLOSED domain holds no entry, and
entries stand in the order of the sequence numbers that their domains gave them (R45, R47, R54). -/
def Obligations.JournalAccountsKept : Prop :=
  ∀ s t : State,
    (EntriesCounted s ∧ ClosedHoldsNone s ∧ QuotaRespected s ∧ SequencesOrdered s) → step s = .next t →
    EntriesCounted t ∧ ClosedHoldsNone t ∧ QuotaRespected t ∧ SequencesOrdered t

/-- The tables stay within their bounds: at most 256 change entries, at most one of them for a tile, at most one valid
cache entry for a tile, window sizes of 2^16 to 2^36, a divider within its period, and LOST only with a full record (R24,
R45, R162, R170, Table 1-1). -/
def Obligations.TablesKept : Prop :=
  ∀ s t : State,
    (TableBounded s ∧ KeysUnique s ∧ CacheKeysUnique s ∧ WindowsFit s ∧ DividerFits s ∧ LostFits s) →
    step s = .next t →
    TableBounded t ∧ KeysUnique t ∧ CacheKeysUnique t ∧ WindowsFit t ∧ DividerFits t ∧ LostFits t

/-- The Hold Queue holds at most 8 ranks, of each initiator only the oldest not parked with ORDER, and the Transit Table at
most 32 entries; no pair waits twice, or both waits and is in transit (R119, R120, R126, R134, R155). -/
def Obligations.QueueDisciplineKept : Prop :=
  ∀ s t : State, (RanksBounded s ∧ OrderKept s ∧ TransitBounded s ∧ PairsUnique s) → step s = .next t →
    RanksBounded t ∧ OrderKept t ∧ TransitBounded t ∧ PairsUnique t

/-- The Map Walker has at most one operation outstanding and at most one job for a tile, a copy slot at most two
chunks in progress, and the starvation counter stays within 8, above 0 only while the Copy Engine waits (R30, R31,
R109, R157). No operation is outstanding under the link tag of one that a reset abandoned and whose completion is
still to come (R161; log entry 5). -/
def Obligations.EnginesKept : Prop :=
  ∀ s t : State, (WalkerSingle s ∧ JobsUnique s ∧ ChunksBounded s ∧ StarvationFits s ∧ AbandonedApart s) →
    step s = .next t →
    WalkerSingle t ∧ JobsUnique t ∧ ChunksBounded t ∧ StarvationFits t ∧ AbandonedApart t

/-- The Epoch Unit's records, the Change Table, the copy slots, the publication order and the deadline counters agree: a
COPYING entry has its slot and a slot its entry, a domain waits in DRAIN only while its condition does not hold, the
domains in the publication order are those in PUBLISH, and a counter runs only in OPEN and MARKED (R32, R46, R47, R69,
R72, R90, R108, R164). -/
def Obligations.EpochUnitKept : Prop :=
  ∀ s t : State, EpochSound s → step s = .next t → EpochSound t

/-- No request waits for something that is not there: its walk job, its copy, a slot to come free, its domain's commit or
rollback, a transit entry to come free, or an older rank of its initiator (Table 7-2, R121, R122). -/
def Obligations.WaitsStayBacked : Prop :=
  ∀ s t : State, (EpochSound s ∧ RanksBounded s ∧ OrderKept s ∧ PiecesFit s ∧ WaitsBacked s) → step s = .next t →
    EpochSound t ∧ RanksBounded t ∧ OrderKept t ∧ PiecesFit t ∧ WaitsBacked t

/-- While a soft reset drains the Hold Queue is empty, no walk is PENDING, and something is still outstanding: the drain
ends in the event that leaves nothing (R37, R129, R178). -/
def Obligations.DrainKept : Prop :=
  ∀ s t : State, DrainFits s → step s = .next t → DrainFits t

/-- The machine right after reset has every property that the steps keep. -/
def Obligations.ResetHasEveryInvariant : Prop :=
  PoolBalanced State.reset ∧ EntriesCounted State.reset ∧ QuotaRespected State.reset ∧ SequencesOrdered State.reset ∧
  TableBounded State.reset ∧ CacheKeysUnique State.reset ∧ WindowsFit State.reset ∧ DividerFits State.reset ∧
  LostFits State.reset ∧ RanksBounded State.reset ∧ OrderKept State.reset ∧ TransitBounded State.reset ∧
  PairsUnique State.reset ∧ WalkerSingle State.reset ∧ JobsUnique State.reset ∧ ChunksBounded State.reset ∧
  StarvationFits State.reset ∧ EpochSound State.reset ∧ PiecesFit State.reset ∧ WaitsBacked State.reset ∧
  DrainFits State.reset ∧ AbandonedApart State.reset
end

