-- ==== Sys2Proof/Laws/State.lean ====
section
/-! SUPPORT. What each named update of State leaves in each field: one lemma per field per update, each true by
unfolding alone, so that no proof opens a record update. -/

namespace Sys2Proof.Machine

variable (s : State)

/-! setLatch -/

@[simp] theorem setLatch_windows (a : Alert) : (setLatch a s).windows = s.windows := by dsimp only [setLatch]
@[simp] theorem setLatch_initiators (a : Alert) : (setLatch a s).initiators = s.initiators := by dsimp only [setLatch]
@[simp] theorem setLatch_cache (a : Alert) : (setLatch a s).cache = s.cache := by dsimp only [setLatch]
@[simp] theorem setLatch_cachePointer (a : Alert) : (setLatch a s).cachePointer = s.cachePointer := by
      dsimp only [setLatch]
@[simp] theorem setLatch_walkJobs (a : Alert) : (setLatch a s).walkJobs = s.walkJobs := by dsimp only [setLatch]
@[simp] theorem setLatch_publication (a : Alert) : (setLatch a s).publication = s.publication := by
      dsimp only [setLatch]
@[simp] theorem setLatch_publishWrite (a : Alert) : (setLatch a s).publishWrite = s.publishWrite := by
      dsimp only [setLatch]
@[simp] theorem setLatch_domains (a : Alert) : (setLatch a s).domains = s.domains := by dsimp only [setLatch]
@[simp] theorem setLatch_changes (a : Alert) : (setLatch a s).changes = s.changes := by dsimp only [setLatch]
@[simp] theorem setLatch_freeFrames (a : Alert) : (setLatch a s).freeFrames = s.freeFrames := by dsimp only [setLatch]
@[simp] theorem setLatch_poolSize (a : Alert) : (setLatch a s).poolSize = s.poolSize := by dsimp only [setLatch]
@[simp] theorem setLatch_poolThreshold (a : Alert) : (setLatch a s).poolThreshold = s.poolThreshold := by
      dsimp only [setLatch]
@[simp] theorem setLatch_slots (a : Alert) : (setLatch a s).slots = s.slots := by dsimp only [setLatch]
@[simp] theorem setLatch_ranks (a : Alert) : (setLatch a s).ranks = s.ranks := by dsimp only [setLatch]
@[simp] theorem setLatch_transit (a : Alert) : (setLatch a s).transit = s.transit := by dsimp only [setLatch]
@[simp] theorem setLatch_collected (a : Alert) : (setLatch a s).collected = s.collected := by dsimp only [setLatch]
@[simp] theorem setLatch_starvation (a : Alert) : (setLatch a s).starvation = s.starvation := by dsimp only [setLatch]
@[simp] theorem setLatch_abandoned (a : Alert) : (setLatch a s).abandoned = s.abandoned := by dsimp only [setLatch]
@[simp] theorem setLatch_deadlines (a : Alert) : (setLatch a s).deadlines = s.deadlines := by dsimp only [setLatch]
@[simp] theorem setLatch_timebase (a : Alert) : (setLatch a s).timebase = s.timebase := by dsimp only [setLatch]
@[simp] theorem setLatch_divider (a : Alert) : (setLatch a s).divider = s.divider := by dsimp only [setLatch]
@[simp] theorem setLatch_edge (a : Alert) : (setLatch a s).edge = s.edge := by dsimp only [setLatch]
@[simp] theorem setLatch_lineLevel (a : Alert) : (setLatch a s).lineLevel = s.lineLevel := by dsimp only [setLatch]
@[simp] theorem setLatch_markCounter (a : Alert) : (setLatch a s).markCounter = s.markCounter := by
      dsimp only [setLatch]
@[simp] theorem setLatch_fault (a : Alert) : (setLatch a s).fault = s.fault := by dsimp only [setLatch]
@[simp] theorem setLatch_lost (a : Alert) : (setLatch a s).lost = s.lost := by dsimp only [setLatch]
@[simp] theorem setLatch_latches (a : Alert) : (setLatch a s).latches = s.latches ||| alertMask a := rfl
@[simp] theorem setLatch_enables (a : Alert) : (setLatch a s).enables = s.enables := by dsimp only [setLatch]
@[simp] theorem setLatch_argument0 (a : Alert) : (setLatch a s).argument0 = s.argument0 := by dsimp only [setLatch]
@[simp] theorem setLatch_argument1 (a : Alert) : (setLatch a s).argument1 = s.argument1 := by dsimp only [setLatch]
@[simp] theorem setLatch_commandResult (a : Alert) : (setLatch a s).commandResult = s.commandResult := by
      dsimp only [setLatch]
@[simp] theorem setLatch_lastWrite (a : Alert) : (setLatch a s).lastWrite = s.lastWrite := by dsimp only [setLatch]
@[simp] theorem setLatch_resetCause (a : Alert) : (setLatch a s).resetCause = s.resetCause := by dsimp only [setLatch]
@[simp] theorem setLatch_draining (a : Alert) : (setLatch a s).draining = s.draining := by dsimp only [setLatch]
@[simp] theorem setLatch_responses (a : Alert) : (setLatch a s).responses = s.responses := by dsimp only [setLatch]
@[simp] theorem setLatch_portOperations (a : Alert) : (setLatch a s).portOperations = s.portOperations := by
      dsimp only [setLatch]
@[simp] theorem setLatch_pending (a : Alert) : (setLatch a s).pending = s.pending := by dsimp only [setLatch]

/-! modifyDomain -/

@[simp] theorem modifyDomain_windows (d : DomainId) (f : DomainRecord → DomainRecord) :
      (modifyDomain d f s).windows = s.windows := by dsimp only [modifyDomain]
@[simp] theorem modifyDomain_initiators (d : DomainId) (f : DomainRecord → DomainRecord) :
      (modifyDomain d f s).initiators = s.initiators := by dsimp only [modifyDomain]
@[simp] theorem modifyDomain_cache (d : DomainId) (f : DomainRecord → DomainRecord) : (modifyDomain d f s).cache =
      s.cache := by dsimp only [modifyDomain]
@[simp] theorem modifyDomain_cachePointer (d : DomainId) (f : DomainRecord → DomainRecord) :
      (modifyDomain d f s).cachePointer = s.cachePointer := by dsimp only [modifyDomain]
@[simp] theorem modifyDomain_walkJobs (d : DomainId) (f : DomainRecord → DomainRecord) :
      (modifyDomain d f s).walkJobs = s.walkJobs := by dsimp only [modifyDomain]
@[simp] theorem modifyDomain_publication (d : DomainId) (f : DomainRecord → DomainRecord) :
      (modifyDomain d f s).publication = s.publication := by dsimp only [modifyDomain]
@[simp] theorem modifyDomain_publishWrite (d : DomainId) (f : DomainRecord → DomainRecord) :
      (modifyDomain d f s).publishWrite = s.publishWrite := by dsimp only [modifyDomain]
@[simp] theorem modifyDomain_domains (d : DomainId) (f : DomainRecord → DomainRecord) :
      (modifyDomain d f s).domains = s.domains.set d (f s.domains[d]) := rfl
@[simp] theorem modifyDomain_changes (d : DomainId) (f : DomainRecord → DomainRecord) :
      (modifyDomain d f s).changes = s.changes := by dsimp only [modifyDomain]
@[simp] theorem modifyDomain_freeFrames (d : DomainId) (f : DomainRecord → DomainRecord) :
      (modifyDomain d f s).freeFrames = s.freeFrames := by dsimp only [modifyDomain]
@[simp] theorem modifyDomain_poolSize (d : DomainId) (f : DomainRecord → DomainRecord) :
      (modifyDomain d f s).poolSize = s.poolSize := by dsimp only [modifyDomain]
@[simp] theorem modifyDomain_poolThreshold (d : DomainId) (f : DomainRecord → DomainRecord) :
      (modifyDomain d f s).poolThreshold = s.poolThreshold := by dsimp only [modifyDomain]
@[simp] theorem modifyDomain_slots (d : DomainId) (f : DomainRecord → DomainRecord) : (modifyDomain d f s).slots =
      s.slots := by dsimp only [modifyDomain]
@[simp] theorem modifyDomain_ranks (d : DomainId) (f : DomainRecord → DomainRecord) : (modifyDomain d f s).ranks =
      s.ranks := by dsimp only [modifyDomain]
@[simp] theorem modifyDomain_transit (d : DomainId) (f : DomainRecord → DomainRecord) :
      (modifyDomain d f s).transit = s.transit := by dsimp only [modifyDomain]
@[simp] theorem modifyDomain_collected (d : DomainId) (f : DomainRecord → DomainRecord) :
      (modifyDomain d f s).collected = s.collected := by dsimp only [modifyDomain]
@[simp] theorem modifyDomain_starvation (d : DomainId) (f : DomainRecord → DomainRecord) :
      (modifyDomain d f s).starvation = s.starvation := by dsimp only [modifyDomain]
@[simp] theorem modifyDomain_abandoned (d : DomainId) (f : DomainRecord → DomainRecord) :
      (modifyDomain d f s).abandoned = s.abandoned := by dsimp only [modifyDomain]
@[simp] theorem modifyDomain_deadlines (d : DomainId) (f : DomainRecord → DomainRecord) :
      (modifyDomain d f s).deadlines = s.deadlines := by dsimp only [modifyDomain]
@[simp] theorem modifyDomain_timebase (d : DomainId) (f : DomainRecord → DomainRecord) :
      (modifyDomain d f s).timebase = s.timebase := by dsimp only [modifyDomain]
@[simp] theorem modifyDomain_divider (d : DomainId) (f : DomainRecord → DomainRecord) :
      (modifyDomain d f s).divider = s.divider := by dsimp only [modifyDomain]
@[simp] theorem modifyDomain_edge (d : DomainId) (f : DomainRecord → DomainRecord) : (modifyDomain d f s).edge =
      s.edge := by dsimp only [modifyDomain]
@[simp] theorem modifyDomain_lineLevel (d : DomainId) (f : DomainRecord → DomainRecord) :
      (modifyDomain d f s).lineLevel = s.lineLevel := by dsimp only [modifyDomain]
@[simp] theorem modifyDomain_markCounter (d : DomainId) (f : DomainRecord → DomainRecord) :
      (modifyDomain d f s).markCounter = s.markCounter := by dsimp only [modifyDomain]
@[simp] theorem modifyDomain_fault (d : DomainId) (f : DomainRecord → DomainRecord) : (modifyDomain d f s).fault =
      s.fault := by dsimp only [modifyDomain]
@[simp] theorem modifyDomain_lost (d : DomainId) (f : DomainRecord → DomainRecord) : (modifyDomain d f s).lost =
      s.lost := by dsimp only [modifyDomain]
@[simp] theorem modifyDomain_latches (d : DomainId) (f : DomainRecord → DomainRecord) :
      (modifyDomain d f s).latches = s.latches := by dsimp only [modifyDomain]
@[simp] theorem modifyDomain_enables (d : DomainId) (f : DomainRecord → DomainRecord) :
      (modifyDomain d f s).enables = s.enables := by dsimp only [modifyDomain]
@[simp] theorem modifyDomain_argument0 (d : DomainId) (f : DomainRecord → DomainRecord) :
      (modifyDomain d f s).argument0 = s.argument0 := by dsimp only [modifyDomain]
@[simp] theorem modifyDomain_argument1 (d : DomainId) (f : DomainRecord → DomainRecord) :
      (modifyDomain d f s).argument1 = s.argument1 := by dsimp only [modifyDomain]
@[simp] theorem modifyDomain_commandResult (d : DomainId) (f : DomainRecord → DomainRecord) :
      (modifyDomain d f s).commandResult = s.commandResult := by dsimp only [modifyDomain]
@[simp] theorem modifyDomain_lastWrite (d : DomainId) (f : DomainRecord → DomainRecord) :
      (modifyDomain d f s).lastWrite = s.lastWrite := by dsimp only [modifyDomain]
@[simp] theorem modifyDomain_resetCause (d : DomainId) (f : DomainRecord → DomainRecord) :
      (modifyDomain d f s).resetCause = s.resetCause := by dsimp only [modifyDomain]
@[simp] theorem modifyDomain_draining (d : DomainId) (f : DomainRecord → DomainRecord) :
      (modifyDomain d f s).draining = s.draining := by dsimp only [modifyDomain]
@[simp] theorem modifyDomain_responses (d : DomainId) (f : DomainRecord → DomainRecord) :
      (modifyDomain d f s).responses = s.responses := by dsimp only [modifyDomain]
@[simp] theorem modifyDomain_portOperations (d : DomainId) (f : DomainRecord → DomainRecord) :
      (modifyDomain d f s).portOperations = s.portOperations := by dsimp only [modifyDomain]
@[simp] theorem modifyDomain_pending (d : DomainId) (f : DomainRecord → DomainRecord) :
      (modifyDomain d f s).pending = s.pending := by dsimp only [modifyDomain]

/-! setDomainState -/

@[simp] theorem setDomainState_windows (d : DomainId) (st : DomainState) : (setDomainState d st s).windows =
      s.windows := by dsimp only [setDomainState, modifyDomain]
@[simp] theorem setDomainState_initiators (d : DomainId) (st : DomainState) : (setDomainState d st s).initiators =
      s.initiators := by dsimp only [setDomainState, modifyDomain]
@[simp] theorem setDomainState_cache (d : DomainId) (st : DomainState) : (setDomainState d st s).cache =
      s.cache := by dsimp only [setDomainState, modifyDomain]
@[simp] theorem setDomainState_cachePointer (d : DomainId) (st : DomainState) :
      (setDomainState d st s).cachePointer = s.cachePointer := by dsimp only [setDomainState, modifyDomain]
@[simp] theorem setDomainState_walkJobs (d : DomainId) (st : DomainState) : (setDomainState d st s).walkJobs =
      s.walkJobs := by dsimp only [setDomainState, modifyDomain]
@[simp] theorem setDomainState_publication (d : DomainId) (st : DomainState) : (setDomainState d st s).publication =
      s.publication := by dsimp only [setDomainState, modifyDomain]
@[simp] theorem setDomainState_publishWrite (d : DomainId) (st : DomainState) :
      (setDomainState d st s).publishWrite = s.publishWrite := by dsimp only [setDomainState, modifyDomain]
@[simp] theorem setDomainState_domains (d : DomainId) (st : DomainState) : (setDomainState d st s).domains =
      s.domains.set d { s.domains[d] with state := st } := rfl
@[simp] theorem setDomainState_changes (d : DomainId) (st : DomainState) : (setDomainState d st s).changes =
      s.changes := by dsimp only [setDomainState, modifyDomain]
@[simp] theorem setDomainState_freeFrames (d : DomainId) (st : DomainState) : (setDomainState d st s).freeFrames =
      s.freeFrames := by dsimp only [setDomainState, modifyDomain]
@[simp] theorem setDomainState_poolSize (d : DomainId) (st : DomainState) : (setDomainState d st s).poolSize =
      s.poolSize := by dsimp only [setDomainState, modifyDomain]
@[simp] theorem setDomainState_poolThreshold (d : DomainId) (st : DomainState) :
      (setDomainState d st s).poolThreshold = s.poolThreshold := by dsimp only [setDomainState, modifyDomain]
@[simp] theorem setDomainState_slots (d : DomainId) (st : DomainState) : (setDomainState d st s).slots =
      s.slots := by dsimp only [setDomainState, modifyDomain]
@[simp] theorem setDomainState_ranks (d : DomainId) (st : DomainState) : (setDomainState d st s).ranks =
      s.ranks := by dsimp only [setDomainState, modifyDomain]
@[simp] theorem setDomainState_transit (d : DomainId) (st : DomainState) : (setDomainState d st s).transit =
      s.transit := by dsimp only [setDomainState, modifyDomain]
@[simp] theorem setDomainState_collected (d : DomainId) (st : DomainState) : (setDomainState d st s).collected =
      s.collected := by dsimp only [setDomainState, modifyDomain]
@[simp] theorem setDomainState_starvation (d : DomainId) (st : DomainState) : (setDomainState d st s).starvation =
      s.starvation := by dsimp only [setDomainState, modifyDomain]
@[simp] theorem setDomainState_abandoned (d : DomainId) (st : DomainState) : (setDomainState d st s).abandoned =
      s.abandoned := by dsimp only [setDomainState, modifyDomain]
@[simp] theorem setDomainState_deadlines (d : DomainId) (st : DomainState) : (setDomainState d st s).deadlines =
      s.deadlines := by dsimp only [setDomainState, modifyDomain]
@[simp] theorem setDomainState_timebase (d : DomainId) (st : DomainState) : (setDomainState d st s).timebase =
      s.timebase := by dsimp only [setDomainState, modifyDomain]
@[simp] theorem setDomainState_divider (d : DomainId) (st : DomainState) : (setDomainState d st s).divider =
      s.divider := by dsimp only [setDomainState, modifyDomain]
@[simp] theorem setDomainState_edge (d : DomainId) (st : DomainState) : (setDomainState d st s).edge = s.edge := by
      dsimp only [setDomainState, modifyDomain]
@[simp] theorem setDomainState_lineLevel (d : DomainId) (st : DomainState) : (setDomainState d st s).lineLevel =
      s.lineLevel := by dsimp only [setDomainState, modifyDomain]
@[simp] theorem setDomainState_markCounter (d : DomainId) (st : DomainState) : (setDomainState d st s).markCounter =
      s.markCounter := by dsimp only [setDomainState, modifyDomain]
@[simp] theorem setDomainState_fault (d : DomainId) (st : DomainState) : (setDomainState d st s).fault =
      s.fault := by dsimp only [setDomainState, modifyDomain]
@[simp] theorem setDomainState_lost (d : DomainId) (st : DomainState) : (setDomainState d st s).lost = s.lost := by
      dsimp only [setDomainState, modifyDomain]
@[simp] theorem setDomainState_latches (d : DomainId) (st : DomainState) : (setDomainState d st s).latches =
      s.latches := by dsimp only [setDomainState, modifyDomain]
@[simp] theorem setDomainState_enables (d : DomainId) (st : DomainState) : (setDomainState d st s).enables =
      s.enables := by dsimp only [setDomainState, modifyDomain]
@[simp] theorem setDomainState_argument0 (d : DomainId) (st : DomainState) : (setDomainState d st s).argument0 =
      s.argument0 := by dsimp only [setDomainState, modifyDomain]
@[simp] theorem setDomainState_argument1 (d : DomainId) (st : DomainState) : (setDomainState d st s).argument1 =
      s.argument1 := by dsimp only [setDomainState, modifyDomain]
@[simp] theorem setDomainState_commandResult (d : DomainId) (st : DomainState) :
      (setDomainState d st s).commandResult = s.commandResult := by dsimp only [setDomainState, modifyDomain]
@[simp] theorem setDomainState_lastWrite (d : DomainId) (st : DomainState) : (setDomainState d st s).lastWrite =
      s.lastWrite := by dsimp only [setDomainState, modifyDomain]
@[simp] theorem setDomainState_resetCause (d : DomainId) (st : DomainState) : (setDomainState d st s).resetCause =
      s.resetCause := by dsimp only [setDomainState, modifyDomain]
@[simp] theorem setDomainState_draining (d : DomainId) (st : DomainState) : (setDomainState d st s).draining =
      s.draining := by dsimp only [setDomainState, modifyDomain]
@[simp] theorem setDomainState_responses (d : DomainId) (st : DomainState) : (setDomainState d st s).responses =
      s.responses := by dsimp only [setDomainState, modifyDomain]
@[simp] theorem setDomainState_portOperations (d : DomainId) (st : DomainState) :
      (setDomainState d st s).portOperations = s.portOperations := by dsimp only [setDomainState, modifyDomain]
@[simp] theorem setDomainState_pending (d : DomainId) (st : DomainState) : (setDomainState d st s).pending =
      s.pending := by dsimp only [setDomainState, modifyDomain]

/-! loadDeadline -/

@[simp] theorem loadDeadline_windows (d : DomainId) : (loadDeadline d s).windows = s.windows := by
      dsimp only [loadDeadline]
@[simp] theorem loadDeadline_initiators (d : DomainId) : (loadDeadline d s).initiators = s.initiators := by
      dsimp only [loadDeadline]
@[simp] theorem loadDeadline_cache (d : DomainId) : (loadDeadline d s).cache = s.cache := by dsimp only [loadDeadline]
@[simp] theorem loadDeadline_cachePointer (d : DomainId) : (loadDeadline d s).cachePointer = s.cachePointer := by
      dsimp only [loadDeadline]
@[simp] theorem loadDeadline_walkJobs (d : DomainId) : (loadDeadline d s).walkJobs = s.walkJobs := by
      dsimp only [loadDeadline]
@[simp] theorem loadDeadline_publication (d : DomainId) : (loadDeadline d s).publication = s.publication := by
      dsimp only [loadDeadline]
@[simp] theorem loadDeadline_publishWrite (d : DomainId) : (loadDeadline d s).publishWrite = s.publishWrite := by
      dsimp only [loadDeadline]
@[simp] theorem loadDeadline_domains (d : DomainId) : (loadDeadline d s).domains = s.domains := by
      dsimp only [loadDeadline]
@[simp] theorem loadDeadline_changes (d : DomainId) : (loadDeadline d s).changes = s.changes := by
      dsimp only [loadDeadline]
@[simp] theorem loadDeadline_freeFrames (d : DomainId) : (loadDeadline d s).freeFrames = s.freeFrames := by
      dsimp only [loadDeadline]
@[simp] theorem loadDeadline_poolSize (d : DomainId) : (loadDeadline d s).poolSize = s.poolSize := by
      dsimp only [loadDeadline]
@[simp] theorem loadDeadline_poolThreshold (d : DomainId) : (loadDeadline d s).poolThreshold = s.poolThreshold := by
      dsimp only [loadDeadline]
@[simp] theorem loadDeadline_slots (d : DomainId) : (loadDeadline d s).slots = s.slots := by dsimp only [loadDeadline]
@[simp] theorem loadDeadline_ranks (d : DomainId) : (loadDeadline d s).ranks = s.ranks := by dsimp only [loadDeadline]
@[simp] theorem loadDeadline_transit (d : DomainId) : (loadDeadline d s).transit = s.transit := by
      dsimp only [loadDeadline]
@[simp] theorem loadDeadline_collected (d : DomainId) : (loadDeadline d s).collected = s.collected := by
      dsimp only [loadDeadline]
@[simp] theorem loadDeadline_starvation (d : DomainId) : (loadDeadline d s).starvation = s.starvation := by
      dsimp only [loadDeadline]
@[simp] theorem loadDeadline_abandoned (d : DomainId) : (loadDeadline d s).abandoned = s.abandoned := by
      dsimp only [loadDeadline]
@[simp] theorem loadDeadline_deadlines (d : DomainId) : (loadDeadline d s).deadlines =
      s.deadlines.set d ⟨(settingsOf d s).deadlineReload.toNat, decide ((settingsOf d s).deadlineReload ≠ 0#16)⟩ := rfl
@[simp] theorem loadDeadline_timebase (d : DomainId) : (loadDeadline d s).timebase = s.timebase := by
      dsimp only [loadDeadline]
@[simp] theorem loadDeadline_divider (d : DomainId) : (loadDeadline d s).divider = s.divider := by
      dsimp only [loadDeadline]
@[simp] theorem loadDeadline_edge (d : DomainId) : (loadDeadline d s).edge = s.edge := by dsimp only [loadDeadline]
@[simp] theorem loadDeadline_lineLevel (d : DomainId) : (loadDeadline d s).lineLevel = s.lineLevel := by
      dsimp only [loadDeadline]
@[simp] theorem loadDeadline_markCounter (d : DomainId) : (loadDeadline d s).markCounter = s.markCounter := by
      dsimp only [loadDeadline]
@[simp] theorem loadDeadline_fault (d : DomainId) : (loadDeadline d s).fault = s.fault := by dsimp only [loadDeadline]
@[simp] theorem loadDeadline_lost (d : DomainId) : (loadDeadline d s).lost = s.lost := by dsimp only [loadDeadline]
@[simp] theorem loadDeadline_latches (d : DomainId) : (loadDeadline d s).latches = s.latches := by
      dsimp only [loadDeadline]
@[simp] theorem loadDeadline_enables (d : DomainId) : (loadDeadline d s).enables = s.enables := by
      dsimp only [loadDeadline]
@[simp] theorem loadDeadline_argument0 (d : DomainId) : (loadDeadline d s).argument0 = s.argument0 := by
      dsimp only [loadDeadline]
@[simp] theorem loadDeadline_argument1 (d : DomainId) : (loadDeadline d s).argument1 = s.argument1 := by
      dsimp only [loadDeadline]
@[simp] theorem loadDeadline_commandResult (d : DomainId) : (loadDeadline d s).commandResult = s.commandResult := by
      dsimp only [loadDeadline]
@[simp] theorem loadDeadline_lastWrite (d : DomainId) : (loadDeadline d s).lastWrite = s.lastWrite := by
      dsimp only [loadDeadline]
@[simp] theorem loadDeadline_resetCause (d : DomainId) : (loadDeadline d s).resetCause = s.resetCause := by
      dsimp only [loadDeadline]
@[simp] theorem loadDeadline_draining (d : DomainId) : (loadDeadline d s).draining = s.draining := by
      dsimp only [loadDeadline]
@[simp] theorem loadDeadline_responses (d : DomainId) : (loadDeadline d s).responses = s.responses := by
      dsimp only [loadDeadline]
@[simp] theorem loadDeadline_portOperations (d : DomainId) : (loadDeadline d s).portOperations =
      s.portOperations := by dsimp only [loadDeadline]
@[simp] theorem loadDeadline_pending (d : DomainId) : (loadDeadline d s).pending = s.pending := by
      dsimp only [loadDeadline]

/-! stopDeadline -/

@[simp] theorem stopDeadline_windows (d : DomainId) : (stopDeadline d s).windows = s.windows := by
      dsimp only [stopDeadline]
@[simp] theorem stopDeadline_initiators (d : DomainId) : (stopDeadline d s).initiators = s.initiators := by
      dsimp only [stopDeadline]
@[simp] theorem stopDeadline_cache (d : DomainId) : (stopDeadline d s).cache = s.cache := by dsimp only [stopDeadline]
@[simp] theorem stopDeadline_cachePointer (d : DomainId) : (stopDeadline d s).cachePointer = s.cachePointer := by
      dsimp only [stopDeadline]
@[simp] theorem stopDeadline_walkJobs (d : DomainId) : (stopDeadline d s).walkJobs = s.walkJobs := by
      dsimp only [stopDeadline]
@[simp] theorem stopDeadline_publication (d : DomainId) : (stopDeadline d s).publication = s.publication := by
      dsimp only [stopDeadline]
@[simp] theorem stopDeadline_publishWrite (d : DomainId) : (stopDeadline d s).publishWrite = s.publishWrite := by
      dsimp only [stopDeadline]
@[simp] theorem stopDeadline_domains (d : DomainId) : (stopDeadline d s).domains = s.domains := by
      dsimp only [stopDeadline]
@[simp] theorem stopDeadline_changes (d : DomainId) : (stopDeadline d s).changes = s.changes := by
      dsimp only [stopDeadline]
@[simp] theorem stopDeadline_freeFrames (d : DomainId) : (stopDeadline d s).freeFrames = s.freeFrames := by
      dsimp only [stopDeadline]
@[simp] theorem stopDeadline_poolSize (d : DomainId) : (stopDeadline d s).poolSize = s.poolSize := by
      dsimp only [stopDeadline]
@[simp] theorem stopDeadline_poolThreshold (d : DomainId) : (stopDeadline d s).poolThreshold = s.poolThreshold := by
      dsimp only [stopDeadline]
@[simp] theorem stopDeadline_slots (d : DomainId) : (stopDeadline d s).slots = s.slots := by dsimp only [stopDeadline]
@[simp] theorem stopDeadline_ranks (d : DomainId) : (stopDeadline d s).ranks = s.ranks := by dsimp only [stopDeadline]
@[simp] theorem stopDeadline_transit (d : DomainId) : (stopDeadline d s).transit = s.transit := by
      dsimp only [stopDeadline]
@[simp] theorem stopDeadline_collected (d : DomainId) : (stopDeadline d s).collected = s.collected := by
      dsimp only [stopDeadline]
@[simp] theorem stopDeadline_starvation (d : DomainId) : (stopDeadline d s).starvation = s.starvation := by
      dsimp only [stopDeadline]
@[simp] theorem stopDeadline_abandoned (d : DomainId) : (stopDeadline d s).abandoned = s.abandoned := by
      dsimp only [stopDeadline]
@[simp] theorem stopDeadline_deadlines (d : DomainId) : (stopDeadline d s).deadlines =
      s.deadlines.set d { s.deadlines[d] with running := false } := rfl
@[simp] theorem stopDeadline_timebase (d : DomainId) : (stopDeadline d s).timebase = s.timebase := by
      dsimp only [stopDeadline]
@[simp] theorem stopDeadline_divider (d : DomainId) : (stopDeadline d s).divider = s.divider := by
      dsimp only [stopDeadline]
@[simp] theorem stopDeadline_edge (d : DomainId) : (stopDeadline d s).edge = s.edge := by dsimp only [stopDeadline]
@[simp] theorem stopDeadline_lineLevel (d : DomainId) : (stopDeadline d s).lineLevel = s.lineLevel := by
      dsimp only [stopDeadline]
@[simp] theorem stopDeadline_markCounter (d : DomainId) : (stopDeadline d s).markCounter = s.markCounter := by
      dsimp only [stopDeadline]
@[simp] theorem stopDeadline_fault (d : DomainId) : (stopDeadline d s).fault = s.fault := by dsimp only [stopDeadline]
@[simp] theorem stopDeadline_lost (d : DomainId) : (stopDeadline d s).lost = s.lost := by dsimp only [stopDeadline]
@[simp] theorem stopDeadline_latches (d : DomainId) : (stopDeadline d s).latches = s.latches := by
      dsimp only [stopDeadline]
@[simp] theorem stopDeadline_enables (d : DomainId) : (stopDeadline d s).enables = s.enables := by
      dsimp only [stopDeadline]
@[simp] theorem stopDeadline_argument0 (d : DomainId) : (stopDeadline d s).argument0 = s.argument0 := by
      dsimp only [stopDeadline]
@[simp] theorem stopDeadline_argument1 (d : DomainId) : (stopDeadline d s).argument1 = s.argument1 := by
      dsimp only [stopDeadline]
@[simp] theorem stopDeadline_commandResult (d : DomainId) : (stopDeadline d s).commandResult = s.commandResult := by
      dsimp only [stopDeadline]
@[simp] theorem stopDeadline_lastWrite (d : DomainId) : (stopDeadline d s).lastWrite = s.lastWrite := by
      dsimp only [stopDeadline]
@[simp] theorem stopDeadline_resetCause (d : DomainId) : (stopDeadline d s).resetCause = s.resetCause := by
      dsimp only [stopDeadline]
@[simp] theorem stopDeadline_draining (d : DomainId) : (stopDeadline d s).draining = s.draining := by
      dsimp only [stopDeadline]
@[simp] theorem stopDeadline_responses (d : DomainId) : (stopDeadline d s).responses = s.responses := by
      dsimp only [stopDeadline]
@[simp] theorem stopDeadline_portOperations (d : DomainId) : (stopDeadline d s).portOperations =
      s.portOperations := by dsimp only [stopDeadline]
@[simp] theorem stopDeadline_pending (d : DomainId) : (stopDeadline d s).pending = s.pending := by
      dsimp only [stopDeadline]

/-! setDeadline -/

@[simp] theorem setDeadline_windows (d : DomainId) (c : DeadlineCounter) : (setDeadline d c s).windows =
      s.windows := by dsimp only [setDeadline]
@[simp] theorem setDeadline_initiators (d : DomainId) (c : DeadlineCounter) : (setDeadline d c s).initiators =
      s.initiators := by dsimp only [setDeadline]
@[simp] theorem setDeadline_cache (d : DomainId) (c : DeadlineCounter) : (setDeadline d c s).cache = s.cache := by
      dsimp only [setDeadline]
@[simp] theorem setDeadline_cachePointer (d : DomainId) (c : DeadlineCounter) : (setDeadline d c s).cachePointer =
      s.cachePointer := by dsimp only [setDeadline]
@[simp] theorem setDeadline_walkJobs (d : DomainId) (c : DeadlineCounter) : (setDeadline d c s).walkJobs =
      s.walkJobs := by dsimp only [setDeadline]
@[simp] theorem setDeadline_publication (d : DomainId) (c : DeadlineCounter) : (setDeadline d c s).publication =
      s.publication := by dsimp only [setDeadline]
@[simp] theorem setDeadline_publishWrite (d : DomainId) (c : DeadlineCounter) : (setDeadline d c s).publishWrite =
      s.publishWrite := by dsimp only [setDeadline]
@[simp] theorem setDeadline_domains (d : DomainId) (c : DeadlineCounter) : (setDeadline d c s).domains =
      s.domains := by dsimp only [setDeadline]
@[simp] theorem setDeadline_changes (d : DomainId) (c : DeadlineCounter) : (setDeadline d c s).changes =
      s.changes := by dsimp only [setDeadline]
@[simp] theorem setDeadline_freeFrames (d : DomainId) (c : DeadlineCounter) : (setDeadline d c s).freeFrames =
      s.freeFrames := by dsimp only [setDeadline]
@[simp] theorem setDeadline_poolSize (d : DomainId) (c : DeadlineCounter) : (setDeadline d c s).poolSize =
      s.poolSize := by dsimp only [setDeadline]
@[simp] theorem setDeadline_poolThreshold (d : DomainId) (c : DeadlineCounter) : (setDeadline d c s).poolThreshold =
      s.poolThreshold := by dsimp only [setDeadline]
@[simp] theorem setDeadline_slots (d : DomainId) (c : DeadlineCounter) : (setDeadline d c s).slots = s.slots := by
      dsimp only [setDeadline]
@[simp] theorem setDeadline_ranks (d : DomainId) (c : DeadlineCounter) : (setDeadline d c s).ranks = s.ranks := by
      dsimp only [setDeadline]
@[simp] theorem setDeadline_transit (d : DomainId) (c : DeadlineCounter) : (setDeadline d c s).transit =
      s.transit := by dsimp only [setDeadline]
@[simp] theorem setDeadline_collected (d : DomainId) (c : DeadlineCounter) : (setDeadline d c s).collected =
      s.collected := by dsimp only [setDeadline]
@[simp] theorem setDeadline_starvation (d : DomainId) (c : DeadlineCounter) : (setDeadline d c s).starvation =
      s.starvation := by dsimp only [setDeadline]
@[simp] theorem setDeadline_abandoned (d : DomainId) (c : DeadlineCounter) : (setDeadline d c s).abandoned =
      s.abandoned := by dsimp only [setDeadline]
@[simp] theorem setDeadline_deadlines (d : DomainId) (c : DeadlineCounter) : (setDeadline d c s).deadlines =
      s.deadlines.set d c := rfl
@[simp] theorem setDeadline_timebase (d : DomainId) (c : DeadlineCounter) : (setDeadline d c s).timebase =
      s.timebase := by dsimp only [setDeadline]
@[simp] theorem setDeadline_divider (d : DomainId) (c : DeadlineCounter) : (setDeadline d c s).divider =
      s.divider := by dsimp only [setDeadline]
@[simp] theorem setDeadline_edge (d : DomainId) (c : DeadlineCounter) : (setDeadline d c s).edge = s.edge := by
      dsimp only [setDeadline]
@[simp] theorem setDeadline_lineLevel (d : DomainId) (c : DeadlineCounter) : (setDeadline d c s).lineLevel =
      s.lineLevel := by dsimp only [setDeadline]
@[simp] theorem setDeadline_markCounter (d : DomainId) (c : DeadlineCounter) : (setDeadline d c s).markCounter =
      s.markCounter := by dsimp only [setDeadline]
@[simp] theorem setDeadline_fault (d : DomainId) (c : DeadlineCounter) : (setDeadline d c s).fault = s.fault := by
      dsimp only [setDeadline]
@[simp] theorem setDeadline_lost (d : DomainId) (c : DeadlineCounter) : (setDeadline d c s).lost = s.lost := by
      dsimp only [setDeadline]
@[simp] theorem setDeadline_latches (d : DomainId) (c : DeadlineCounter) : (setDeadline d c s).latches =
      s.latches := by dsimp only [setDeadline]
@[simp] theorem setDeadline_enables (d : DomainId) (c : DeadlineCounter) : (setDeadline d c s).enables =
      s.enables := by dsimp only [setDeadline]
@[simp] theorem setDeadline_argument0 (d : DomainId) (c : DeadlineCounter) : (setDeadline d c s).argument0 =
      s.argument0 := by dsimp only [setDeadline]
@[simp] theorem setDeadline_argument1 (d : DomainId) (c : DeadlineCounter) : (setDeadline d c s).argument1 =
      s.argument1 := by dsimp only [setDeadline]
@[simp] theorem setDeadline_commandResult (d : DomainId) (c : DeadlineCounter) : (setDeadline d c s).commandResult =
      s.commandResult := by dsimp only [setDeadline]
@[simp] theorem setDeadline_lastWrite (d : DomainId) (c : DeadlineCounter) : (setDeadline d c s).lastWrite =
      s.lastWrite := by dsimp only [setDeadline]
@[simp] theorem setDeadline_resetCause (d : DomainId) (c : DeadlineCounter) : (setDeadline d c s).resetCause =
      s.resetCause := by dsimp only [setDeadline]
@[simp] theorem setDeadline_draining (d : DomainId) (c : DeadlineCounter) : (setDeadline d c s).draining =
      s.draining := by dsimp only [setDeadline]
@[simp] theorem setDeadline_responses (d : DomainId) (c : DeadlineCounter) : (setDeadline d c s).responses =
      s.responses := by dsimp only [setDeadline]
@[simp] theorem setDeadline_portOperations (d : DomainId) (c : DeadlineCounter) :
      (setDeadline d c s).portOperations = s.portOperations := by dsimp only [setDeadline]
@[simp] theorem setDeadline_pending (d : DomainId) (c : DeadlineCounter) : (setDeadline d c s).pending =
      s.pending := by dsimp only [setDeadline]

/-! reportFault -/

@[simp] theorem reportFault_windows (f : FaultReport) : (reportFault f s).windows = s.windows := by
      dsimp only [reportFault]
@[simp] theorem reportFault_initiators (f : FaultReport) : (reportFault f s).initiators = s.initiators := by
      dsimp only [reportFault]
@[simp] theorem reportFault_cache (f : FaultReport) : (reportFault f s).cache = s.cache := by dsimp only [reportFault]
@[simp] theorem reportFault_cachePointer (f : FaultReport) : (reportFault f s).cachePointer = s.cachePointer := by
      dsimp only [reportFault]
@[simp] theorem reportFault_walkJobs (f : FaultReport) : (reportFault f s).walkJobs = s.walkJobs := by
      dsimp only [reportFault]
@[simp] theorem reportFault_publication (f : FaultReport) : (reportFault f s).publication = s.publication := by
      dsimp only [reportFault]
@[simp] theorem reportFault_publishWrite (f : FaultReport) : (reportFault f s).publishWrite = s.publishWrite := by
      dsimp only [reportFault]
@[simp] theorem reportFault_domains (f : FaultReport) : (reportFault f s).domains = s.domains := by
      dsimp only [reportFault]
@[simp] theorem reportFault_changes (f : FaultReport) : (reportFault f s).changes = s.changes := by
      dsimp only [reportFault]
@[simp] theorem reportFault_freeFrames (f : FaultReport) : (reportFault f s).freeFrames = s.freeFrames := by
      dsimp only [reportFault]
@[simp] theorem reportFault_poolSize (f : FaultReport) : (reportFault f s).poolSize = s.poolSize := by
      dsimp only [reportFault]
@[simp] theorem reportFault_poolThreshold (f : FaultReport) : (reportFault f s).poolThreshold = s.poolThreshold := by
      dsimp only [reportFault]
@[simp] theorem reportFault_slots (f : FaultReport) : (reportFault f s).slots = s.slots := by dsimp only [reportFault]
@[simp] theorem reportFault_ranks (f : FaultReport) : (reportFault f s).ranks = s.ranks := by dsimp only [reportFault]
@[simp] theorem reportFault_transit (f : FaultReport) : (reportFault f s).transit = s.transit := by
      dsimp only [reportFault]
@[simp] theorem reportFault_collected (f : FaultReport) : (reportFault f s).collected = s.collected := by
      dsimp only [reportFault]
@[simp] theorem reportFault_starvation (f : FaultReport) : (reportFault f s).starvation = s.starvation := by
      dsimp only [reportFault]
@[simp] theorem reportFault_abandoned (f : FaultReport) : (reportFault f s).abandoned = s.abandoned := by
      dsimp only [reportFault]
@[simp] theorem reportFault_deadlines (f : FaultReport) : (reportFault f s).deadlines = s.deadlines := by
      dsimp only [reportFault]
@[simp] theorem reportFault_timebase (f : FaultReport) : (reportFault f s).timebase = s.timebase := by
      dsimp only [reportFault]
@[simp] theorem reportFault_divider (f : FaultReport) : (reportFault f s).divider = s.divider := by
      dsimp only [reportFault]
@[simp] theorem reportFault_edge (f : FaultReport) : (reportFault f s).edge = s.edge := by dsimp only [reportFault]
@[simp] theorem reportFault_lineLevel (f : FaultReport) : (reportFault f s).lineLevel = s.lineLevel := by
      dsimp only [reportFault]
@[simp] theorem reportFault_markCounter (f : FaultReport) : (reportFault f s).markCounter = s.markCounter := by
      dsimp only [reportFault]
@[simp] theorem reportFault_fault (f : FaultReport) : (reportFault f s).fault = some (s.fault.getD f) := rfl
@[simp] theorem reportFault_lost (f : FaultReport) : (reportFault f s).lost = (s.lost || s.fault.isSome) := rfl
@[simp] theorem reportFault_latches (f : FaultReport) : (reportFault f s).latches = if s.fault.isSome then
      s.latches else s.latches ||| alertMask .fault := rfl
@[simp] theorem reportFault_enables (f : FaultReport) : (reportFault f s).enables = s.enables := by
      dsimp only [reportFault]
@[simp] theorem reportFault_argument0 (f : FaultReport) : (reportFault f s).argument0 = s.argument0 := by
      dsimp only [reportFault]
@[simp] theorem reportFault_argument1 (f : FaultReport) : (reportFault f s).argument1 = s.argument1 := by
      dsimp only [reportFault]
@[simp] theorem reportFault_commandResult (f : FaultReport) : (reportFault f s).commandResult = s.commandResult := by
      dsimp only [reportFault]
@[simp] theorem reportFault_lastWrite (f : FaultReport) : (reportFault f s).lastWrite = s.lastWrite := by
      dsimp only [reportFault]
@[simp] theorem reportFault_resetCause (f : FaultReport) : (reportFault f s).resetCause = s.resetCause := by
      dsimp only [reportFault]
@[simp] theorem reportFault_draining (f : FaultReport) : (reportFault f s).draining = s.draining := by
      dsimp only [reportFault]
@[simp] theorem reportFault_responses (f : FaultReport) : (reportFault f s).responses = s.responses := by
      dsimp only [reportFault]
@[simp] theorem reportFault_portOperations (f : FaultReport) : (reportFault f s).portOperations =
      s.portOperations := by dsimp only [reportFault]
@[simp] theorem reportFault_pending (f : FaultReport) : (reportFault f s).pending = s.pending := by
      dsimp only [reportFault]

/-! sendResponse -/

@[simp] theorem sendResponse_windows (a : Response) : (sendResponse a s).windows = s.windows := by
      dsimp only [sendResponse]
@[simp] theorem sendResponse_initiators (a : Response) : (sendResponse a s).initiators = s.initiators := by
      dsimp only [sendResponse]
@[simp] theorem sendResponse_cache (a : Response) : (sendResponse a s).cache = s.cache := by dsimp only [sendResponse]
@[simp] theorem sendResponse_cachePointer (a : Response) : (sendResponse a s).cachePointer = s.cachePointer := by
      dsimp only [sendResponse]
@[simp] theorem sendResponse_walkJobs (a : Response) : (sendResponse a s).walkJobs = s.walkJobs := by
      dsimp only [sendResponse]
@[simp] theorem sendResponse_publication (a : Response) : (sendResponse a s).publication = s.publication := by
      dsimp only [sendResponse]
@[simp] theorem sendResponse_publishWrite (a : Response) : (sendResponse a s).publishWrite = s.publishWrite := by
      dsimp only [sendResponse]
@[simp] theorem sendResponse_domains (a : Response) : (sendResponse a s).domains = s.domains := by
      dsimp only [sendResponse]
@[simp] theorem sendResponse_changes (a : Response) : (sendResponse a s).changes = s.changes := by
      dsimp only [sendResponse]
@[simp] theorem sendResponse_freeFrames (a : Response) : (sendResponse a s).freeFrames = s.freeFrames := by
      dsimp only [sendResponse]
@[simp] theorem sendResponse_poolSize (a : Response) : (sendResponse a s).poolSize = s.poolSize := by
      dsimp only [sendResponse]
@[simp] theorem sendResponse_poolThreshold (a : Response) : (sendResponse a s).poolThreshold = s.poolThreshold := by
      dsimp only [sendResponse]
@[simp] theorem sendResponse_slots (a : Response) : (sendResponse a s).slots = s.slots := by dsimp only [sendResponse]
@[simp] theorem sendResponse_ranks (a : Response) : (sendResponse a s).ranks = s.ranks := by dsimp only [sendResponse]
@[simp] theorem sendResponse_transit (a : Response) : (sendResponse a s).transit = s.transit := by
      dsimp only [sendResponse]
@[simp] theorem sendResponse_collected (a : Response) : (sendResponse a s).collected = s.collected := by
      dsimp only [sendResponse]
@[simp] theorem sendResponse_starvation (a : Response) : (sendResponse a s).starvation = s.starvation := by
      dsimp only [sendResponse]
@[simp] theorem sendResponse_abandoned (a : Response) : (sendResponse a s).abandoned = s.abandoned := by
      dsimp only [sendResponse]
@[simp] theorem sendResponse_deadlines (a : Response) : (sendResponse a s).deadlines = s.deadlines := by
      dsimp only [sendResponse]
@[simp] theorem sendResponse_timebase (a : Response) : (sendResponse a s).timebase = s.timebase := by
      dsimp only [sendResponse]
@[simp] theorem sendResponse_divider (a : Response) : (sendResponse a s).divider = s.divider := by
      dsimp only [sendResponse]
@[simp] theorem sendResponse_edge (a : Response) : (sendResponse a s).edge = s.edge := by dsimp only [sendResponse]
@[simp] theorem sendResponse_lineLevel (a : Response) : (sendResponse a s).lineLevel = s.lineLevel := by
      dsimp only [sendResponse]
@[simp] theorem sendResponse_markCounter (a : Response) : (sendResponse a s).markCounter = s.markCounter := by
      dsimp only [sendResponse]
@[simp] theorem sendResponse_fault (a : Response) : (sendResponse a s).fault = s.fault := by dsimp only [sendResponse]
@[simp] theorem sendResponse_lost (a : Response) : (sendResponse a s).lost = s.lost := by dsimp only [sendResponse]
@[simp] theorem sendResponse_latches (a : Response) : (sendResponse a s).latches = s.latches := by
      dsimp only [sendResponse]
@[simp] theorem sendResponse_enables (a : Response) : (sendResponse a s).enables = s.enables := by
      dsimp only [sendResponse]
@[simp] theorem sendResponse_argument0 (a : Response) : (sendResponse a s).argument0 = s.argument0 := by
      dsimp only [sendResponse]
@[simp] theorem sendResponse_argument1 (a : Response) : (sendResponse a s).argument1 = s.argument1 := by
      dsimp only [sendResponse]
@[simp] theorem sendResponse_commandResult (a : Response) : (sendResponse a s).commandResult = s.commandResult := by
      dsimp only [sendResponse]
@[simp] theorem sendResponse_lastWrite (a : Response) : (sendResponse a s).lastWrite = s.lastWrite := by
      dsimp only [sendResponse]
@[simp] theorem sendResponse_resetCause (a : Response) : (sendResponse a s).resetCause = s.resetCause := by
      dsimp only [sendResponse]
@[simp] theorem sendResponse_draining (a : Response) : (sendResponse a s).draining = s.draining := by
      dsimp only [sendResponse]
@[simp] theorem sendResponse_responses (a : Response) : (sendResponse a s).responses = s.responses ++ [a] := rfl
@[simp] theorem sendResponse_portOperations (a : Response) : (sendResponse a s).portOperations =
      s.portOperations := by dsimp only [sendResponse]
@[simp] theorem sendResponse_pending (a : Response) : (sendResponse a s).pending = s.pending := by
      dsimp only [sendResponse]

/-! endWaits -/

@[simp] theorem endWaits_windows (p : Rank → Bool) : (endWaits p s).windows = s.windows := by dsimp only [endWaits]
@[simp] theorem endWaits_initiators (p : Rank → Bool) : (endWaits p s).initiators = s.initiators := by
      dsimp only [endWaits]
@[simp] theorem endWaits_cache (p : Rank → Bool) : (endWaits p s).cache = s.cache := by dsimp only [endWaits]
@[simp] theorem endWaits_cachePointer (p : Rank → Bool) : (endWaits p s).cachePointer = s.cachePointer := by
      dsimp only [endWaits]
@[simp] theorem endWaits_walkJobs (p : Rank → Bool) : (endWaits p s).walkJobs = s.walkJobs := by dsimp only [endWaits]
@[simp] theorem endWaits_publication (p : Rank → Bool) : (endWaits p s).publication = s.publication := by
      dsimp only [endWaits]
@[simp] theorem endWaits_publishWrite (p : Rank → Bool) : (endWaits p s).publishWrite = s.publishWrite := by
      dsimp only [endWaits]
@[simp] theorem endWaits_domains (p : Rank → Bool) : (endWaits p s).domains = s.domains := by dsimp only [endWaits]
@[simp] theorem endWaits_changes (p : Rank → Bool) : (endWaits p s).changes = s.changes := by dsimp only [endWaits]
@[simp] theorem endWaits_freeFrames (p : Rank → Bool) : (endWaits p s).freeFrames = s.freeFrames := by
      dsimp only [endWaits]
@[simp] theorem endWaits_poolSize (p : Rank → Bool) : (endWaits p s).poolSize = s.poolSize := by dsimp only [endWaits]
@[simp] theorem endWaits_poolThreshold (p : Rank → Bool) : (endWaits p s).poolThreshold = s.poolThreshold := by
      dsimp only [endWaits]
@[simp] theorem endWaits_slots (p : Rank → Bool) : (endWaits p s).slots = s.slots := by dsimp only [endWaits]
@[simp] theorem endWaits_ranks (p : Rank → Bool) : (endWaits p s).ranks = s.ranks.map (wake p) := rfl
@[simp] theorem endWaits_transit (p : Rank → Bool) : (endWaits p s).transit = s.transit := by dsimp only [endWaits]
@[simp] theorem endWaits_collected (p : Rank → Bool) : (endWaits p s).collected = s.collected := by
      dsimp only [endWaits]
@[simp] theorem endWaits_starvation (p : Rank → Bool) : (endWaits p s).starvation = s.starvation := by
      dsimp only [endWaits]
@[simp] theorem endWaits_abandoned (p : Rank → Bool) : (endWaits p s).abandoned = s.abandoned := by
      dsimp only [endWaits]
@[simp] theorem endWaits_deadlines (p : Rank → Bool) : (endWaits p s).deadlines = s.deadlines := by
      dsimp only [endWaits]
@[simp] theorem endWaits_timebase (p : Rank → Bool) : (endWaits p s).timebase = s.timebase := by dsimp only [endWaits]
@[simp] theorem endWaits_divider (p : Rank → Bool) : (endWaits p s).divider = s.divider := by dsimp only [endWaits]
@[simp] theorem endWaits_edge (p : Rank → Bool) : (endWaits p s).edge = s.edge := by dsimp only [endWaits]
@[simp] theorem endWaits_lineLevel (p : Rank → Bool) : (endWaits p s).lineLevel = s.lineLevel := by
      dsimp only [endWaits]
@[simp] theorem endWaits_markCounter (p : Rank → Bool) : (endWaits p s).markCounter = s.markCounter := by
      dsimp only [endWaits]
@[simp] theorem endWaits_fault (p : Rank → Bool) : (endWaits p s).fault = s.fault := by dsimp only [endWaits]
@[simp] theorem endWaits_lost (p : Rank → Bool) : (endWaits p s).lost = s.lost := by dsimp only [endWaits]
@[simp] theorem endWaits_latches (p : Rank → Bool) : (endWaits p s).latches = s.latches := by dsimp only [endWaits]
@[simp] theorem endWaits_enables (p : Rank → Bool) : (endWaits p s).enables = s.enables := by dsimp only [endWaits]
@[simp] theorem endWaits_argument0 (p : Rank → Bool) : (endWaits p s).argument0 = s.argument0 := by
      dsimp only [endWaits]
@[simp] theorem endWaits_argument1 (p : Rank → Bool) : (endWaits p s).argument1 = s.argument1 := by
      dsimp only [endWaits]
@[simp] theorem endWaits_commandResult (p : Rank → Bool) : (endWaits p s).commandResult = s.commandResult := by
      dsimp only [endWaits]
@[simp] theorem endWaits_lastWrite (p : Rank → Bool) : (endWaits p s).lastWrite = s.lastWrite := by
      dsimp only [endWaits]
@[simp] theorem endWaits_resetCause (p : Rank → Bool) : (endWaits p s).resetCause = s.resetCause := by
      dsimp only [endWaits]
@[simp] theorem endWaits_draining (p : Rank → Bool) : (endWaits p s).draining = s.draining := by dsimp only [endWaits]
@[simp] theorem endWaits_responses (p : Rank → Bool) : (endWaits p s).responses = s.responses := by
      dsimp only [endWaits]
@[simp] theorem endWaits_portOperations (p : Rank → Bool) : (endWaits p s).portOperations = s.portOperations := by
      dsimp only [endWaits]
@[simp] theorem endWaits_pending (p : Rank → Bool) : (endWaits p s).pending = s.pending := by dsimp only [endWaits]

/-! endDomainWaits -/

@[simp] theorem endDomainWaits_windows (d : DomainId) : (endDomainWaits d s).windows = s.windows := by
      dsimp only [endDomainWaits, endWaits]
@[simp] theorem endDomainWaits_initiators (d : DomainId) : (endDomainWaits d s).initiators = s.initiators := by
      dsimp only [endDomainWaits, endWaits]
@[simp] theorem endDomainWaits_cache (d : DomainId) : (endDomainWaits d s).cache = s.cache := by
      dsimp only [endDomainWaits, endWaits]
@[simp] theorem endDomainWaits_cachePointer (d : DomainId) : (endDomainWaits d s).cachePointer = s.cachePointer := by
      dsimp only [endDomainWaits, endWaits]
@[simp] theorem endDomainWaits_walkJobs (d : DomainId) : (endDomainWaits d s).walkJobs = s.walkJobs := by
      dsimp only [endDomainWaits, endWaits]
@[simp] theorem endDomainWaits_publication (d : DomainId) : (endDomainWaits d s).publication = s.publication := by
      dsimp only [endDomainWaits, endWaits]
@[simp] theorem endDomainWaits_publishWrite (d : DomainId) : (endDomainWaits d s).publishWrite = s.publishWrite := by
      dsimp only [endDomainWaits, endWaits]
@[simp] theorem endDomainWaits_domains (d : DomainId) : (endDomainWaits d s).domains = s.domains := by
      dsimp only [endDomainWaits, endWaits]
@[simp] theorem endDomainWaits_changes (d : DomainId) : (endDomainWaits d s).changes = s.changes := by
      dsimp only [endDomainWaits, endWaits]
@[simp] theorem endDomainWaits_freeFrames (d : DomainId) : (endDomainWaits d s).freeFrames = s.freeFrames := by
      dsimp only [endDomainWaits, endWaits]
@[simp] theorem endDomainWaits_poolSize (d : DomainId) : (endDomainWaits d s).poolSize = s.poolSize := by
      dsimp only [endDomainWaits, endWaits]
@[simp] theorem endDomainWaits_poolThreshold (d : DomainId) : (endDomainWaits d s).poolThreshold =
      s.poolThreshold := by dsimp only [endDomainWaits, endWaits]
@[simp] theorem endDomainWaits_slots (d : DomainId) : (endDomainWaits d s).slots = s.slots := by
      dsimp only [endDomainWaits, endWaits]
@[simp] theorem endDomainWaits_ranks (d : DomainId) : (endDomainWaits d s).ranks =
      s.ranks.map (wake (parkedOnDomain d)) := rfl
@[simp] theorem endDomainWaits_transit (d : DomainId) : (endDomainWaits d s).transit = s.transit := by
      dsimp only [endDomainWaits, endWaits]
@[simp] theorem endDomainWaits_collected (d : DomainId) : (endDomainWaits d s).collected = s.collected := by
      dsimp only [endDomainWaits, endWaits]
@[simp] theorem endDomainWaits_starvation (d : DomainId) : (endDomainWaits d s).starvation = s.starvation := by
      dsimp only [endDomainWaits, endWaits]
@[simp] theorem endDomainWaits_abandoned (d : DomainId) : (endDomainWaits d s).abandoned = s.abandoned := by
      dsimp only [endDomainWaits, endWaits]
@[simp] theorem endDomainWaits_deadlines (d : DomainId) : (endDomainWaits d s).deadlines = s.deadlines := by
      dsimp only [endDomainWaits, endWaits]
@[simp] theorem endDomainWaits_timebase (d : DomainId) : (endDomainWaits d s).timebase = s.timebase := by
      dsimp only [endDomainWaits, endWaits]
@[simp] theorem endDomainWaits_divider (d : DomainId) : (endDomainWaits d s).divider = s.divider := by
      dsimp only [endDomainWaits, endWaits]
@[simp] theorem endDomainWaits_edge (d : DomainId) : (endDomainWaits d s).edge = s.edge := by
      dsimp only [endDomainWaits, endWaits]
@[simp] theorem endDomainWaits_lineLevel (d : DomainId) : (endDomainWaits d s).lineLevel = s.lineLevel := by
      dsimp only [endDomainWaits, endWaits]
@[simp] theorem endDomainWaits_markCounter (d : DomainId) : (endDomainWaits d s).markCounter = s.markCounter := by
      dsimp only [endDomainWaits, endWaits]
@[simp] theorem endDomainWaits_fault (d : DomainId) : (endDomainWaits d s).fault = s.fault := by
      dsimp only [endDomainWaits, endWaits]
@[simp] theorem endDomainWaits_lost (d : DomainId) : (endDomainWaits d s).lost = s.lost := by
      dsimp only [endDomainWaits, endWaits]
@[simp] theorem endDomainWaits_latches (d : DomainId) : (endDomainWaits d s).latches = s.latches := by
      dsimp only [endDomainWaits, endWaits]
@[simp] theorem endDomainWaits_enables (d : DomainId) : (endDomainWaits d s).enables = s.enables := by
      dsimp only [endDomainWaits, endWaits]
@[simp] theorem endDomainWaits_argument0 (d : DomainId) : (endDomainWaits d s).argument0 = s.argument0 := by
      dsimp only [endDomainWaits, endWaits]
@[simp] theorem endDomainWaits_argument1 (d : DomainId) : (endDomainWaits d s).argument1 = s.argument1 := by
      dsimp only [endDomainWaits, endWaits]
@[simp] theorem endDomainWaits_commandResult (d : DomainId) : (endDomainWaits d s).commandResult =
      s.commandResult := by dsimp only [endDomainWaits, endWaits]
@[simp] theorem endDomainWaits_lastWrite (d : DomainId) : (endDomainWaits d s).lastWrite = s.lastWrite := by
      dsimp only [endDomainWaits, endWaits]
@[simp] theorem endDomainWaits_resetCause (d : DomainId) : (endDomainWaits d s).resetCause = s.resetCause := by
      dsimp only [endDomainWaits, endWaits]
@[simp] theorem endDomainWaits_draining (d : DomainId) : (endDomainWaits d s).draining = s.draining := by
      dsimp only [endDomainWaits, endWaits]
@[simp] theorem endDomainWaits_responses (d : DomainId) : (endDomainWaits d s).responses = s.responses := by
      dsimp only [endDomainWaits, endWaits]
@[simp] theorem endDomainWaits_portOperations (d : DomainId) : (endDomainWaits d s).portOperations =
      s.portOperations := by dsimp only [endDomainWaits, endWaits]
@[simp] theorem endDomainWaits_pending (d : DomainId) : (endDomainWaits d s).pending = s.pending := by
      dsimp only [endDomainWaits, endWaits]

/-! addRank -/

@[simp] theorem addRank_windows (k : Rank) : (addRank k s).windows = s.windows := by dsimp only [addRank]
@[simp] theorem addRank_initiators (k : Rank) : (addRank k s).initiators = s.initiators := by dsimp only [addRank]
@[simp] theorem addRank_cache (k : Rank) : (addRank k s).cache = s.cache := by dsimp only [addRank]
@[simp] theorem addRank_cachePointer (k : Rank) : (addRank k s).cachePointer = s.cachePointer := by dsimp only [addRank]
@[simp] theorem addRank_walkJobs (k : Rank) : (addRank k s).walkJobs = s.walkJobs := by dsimp only [addRank]
@[simp] theorem addRank_publication (k : Rank) : (addRank k s).publication = s.publication := by dsimp only [addRank]
@[simp] theorem addRank_publishWrite (k : Rank) : (addRank k s).publishWrite = s.publishWrite := by dsimp only [addRank]
@[simp] theorem addRank_domains (k : Rank) : (addRank k s).domains = s.domains := by dsimp only [addRank]
@[simp] theorem addRank_changes (k : Rank) : (addRank k s).changes = s.changes := by dsimp only [addRank]
@[simp] theorem addRank_freeFrames (k : Rank) : (addRank k s).freeFrames = s.freeFrames := by dsimp only [addRank]
@[simp] theorem addRank_poolSize (k : Rank) : (addRank k s).poolSize = s.poolSize := by dsimp only [addRank]
@[simp] theorem addRank_poolThreshold (k : Rank) : (addRank k s).poolThreshold = s.poolThreshold := by
      dsimp only [addRank]
@[simp] theorem addRank_slots (k : Rank) : (addRank k s).slots = s.slots := by dsimp only [addRank]
@[simp] theorem addRank_ranks (k : Rank) : (addRank k s).ranks = s.ranks ++ [k] := rfl
@[simp] theorem addRank_transit (k : Rank) : (addRank k s).transit = s.transit := by dsimp only [addRank]
@[simp] theorem addRank_collected (k : Rank) : (addRank k s).collected = s.collected := by dsimp only [addRank]
@[simp] theorem addRank_starvation (k : Rank) : (addRank k s).starvation = s.starvation := by dsimp only [addRank]
@[simp] theorem addRank_abandoned (k : Rank) : (addRank k s).abandoned = s.abandoned := by dsimp only [addRank]
@[simp] theorem addRank_deadlines (k : Rank) : (addRank k s).deadlines = s.deadlines := by dsimp only [addRank]
@[simp] theorem addRank_timebase (k : Rank) : (addRank k s).timebase = s.timebase := by dsimp only [addRank]
@[simp] theorem addRank_divider (k : Rank) : (addRank k s).divider = s.divider := by dsimp only [addRank]
@[simp] theorem addRank_edge (k : Rank) : (addRank k s).edge = s.edge := by dsimp only [addRank]
@[simp] theorem addRank_lineLevel (k : Rank) : (addRank k s).lineLevel = s.lineLevel := by dsimp only [addRank]
@[simp] theorem addRank_markCounter (k : Rank) : (addRank k s).markCounter = s.markCounter := by dsimp only [addRank]
@[simp] theorem addRank_fault (k : Rank) : (addRank k s).fault = s.fault := by dsimp only [addRank]
@[simp] theorem addRank_lost (k : Rank) : (addRank k s).lost = s.lost := by dsimp only [addRank]
@[simp] theorem addRank_latches (k : Rank) : (addRank k s).latches = s.latches := by dsimp only [addRank]
@[simp] theorem addRank_enables (k : Rank) : (addRank k s).enables = s.enables := by dsimp only [addRank]
@[simp] theorem addRank_argument0 (k : Rank) : (addRank k s).argument0 = s.argument0 := by dsimp only [addRank]
@[simp] theorem addRank_argument1 (k : Rank) : (addRank k s).argument1 = s.argument1 := by dsimp only [addRank]
@[simp] theorem addRank_commandResult (k : Rank) : (addRank k s).commandResult = s.commandResult := by
      dsimp only [addRank]
@[simp] theorem addRank_lastWrite (k : Rank) : (addRank k s).lastWrite = s.lastWrite := by dsimp only [addRank]
@[simp] theorem addRank_resetCause (k : Rank) : (addRank k s).resetCause = s.resetCause := by dsimp only [addRank]
@[simp] theorem addRank_draining (k : Rank) : (addRank k s).draining = s.draining := by dsimp only [addRank]
@[simp] theorem addRank_responses (k : Rank) : (addRank k s).responses = s.responses := by dsimp only [addRank]
@[simp] theorem addRank_portOperations (k : Rank) : (addRank k s).portOperations = s.portOperations := by
      dsimp only [addRank]
@[simp] theorem addRank_pending (k : Rank) : (addRank k s).pending = s.pending := by dsimp only [addRank]

/-! parkAgain -/

@[simp] theorem parkAgain_windows (n : Nat) (reason : WaitReason) : (parkAgain n reason s).windows = s.windows := by
      dsimp only [parkAgain]
@[simp] theorem parkAgain_initiators (n : Nat) (reason : WaitReason) : (parkAgain n reason s).initiators =
      s.initiators := by dsimp only [parkAgain]
@[simp] theorem parkAgain_cache (n : Nat) (reason : WaitReason) : (parkAgain n reason s).cache = s.cache := by
      dsimp only [parkAgain]
@[simp] theorem parkAgain_cachePointer (n : Nat) (reason : WaitReason) : (parkAgain n reason s).cachePointer =
      s.cachePointer := by dsimp only [parkAgain]
@[simp] theorem parkAgain_walkJobs (n : Nat) (reason : WaitReason) : (parkAgain n reason s).walkJobs =
      s.walkJobs := by dsimp only [parkAgain]
@[simp] theorem parkAgain_publication (n : Nat) (reason : WaitReason) : (parkAgain n reason s).publication =
      s.publication := by dsimp only [parkAgain]
@[simp] theorem parkAgain_publishWrite (n : Nat) (reason : WaitReason) : (parkAgain n reason s).publishWrite =
      s.publishWrite := by dsimp only [parkAgain]
@[simp] theorem parkAgain_domains (n : Nat) (reason : WaitReason) : (parkAgain n reason s).domains = s.domains := by
      dsimp only [parkAgain]
@[simp] theorem parkAgain_changes (n : Nat) (reason : WaitReason) : (parkAgain n reason s).changes = s.changes := by
      dsimp only [parkAgain]
@[simp] theorem parkAgain_freeFrames (n : Nat) (reason : WaitReason) : (parkAgain n reason s).freeFrames =
      s.freeFrames := by dsimp only [parkAgain]
@[simp] theorem parkAgain_poolSize (n : Nat) (reason : WaitReason) : (parkAgain n reason s).poolSize =
      s.poolSize := by dsimp only [parkAgain]
@[simp] theorem parkAgain_poolThreshold (n : Nat) (reason : WaitReason) : (parkAgain n reason s).poolThreshold =
      s.poolThreshold := by dsimp only [parkAgain]
@[simp] theorem parkAgain_slots (n : Nat) (reason : WaitReason) : (parkAgain n reason s).slots = s.slots := by
      dsimp only [parkAgain]
@[simp] theorem parkAgain_ranks (n : Nat) (reason : WaitReason) : (parkAgain n reason s).ranks =
      s.ranks.modify n fun k => { k with state := .parked reason } := rfl
@[simp] theorem parkAgain_transit (n : Nat) (reason : WaitReason) : (parkAgain n reason s).transit = s.transit := by
      dsimp only [parkAgain]
@[simp] theorem parkAgain_collected (n : Nat) (reason : WaitReason) : (parkAgain n reason s).collected =
      s.collected := by dsimp only [parkAgain]
@[simp] theorem parkAgain_starvation (n : Nat) (reason : WaitReason) : (parkAgain n reason s).starvation =
      s.starvation := by dsimp only [parkAgain]
@[simp] theorem parkAgain_abandoned (n : Nat) (reason : WaitReason) : (parkAgain n reason s).abandoned =
      s.abandoned := by dsimp only [parkAgain]
@[simp] theorem parkAgain_deadlines (n : Nat) (reason : WaitReason) : (parkAgain n reason s).deadlines =
      s.deadlines := by dsimp only [parkAgain]
@[simp] theorem parkAgain_timebase (n : Nat) (reason : WaitReason) : (parkAgain n reason s).timebase =
      s.timebase := by dsimp only [parkAgain]
@[simp] theorem parkAgain_divider (n : Nat) (reason : WaitReason) : (parkAgain n reason s).divider = s.divider := by
      dsimp only [parkAgain]
@[simp] theorem parkAgain_edge (n : Nat) (reason : WaitReason) : (parkAgain n reason s).edge = s.edge := by
      dsimp only [parkAgain]
@[simp] theorem parkAgain_lineLevel (n : Nat) (reason : WaitReason) : (parkAgain n reason s).lineLevel =
      s.lineLevel := by dsimp only [parkAgain]
@[simp] theorem parkAgain_markCounter (n : Nat) (reason : WaitReason) : (parkAgain n reason s).markCounter =
      s.markCounter := by dsimp only [parkAgain]
@[simp] theorem parkAgain_fault (n : Nat) (reason : WaitReason) : (parkAgain n reason s).fault = s.fault := by
      dsimp only [parkAgain]
@[simp] theorem parkAgain_lost (n : Nat) (reason : WaitReason) : (parkAgain n reason s).lost = s.lost := by
      dsimp only [parkAgain]
@[simp] theorem parkAgain_latches (n : Nat) (reason : WaitReason) : (parkAgain n reason s).latches = s.latches := by
      dsimp only [parkAgain]
@[simp] theorem parkAgain_enables (n : Nat) (reason : WaitReason) : (parkAgain n reason s).enables = s.enables := by
      dsimp only [parkAgain]
@[simp] theorem parkAgain_argument0 (n : Nat) (reason : WaitReason) : (parkAgain n reason s).argument0 =
      s.argument0 := by dsimp only [parkAgain]
@[simp] theorem parkAgain_argument1 (n : Nat) (reason : WaitReason) : (parkAgain n reason s).argument1 =
      s.argument1 := by dsimp only [parkAgain]
@[simp] theorem parkAgain_commandResult (n : Nat) (reason : WaitReason) : (parkAgain n reason s).commandResult =
      s.commandResult := by dsimp only [parkAgain]
@[simp] theorem parkAgain_lastWrite (n : Nat) (reason : WaitReason) : (parkAgain n reason s).lastWrite =
      s.lastWrite := by dsimp only [parkAgain]
@[simp] theorem parkAgain_resetCause (n : Nat) (reason : WaitReason) : (parkAgain n reason s).resetCause =
      s.resetCause := by dsimp only [parkAgain]
@[simp] theorem parkAgain_draining (n : Nat) (reason : WaitReason) : (parkAgain n reason s).draining =
      s.draining := by dsimp only [parkAgain]
@[simp] theorem parkAgain_responses (n : Nat) (reason : WaitReason) : (parkAgain n reason s).responses =
      s.responses := by dsimp only [parkAgain]
@[simp] theorem parkAgain_portOperations (n : Nat) (reason : WaitReason) : (parkAgain n reason s).portOperations =
      s.portOperations := by dsimp only [parkAgain]
@[simp] theorem parkAgain_pending (n : Nat) (reason : WaitReason) : (parkAgain n reason s).pending = s.pending := by
      dsimp only [parkAgain]

/-! freeRank -/

@[simp] theorem freeRank_windows (n : Nat) (i : InitiatorId) : (freeRank n i s).windows = s.windows := by
      dsimp only [freeRank]
@[simp] theorem freeRank_initiators (n : Nat) (i : InitiatorId) : (freeRank n i s).initiators = s.initiators := by
      dsimp only [freeRank]
@[simp] theorem freeRank_cache (n : Nat) (i : InitiatorId) : (freeRank n i s).cache = s.cache := by
      dsimp only [freeRank]
@[simp] theorem freeRank_cachePointer (n : Nat) (i : InitiatorId) : (freeRank n i s).cachePointer =
      s.cachePointer := by dsimp only [freeRank]
@[simp] theorem freeRank_walkJobs (n : Nat) (i : InitiatorId) : (freeRank n i s).walkJobs = s.walkJobs := by
      dsimp only [freeRank]
@[simp] theorem freeRank_publication (n : Nat) (i : InitiatorId) : (freeRank n i s).publication = s.publication := by
      dsimp only [freeRank]
@[simp] theorem freeRank_publishWrite (n : Nat) (i : InitiatorId) : (freeRank n i s).publishWrite =
      s.publishWrite := by dsimp only [freeRank]
@[simp] theorem freeRank_domains (n : Nat) (i : InitiatorId) : (freeRank n i s).domains = s.domains := by
      dsimp only [freeRank]
@[simp] theorem freeRank_changes (n : Nat) (i : InitiatorId) : (freeRank n i s).changes = s.changes := by
      dsimp only [freeRank]
@[simp] theorem freeRank_freeFrames (n : Nat) (i : InitiatorId) : (freeRank n i s).freeFrames = s.freeFrames := by
      dsimp only [freeRank]
@[simp] theorem freeRank_poolSize (n : Nat) (i : InitiatorId) : (freeRank n i s).poolSize = s.poolSize := by
      dsimp only [freeRank]
@[simp] theorem freeRank_poolThreshold (n : Nat) (i : InitiatorId) : (freeRank n i s).poolThreshold =
      s.poolThreshold := by dsimp only [freeRank]
@[simp] theorem freeRank_slots (n : Nat) (i : InitiatorId) : (freeRank n i s).slots = s.slots := by
      dsimp only [freeRank]
@[simp] theorem freeRank_ranks (n : Nat) (i : InitiatorId) :
      (freeRank n i s).ranks = endOrder i (s.ranks.eraseIdx n) := rfl
@[simp] theorem freeRank_transit (n : Nat) (i : InitiatorId) : (freeRank n i s).transit = s.transit := by
      dsimp only [freeRank]
@[simp] theorem freeRank_collected (n : Nat) (i : InitiatorId) : (freeRank n i s).collected = s.collected := by
      dsimp only [freeRank]
@[simp] theorem freeRank_starvation (n : Nat) (i : InitiatorId) : (freeRank n i s).starvation = s.starvation := by
      dsimp only [freeRank]
@[simp] theorem freeRank_abandoned (n : Nat) (i : InitiatorId) : (freeRank n i s).abandoned = s.abandoned := by
      dsimp only [freeRank]
@[simp] theorem freeRank_deadlines (n : Nat) (i : InitiatorId) : (freeRank n i s).deadlines = s.deadlines := by
      dsimp only [freeRank]
@[simp] theorem freeRank_timebase (n : Nat) (i : InitiatorId) : (freeRank n i s).timebase = s.timebase := by
      dsimp only [freeRank]
@[simp] theorem freeRank_divider (n : Nat) (i : InitiatorId) : (freeRank n i s).divider = s.divider := by
      dsimp only [freeRank]
@[simp] theorem freeRank_edge (n : Nat) (i : InitiatorId) : (freeRank n i s).edge = s.edge := by dsimp only [freeRank]
@[simp] theorem freeRank_lineLevel (n : Nat) (i : InitiatorId) : (freeRank n i s).lineLevel = s.lineLevel := by
      dsimp only [freeRank]
@[simp] theorem freeRank_markCounter (n : Nat) (i : InitiatorId) : (freeRank n i s).markCounter = s.markCounter := by
      dsimp only [freeRank]
@[simp] theorem freeRank_fault (n : Nat) (i : InitiatorId) : (freeRank n i s).fault = s.fault := by
      dsimp only [freeRank]
@[simp] theorem freeRank_lost (n : Nat) (i : InitiatorId) : (freeRank n i s).lost = s.lost := by dsimp only [freeRank]
@[simp] theorem freeRank_latches (n : Nat) (i : InitiatorId) : (freeRank n i s).latches = s.latches := by
      dsimp only [freeRank]
@[simp] theorem freeRank_enables (n : Nat) (i : InitiatorId) : (freeRank n i s).enables = s.enables := by
      dsimp only [freeRank]
@[simp] theorem freeRank_argument0 (n : Nat) (i : InitiatorId) : (freeRank n i s).argument0 = s.argument0 := by
      dsimp only [freeRank]
@[simp] theorem freeRank_argument1 (n : Nat) (i : InitiatorId) : (freeRank n i s).argument1 = s.argument1 := by
      dsimp only [freeRank]
@[simp] theorem freeRank_commandResult (n : Nat) (i : InitiatorId) : (freeRank n i s).commandResult =
      s.commandResult := by dsimp only [freeRank]
@[simp] theorem freeRank_lastWrite (n : Nat) (i : InitiatorId) : (freeRank n i s).lastWrite = s.lastWrite := by
      dsimp only [freeRank]
@[simp] theorem freeRank_resetCause (n : Nat) (i : InitiatorId) : (freeRank n i s).resetCause = s.resetCause := by
      dsimp only [freeRank]
@[simp] theorem freeRank_draining (n : Nat) (i : InitiatorId) : (freeRank n i s).draining = s.draining := by
      dsimp only [freeRank]
@[simp] theorem freeRank_responses (n : Nat) (i : InitiatorId) : (freeRank n i s).responses = s.responses := by
      dsimp only [freeRank]
@[simp] theorem freeRank_portOperations (n : Nat) (i : InitiatorId) : (freeRank n i s).portOperations =
      s.portOperations := by dsimp only [freeRank]
@[simp] theorem freeRank_pending (n : Nat) (i : InitiatorId) : (freeRank n i s).pending = s.pending := by
      dsimp only [freeRank]

/-! answerRanks -/

@[simp] theorem answerRanks_windows (p : Rank → Bool) (status : ResponseStatus) : (answerRanks p status s).windows =
      s.windows := by dsimp only [answerRanks]
@[simp] theorem answerRanks_initiators (p : Rank → Bool) (status : ResponseStatus) :
      (answerRanks p status s).initiators = s.initiators := by dsimp only [answerRanks]
@[simp] theorem answerRanks_cache (p : Rank → Bool) (status : ResponseStatus) : (answerRanks p status s).cache =
      s.cache := by dsimp only [answerRanks]
@[simp] theorem answerRanks_cachePointer (p : Rank → Bool) (status : ResponseStatus) :
      (answerRanks p status s).cachePointer = s.cachePointer := by dsimp only [answerRanks]
@[simp] theorem answerRanks_walkJobs (p : Rank → Bool) (status : ResponseStatus) :
      (answerRanks p status s).walkJobs = s.walkJobs := by dsimp only [answerRanks]
@[simp] theorem answerRanks_publication (p : Rank → Bool) (status : ResponseStatus) :
      (answerRanks p status s).publication = s.publication := by dsimp only [answerRanks]
@[simp] theorem answerRanks_publishWrite (p : Rank → Bool) (status : ResponseStatus) :
      (answerRanks p status s).publishWrite = s.publishWrite := by dsimp only [answerRanks]
@[simp] theorem answerRanks_domains (p : Rank → Bool) (status : ResponseStatus) : (answerRanks p status s).domains =
      s.domains := by dsimp only [answerRanks]
@[simp] theorem answerRanks_changes (p : Rank → Bool) (status : ResponseStatus) : (answerRanks p status s).changes =
      s.changes := by dsimp only [answerRanks]
@[simp] theorem answerRanks_freeFrames (p : Rank → Bool) (status : ResponseStatus) :
      (answerRanks p status s).freeFrames = s.freeFrames := by dsimp only [answerRanks]
@[simp] theorem answerRanks_poolSize (p : Rank → Bool) (status : ResponseStatus) :
      (answerRanks p status s).poolSize = s.poolSize := by dsimp only [answerRanks]
@[simp] theorem answerRanks_poolThreshold (p : Rank → Bool) (status : ResponseStatus) :
      (answerRanks p status s).poolThreshold = s.poolThreshold := by dsimp only [answerRanks]
@[simp] theorem answerRanks_slots (p : Rank → Bool) (status : ResponseStatus) : (answerRanks p status s).slots =
      s.slots := by dsimp only [answerRanks]
@[simp] theorem answerRanks_ranks (p : Rank → Bool) (status : ResponseStatus) : (answerRanks p status s).ranks =
      ((s.ranks.filter p).map fun k => k.request.initiator).foldl (fun ks i => endOrder i ks) (s.ranks.filter fun k => !p k) := rfl
@[simp] theorem answerRanks_transit (p : Rank → Bool) (status : ResponseStatus) : (answerRanks p status s).transit =
      s.transit := by dsimp only [answerRanks]
@[simp] theorem answerRanks_collected (p : Rank → Bool) (status : ResponseStatus) :
      (answerRanks p status s).collected = s.collected := by dsimp only [answerRanks]
@[simp] theorem answerRanks_starvation (p : Rank → Bool) (status : ResponseStatus) :
      (answerRanks p status s).starvation = s.starvation := by dsimp only [answerRanks]
@[simp] theorem answerRanks_abandoned (p : Rank → Bool) (status : ResponseStatus) :
      (answerRanks p status s).abandoned = s.abandoned := by dsimp only [answerRanks]
@[simp] theorem answerRanks_deadlines (p : Rank → Bool) (status : ResponseStatus) :
      (answerRanks p status s).deadlines = s.deadlines := by dsimp only [answerRanks]
@[simp] theorem answerRanks_timebase (p : Rank → Bool) (status : ResponseStatus) :
      (answerRanks p status s).timebase = s.timebase := by dsimp only [answerRanks]
@[simp] theorem answerRanks_divider (p : Rank → Bool) (status : ResponseStatus) : (answerRanks p status s).divider =
      s.divider := by dsimp only [answerRanks]
@[simp] theorem answerRanks_edge (p : Rank → Bool) (status : ResponseStatus) : (answerRanks p status s).edge =
      s.edge := by dsimp only [answerRanks]
@[simp] theorem answerRanks_lineLevel (p : Rank → Bool) (status : ResponseStatus) :
      (answerRanks p status s).lineLevel = s.lineLevel := by dsimp only [answerRanks]
@[simp] theorem answerRanks_markCounter (p : Rank → Bool) (status : ResponseStatus) :
      (answerRanks p status s).markCounter = s.markCounter := by dsimp only [answerRanks]
@[simp] theorem answerRanks_fault (p : Rank → Bool) (status : ResponseStatus) : (answerRanks p status s).fault =
      s.fault := by dsimp only [answerRanks]
@[simp] theorem answerRanks_lost (p : Rank → Bool) (status : ResponseStatus) : (answerRanks p status s).lost =
      s.lost := by dsimp only [answerRanks]
@[simp] theorem answerRanks_latches (p : Rank → Bool) (status : ResponseStatus) : (answerRanks p status s).latches =
      s.latches := by dsimp only [answerRanks]
@[simp] theorem answerRanks_enables (p : Rank → Bool) (status : ResponseStatus) : (answerRanks p status s).enables =
      s.enables := by dsimp only [answerRanks]
@[simp] theorem answerRanks_argument0 (p : Rank → Bool) (status : ResponseStatus) :
      (answerRanks p status s).argument0 = s.argument0 := by dsimp only [answerRanks]
@[simp] theorem answerRanks_argument1 (p : Rank → Bool) (status : ResponseStatus) :
      (answerRanks p status s).argument1 = s.argument1 := by dsimp only [answerRanks]
@[simp] theorem answerRanks_commandResult (p : Rank → Bool) (status : ResponseStatus) :
      (answerRanks p status s).commandResult = s.commandResult := by dsimp only [answerRanks]
@[simp] theorem answerRanks_lastWrite (p : Rank → Bool) (status : ResponseStatus) :
      (answerRanks p status s).lastWrite = s.lastWrite := by dsimp only [answerRanks]
@[simp] theorem answerRanks_resetCause (p : Rank → Bool) (status : ResponseStatus) :
      (answerRanks p status s).resetCause = s.resetCause := by dsimp only [answerRanks]
@[simp] theorem answerRanks_draining (p : Rank → Bool) (status : ResponseStatus) :
      (answerRanks p status s).draining = s.draining := by dsimp only [answerRanks]
@[simp] theorem answerRanks_responses (p : Rank → Bool) (status : ResponseStatus) :
      (answerRanks p status s).responses = s.responses ++
      (s.ranks.filter p).map fun k => plainResponse k.request status false := rfl
@[simp] theorem answerRanks_portOperations (p : Rank → Bool) (status : ResponseStatus) :
      (answerRanks p status s).portOperations = s.portOperations := by dsimp only [answerRanks]
@[simp] theorem answerRanks_pending (p : Rank → Bool) (status : ResponseStatus) : (answerRanks p status s).pending =
      s.pending := by dsimp only [answerRanks]

/-! dropCache -/

@[simp] theorem dropCache_windows (p : CacheEntry → Bool) : (dropCache p s).windows = s.windows := by
      dsimp only [dropCache]
@[simp] theorem dropCache_initiators (p : CacheEntry → Bool) : (dropCache p s).initiators = s.initiators := by
      dsimp only [dropCache]
@[simp] theorem dropCache_cache (p : CacheEntry → Bool) :
      (dropCache p s).cache = Vector.ofFn fun i => s.cache[i].filter fun c => !p c := rfl
@[simp] theorem dropCache_cachePointer (p : CacheEntry → Bool) : (dropCache p s).cachePointer = s.cachePointer := by
      dsimp only [dropCache]
@[simp] theorem dropCache_walkJobs (p : CacheEntry → Bool) : (dropCache p s).walkJobs = s.walkJobs := by
      dsimp only [dropCache]
@[simp] theorem dropCache_publication (p : CacheEntry → Bool) : (dropCache p s).publication = s.publication := by
      dsimp only [dropCache]
@[simp] theorem dropCache_publishWrite (p : CacheEntry → Bool) : (dropCache p s).publishWrite = s.publishWrite := by
      dsimp only [dropCache]
@[simp] theorem dropCache_domains (p : CacheEntry → Bool) : (dropCache p s).domains = s.domains := by
      dsimp only [dropCache]
@[simp] theorem dropCache_changes (p : CacheEntry → Bool) : (dropCache p s).changes = s.changes := by
      dsimp only [dropCache]
@[simp] theorem dropCache_freeFrames (p : CacheEntry → Bool) : (dropCache p s).freeFrames = s.freeFrames := by
      dsimp only [dropCache]
@[simp] theorem dropCache_poolSize (p : CacheEntry → Bool) : (dropCache p s).poolSize = s.poolSize := by
      dsimp only [dropCache]
@[simp] theorem dropCache_poolThreshold (p : CacheEntry → Bool) : (dropCache p s).poolThreshold =
      s.poolThreshold := by dsimp only [dropCache]
@[simp] theorem dropCache_slots (p : CacheEntry → Bool) : (dropCache p s).slots = s.slots := by dsimp only [dropCache]
@[simp] theorem dropCache_ranks (p : CacheEntry → Bool) : (dropCache p s).ranks = s.ranks := by dsimp only [dropCache]
@[simp] theorem dropCache_transit (p : CacheEntry → Bool) : (dropCache p s).transit = s.transit := by
      dsimp only [dropCache]
@[simp] theorem dropCache_collected (p : CacheEntry → Bool) : (dropCache p s).collected = s.collected := by
      dsimp only [dropCache]
@[simp] theorem dropCache_starvation (p : CacheEntry → Bool) : (dropCache p s).starvation = s.starvation := by
      dsimp only [dropCache]
@[simp] theorem dropCache_abandoned (p : CacheEntry → Bool) : (dropCache p s).abandoned = s.abandoned := by
      dsimp only [dropCache]
@[simp] theorem dropCache_deadlines (p : CacheEntry → Bool) : (dropCache p s).deadlines = s.deadlines := by
      dsimp only [dropCache]
@[simp] theorem dropCache_timebase (p : CacheEntry → Bool) : (dropCache p s).timebase = s.timebase := by
      dsimp only [dropCache]
@[simp] theorem dropCache_divider (p : CacheEntry → Bool) : (dropCache p s).divider = s.divider := by
      dsimp only [dropCache]
@[simp] theorem dropCache_edge (p : CacheEntry → Bool) : (dropCache p s).edge = s.edge := by dsimp only [dropCache]
@[simp] theorem dropCache_lineLevel (p : CacheEntry → Bool) : (dropCache p s).lineLevel = s.lineLevel := by
      dsimp only [dropCache]
@[simp] theorem dropCache_markCounter (p : CacheEntry → Bool) : (dropCache p s).markCounter = s.markCounter := by
      dsimp only [dropCache]
@[simp] theorem dropCache_fault (p : CacheEntry → Bool) : (dropCache p s).fault = s.fault := by dsimp only [dropCache]
@[simp] theorem dropCache_lost (p : CacheEntry → Bool) : (dropCache p s).lost = s.lost := by dsimp only [dropCache]
@[simp] theorem dropCache_latches (p : CacheEntry → Bool) : (dropCache p s).latches = s.latches := by
      dsimp only [dropCache]
@[simp] theorem dropCache_enables (p : CacheEntry → Bool) : (dropCache p s).enables = s.enables := by
      dsimp only [dropCache]
@[simp] theorem dropCache_argument0 (p : CacheEntry → Bool) : (dropCache p s).argument0 = s.argument0 := by
      dsimp only [dropCache]
@[simp] theorem dropCache_argument1 (p : CacheEntry → Bool) : (dropCache p s).argument1 = s.argument1 := by
      dsimp only [dropCache]
@[simp] theorem dropCache_commandResult (p : CacheEntry → Bool) : (dropCache p s).commandResult =
      s.commandResult := by dsimp only [dropCache]
@[simp] theorem dropCache_lastWrite (p : CacheEntry → Bool) : (dropCache p s).lastWrite = s.lastWrite := by
      dsimp only [dropCache]
@[simp] theorem dropCache_resetCause (p : CacheEntry → Bool) : (dropCache p s).resetCause = s.resetCause := by
      dsimp only [dropCache]
@[simp] theorem dropCache_draining (p : CacheEntry → Bool) : (dropCache p s).draining = s.draining := by
      dsimp only [dropCache]
@[simp] theorem dropCache_responses (p : CacheEntry → Bool) : (dropCache p s).responses = s.responses := by
      dsimp only [dropCache]
@[simp] theorem dropCache_portOperations (p : CacheEntry → Bool) : (dropCache p s).portOperations =
      s.portOperations := by dsimp only [dropCache]
@[simp] theorem dropCache_pending (p : CacheEntry → Bool) : (dropCache p s).pending = s.pending := by
      dsimp only [dropCache]

/-! flushEntries -/

@[simp] theorem flushEntries_windows : (flushEntries s).windows = s.windows := by dsimp only [flushEntries]
@[simp] theorem flushEntries_initiators : (flushEntries s).initiators = s.initiators := by dsimp only [flushEntries]
@[simp] theorem flushEntries_cache : (flushEntries s).cache = Vector.replicate 32 none := rfl
@[simp] theorem flushEntries_cachePointer : (flushEntries s).cachePointer = s.cachePointer := by
      dsimp only [flushEntries]
@[simp] theorem flushEntries_walkJobs : (flushEntries s).walkJobs = s.walkJobs := by dsimp only [flushEntries]
@[simp] theorem flushEntries_publication : (flushEntries s).publication = s.publication := by dsimp only [flushEntries]
@[simp] theorem flushEntries_publishWrite : (flushEntries s).publishWrite = s.publishWrite := by
      dsimp only [flushEntries]
@[simp] theorem flushEntries_domains : (flushEntries s).domains = s.domains := by dsimp only [flushEntries]
@[simp] theorem flushEntries_changes : (flushEntries s).changes = s.changes := by dsimp only [flushEntries]
@[simp] theorem flushEntries_freeFrames : (flushEntries s).freeFrames = s.freeFrames := by dsimp only [flushEntries]
@[simp] theorem flushEntries_poolSize : (flushEntries s).poolSize = s.poolSize := by dsimp only [flushEntries]
@[simp] theorem flushEntries_poolThreshold : (flushEntries s).poolThreshold = s.poolThreshold := by
      dsimp only [flushEntries]
@[simp] theorem flushEntries_slots : (flushEntries s).slots = s.slots := by dsimp only [flushEntries]
@[simp] theorem flushEntries_ranks : (flushEntries s).ranks = s.ranks := by dsimp only [flushEntries]
@[simp] theorem flushEntries_transit : (flushEntries s).transit = s.transit := by dsimp only [flushEntries]
@[simp] theorem flushEntries_collected : (flushEntries s).collected = s.collected := by dsimp only [flushEntries]
@[simp] theorem flushEntries_starvation : (flushEntries s).starvation = s.starvation := by dsimp only [flushEntries]
@[simp] theorem flushEntries_abandoned : (flushEntries s).abandoned = s.abandoned := by dsimp only [flushEntries]
@[simp] theorem flushEntries_deadlines : (flushEntries s).deadlines = s.deadlines := by dsimp only [flushEntries]
@[simp] theorem flushEntries_timebase : (flushEntries s).timebase = s.timebase := by dsimp only [flushEntries]
@[simp] theorem flushEntries_divider : (flushEntries s).divider = s.divider := by dsimp only [flushEntries]
@[simp] theorem flushEntries_edge : (flushEntries s).edge = s.edge := by dsimp only [flushEntries]
@[simp] theorem flushEntries_lineLevel : (flushEntries s).lineLevel = s.lineLevel := by dsimp only [flushEntries]
@[simp] theorem flushEntries_markCounter : (flushEntries s).markCounter = s.markCounter := by dsimp only [flushEntries]
@[simp] theorem flushEntries_fault : (flushEntries s).fault = s.fault := by dsimp only [flushEntries]
@[simp] theorem flushEntries_lost : (flushEntries s).lost = s.lost := by dsimp only [flushEntries]
@[simp] theorem flushEntries_latches : (flushEntries s).latches = s.latches := by dsimp only [flushEntries]
@[simp] theorem flushEntries_enables : (flushEntries s).enables = s.enables := by dsimp only [flushEntries]
@[simp] theorem flushEntries_argument0 : (flushEntries s).argument0 = s.argument0 := by dsimp only [flushEntries]
@[simp] theorem flushEntries_argument1 : (flushEntries s).argument1 = s.argument1 := by dsimp only [flushEntries]
@[simp] theorem flushEntries_commandResult : (flushEntries s).commandResult = s.commandResult := by
      dsimp only [flushEntries]
@[simp] theorem flushEntries_lastWrite : (flushEntries s).lastWrite = s.lastWrite := by dsimp only [flushEntries]
@[simp] theorem flushEntries_resetCause : (flushEntries s).resetCause = s.resetCause := by dsimp only [flushEntries]
@[simp] theorem flushEntries_draining : (flushEntries s).draining = s.draining := by dsimp only [flushEntries]
@[simp] theorem flushEntries_responses : (flushEntries s).responses = s.responses := by dsimp only [flushEntries]
@[simp] theorem flushEntries_portOperations : (flushEntries s).portOperations = s.portOperations := by
      dsimp only [flushEntries]
@[simp] theorem flushEntries_pending : (flushEntries s).pending = s.pending := by dsimp only [flushEntries]

/-! fillCache -/

@[simp] theorem fillCache_windows (c : CacheEntry) : (fillCache c s).windows = s.windows := by dsimp only [fillCache]
@[simp] theorem fillCache_initiators (c : CacheEntry) : (fillCache c s).initiators = s.initiators := by
      dsimp only [fillCache]
@[simp] theorem fillCache_cache (c : CacheEntry) : (fillCache c s).cache =
      s.cache.set (fillVictim c.window c.tile s) (some c) := rfl
@[simp] theorem fillCache_cachePointer (c : CacheEntry) :
      (fillCache c s).cachePointer = pointerAfterFill c.window c.tile s := rfl
@[simp] theorem fillCache_walkJobs (c : CacheEntry) : (fillCache c s).walkJobs = s.walkJobs := by dsimp only [fillCache]
@[simp] theorem fillCache_publication (c : CacheEntry) : (fillCache c s).publication = s.publication := by
      dsimp only [fillCache]
@[simp] theorem fillCache_publishWrite (c : CacheEntry) : (fillCache c s).publishWrite = s.publishWrite := by
      dsimp only [fillCache]
@[simp] theorem fillCache_domains (c : CacheEntry) : (fillCache c s).domains = s.domains := by dsimp only [fillCache]
@[simp] theorem fillCache_changes (c : CacheEntry) : (fillCache c s).changes = s.changes := by dsimp only [fillCache]
@[simp] theorem fillCache_freeFrames (c : CacheEntry) : (fillCache c s).freeFrames = s.freeFrames := by
      dsimp only [fillCache]
@[simp] theorem fillCache_poolSize (c : CacheEntry) : (fillCache c s).poolSize = s.poolSize := by dsimp only [fillCache]
@[simp] theorem fillCache_poolThreshold (c : CacheEntry) : (fillCache c s).poolThreshold = s.poolThreshold := by
      dsimp only [fillCache]
@[simp] theorem fillCache_slots (c : CacheEntry) : (fillCache c s).slots = s.slots := by dsimp only [fillCache]
@[simp] theorem fillCache_ranks (c : CacheEntry) : (fillCache c s).ranks = s.ranks := by dsimp only [fillCache]
@[simp] theorem fillCache_transit (c : CacheEntry) : (fillCache c s).transit = s.transit := by dsimp only [fillCache]
@[simp] theorem fillCache_collected (c : CacheEntry) : (fillCache c s).collected = s.collected := by
      dsimp only [fillCache]
@[simp] theorem fillCache_starvation (c : CacheEntry) : (fillCache c s).starvation = s.starvation := by
      dsimp only [fillCache]
@[simp] theorem fillCache_abandoned (c : CacheEntry) : (fillCache c s).abandoned = s.abandoned := by
      dsimp only [fillCache]
@[simp] theorem fillCache_deadlines (c : CacheEntry) : (fillCache c s).deadlines = s.deadlines := by
      dsimp only [fillCache]
@[simp] theorem fillCache_timebase (c : CacheEntry) : (fillCache c s).timebase = s.timebase := by dsimp only [fillCache]
@[simp] theorem fillCache_divider (c : CacheEntry) : (fillCache c s).divider = s.divider := by dsimp only [fillCache]
@[simp] theorem fillCache_edge (c : CacheEntry) : (fillCache c s).edge = s.edge := by dsimp only [fillCache]
@[simp] theorem fillCache_lineLevel (c : CacheEntry) : (fillCache c s).lineLevel = s.lineLevel := by
      dsimp only [fillCache]
@[simp] theorem fillCache_markCounter (c : CacheEntry) : (fillCache c s).markCounter = s.markCounter := by
      dsimp only [fillCache]
@[simp] theorem fillCache_fault (c : CacheEntry) : (fillCache c s).fault = s.fault := by dsimp only [fillCache]
@[simp] theorem fillCache_lost (c : CacheEntry) : (fillCache c s).lost = s.lost := by dsimp only [fillCache]
@[simp] theorem fillCache_latches (c : CacheEntry) : (fillCache c s).latches = s.latches := by dsimp only [fillCache]
@[simp] theorem fillCache_enables (c : CacheEntry) : (fillCache c s).enables = s.enables := by dsimp only [fillCache]
@[simp] theorem fillCache_argument0 (c : CacheEntry) : (fillCache c s).argument0 = s.argument0 := by
      dsimp only [fillCache]
@[simp] theorem fillCache_argument1 (c : CacheEntry) : (fillCache c s).argument1 = s.argument1 := by
      dsimp only [fillCache]
@[simp] theorem fillCache_commandResult (c : CacheEntry) : (fillCache c s).commandResult = s.commandResult := by
      dsimp only [fillCache]
@[simp] theorem fillCache_lastWrite (c : CacheEntry) : (fillCache c s).lastWrite = s.lastWrite := by
      dsimp only [fillCache]
@[simp] theorem fillCache_resetCause (c : CacheEntry) : (fillCache c s).resetCause = s.resetCause := by
      dsimp only [fillCache]
@[simp] theorem fillCache_draining (c : CacheEntry) : (fillCache c s).draining = s.draining := by dsimp only [fillCache]
@[simp] theorem fillCache_responses (c : CacheEntry) : (fillCache c s).responses = s.responses := by
      dsimp only [fillCache]
@[simp] theorem fillCache_portOperations (c : CacheEntry) : (fillCache c s).portOperations = s.portOperations := by
      dsimp only [fillCache]
@[simp] theorem fillCache_pending (c : CacheEntry) : (fillCache c s).pending = s.pending := by dsimp only [fillCache]

/-! publishToCache -/

@[simp] theorem publishToCache_windows (e : ChangeEntry) : (publishToCache e s).windows = s.windows := by
      dsimp only [publishToCache]
@[simp] theorem publishToCache_initiators (e : ChangeEntry) : (publishToCache e s).initiators = s.initiators := by
      dsimp only [publishToCache]
@[simp] theorem publishToCache_cachePointer (e : ChangeEntry) : (publishToCache e s).cachePointer =
      s.cachePointer := by dsimp only [publishToCache]
@[simp] theorem publishToCache_walkJobs (e : ChangeEntry) : (publishToCache e s).walkJobs = s.walkJobs := by
      dsimp only [publishToCache]
@[simp] theorem publishToCache_publication (e : ChangeEntry) : (publishToCache e s).publication = s.publication := by
      dsimp only [publishToCache]
@[simp] theorem publishToCache_publishWrite (e : ChangeEntry) : (publishToCache e s).publishWrite =
      s.publishWrite := by dsimp only [publishToCache]
@[simp] theorem publishToCache_domains (e : ChangeEntry) : (publishToCache e s).domains = s.domains := by
      dsimp only [publishToCache]
@[simp] theorem publishToCache_changes (e : ChangeEntry) : (publishToCache e s).changes = s.changes := by
      dsimp only [publishToCache]
@[simp] theorem publishToCache_freeFrames (e : ChangeEntry) : (publishToCache e s).freeFrames = s.freeFrames := by
      dsimp only [publishToCache]
@[simp] theorem publishToCache_poolSize (e : ChangeEntry) : (publishToCache e s).poolSize = s.poolSize := by
      dsimp only [publishToCache]
@[simp] theorem publishToCache_poolThreshold (e : ChangeEntry) : (publishToCache e s).poolThreshold =
      s.poolThreshold := by dsimp only [publishToCache]
@[simp] theorem publishToCache_slots (e : ChangeEntry) : (publishToCache e s).slots = s.slots := by
      dsimp only [publishToCache]
@[simp] theorem publishToCache_ranks (e : ChangeEntry) : (publishToCache e s).ranks = s.ranks := by
      dsimp only [publishToCache]
@[simp] theorem publishToCache_transit (e : ChangeEntry) : (publishToCache e s).transit = s.transit := by
      dsimp only [publishToCache]
@[simp] theorem publishToCache_collected (e : ChangeEntry) : (publishToCache e s).collected = s.collected := by
      dsimp only [publishToCache]
@[simp] theorem publishToCache_starvation (e : ChangeEntry) : (publishToCache e s).starvation = s.starvation := by
      dsimp only [publishToCache]
@[simp] theorem publishToCache_abandoned (e : ChangeEntry) : (publishToCache e s).abandoned = s.abandoned := by
      dsimp only [publishToCache]
@[simp] theorem publishToCache_deadlines (e : ChangeEntry) : (publishToCache e s).deadlines = s.deadlines := by
      dsimp only [publishToCache]
@[simp] theorem publishToCache_timebase (e : ChangeEntry) : (publishToCache e s).timebase = s.timebase := by
      dsimp only [publishToCache]
@[simp] theorem publishToCache_divider (e : ChangeEntry) : (publishToCache e s).divider = s.divider := by
      dsimp only [publishToCache]
@[simp] theorem publishToCache_edge (e : ChangeEntry) : (publishToCache e s).edge = s.edge := by
      dsimp only [publishToCache]
@[simp] theorem publishToCache_lineLevel (e : ChangeEntry) : (publishToCache e s).lineLevel = s.lineLevel := by
      dsimp only [publishToCache]
@[simp] theorem publishToCache_markCounter (e : ChangeEntry) : (publishToCache e s).markCounter = s.markCounter := by
      dsimp only [publishToCache]
@[simp] theorem publishToCache_fault (e : ChangeEntry) : (publishToCache e s).fault = s.fault := by
      dsimp only [publishToCache]
@[simp] theorem publishToCache_lost (e : ChangeEntry) : (publishToCache e s).lost = s.lost := by
      dsimp only [publishToCache]
@[simp] theorem publishToCache_latches (e : ChangeEntry) : (publishToCache e s).latches = s.latches := by
      dsimp only [publishToCache]
@[simp] theorem publishToCache_enables (e : ChangeEntry) : (publishToCache e s).enables = s.enables := by
      dsimp only [publishToCache]
@[simp] theorem publishToCache_argument0 (e : ChangeEntry) : (publishToCache e s).argument0 = s.argument0 := by
      dsimp only [publishToCache]
@[simp] theorem publishToCache_argument1 (e : ChangeEntry) : (publishToCache e s).argument1 = s.argument1 := by
      dsimp only [publishToCache]
@[simp] theorem publishToCache_commandResult (e : ChangeEntry) : (publishToCache e s).commandResult =
      s.commandResult := by dsimp only [publishToCache]
@[simp] theorem publishToCache_lastWrite (e : ChangeEntry) : (publishToCache e s).lastWrite = s.lastWrite := by
      dsimp only [publishToCache]
@[simp] theorem publishToCache_resetCause (e : ChangeEntry) : (publishToCache e s).resetCause = s.resetCause := by
      dsimp only [publishToCache]
@[simp] theorem publishToCache_draining (e : ChangeEntry) : (publishToCache e s).draining = s.draining := by
      dsimp only [publishToCache]
@[simp] theorem publishToCache_responses (e : ChangeEntry) : (publishToCache e s).responses = s.responses := by
      dsimp only [publishToCache]
@[simp] theorem publishToCache_portOperations (e : ChangeEntry) : (publishToCache e s).portOperations =
      s.portOperations := by dsimp only [publishToCache]
@[simp] theorem publishToCache_pending (e : ChangeEntry) : (publishToCache e s).pending = s.pending := by
      dsimp only [publishToCache]

/-! setEntryState -/

@[simp] theorem setEntryState_windows (w : WindowId) (tile : Nat) (st : EntryState) :
      (setEntryState w tile st s).windows = s.windows := by dsimp only [setEntryState]
@[simp] theorem setEntryState_initiators (w : WindowId) (tile : Nat) (st : EntryState) :
      (setEntryState w tile st s).initiators = s.initiators := by dsimp only [setEntryState]
@[simp] theorem setEntryState_cache (w : WindowId) (tile : Nat) (st : EntryState) :
      (setEntryState w tile st s).cache = s.cache := by dsimp only [setEntryState]
@[simp] theorem setEntryState_cachePointer (w : WindowId) (tile : Nat) (st : EntryState) :
      (setEntryState w tile st s).cachePointer = s.cachePointer := by dsimp only [setEntryState]
@[simp] theorem setEntryState_walkJobs (w : WindowId) (tile : Nat) (st : EntryState) :
      (setEntryState w tile st s).walkJobs = s.walkJobs := by dsimp only [setEntryState]
@[simp] theorem setEntryState_publication (w : WindowId) (tile : Nat) (st : EntryState) :
      (setEntryState w tile st s).publication = s.publication := by dsimp only [setEntryState]
@[simp] theorem setEntryState_publishWrite (w : WindowId) (tile : Nat) (st : EntryState) :
      (setEntryState w tile st s).publishWrite = s.publishWrite := by dsimp only [setEntryState]
@[simp] theorem setEntryState_domains (w : WindowId) (tile : Nat) (st : EntryState) :
      (setEntryState w tile st s).domains = s.domains := by dsimp only [setEntryState]
@[simp] theorem setEntryState_changes (w : WindowId) (tile : Nat) (st : EntryState) :
      (setEntryState w tile st s).changes = s.changes.map fun e => if changeKey w tile e then { e with state :=
      st } else e := rfl
@[simp] theorem setEntryState_freeFrames (w : WindowId) (tile : Nat) (st : EntryState) :
      (setEntryState w tile st s).freeFrames = s.freeFrames := by dsimp only [setEntryState]
@[simp] theorem setEntryState_poolSize (w : WindowId) (tile : Nat) (st : EntryState) :
      (setEntryState w tile st s).poolSize = s.poolSize := by dsimp only [setEntryState]
@[simp] theorem setEntryState_poolThreshold (w : WindowId) (tile : Nat) (st : EntryState) :
      (setEntryState w tile st s).poolThreshold = s.poolThreshold := by dsimp only [setEntryState]
@[simp] theorem setEntryState_slots (w : WindowId) (tile : Nat) (st : EntryState) :
      (setEntryState w tile st s).slots = s.slots := by dsimp only [setEntryState]
@[simp] theorem setEntryState_ranks (w : WindowId) (tile : Nat) (st : EntryState) :
      (setEntryState w tile st s).ranks = s.ranks := by dsimp only [setEntryState]
@[simp] theorem setEntryState_transit (w : WindowId) (tile : Nat) (st : EntryState) :
      (setEntryState w tile st s).transit = s.transit := by dsimp only [setEntryState]
@[simp] theorem setEntryState_collected (w : WindowId) (tile : Nat) (st : EntryState) :
      (setEntryState w tile st s).collected = s.collected := by dsimp only [setEntryState]
@[simp] theorem setEntryState_starvation (w : WindowId) (tile : Nat) (st : EntryState) :
      (setEntryState w tile st s).starvation = s.starvation := by dsimp only [setEntryState]
@[simp] theorem setEntryState_abandoned (w : WindowId) (tile : Nat) (st : EntryState) :
      (setEntryState w tile st s).abandoned = s.abandoned := by dsimp only [setEntryState]
@[simp] theorem setEntryState_deadlines (w : WindowId) (tile : Nat) (st : EntryState) :
      (setEntryState w tile st s).deadlines = s.deadlines := by dsimp only [setEntryState]
@[simp] theorem setEntryState_timebase (w : WindowId) (tile : Nat) (st : EntryState) :
      (setEntryState w tile st s).timebase = s.timebase := by dsimp only [setEntryState]
@[simp] theorem setEntryState_divider (w : WindowId) (tile : Nat) (st : EntryState) :
      (setEntryState w tile st s).divider = s.divider := by dsimp only [setEntryState]
@[simp] theorem setEntryState_edge (w : WindowId) (tile : Nat) (st : EntryState) :
      (setEntryState w tile st s).edge = s.edge := by dsimp only [setEntryState]
@[simp] theorem setEntryState_lineLevel (w : WindowId) (tile : Nat) (st : EntryState) :
      (setEntryState w tile st s).lineLevel = s.lineLevel := by dsimp only [setEntryState]
@[simp] theorem setEntryState_markCounter (w : WindowId) (tile : Nat) (st : EntryState) :
      (setEntryState w tile st s).markCounter = s.markCounter := by dsimp only [setEntryState]
@[simp] theorem setEntryState_fault (w : WindowId) (tile : Nat) (st : EntryState) :
      (setEntryState w tile st s).fault = s.fault := by dsimp only [setEntryState]
@[simp] theorem setEntryState_lost (w : WindowId) (tile : Nat) (st : EntryState) :
      (setEntryState w tile st s).lost = s.lost := by dsimp only [setEntryState]
@[simp] theorem setEntryState_latches (w : WindowId) (tile : Nat) (st : EntryState) :
      (setEntryState w tile st s).latches = s.latches := by dsimp only [setEntryState]
@[simp] theorem setEntryState_enables (w : WindowId) (tile : Nat) (st : EntryState) :
      (setEntryState w tile st s).enables = s.enables := by dsimp only [setEntryState]
@[simp] theorem setEntryState_argument0 (w : WindowId) (tile : Nat) (st : EntryState) :
      (setEntryState w tile st s).argument0 = s.argument0 := by dsimp only [setEntryState]
@[simp] theorem setEntryState_argument1 (w : WindowId) (tile : Nat) (st : EntryState) :
      (setEntryState w tile st s).argument1 = s.argument1 := by dsimp only [setEntryState]
@[simp] theorem setEntryState_commandResult (w : WindowId) (tile : Nat) (st : EntryState) :
      (setEntryState w tile st s).commandResult = s.commandResult := by dsimp only [setEntryState]
@[simp] theorem setEntryState_lastWrite (w : WindowId) (tile : Nat) (st : EntryState) :
      (setEntryState w tile st s).lastWrite = s.lastWrite := by dsimp only [setEntryState]
@[simp] theorem setEntryState_resetCause (w : WindowId) (tile : Nat) (st : EntryState) :
      (setEntryState w tile st s).resetCause = s.resetCause := by dsimp only [setEntryState]
@[simp] theorem setEntryState_draining (w : WindowId) (tile : Nat) (st : EntryState) :
      (setEntryState w tile st s).draining = s.draining := by dsimp only [setEntryState]
@[simp] theorem setEntryState_responses (w : WindowId) (tile : Nat) (st : EntryState) :
      (setEntryState w tile st s).responses = s.responses := by dsimp only [setEntryState]
@[simp] theorem setEntryState_portOperations (w : WindowId) (tile : Nat) (st : EntryState) :
      (setEntryState w tile st s).portOperations = s.portOperations := by dsimp only [setEntryState]
@[simp] theorem setEntryState_pending (w : WindowId) (tile : Nat) (st : EntryState) :
      (setEntryState w tile st s).pending = s.pending := by dsimp only [setEntryState]

/-! appendFrames -/

@[simp] theorem appendFrames_windows (fs : List Frame) : (appendFrames fs s).windows = s.windows := by
      dsimp only [appendFrames]
@[simp] theorem appendFrames_initiators (fs : List Frame) : (appendFrames fs s).initiators = s.initiators := by
      dsimp only [appendFrames]
@[simp] theorem appendFrames_cache (fs : List Frame) : (appendFrames fs s).cache = s.cache := by
      dsimp only [appendFrames]
@[simp] theorem appendFrames_cachePointer (fs : List Frame) : (appendFrames fs s).cachePointer = s.cachePointer := by
      dsimp only [appendFrames]
@[simp] theorem appendFrames_walkJobs (fs : List Frame) : (appendFrames fs s).walkJobs = s.walkJobs := by
      dsimp only [appendFrames]
@[simp] theorem appendFrames_publication (fs : List Frame) : (appendFrames fs s).publication = s.publication := by
      dsimp only [appendFrames]
@[simp] theorem appendFrames_publishWrite (fs : List Frame) : (appendFrames fs s).publishWrite = s.publishWrite := by
      dsimp only [appendFrames]
@[simp] theorem appendFrames_domains (fs : List Frame) : (appendFrames fs s).domains = s.domains := by
      dsimp only [appendFrames]
@[simp] theorem appendFrames_changes (fs : List Frame) : (appendFrames fs s).changes = s.changes := by
      dsimp only [appendFrames]
@[simp] theorem appendFrames_freeFrames (fs : List Frame) : (appendFrames fs s).freeFrames = s.freeFrames ++ fs := rfl
@[simp] theorem appendFrames_poolSize (fs : List Frame) : (appendFrames fs s).poolSize = s.poolSize := by
      dsimp only [appendFrames]
@[simp] theorem appendFrames_poolThreshold (fs : List Frame) : (appendFrames fs s).poolThreshold =
      s.poolThreshold := by dsimp only [appendFrames]
@[simp] theorem appendFrames_slots (fs : List Frame) : (appendFrames fs s).slots = s.slots := by
      dsimp only [appendFrames]
@[simp] theorem appendFrames_ranks (fs : List Frame) : (appendFrames fs s).ranks = s.ranks := by
      dsimp only [appendFrames]
@[simp] theorem appendFrames_transit (fs : List Frame) : (appendFrames fs s).transit = s.transit := by
      dsimp only [appendFrames]
@[simp] theorem appendFrames_collected (fs : List Frame) : (appendFrames fs s).collected = s.collected := by
      dsimp only [appendFrames]
@[simp] theorem appendFrames_starvation (fs : List Frame) : (appendFrames fs s).starvation = s.starvation := by
      dsimp only [appendFrames]
@[simp] theorem appendFrames_abandoned (fs : List Frame) : (appendFrames fs s).abandoned = s.abandoned := by
      dsimp only [appendFrames]
@[simp] theorem appendFrames_deadlines (fs : List Frame) : (appendFrames fs s).deadlines = s.deadlines := by
      dsimp only [appendFrames]
@[simp] theorem appendFrames_timebase (fs : List Frame) : (appendFrames fs s).timebase = s.timebase := by
      dsimp only [appendFrames]
@[simp] theorem appendFrames_divider (fs : List Frame) : (appendFrames fs s).divider = s.divider := by
      dsimp only [appendFrames]
@[simp] theorem appendFrames_edge (fs : List Frame) : (appendFrames fs s).edge = s.edge := by dsimp only [appendFrames]
@[simp] theorem appendFrames_lineLevel (fs : List Frame) : (appendFrames fs s).lineLevel = s.lineLevel := by
      dsimp only [appendFrames]
@[simp] theorem appendFrames_markCounter (fs : List Frame) : (appendFrames fs s).markCounter = s.markCounter := by
      dsimp only [appendFrames]
@[simp] theorem appendFrames_fault (fs : List Frame) : (appendFrames fs s).fault = s.fault := by
      dsimp only [appendFrames]
@[simp] theorem appendFrames_lost (fs : List Frame) : (appendFrames fs s).lost = s.lost := by dsimp only [appendFrames]
@[simp] theorem appendFrames_latches (fs : List Frame) : (appendFrames fs s).latches = s.latches := by
      dsimp only [appendFrames]
@[simp] theorem appendFrames_enables (fs : List Frame) : (appendFrames fs s).enables = s.enables := by
      dsimp only [appendFrames]
@[simp] theorem appendFrames_argument0 (fs : List Frame) : (appendFrames fs s).argument0 = s.argument0 := by
      dsimp only [appendFrames]
@[simp] theorem appendFrames_argument1 (fs : List Frame) : (appendFrames fs s).argument1 = s.argument1 := by
      dsimp only [appendFrames]
@[simp] theorem appendFrames_commandResult (fs : List Frame) : (appendFrames fs s).commandResult =
      s.commandResult := by dsimp only [appendFrames]
@[simp] theorem appendFrames_lastWrite (fs : List Frame) : (appendFrames fs s).lastWrite = s.lastWrite := by
      dsimp only [appendFrames]
@[simp] theorem appendFrames_resetCause (fs : List Frame) : (appendFrames fs s).resetCause = s.resetCause := by
      dsimp only [appendFrames]
@[simp] theorem appendFrames_draining (fs : List Frame) : (appendFrames fs s).draining = s.draining := by
      dsimp only [appendFrames]
@[simp] theorem appendFrames_responses (fs : List Frame) : (appendFrames fs s).responses = s.responses := by
      dsimp only [appendFrames]
@[simp] theorem appendFrames_portOperations (fs : List Frame) : (appendFrames fs s).portOperations =
      s.portOperations := by dsimp only [appendFrames]
@[simp] theorem appendFrames_pending (fs : List Frame) : (appendFrames fs s).pending = s.pending := by
      dsimp only [appendFrames]

/-! takeFrame -/

@[simp] theorem takeFrame_windows : (takeFrame s).windows = s.windows := by dsimp only [takeFrame]
@[simp] theorem takeFrame_initiators : (takeFrame s).initiators = s.initiators := by dsimp only [takeFrame]
@[simp] theorem takeFrame_cache : (takeFrame s).cache = s.cache := by dsimp only [takeFrame]
@[simp] theorem takeFrame_cachePointer : (takeFrame s).cachePointer = s.cachePointer := by dsimp only [takeFrame]
@[simp] theorem takeFrame_walkJobs : (takeFrame s).walkJobs = s.walkJobs := by dsimp only [takeFrame]
@[simp] theorem takeFrame_publication : (takeFrame s).publication = s.publication := by dsimp only [takeFrame]
@[simp] theorem takeFrame_publishWrite : (takeFrame s).publishWrite = s.publishWrite := by dsimp only [takeFrame]
@[simp] theorem takeFrame_domains : (takeFrame s).domains = s.domains := by dsimp only [takeFrame]
@[simp] theorem takeFrame_changes : (takeFrame s).changes = s.changes := by dsimp only [takeFrame]
@[simp] theorem takeFrame_freeFrames : (takeFrame s).freeFrames = s.freeFrames.tail := rfl
@[simp] theorem takeFrame_poolSize : (takeFrame s).poolSize = s.poolSize := by dsimp only [takeFrame]
@[simp] theorem takeFrame_poolThreshold : (takeFrame s).poolThreshold = s.poolThreshold := by dsimp only [takeFrame]
@[simp] theorem takeFrame_slots : (takeFrame s).slots = s.slots := by dsimp only [takeFrame]
@[simp] theorem takeFrame_ranks : (takeFrame s).ranks = s.ranks := by dsimp only [takeFrame]
@[simp] theorem takeFrame_transit : (takeFrame s).transit = s.transit := by dsimp only [takeFrame]
@[simp] theorem takeFrame_collected : (takeFrame s).collected = s.collected := by dsimp only [takeFrame]
@[simp] theorem takeFrame_starvation : (takeFrame s).starvation = s.starvation := by dsimp only [takeFrame]
@[simp] theorem takeFrame_abandoned : (takeFrame s).abandoned = s.abandoned := by dsimp only [takeFrame]
@[simp] theorem takeFrame_deadlines : (takeFrame s).deadlines = s.deadlines := by dsimp only [takeFrame]
@[simp] theorem takeFrame_timebase : (takeFrame s).timebase = s.timebase := by dsimp only [takeFrame]
@[simp] theorem takeFrame_divider : (takeFrame s).divider = s.divider := by dsimp only [takeFrame]
@[simp] theorem takeFrame_edge : (takeFrame s).edge = s.edge := by dsimp only [takeFrame]
@[simp] theorem takeFrame_lineLevel : (takeFrame s).lineLevel = s.lineLevel := by dsimp only [takeFrame]
@[simp] theorem takeFrame_markCounter : (takeFrame s).markCounter = s.markCounter := by dsimp only [takeFrame]
@[simp] theorem takeFrame_fault : (takeFrame s).fault = s.fault := by dsimp only [takeFrame]
@[simp] theorem takeFrame_lost : (takeFrame s).lost = s.lost := by dsimp only [takeFrame]
@[simp] theorem takeFrame_latches : (takeFrame s).latches = if s.freeFrames.length = s.poolThreshold then
      s.latches ||| alertMask .poolLow else s.latches := rfl
@[simp] theorem takeFrame_enables : (takeFrame s).enables = s.enables := by dsimp only [takeFrame]
@[simp] theorem takeFrame_argument0 : (takeFrame s).argument0 = s.argument0 := by dsimp only [takeFrame]
@[simp] theorem takeFrame_argument1 : (takeFrame s).argument1 = s.argument1 := by dsimp only [takeFrame]
@[simp] theorem takeFrame_commandResult : (takeFrame s).commandResult = s.commandResult := by dsimp only [takeFrame]
@[simp] theorem takeFrame_lastWrite : (takeFrame s).lastWrite = s.lastWrite := by dsimp only [takeFrame]
@[simp] theorem takeFrame_resetCause : (takeFrame s).resetCause = s.resetCause := by dsimp only [takeFrame]
@[simp] theorem takeFrame_draining : (takeFrame s).draining = s.draining := by dsimp only [takeFrame]
@[simp] theorem takeFrame_responses : (takeFrame s).responses = s.responses := by dsimp only [takeFrame]
@[simp] theorem takeFrame_portOperations : (takeFrame s).portOperations = s.portOperations := by dsimp only [takeFrame]
@[simp] theorem takeFrame_pending : (takeFrame s).pending = s.pending := by dsimp only [takeFrame]

/-! setSlot -/

@[simp] theorem setSlot_windows (k : SlotId) (c : Option CopyJob) : (setSlot k c s).windows = s.windows := by
      dsimp only [setSlot]
@[simp] theorem setSlot_initiators (k : SlotId) (c : Option CopyJob) : (setSlot k c s).initiators =
      s.initiators := by dsimp only [setSlot]
@[simp] theorem setSlot_cache (k : SlotId) (c : Option CopyJob) : (setSlot k c s).cache = s.cache := by
      dsimp only [setSlot]
@[simp] theorem setSlot_cachePointer (k : SlotId) (c : Option CopyJob) : (setSlot k c s).cachePointer =
      s.cachePointer := by dsimp only [setSlot]
@[simp] theorem setSlot_walkJobs (k : SlotId) (c : Option CopyJob) : (setSlot k c s).walkJobs = s.walkJobs := by
      dsimp only [setSlot]
@[simp] theorem setSlot_publication (k : SlotId) (c : Option CopyJob) : (setSlot k c s).publication =
      s.publication := by dsimp only [setSlot]
@[simp] theorem setSlot_publishWrite (k : SlotId) (c : Option CopyJob) : (setSlot k c s).publishWrite =
      s.publishWrite := by dsimp only [setSlot]
@[simp] theorem setSlot_domains (k : SlotId) (c : Option CopyJob) : (setSlot k c s).domains = s.domains := by
      dsimp only [setSlot]
@[simp] theorem setSlot_changes (k : SlotId) (c : Option CopyJob) : (setSlot k c s).changes = s.changes := by
      dsimp only [setSlot]
@[simp] theorem setSlot_freeFrames (k : SlotId) (c : Option CopyJob) : (setSlot k c s).freeFrames =
      s.freeFrames := by dsimp only [setSlot]
@[simp] theorem setSlot_poolSize (k : SlotId) (c : Option CopyJob) : (setSlot k c s).poolSize = s.poolSize := by
      dsimp only [setSlot]
@[simp] theorem setSlot_poolThreshold (k : SlotId) (c : Option CopyJob) : (setSlot k c s).poolThreshold =
      s.poolThreshold := by dsimp only [setSlot]
@[simp] theorem setSlot_slots (k : SlotId) (c : Option CopyJob) : (setSlot k c s).slots = s.slots.set k c := rfl
@[simp] theorem setSlot_ranks (k : SlotId) (c : Option CopyJob) : (setSlot k c s).ranks = s.ranks := by
      dsimp only [setSlot]
@[simp] theorem setSlot_transit (k : SlotId) (c : Option CopyJob) : (setSlot k c s).transit = s.transit := by
      dsimp only [setSlot]
@[simp] theorem setSlot_collected (k : SlotId) (c : Option CopyJob) : (setSlot k c s).collected = s.collected := by
      dsimp only [setSlot]
@[simp] theorem setSlot_starvation (k : SlotId) (c : Option CopyJob) : (setSlot k c s).starvation =
      s.starvation := by dsimp only [setSlot]
@[simp] theorem setSlot_abandoned (k : SlotId) (c : Option CopyJob) : (setSlot k c s).abandoned = s.abandoned := by
      dsimp only [setSlot]
@[simp] theorem setSlot_deadlines (k : SlotId) (c : Option CopyJob) : (setSlot k c s).deadlines = s.deadlines := by
      dsimp only [setSlot]
@[simp] theorem setSlot_timebase (k : SlotId) (c : Option CopyJob) : (setSlot k c s).timebase = s.timebase := by
      dsimp only [setSlot]
@[simp] theorem setSlot_divider (k : SlotId) (c : Option CopyJob) : (setSlot k c s).divider = s.divider := by
      dsimp only [setSlot]
@[simp] theorem setSlot_edge (k : SlotId) (c : Option CopyJob) : (setSlot k c s).edge = s.edge := by
      dsimp only [setSlot]
@[simp] theorem setSlot_lineLevel (k : SlotId) (c : Option CopyJob) : (setSlot k c s).lineLevel = s.lineLevel := by
      dsimp only [setSlot]
@[simp] theorem setSlot_markCounter (k : SlotId) (c : Option CopyJob) : (setSlot k c s).markCounter =
      s.markCounter := by dsimp only [setSlot]
@[simp] theorem setSlot_fault (k : SlotId) (c : Option CopyJob) : (setSlot k c s).fault = s.fault := by
      dsimp only [setSlot]
@[simp] theorem setSlot_lost (k : SlotId) (c : Option CopyJob) : (setSlot k c s).lost = s.lost := by
      dsimp only [setSlot]
@[simp] theorem setSlot_latches (k : SlotId) (c : Option CopyJob) : (setSlot k c s).latches = s.latches := by
      dsimp only [setSlot]
@[simp] theorem setSlot_enables (k : SlotId) (c : Option CopyJob) : (setSlot k c s).enables = s.enables := by
      dsimp only [setSlot]
@[simp] theorem setSlot_argument0 (k : SlotId) (c : Option CopyJob) : (setSlot k c s).argument0 = s.argument0 := by
      dsimp only [setSlot]
@[simp] theorem setSlot_argument1 (k : SlotId) (c : Option CopyJob) : (setSlot k c s).argument1 = s.argument1 := by
      dsimp only [setSlot]
@[simp] theorem setSlot_commandResult (k : SlotId) (c : Option CopyJob) : (setSlot k c s).commandResult =
      s.commandResult := by dsimp only [setSlot]
@[simp] theorem setSlot_lastWrite (k : SlotId) (c : Option CopyJob) : (setSlot k c s).lastWrite = s.lastWrite := by
      dsimp only [setSlot]
@[simp] theorem setSlot_resetCause (k : SlotId) (c : Option CopyJob) : (setSlot k c s).resetCause =
      s.resetCause := by dsimp only [setSlot]
@[simp] theorem setSlot_draining (k : SlotId) (c : Option CopyJob) : (setSlot k c s).draining = s.draining := by
      dsimp only [setSlot]
@[simp] theorem setSlot_responses (k : SlotId) (c : Option CopyJob) : (setSlot k c s).responses = s.responses := by
      dsimp only [setSlot]
@[simp] theorem setSlot_portOperations (k : SlotId) (c : Option CopyJob) : (setSlot k c s).portOperations =
      s.portOperations := by dsimp only [setSlot]
@[simp] theorem setSlot_pending (k : SlotId) (c : Option CopyJob) : (setSlot k c s).pending = s.pending := by
      dsimp only [setSlot]

/-! settleStarvation -/

@[simp] theorem settleStarvation_windows (b : State) : (settleStarvation b s).windows = s.windows := by
      dsimp only [settleStarvation]
@[simp] theorem settleStarvation_initiators (b : State) : (settleStarvation b s).initiators = s.initiators := by
      dsimp only [settleStarvation]
@[simp] theorem settleStarvation_cache (b : State) : (settleStarvation b s).cache = s.cache := by
      dsimp only [settleStarvation]
@[simp] theorem settleStarvation_cachePointer (b : State) : (settleStarvation b s).cachePointer =
      s.cachePointer := by dsimp only [settleStarvation]
@[simp] theorem settleStarvation_walkJobs (b : State) : (settleStarvation b s).walkJobs = s.walkJobs := by
      dsimp only [settleStarvation]
@[simp] theorem settleStarvation_publication (b : State) : (settleStarvation b s).publication = s.publication := by
      dsimp only [settleStarvation]
@[simp] theorem settleStarvation_publishWrite (b : State) : (settleStarvation b s).publishWrite =
      s.publishWrite := by dsimp only [settleStarvation]
@[simp] theorem settleStarvation_domains (b : State) : (settleStarvation b s).domains = s.domains := by
      dsimp only [settleStarvation]
@[simp] theorem settleStarvation_changes (b : State) : (settleStarvation b s).changes = s.changes := by
      dsimp only [settleStarvation]
@[simp] theorem settleStarvation_freeFrames (b : State) : (settleStarvation b s).freeFrames = s.freeFrames := by
      dsimp only [settleStarvation]
@[simp] theorem settleStarvation_poolSize (b : State) : (settleStarvation b s).poolSize = s.poolSize := by
      dsimp only [settleStarvation]
@[simp] theorem settleStarvation_poolThreshold (b : State) : (settleStarvation b s).poolThreshold =
      s.poolThreshold := by dsimp only [settleStarvation]
@[simp] theorem settleStarvation_slots (b : State) : (settleStarvation b s).slots = s.slots := by
      dsimp only [settleStarvation]
@[simp] theorem settleStarvation_ranks (b : State) : (settleStarvation b s).ranks = s.ranks := by
      dsimp only [settleStarvation]
@[simp] theorem settleStarvation_transit (b : State) : (settleStarvation b s).transit = s.transit := by
      dsimp only [settleStarvation]
@[simp] theorem settleStarvation_collected (b : State) : (settleStarvation b s).collected = s.collected := by
      dsimp only [settleStarvation]
@[simp] theorem settleStarvation_starvation (b : State) :
      (settleStarvation b s).starvation = if copyWaits b && !copyWaits s then 0 else s.starvation := rfl
@[simp] theorem settleStarvation_abandoned (b : State) : (settleStarvation b s).abandoned = s.abandoned := by
      dsimp only [settleStarvation]
@[simp] theorem settleStarvation_deadlines (b : State) : (settleStarvation b s).deadlines = s.deadlines := by
      dsimp only [settleStarvation]
@[simp] theorem settleStarvation_timebase (b : State) : (settleStarvation b s).timebase = s.timebase := by
      dsimp only [settleStarvation]
@[simp] theorem settleStarvation_divider (b : State) : (settleStarvation b s).divider = s.divider := by
      dsimp only [settleStarvation]
@[simp] theorem settleStarvation_edge (b : State) : (settleStarvation b s).edge = s.edge := by
      dsimp only [settleStarvation]
@[simp] theorem settleStarvation_lineLevel (b : State) : (settleStarvation b s).lineLevel = s.lineLevel := by
      dsimp only [settleStarvation]
@[simp] theorem settleStarvation_markCounter (b : State) : (settleStarvation b s).markCounter = s.markCounter := by
      dsimp only [settleStarvation]
@[simp] theorem settleStarvation_fault (b : State) : (settleStarvation b s).fault = s.fault := by
      dsimp only [settleStarvation]
@[simp] theorem settleStarvation_lost (b : State) : (settleStarvation b s).lost = s.lost := by
      dsimp only [settleStarvation]
@[simp] theorem settleStarvation_latches (b : State) : (settleStarvation b s).latches = s.latches := by
      dsimp only [settleStarvation]
@[simp] theorem settleStarvation_enables (b : State) : (settleStarvation b s).enables = s.enables := by
      dsimp only [settleStarvation]
@[simp] theorem settleStarvation_argument0 (b : State) : (settleStarvation b s).argument0 = s.argument0 := by
      dsimp only [settleStarvation]
@[simp] theorem settleStarvation_argument1 (b : State) : (settleStarvation b s).argument1 = s.argument1 := by
      dsimp only [settleStarvation]
@[simp] theorem settleStarvation_commandResult (b : State) : (settleStarvation b s).commandResult =
      s.commandResult := by dsimp only [settleStarvation]
@[simp] theorem settleStarvation_lastWrite (b : State) : (settleStarvation b s).lastWrite = s.lastWrite := by
      dsimp only [settleStarvation]
@[simp] theorem settleStarvation_resetCause (b : State) : (settleStarvation b s).resetCause = s.resetCause := by
      dsimp only [settleStarvation]
@[simp] theorem settleStarvation_draining (b : State) : (settleStarvation b s).draining = s.draining := by
      dsimp only [settleStarvation]
@[simp] theorem settleStarvation_responses (b : State) : (settleStarvation b s).responses = s.responses := by
      dsimp only [settleStarvation]
@[simp] theorem settleStarvation_portOperations (b : State) : (settleStarvation b s).portOperations =
      s.portOperations := by dsimp only [settleStarvation]
@[simp] theorem settleStarvation_pending (b : State) : (settleStarvation b s).pending = s.pending := by
      dsimp only [settleStarvation]

/-! postWalk -/

@[simp] theorem postWalk_windows (w : WindowId) (tile : Nat) : (postWalk w tile s).windows = s.windows := by
      dsimp only [postWalk]
@[simp] theorem postWalk_initiators (w : WindowId) (tile : Nat) : (postWalk w tile s).initiators = s.initiators := by
      dsimp only [postWalk]
@[simp] theorem postWalk_cache (w : WindowId) (tile : Nat) : (postWalk w tile s).cache = s.cache := by
      dsimp only [postWalk]
@[simp] theorem postWalk_cachePointer (w : WindowId) (tile : Nat) : (postWalk w tile s).cachePointer =
      s.cachePointer := by dsimp only [postWalk]
@[simp] theorem postWalk_walkJobs (w : WindowId) (tile : Nat) :
      (postWalk w tile s).walkJobs = if s.walkJobs.any (jobKey w tile) then s.walkJobs else s.walkJobs ++ [⟨w, tile,
      mapEntryAddress s.windows[w] tile, s.windows[w].domain, .pending⟩] := rfl
@[simp] theorem postWalk_publication (w : WindowId) (tile : Nat) : (postWalk w tile s).publication =
      s.publication := by dsimp only [postWalk]
@[simp] theorem postWalk_publishWrite (w : WindowId) (tile : Nat) : (postWalk w tile s).publishWrite =
      s.publishWrite := by dsimp only [postWalk]
@[simp] theorem postWalk_domains (w : WindowId) (tile : Nat) : (postWalk w tile s).domains = s.domains := by
      dsimp only [postWalk]
@[simp] theorem postWalk_changes (w : WindowId) (tile : Nat) : (postWalk w tile s).changes = s.changes := by
      dsimp only [postWalk]
@[simp] theorem postWalk_freeFrames (w : WindowId) (tile : Nat) : (postWalk w tile s).freeFrames = s.freeFrames := by
      dsimp only [postWalk]
@[simp] theorem postWalk_poolSize (w : WindowId) (tile : Nat) : (postWalk w tile s).poolSize = s.poolSize := by
      dsimp only [postWalk]
@[simp] theorem postWalk_poolThreshold (w : WindowId) (tile : Nat) : (postWalk w tile s).poolThreshold =
      s.poolThreshold := by dsimp only [postWalk]
@[simp] theorem postWalk_slots (w : WindowId) (tile : Nat) : (postWalk w tile s).slots = s.slots := by
      dsimp only [postWalk]
@[simp] theorem postWalk_ranks (w : WindowId) (tile : Nat) : (postWalk w tile s).ranks = s.ranks := by
      dsimp only [postWalk]
@[simp] theorem postWalk_transit (w : WindowId) (tile : Nat) : (postWalk w tile s).transit = s.transit := by
      dsimp only [postWalk]
@[simp] theorem postWalk_collected (w : WindowId) (tile : Nat) : (postWalk w tile s).collected = s.collected := by
      dsimp only [postWalk]
@[simp] theorem postWalk_starvation (w : WindowId) (tile : Nat) : (postWalk w tile s).starvation = s.starvation := by
      dsimp only [postWalk]
@[simp] theorem postWalk_abandoned (w : WindowId) (tile : Nat) : (postWalk w tile s).abandoned = s.abandoned := by
      dsimp only [postWalk]
@[simp] theorem postWalk_deadlines (w : WindowId) (tile : Nat) : (postWalk w tile s).deadlines = s.deadlines := by
      dsimp only [postWalk]
@[simp] theorem postWalk_timebase (w : WindowId) (tile : Nat) : (postWalk w tile s).timebase = s.timebase := by
      dsimp only [postWalk]
@[simp] theorem postWalk_divider (w : WindowId) (tile : Nat) : (postWalk w tile s).divider = s.divider := by
      dsimp only [postWalk]
@[simp] theorem postWalk_edge (w : WindowId) (tile : Nat) : (postWalk w tile s).edge = s.edge := by
      dsimp only [postWalk]
@[simp] theorem postWalk_lineLevel (w : WindowId) (tile : Nat) : (postWalk w tile s).lineLevel = s.lineLevel := by
      dsimp only [postWalk]
@[simp] theorem postWalk_markCounter (w : WindowId) (tile : Nat) : (postWalk w tile s).markCounter =
      s.markCounter := by dsimp only [postWalk]
@[simp] theorem postWalk_fault (w : WindowId) (tile : Nat) : (postWalk w tile s).fault = s.fault := by
      dsimp only [postWalk]
@[simp] theorem postWalk_lost (w : WindowId) (tile : Nat) : (postWalk w tile s).lost = s.lost := by
      dsimp only [postWalk]
@[simp] theorem postWalk_latches (w : WindowId) (tile : Nat) : (postWalk w tile s).latches = s.latches := by
      dsimp only [postWalk]
@[simp] theorem postWalk_enables (w : WindowId) (tile : Nat) : (postWalk w tile s).enables = s.enables := by
      dsimp only [postWalk]
@[simp] theorem postWalk_argument0 (w : WindowId) (tile : Nat) : (postWalk w tile s).argument0 = s.argument0 := by
      dsimp only [postWalk]
@[simp] theorem postWalk_argument1 (w : WindowId) (tile : Nat) : (postWalk w tile s).argument1 = s.argument1 := by
      dsimp only [postWalk]
@[simp] theorem postWalk_commandResult (w : WindowId) (tile : Nat) : (postWalk w tile s).commandResult =
      s.commandResult := by dsimp only [postWalk]
@[simp] theorem postWalk_lastWrite (w : WindowId) (tile : Nat) : (postWalk w tile s).lastWrite = s.lastWrite := by
      dsimp only [postWalk]
@[simp] theorem postWalk_resetCause (w : WindowId) (tile : Nat) : (postWalk w tile s).resetCause = s.resetCause := by
      dsimp only [postWalk]
@[simp] theorem postWalk_draining (w : WindowId) (tile : Nat) : (postWalk w tile s).draining = s.draining := by
      dsimp only [postWalk]
@[simp] theorem postWalk_responses (w : WindowId) (tile : Nat) : (postWalk w tile s).responses = s.responses := by
      dsimp only [postWalk]
@[simp] theorem postWalk_portOperations (w : WindowId) (tile : Nat) : (postWalk w tile s).portOperations =
      s.portOperations := by dsimp only [postWalk]
@[simp] theorem postWalk_pending (w : WindowId) (tile : Nat) : (postWalk w tile s).pending = s.pending := by
      dsimp only [postWalk]

/-! setLastWrite -/

@[simp] theorem setLastWrite_windows (status : WriteStatus) : (setLastWrite status s).windows = s.windows := by
      dsimp only [setLastWrite]
@[simp] theorem setLastWrite_initiators (status : WriteStatus) : (setLastWrite status s).initiators =
      s.initiators := by dsimp only [setLastWrite]
@[simp] theorem setLastWrite_cache (status : WriteStatus) : (setLastWrite status s).cache = s.cache := by
      dsimp only [setLastWrite]
@[simp] theorem setLastWrite_cachePointer (status : WriteStatus) : (setLastWrite status s).cachePointer =
      s.cachePointer := by dsimp only [setLastWrite]
@[simp] theorem setLastWrite_walkJobs (status : WriteStatus) : (setLastWrite status s).walkJobs = s.walkJobs := by
      dsimp only [setLastWrite]
@[simp] theorem setLastWrite_publication (status : WriteStatus) : (setLastWrite status s).publication =
      s.publication := by dsimp only [setLastWrite]
@[simp] theorem setLastWrite_publishWrite (status : WriteStatus) : (setLastWrite status s).publishWrite =
      s.publishWrite := by dsimp only [setLastWrite]
@[simp] theorem setLastWrite_domains (status : WriteStatus) : (setLastWrite status s).domains = s.domains := by
      dsimp only [setLastWrite]
@[simp] theorem setLastWrite_changes (status : WriteStatus) : (setLastWrite status s).changes = s.changes := by
      dsimp only [setLastWrite]
@[simp] theorem setLastWrite_freeFrames (status : WriteStatus) : (setLastWrite status s).freeFrames =
      s.freeFrames := by dsimp only [setLastWrite]
@[simp] theorem setLastWrite_poolSize (status : WriteStatus) : (setLastWrite status s).poolSize = s.poolSize := by
      dsimp only [setLastWrite]
@[simp] theorem setLastWrite_poolThreshold (status : WriteStatus) : (setLastWrite status s).poolThreshold =
      s.poolThreshold := by dsimp only [setLastWrite]
@[simp] theorem setLastWrite_slots (status : WriteStatus) : (setLastWrite status s).slots = s.slots := by
      dsimp only [setLastWrite]
@[simp] theorem setLastWrite_ranks (status : WriteStatus) : (setLastWrite status s).ranks = s.ranks := by
      dsimp only [setLastWrite]
@[simp] theorem setLastWrite_transit (status : WriteStatus) : (setLastWrite status s).transit = s.transit := by
      dsimp only [setLastWrite]
@[simp] theorem setLastWrite_collected (status : WriteStatus) : (setLastWrite status s).collected = s.collected := by
      dsimp only [setLastWrite]
@[simp] theorem setLastWrite_starvation (status : WriteStatus) : (setLastWrite status s).starvation =
      s.starvation := by dsimp only [setLastWrite]
@[simp] theorem setLastWrite_abandoned (status : WriteStatus) : (setLastWrite status s).abandoned = s.abandoned := by
      dsimp only [setLastWrite]
@[simp] theorem setLastWrite_deadlines (status : WriteStatus) : (setLastWrite status s).deadlines = s.deadlines := by
      dsimp only [setLastWrite]
@[simp] theorem setLastWrite_timebase (status : WriteStatus) : (setLastWrite status s).timebase = s.timebase := by
      dsimp only [setLastWrite]
@[simp] theorem setLastWrite_divider (status : WriteStatus) : (setLastWrite status s).divider = s.divider := by
      dsimp only [setLastWrite]
@[simp] theorem setLastWrite_edge (status : WriteStatus) : (setLastWrite status s).edge = s.edge := by
      dsimp only [setLastWrite]
@[simp] theorem setLastWrite_lineLevel (status : WriteStatus) : (setLastWrite status s).lineLevel = s.lineLevel := by
      dsimp only [setLastWrite]
@[simp] theorem setLastWrite_markCounter (status : WriteStatus) : (setLastWrite status s).markCounter =
      s.markCounter := by dsimp only [setLastWrite]
@[simp] theorem setLastWrite_fault (status : WriteStatus) : (setLastWrite status s).fault = s.fault := by
      dsimp only [setLastWrite]
@[simp] theorem setLastWrite_lost (status : WriteStatus) : (setLastWrite status s).lost = s.lost := by
      dsimp only [setLastWrite]
@[simp] theorem setLastWrite_latches (status : WriteStatus) : (setLastWrite status s).latches = s.latches := by
      dsimp only [setLastWrite]
@[simp] theorem setLastWrite_enables (status : WriteStatus) : (setLastWrite status s).enables = s.enables := by
      dsimp only [setLastWrite]
@[simp] theorem setLastWrite_argument0 (status : WriteStatus) : (setLastWrite status s).argument0 = s.argument0 := by
      dsimp only [setLastWrite]
@[simp] theorem setLastWrite_argument1 (status : WriteStatus) : (setLastWrite status s).argument1 = s.argument1 := by
      dsimp only [setLastWrite]
@[simp] theorem setLastWrite_commandResult (status : WriteStatus) : (setLastWrite status s).commandResult =
      s.commandResult := by dsimp only [setLastWrite]
@[simp] theorem setLastWrite_lastWrite (status : WriteStatus) : (setLastWrite status s).lastWrite = status := rfl
@[simp] theorem setLastWrite_resetCause (status : WriteStatus) : (setLastWrite status s).resetCause =
      s.resetCause := by dsimp only [setLastWrite]
@[simp] theorem setLastWrite_draining (status : WriteStatus) : (setLastWrite status s).draining = s.draining := by
      dsimp only [setLastWrite]
@[simp] theorem setLastWrite_responses (status : WriteStatus) : (setLastWrite status s).responses = s.responses := by
      dsimp only [setLastWrite]
@[simp] theorem setLastWrite_portOperations (status : WriteStatus) : (setLastWrite status s).portOperations =
      s.portOperations := by dsimp only [setLastWrite]
@[simp] theorem setLastWrite_pending (status : WriteStatus) : (setLastWrite status s).pending = s.pending := by
      dsimp only [setLastWrite]

/-! setResult -/

@[simp] theorem setResult_windows (result : ResultCode) (code : Byte) : (setResult result code s).windows =
      s.windows := by dsimp only [setResult]
@[simp] theorem setResult_initiators (result : ResultCode) (code : Byte) : (setResult result code s).initiators =
      s.initiators := by dsimp only [setResult]
@[simp] theorem setResult_cache (result : ResultCode) (code : Byte) : (setResult result code s).cache = s.cache := by
      dsimp only [setResult]
@[simp] theorem setResult_cachePointer (result : ResultCode) (code : Byte) :
      (setResult result code s).cachePointer = s.cachePointer := by dsimp only [setResult]
@[simp] theorem setResult_walkJobs (result : ResultCode) (code : Byte) : (setResult result code s).walkJobs =
      s.walkJobs := by dsimp only [setResult]
@[simp] theorem setResult_publication (result : ResultCode) (code : Byte) : (setResult result code s).publication =
      s.publication := by dsimp only [setResult]
@[simp] theorem setResult_publishWrite (result : ResultCode) (code : Byte) :
      (setResult result code s).publishWrite = s.publishWrite := by dsimp only [setResult]
@[simp] theorem setResult_domains (result : ResultCode) (code : Byte) : (setResult result code s).domains =
      s.domains := by dsimp only [setResult]
@[simp] theorem setResult_changes (result : ResultCode) (code : Byte) : (setResult result code s).changes =
      s.changes := by dsimp only [setResult]
@[simp] theorem setResult_freeFrames (result : ResultCode) (code : Byte) : (setResult result code s).freeFrames =
      s.freeFrames := by dsimp only [setResult]
@[simp] theorem setResult_poolSize (result : ResultCode) (code : Byte) : (setResult result code s).poolSize =
      s.poolSize := by dsimp only [setResult]
@[simp] theorem setResult_poolThreshold (result : ResultCode) (code : Byte) :
      (setResult result code s).poolThreshold = s.poolThreshold := by dsimp only [setResult]
@[simp] theorem setResult_slots (result : ResultCode) (code : Byte) : (setResult result code s).slots = s.slots := by
      dsimp only [setResult]
@[simp] theorem setResult_ranks (result : ResultCode) (code : Byte) : (setResult result code s).ranks = s.ranks := by
      dsimp only [setResult]
@[simp] theorem setResult_transit (result : ResultCode) (code : Byte) : (setResult result code s).transit =
      s.transit := by dsimp only [setResult]
@[simp] theorem setResult_collected (result : ResultCode) (code : Byte) : (setResult result code s).collected =
      s.collected := by dsimp only [setResult]
@[simp] theorem setResult_starvation (result : ResultCode) (code : Byte) : (setResult result code s).starvation =
      s.starvation := by dsimp only [setResult]
@[simp] theorem setResult_abandoned (result : ResultCode) (code : Byte) : (setResult result code s).abandoned =
      s.abandoned := by dsimp only [setResult]
@[simp] theorem setResult_deadlines (result : ResultCode) (code : Byte) : (setResult result code s).deadlines =
      s.deadlines := by dsimp only [setResult]
@[simp] theorem setResult_timebase (result : ResultCode) (code : Byte) : (setResult result code s).timebase =
      s.timebase := by dsimp only [setResult]
@[simp] theorem setResult_divider (result : ResultCode) (code : Byte) : (setResult result code s).divider =
      s.divider := by dsimp only [setResult]
@[simp] theorem setResult_edge (result : ResultCode) (code : Byte) : (setResult result code s).edge = s.edge := by
      dsimp only [setResult]
@[simp] theorem setResult_lineLevel (result : ResultCode) (code : Byte) : (setResult result code s).lineLevel =
      s.lineLevel := by dsimp only [setResult]
@[simp] theorem setResult_markCounter (result : ResultCode) (code : Byte) : (setResult result code s).markCounter =
      s.markCounter := by dsimp only [setResult]
@[simp] theorem setResult_fault (result : ResultCode) (code : Byte) : (setResult result code s).fault = s.fault := by
      dsimp only [setResult]
@[simp] theorem setResult_lost (result : ResultCode) (code : Byte) : (setResult result code s).lost = s.lost := by
      dsimp only [setResult]
@[simp] theorem setResult_latches (result : ResultCode) (code : Byte) : (setResult result code s).latches =
      s.latches := by dsimp only [setResult]
@[simp] theorem setResult_enables (result : ResultCode) (code : Byte) : (setResult result code s).enables =
      s.enables := by dsimp only [setResult]
@[simp] theorem setResult_argument0 (result : ResultCode) (code : Byte) : (setResult result code s).argument0 =
      s.argument0 := by dsimp only [setResult]
@[simp] theorem setResult_argument1 (result : ResultCode) (code : Byte) : (setResult result code s).argument1 =
      s.argument1 := by dsimp only [setResult]
@[simp] theorem setResult_commandResult (result : ResultCode) (code : Byte) :
      (setResult result code s).commandResult = { result := result, code := code } := rfl
@[simp] theorem setResult_lastWrite (result : ResultCode) (code : Byte) : (setResult result code s).lastWrite =
      s.lastWrite := by dsimp only [setResult]
@[simp] theorem setResult_resetCause (result : ResultCode) (code : Byte) : (setResult result code s).resetCause =
      s.resetCause := by dsimp only [setResult]
@[simp] theorem setResult_draining (result : ResultCode) (code : Byte) : (setResult result code s).draining =
      s.draining := by dsimp only [setResult]
@[simp] theorem setResult_responses (result : ResultCode) (code : Byte) : (setResult result code s).responses =
      s.responses := by dsimp only [setResult]
@[simp] theorem setResult_portOperations (result : ResultCode) (code : Byte) :
      (setResult result code s).portOperations = s.portOperations := by dsimp only [setResult]
@[simp] theorem setResult_pending (result : ResultCode) (code : Byte) : (setResult result code s).pending =
      s.pending := by dsimp only [setResult]

/-! freeEntries -/

@[simp] theorem freeEntries_windows (d : DomainId) : (freeEntries d s).windows = s.windows := by
      dsimp only [freeEntries, modifyDomain]
@[simp] theorem freeEntries_initiators (d : DomainId) : (freeEntries d s).initiators = s.initiators := by
      dsimp only [freeEntries, modifyDomain]
@[simp] theorem freeEntries_cache (d : DomainId) : (freeEntries d s).cache = s.cache := by dsimp only [freeEntries,
      modifyDomain]
@[simp] theorem freeEntries_cachePointer (d : DomainId) : (freeEntries d s).cachePointer = s.cachePointer := by
      dsimp only [freeEntries, modifyDomain]
@[simp] theorem freeEntries_walkJobs (d : DomainId) : (freeEntries d s).walkJobs = s.walkJobs := by
      dsimp only [freeEntries, modifyDomain]
@[simp] theorem freeEntries_publication (d : DomainId) : (freeEntries d s).publication = s.publication := by
      dsimp only [freeEntries, modifyDomain]
@[simp] theorem freeEntries_publishWrite (d : DomainId) : (freeEntries d s).publishWrite = s.publishWrite := by
      dsimp only [freeEntries, modifyDomain]
@[simp] theorem freeEntries_domains (d : DomainId) : (freeEntries d s).domains =
      s.domains.set d { s.domains[d] with entryCount := 0 } := rfl
@[simp] theorem freeEntries_changes (d : DomainId) : (freeEntries d s).changes =
      s.changes.filter fun e => !decide (e.domain = d) := rfl
@[simp] theorem freeEntries_freeFrames (d : DomainId) : (freeEntries d s).freeFrames = s.freeFrames := by
      dsimp only [freeEntries, modifyDomain]
@[simp] theorem freeEntries_poolSize (d : DomainId) : (freeEntries d s).poolSize = s.poolSize := by
      dsimp only [freeEntries, modifyDomain]
@[simp] theorem freeEntries_poolThreshold (d : DomainId) : (freeEntries d s).poolThreshold = s.poolThreshold := by
      dsimp only [freeEntries, modifyDomain]
@[simp] theorem freeEntries_slots (d : DomainId) : (freeEntries d s).slots = s.slots := by dsimp only [freeEntries,
      modifyDomain]
@[simp] theorem freeEntries_ranks (d : DomainId) : (freeEntries d s).ranks = s.ranks := by dsimp only [freeEntries,
      modifyDomain]
@[simp] theorem freeEntries_transit (d : DomainId) : (freeEntries d s).transit = s.transit := by
      dsimp only [freeEntries, modifyDomain]
@[simp] theorem freeEntries_collected (d : DomainId) : (freeEntries d s).collected = s.collected := by
      dsimp only [freeEntries, modifyDomain]
@[simp] theorem freeEntries_starvation (d : DomainId) : (freeEntries d s).starvation = s.starvation := by
      dsimp only [freeEntries, modifyDomain]
@[simp] theorem freeEntries_abandoned (d : DomainId) : (freeEntries d s).abandoned = s.abandoned := by
      dsimp only [freeEntries, modifyDomain]
@[simp] theorem freeEntries_deadlines (d : DomainId) : (freeEntries d s).deadlines = s.deadlines := by
      dsimp only [freeEntries, modifyDomain]
@[simp] theorem freeEntries_timebase (d : DomainId) : (freeEntries d s).timebase = s.timebase := by
      dsimp only [freeEntries, modifyDomain]
@[simp] theorem freeEntries_divider (d : DomainId) : (freeEntries d s).divider = s.divider := by
      dsimp only [freeEntries, modifyDomain]
@[simp] theorem freeEntries_edge (d : DomainId) : (freeEntries d s).edge = s.edge := by dsimp only [freeEntries,
      modifyDomain]
@[simp] theorem freeEntries_lineLevel (d : DomainId) : (freeEntries d s).lineLevel = s.lineLevel := by
      dsimp only [freeEntries, modifyDomain]
@[simp] theorem freeEntries_markCounter (d : DomainId) : (freeEntries d s).markCounter = s.markCounter := by
      dsimp only [freeEntries, modifyDomain]
@[simp] theorem freeEntries_fault (d : DomainId) : (freeEntries d s).fault = s.fault := by dsimp only [freeEntries,
      modifyDomain]
@[simp] theorem freeEntries_lost (d : DomainId) : (freeEntries d s).lost = s.lost := by dsimp only [freeEntries,
      modifyDomain]
@[simp] theorem freeEntries_latches (d : DomainId) : (freeEntries d s).latches = s.latches := by
      dsimp only [freeEntries, modifyDomain]
@[simp] theorem freeEntries_enables (d : DomainId) : (freeEntries d s).enables = s.enables := by
      dsimp only [freeEntries, modifyDomain]
@[simp] theorem freeEntries_argument0 (d : DomainId) : (freeEntries d s).argument0 = s.argument0 := by
      dsimp only [freeEntries, modifyDomain]
@[simp] theorem freeEntries_argument1 (d : DomainId) : (freeEntries d s).argument1 = s.argument1 := by
      dsimp only [freeEntries, modifyDomain]
@[simp] theorem freeEntries_commandResult (d : DomainId) : (freeEntries d s).commandResult = s.commandResult := by
      dsimp only [freeEntries, modifyDomain]
@[simp] theorem freeEntries_lastWrite (d : DomainId) : (freeEntries d s).lastWrite = s.lastWrite := by
      dsimp only [freeEntries, modifyDomain]
@[simp] theorem freeEntries_resetCause (d : DomainId) : (freeEntries d s).resetCause = s.resetCause := by
      dsimp only [freeEntries, modifyDomain]
@[simp] theorem freeEntries_draining (d : DomainId) : (freeEntries d s).draining = s.draining := by
      dsimp only [freeEntries, modifyDomain]
@[simp] theorem freeEntries_responses (d : DomainId) : (freeEntries d s).responses = s.responses := by
      dsimp only [freeEntries, modifyDomain]
@[simp] theorem freeEntries_portOperations (d : DomainId) : (freeEntries d s).portOperations = s.portOperations := by
      dsimp only [freeEntries, modifyDomain]
@[simp] theorem freeEntries_pending (d : DomainId) : (freeEntries d s).pending = s.pending := by
      dsimp only [freeEntries, modifyDomain]

/-! enterFaulted -/

@[simp] theorem enterFaulted_windows (d : DomainId) : (enterFaulted d s).windows = s.windows := by
      dsimp only [enterFaulted, endDomainWaits, endWaits, setLatch, setDomainState, modifyDomain]
@[simp] theorem enterFaulted_initiators (d : DomainId) : (enterFaulted d s).initiators = s.initiators := by
      dsimp only [enterFaulted, endDomainWaits, endWaits, setLatch, setDomainState, modifyDomain]
@[simp] theorem enterFaulted_cache (d : DomainId) : (enterFaulted d s).cache = s.cache := by
      dsimp only [enterFaulted, endDomainWaits, endWaits, setLatch, setDomainState, modifyDomain]
@[simp] theorem enterFaulted_cachePointer (d : DomainId) : (enterFaulted d s).cachePointer = s.cachePointer := by
      dsimp only [enterFaulted, endDomainWaits, endWaits, setLatch, setDomainState, modifyDomain]
@[simp] theorem enterFaulted_walkJobs (d : DomainId) : (enterFaulted d s).walkJobs = s.walkJobs := by
      dsimp only [enterFaulted, endDomainWaits, endWaits, setLatch, setDomainState, modifyDomain]
@[simp] theorem enterFaulted_publication (d : DomainId) : (enterFaulted d s).publication = s.publication := by
      dsimp only [enterFaulted, endDomainWaits, endWaits, setLatch, setDomainState, modifyDomain]
@[simp] theorem enterFaulted_publishWrite (d : DomainId) : (enterFaulted d s).publishWrite = s.publishWrite := by
      dsimp only [enterFaulted, endDomainWaits, endWaits, setLatch, setDomainState, modifyDomain]
@[simp] theorem enterFaulted_domains (d : DomainId) : (enterFaulted d s).domains =
      s.domains.set d { s.domains[d] with state := .faulted } := rfl
@[simp] theorem enterFaulted_changes (d : DomainId) : (enterFaulted d s).changes = s.changes := by
      dsimp only [enterFaulted, endDomainWaits, endWaits, setLatch, setDomainState, modifyDomain]
@[simp] theorem enterFaulted_freeFrames (d : DomainId) : (enterFaulted d s).freeFrames = s.freeFrames := by
      dsimp only [enterFaulted, endDomainWaits, endWaits, setLatch, setDomainState, modifyDomain]
@[simp] theorem enterFaulted_poolSize (d : DomainId) : (enterFaulted d s).poolSize = s.poolSize := by
      dsimp only [enterFaulted, endDomainWaits, endWaits, setLatch, setDomainState, modifyDomain]
@[simp] theorem enterFaulted_poolThreshold (d : DomainId) : (enterFaulted d s).poolThreshold = s.poolThreshold := by
      dsimp only [enterFaulted, endDomainWaits, endWaits, setLatch, setDomainState, modifyDomain]
@[simp] theorem enterFaulted_slots (d : DomainId) : (enterFaulted d s).slots = s.slots := by
      dsimp only [enterFaulted, endDomainWaits, endWaits, setLatch, setDomainState, modifyDomain]
@[simp] theorem enterFaulted_ranks (d : DomainId) : (enterFaulted d s).ranks =
      s.ranks.map (wake (parkedOnDomain d)) := rfl
@[simp] theorem enterFaulted_transit (d : DomainId) : (enterFaulted d s).transit = s.transit := by
      dsimp only [enterFaulted, endDomainWaits, endWaits, setLatch, setDomainState, modifyDomain]
@[simp] theorem enterFaulted_collected (d : DomainId) : (enterFaulted d s).collected = s.collected := by
      dsimp only [enterFaulted, endDomainWaits, endWaits, setLatch, setDomainState, modifyDomain]
@[simp] theorem enterFaulted_starvation (d : DomainId) : (enterFaulted d s).starvation = s.starvation := by
      dsimp only [enterFaulted, endDomainWaits, endWaits, setLatch, setDomainState, modifyDomain]
@[simp] theorem enterFaulted_abandoned (d : DomainId) : (enterFaulted d s).abandoned = s.abandoned := by
      dsimp only [enterFaulted, endDomainWaits, endWaits, setLatch, setDomainState, modifyDomain]
@[simp] theorem enterFaulted_deadlines (d : DomainId) : (enterFaulted d s).deadlines = s.deadlines := by
      dsimp only [enterFaulted, endDomainWaits, endWaits, setLatch, setDomainState, modifyDomain]
@[simp] theorem enterFaulted_timebase (d : DomainId) : (enterFaulted d s).timebase = s.timebase := by
      dsimp only [enterFaulted, endDomainWaits, endWaits, setLatch, setDomainState, modifyDomain]
@[simp] theorem enterFaulted_divider (d : DomainId) : (enterFaulted d s).divider = s.divider := by
      dsimp only [enterFaulted, endDomainWaits, endWaits, setLatch, setDomainState, modifyDomain]
@[simp] theorem enterFaulted_edge (d : DomainId) : (enterFaulted d s).edge = s.edge := by dsimp only [enterFaulted,
      endDomainWaits, endWaits, setLatch, setDomainState, modifyDomain]
@[simp] theorem enterFaulted_lineLevel (d : DomainId) : (enterFaulted d s).lineLevel = s.lineLevel := by
      dsimp only [enterFaulted, endDomainWaits, endWaits, setLatch, setDomainState, modifyDomain]
@[simp] theorem enterFaulted_markCounter (d : DomainId) : (enterFaulted d s).markCounter = s.markCounter := by
      dsimp only [enterFaulted, endDomainWaits, endWaits, setLatch, setDomainState, modifyDomain]
@[simp] theorem enterFaulted_fault (d : DomainId) : (enterFaulted d s).fault = s.fault := by
      dsimp only [enterFaulted, endDomainWaits, endWaits, setLatch, setDomainState, modifyDomain]
@[simp] theorem enterFaulted_lost (d : DomainId) : (enterFaulted d s).lost = s.lost := by dsimp only [enterFaulted,
      endDomainWaits, endWaits, setLatch, setDomainState, modifyDomain]
@[simp] theorem enterFaulted_latches (d : DomainId) : (enterFaulted d s).latches =
      s.latches ||| alertMask (.domainFaulted d) := rfl
@[simp] theorem enterFaulted_enables (d : DomainId) : (enterFaulted d s).enables = s.enables := by
      dsimp only [enterFaulted, endDomainWaits, endWaits, setLatch, setDomainState, modifyDomain]
@[simp] theorem enterFaulted_argument0 (d : DomainId) : (enterFaulted d s).argument0 = s.argument0 := by
      dsimp only [enterFaulted, endDomainWaits, endWaits, setLatch, setDomainState, modifyDomain]
@[simp] theorem enterFaulted_argument1 (d : DomainId) : (enterFaulted d s).argument1 = s.argument1 := by
      dsimp only [enterFaulted, endDomainWaits, endWaits, setLatch, setDomainState, modifyDomain]
@[simp] theorem enterFaulted_commandResult (d : DomainId) : (enterFaulted d s).commandResult = s.commandResult := by
      dsimp only [enterFaulted, endDomainWaits, endWaits, setLatch, setDomainState, modifyDomain]
@[simp] theorem enterFaulted_lastWrite (d : DomainId) : (enterFaulted d s).lastWrite = s.lastWrite := by
      dsimp only [enterFaulted, endDomainWaits, endWaits, setLatch, setDomainState, modifyDomain]
@[simp] theorem enterFaulted_resetCause (d : DomainId) : (enterFaulted d s).resetCause = s.resetCause := by
      dsimp only [enterFaulted, endDomainWaits, endWaits, setLatch, setDomainState, modifyDomain]
@[simp] theorem enterFaulted_draining (d : DomainId) : (enterFaulted d s).draining = s.draining := by
      dsimp only [enterFaulted, endDomainWaits, endWaits, setLatch, setDomainState, modifyDomain]
@[simp] theorem enterFaulted_responses (d : DomainId) : (enterFaulted d s).responses = s.responses := by
      dsimp only [enterFaulted, endDomainWaits, endWaits, setLatch, setDomainState, modifyDomain]
@[simp] theorem enterFaulted_portOperations (d : DomainId) : (enterFaulted d s).portOperations =
      s.portOperations := by dsimp only [enterFaulted, endDomainWaits, endWaits, setLatch, setDomainState, modifyDomain]
@[simp] theorem enterFaulted_pending (d : DomainId) : (enterFaulted d s).pending = s.pending := by
      dsimp only [enterFaulted, endDomainWaits, endWaits, setLatch, setDomainState, modifyDomain]

/-! removeEntry -/

@[simp] theorem removeEntry_windows (e : ChangeEntry) : (removeEntry e s).windows = s.windows := by
      dsimp only [removeEntry, appendFrames, modifyDomain]
@[simp] theorem removeEntry_initiators (e : ChangeEntry) : (removeEntry e s).initiators = s.initiators := by
      dsimp only [removeEntry, appendFrames, modifyDomain]
@[simp] theorem removeEntry_cache (e : ChangeEntry) : (removeEntry e s).cache = s.cache := by
      dsimp only [removeEntry, appendFrames, modifyDomain]
@[simp] theorem removeEntry_cachePointer (e : ChangeEntry) : (removeEntry e s).cachePointer = s.cachePointer := by
      dsimp only [removeEntry, appendFrames, modifyDomain]
@[simp] theorem removeEntry_walkJobs (e : ChangeEntry) : (removeEntry e s).walkJobs = s.walkJobs := by
      dsimp only [removeEntry, appendFrames, modifyDomain]
@[simp] theorem removeEntry_publication (e : ChangeEntry) : (removeEntry e s).publication = s.publication := by
      dsimp only [removeEntry, appendFrames, modifyDomain]
@[simp] theorem removeEntry_publishWrite (e : ChangeEntry) : (removeEntry e s).publishWrite = s.publishWrite := by
      dsimp only [removeEntry, appendFrames, modifyDomain]
@[simp] theorem removeEntry_domains (e : ChangeEntry) : (removeEntry e s).domains =
      s.domains.set e.domain { s.domains[e.domain] with entryCount := s.domains[e.domain].entryCount - 1 } := rfl
@[simp] theorem removeEntry_changes (e : ChangeEntry) : (removeEntry e s).changes =
      s.changes.eraseP (changeKey e.window e.tile) := rfl
@[simp] theorem removeEntry_freeFrames (e : ChangeEntry) : (removeEntry e s).freeFrames = s.freeFrames ++
      [e.newFrame] := rfl
@[simp] theorem removeEntry_poolSize (e : ChangeEntry) : (removeEntry e s).poolSize = s.poolSize := by
      dsimp only [removeEntry, appendFrames, modifyDomain]
@[simp] theorem removeEntry_poolThreshold (e : ChangeEntry) : (removeEntry e s).poolThreshold = s.poolThreshold := by
      dsimp only [removeEntry, appendFrames, modifyDomain]
@[simp] theorem removeEntry_slots (e : ChangeEntry) : (removeEntry e s).slots = s.slots := by
      dsimp only [removeEntry, appendFrames, modifyDomain]
@[simp] theorem removeEntry_ranks (e : ChangeEntry) : (removeEntry e s).ranks = s.ranks := by
      dsimp only [removeEntry, appendFrames, modifyDomain]
@[simp] theorem removeEntry_transit (e : ChangeEntry) : (removeEntry e s).transit = s.transit := by
      dsimp only [removeEntry, appendFrames, modifyDomain]
@[simp] theorem removeEntry_collected (e : ChangeEntry) : (removeEntry e s).collected = s.collected := by
      dsimp only [removeEntry, appendFrames, modifyDomain]
@[simp] theorem removeEntry_starvation (e : ChangeEntry) : (removeEntry e s).starvation = s.starvation := by
      dsimp only [removeEntry, appendFrames, modifyDomain]
@[simp] theorem removeEntry_abandoned (e : ChangeEntry) : (removeEntry e s).abandoned = s.abandoned := by
      dsimp only [removeEntry, appendFrames, modifyDomain]
@[simp] theorem removeEntry_deadlines (e : ChangeEntry) : (removeEntry e s).deadlines = s.deadlines := by
      dsimp only [removeEntry, appendFrames, modifyDomain]
@[simp] theorem removeEntry_timebase (e : ChangeEntry) : (removeEntry e s).timebase = s.timebase := by
      dsimp only [removeEntry, appendFrames, modifyDomain]
@[simp] theorem removeEntry_divider (e : ChangeEntry) : (removeEntry e s).divider = s.divider := by
      dsimp only [removeEntry, appendFrames, modifyDomain]
@[simp] theorem removeEntry_edge (e : ChangeEntry) : (removeEntry e s).edge = s.edge := by dsimp only [removeEntry,
      appendFrames, modifyDomain]
@[simp] theorem removeEntry_lineLevel (e : ChangeEntry) : (removeEntry e s).lineLevel = s.lineLevel := by
      dsimp only [removeEntry, appendFrames, modifyDomain]
@[simp] theorem removeEntry_markCounter (e : ChangeEntry) : (removeEntry e s).markCounter = s.markCounter := by
      dsimp only [removeEntry, appendFrames, modifyDomain]
@[simp] theorem removeEntry_fault (e : ChangeEntry) : (removeEntry e s).fault = s.fault := by
      dsimp only [removeEntry, appendFrames, modifyDomain]
@[simp] theorem removeEntry_lost (e : ChangeEntry) : (removeEntry e s).lost = s.lost := by dsimp only [removeEntry,
      appendFrames, modifyDomain]
@[simp] theorem removeEntry_latches (e : ChangeEntry) : (removeEntry e s).latches = s.latches := by
      dsimp only [removeEntry, appendFrames, modifyDomain]
@[simp] theorem removeEntry_enables (e : ChangeEntry) : (removeEntry e s).enables = s.enables := by
      dsimp only [removeEntry, appendFrames, modifyDomain]
@[simp] theorem removeEntry_argument0 (e : ChangeEntry) : (removeEntry e s).argument0 = s.argument0 := by
      dsimp only [removeEntry, appendFrames, modifyDomain]
@[simp] theorem removeEntry_argument1 (e : ChangeEntry) : (removeEntry e s).argument1 = s.argument1 := by
      dsimp only [removeEntry, appendFrames, modifyDomain]
@[simp] theorem removeEntry_commandResult (e : ChangeEntry) : (removeEntry e s).commandResult = s.commandResult := by
      dsimp only [removeEntry, appendFrames, modifyDomain]
@[simp] theorem removeEntry_lastWrite (e : ChangeEntry) : (removeEntry e s).lastWrite = s.lastWrite := by
      dsimp only [removeEntry, appendFrames, modifyDomain]
@[simp] theorem removeEntry_resetCause (e : ChangeEntry) : (removeEntry e s).resetCause = s.resetCause := by
      dsimp only [removeEntry, appendFrames, modifyDomain]
@[simp] theorem removeEntry_draining (e : ChangeEntry) : (removeEntry e s).draining = s.draining := by
      dsimp only [removeEntry, appendFrames, modifyDomain]
@[simp] theorem removeEntry_responses (e : ChangeEntry) : (removeEntry e s).responses = s.responses := by
      dsimp only [removeEntry, appendFrames, modifyDomain]
@[simp] theorem removeEntry_portOperations (e : ChangeEntry) : (removeEntry e s).portOperations =
      s.portOperations := by dsimp only [removeEntry, appendFrames, modifyDomain]
@[simp] theorem removeEntry_pending (e : ChangeEntry) : (removeEntry e s).pending = s.pending := by
      dsimp only [removeEntry, appendFrames, modifyDomain]

/-! createEntry -/

@[simp] theorem createEntry_windows (d : DomainId) (c : CacheEntry) (f : Frame) (k : SlotId) :
      (createEntry d c f k s).windows = s.windows := by dsimp only [createEntry, setSlot, dropCache, modifyDomain,
      takeFrame]
@[simp] theorem createEntry_initiators (d : DomainId) (c : CacheEntry) (f : Frame) (k : SlotId) :
      (createEntry d c f k s).initiators = s.initiators := by dsimp only [createEntry, setSlot, dropCache,
      modifyDomain, takeFrame]
@[simp] theorem createEntry_cache (d : DomainId) (c : CacheEntry) (f : Frame) (k : SlotId) :
      (createEntry d c f k s).cache = Vector.ofFn fun i => s.cache[i].filter fun e => !decide (e.frame = f) := rfl
@[simp] theorem createEntry_cachePointer (d : DomainId) (c : CacheEntry) (f : Frame) (k : SlotId) :
      (createEntry d c f k s).cachePointer = s.cachePointer := by dsimp only [createEntry, setSlot, dropCache,
      modifyDomain, takeFrame]
@[simp] theorem createEntry_walkJobs (d : DomainId) (c : CacheEntry) (f : Frame) (k : SlotId) :
      (createEntry d c f k s).walkJobs = s.walkJobs := by dsimp only [createEntry, setSlot, dropCache, modifyDomain,
      takeFrame]
@[simp] theorem createEntry_publication (d : DomainId) (c : CacheEntry) (f : Frame) (k : SlotId) :
      (createEntry d c f k s).publication = s.publication := by dsimp only [createEntry, setSlot, dropCache,
      modifyDomain, takeFrame]
@[simp] theorem createEntry_publishWrite (d : DomainId) (c : CacheEntry) (f : Frame) (k : SlotId) :
      (createEntry d c f k s).publishWrite = s.publishWrite := by dsimp only [createEntry, setSlot, dropCache,
      modifyDomain, takeFrame]
@[simp] theorem createEntry_domains (d : DomainId) (c : CacheEntry) (f : Frame) (k : SlotId) :
      (createEntry d c f k s).domains = s.domains.set d (takeSequence s.domains[d]) := rfl
@[simp] theorem createEntry_changes (d : DomainId) (c : CacheEntry) (f : Frame) (k : SlotId) :
      (createEntry d c f k s).changes = s.changes ++ [⟨d, c.window, c.tile, c.frame, f, c.writable, c.sw,
      s.domains[d].nextSequence, .copying k⟩] := rfl
@[simp] theorem createEntry_freeFrames (d : DomainId) (c : CacheEntry) (f : Frame) (k : SlotId) :
      (createEntry d c f k s).freeFrames = s.freeFrames.tail := rfl
@[simp] theorem createEntry_poolSize (d : DomainId) (c : CacheEntry) (f : Frame) (k : SlotId) :
      (createEntry d c f k s).poolSize = s.poolSize := by dsimp only [createEntry, setSlot, dropCache, modifyDomain,
      takeFrame]
@[simp] theorem createEntry_poolThreshold (d : DomainId) (c : CacheEntry) (f : Frame) (k : SlotId) :
      (createEntry d c f k s).poolThreshold = s.poolThreshold := by dsimp only [createEntry, setSlot, dropCache,
      modifyDomain, takeFrame]
@[simp] theorem createEntry_slots (d : DomainId) (c : CacheEntry) (f : Frame) (k : SlotId) :
      (createEntry d c f k s).slots = s.slots.set k (some (newCopy c.window c.tile c.frame f)) := rfl
@[simp] theorem createEntry_ranks (d : DomainId) (c : CacheEntry) (f : Frame) (k : SlotId) :
      (createEntry d c f k s).ranks = s.ranks := by dsimp only [createEntry, setSlot, dropCache, modifyDomain,
      takeFrame]
@[simp] theorem createEntry_transit (d : DomainId) (c : CacheEntry) (f : Frame) (k : SlotId) :
      (createEntry d c f k s).transit = s.transit := by dsimp only [createEntry, setSlot, dropCache, modifyDomain,
      takeFrame]
@[simp] theorem createEntry_collected (d : DomainId) (c : CacheEntry) (f : Frame) (k : SlotId) :
      (createEntry d c f k s).collected = s.collected := by dsimp only [createEntry, setSlot, dropCache,
      modifyDomain, takeFrame]
@[simp] theorem createEntry_starvation (d : DomainId) (c : CacheEntry) (f : Frame) (k : SlotId) :
      (createEntry d c f k s).starvation = s.starvation := by dsimp only [createEntry, setSlot, dropCache,
      modifyDomain, takeFrame]
@[simp] theorem createEntry_abandoned (d : DomainId) (c : CacheEntry) (f : Frame) (k : SlotId) :
      (createEntry d c f k s).abandoned = s.abandoned := by dsimp only [createEntry, setSlot, dropCache,
      modifyDomain, takeFrame]
@[simp] theorem createEntry_deadlines (d : DomainId) (c : CacheEntry) (f : Frame) (k : SlotId) :
      (createEntry d c f k s).deadlines = s.deadlines := by dsimp only [createEntry, setSlot, dropCache,
      modifyDomain, takeFrame]
@[simp] theorem createEntry_timebase (d : DomainId) (c : CacheEntry) (f : Frame) (k : SlotId) :
      (createEntry d c f k s).timebase = s.timebase := by dsimp only [createEntry, setSlot, dropCache, modifyDomain,
      takeFrame]
@[simp] theorem createEntry_divider (d : DomainId) (c : CacheEntry) (f : Frame) (k : SlotId) :
      (createEntry d c f k s).divider = s.divider := by dsimp only [createEntry, setSlot, dropCache, modifyDomain,
      takeFrame]
@[simp] theorem createEntry_edge (d : DomainId) (c : CacheEntry) (f : Frame) (k : SlotId) :
      (createEntry d c f k s).edge = s.edge := by dsimp only [createEntry, setSlot, dropCache, modifyDomain, takeFrame]
@[simp] theorem createEntry_lineLevel (d : DomainId) (c : CacheEntry) (f : Frame) (k : SlotId) :
      (createEntry d c f k s).lineLevel = s.lineLevel := by dsimp only [createEntry, setSlot, dropCache,
      modifyDomain, takeFrame]
@[simp] theorem createEntry_markCounter (d : DomainId) (c : CacheEntry) (f : Frame) (k : SlotId) :
      (createEntry d c f k s).markCounter = s.markCounter := by dsimp only [createEntry, setSlot, dropCache,
      modifyDomain, takeFrame]
@[simp] theorem createEntry_fault (d : DomainId) (c : CacheEntry) (f : Frame) (k : SlotId) :
      (createEntry d c f k s).fault = s.fault := by dsimp only [createEntry, setSlot, dropCache, modifyDomain,
      takeFrame]
@[simp] theorem createEntry_lost (d : DomainId) (c : CacheEntry) (f : Frame) (k : SlotId) :
      (createEntry d c f k s).lost = s.lost := by dsimp only [createEntry, setSlot, dropCache, modifyDomain, takeFrame]
@[simp] theorem createEntry_latches (d : DomainId) (c : CacheEntry) (f : Frame) (k : SlotId) :
      (createEntry d c f k s).latches = if s.freeFrames.length = s.poolThreshold then
      s.latches ||| alertMask .poolLow else s.latches := rfl
@[simp] theorem createEntry_enables (d : DomainId) (c : CacheEntry) (f : Frame) (k : SlotId) :
      (createEntry d c f k s).enables = s.enables := by dsimp only [createEntry, setSlot, dropCache, modifyDomain,
      takeFrame]
@[simp] theorem createEntry_argument0 (d : DomainId) (c : CacheEntry) (f : Frame) (k : SlotId) :
      (createEntry d c f k s).argument0 = s.argument0 := by dsimp only [createEntry, setSlot, dropCache,
      modifyDomain, takeFrame]
@[simp] theorem createEntry_argument1 (d : DomainId) (c : CacheEntry) (f : Frame) (k : SlotId) :
      (createEntry d c f k s).argument1 = s.argument1 := by dsimp only [createEntry, setSlot, dropCache,
      modifyDomain, takeFrame]
@[simp] theorem createEntry_commandResult (d : DomainId) (c : CacheEntry) (f : Frame) (k : SlotId) :
      (createEntry d c f k s).commandResult = s.commandResult := by dsimp only [createEntry, setSlot, dropCache,
      modifyDomain, takeFrame]
@[simp] theorem createEntry_lastWrite (d : DomainId) (c : CacheEntry) (f : Frame) (k : SlotId) :
      (createEntry d c f k s).lastWrite = s.lastWrite := by dsimp only [createEntry, setSlot, dropCache,
      modifyDomain, takeFrame]
@[simp] theorem createEntry_resetCause (d : DomainId) (c : CacheEntry) (f : Frame) (k : SlotId) :
      (createEntry d c f k s).resetCause = s.resetCause := by dsimp only [createEntry, setSlot, dropCache,
      modifyDomain, takeFrame]
@[simp] theorem createEntry_draining (d : DomainId) (c : CacheEntry) (f : Frame) (k : SlotId) :
      (createEntry d c f k s).draining = s.draining := by dsimp only [createEntry, setSlot, dropCache, modifyDomain,
      takeFrame]
@[simp] theorem createEntry_responses (d : DomainId) (c : CacheEntry) (f : Frame) (k : SlotId) :
      (createEntry d c f k s).responses = s.responses := by dsimp only [createEntry, setSlot, dropCache,
      modifyDomain, takeFrame]
@[simp] theorem createEntry_portOperations (d : DomainId) (c : CacheEntry) (f : Frame) (k : SlotId) :
      (createEntry d c f k s).portOperations = s.portOperations := by dsimp only [createEntry, setSlot, dropCache,
      modifyDomain, takeFrame]
@[simp] theorem createEntry_pending (d : DomainId) (c : CacheEntry) (f : Frame) (k : SlotId) :
      (createEntry d c f k s).pending = s.pending := by dsimp only [createEntry, setSlot, dropCache, modifyDomain,
      takeFrame]

/-! applyPolicy -/

@[simp] theorem applyPolicy_windows (i : InitiatorId) : (applyPolicy i s).windows = s.windows := by
      dsimp only [applyPolicy]
@[simp] theorem applyPolicy_initiators (i : InitiatorId) : (applyPolicy i s).initiators =
      s.initiators.set i (afterViolation s.initiators[i]) := rfl
@[simp] theorem applyPolicy_cache (i : InitiatorId) : (applyPolicy i s).cache = s.cache := by dsimp only [applyPolicy]
@[simp] theorem applyPolicy_cachePointer (i : InitiatorId) : (applyPolicy i s).cachePointer = s.cachePointer := by
      dsimp only [applyPolicy]
@[simp] theorem applyPolicy_walkJobs (i : InitiatorId) : (applyPolicy i s).walkJobs = s.walkJobs := by
      dsimp only [applyPolicy]
@[simp] theorem applyPolicy_publication (i : InitiatorId) : (applyPolicy i s).publication = s.publication := by
      dsimp only [applyPolicy]
@[simp] theorem applyPolicy_publishWrite (i : InitiatorId) : (applyPolicy i s).publishWrite = s.publishWrite := by
      dsimp only [applyPolicy]
@[simp] theorem applyPolicy_domains (i : InitiatorId) : (applyPolicy i s).domains = s.domains := by
      dsimp only [applyPolicy]
@[simp] theorem applyPolicy_changes (i : InitiatorId) : (applyPolicy i s).changes = s.changes := by
      dsimp only [applyPolicy]
@[simp] theorem applyPolicy_freeFrames (i : InitiatorId) : (applyPolicy i s).freeFrames = s.freeFrames := by
      dsimp only [applyPolicy]
@[simp] theorem applyPolicy_poolSize (i : InitiatorId) : (applyPolicy i s).poolSize = s.poolSize := by
      dsimp only [applyPolicy]
@[simp] theorem applyPolicy_poolThreshold (i : InitiatorId) : (applyPolicy i s).poolThreshold = s.poolThreshold := by
      dsimp only [applyPolicy]
@[simp] theorem applyPolicy_slots (i : InitiatorId) : (applyPolicy i s).slots = s.slots := by dsimp only [applyPolicy]
@[simp] theorem applyPolicy_ranks (i : InitiatorId) : (applyPolicy i s).ranks = s.ranks := by dsimp only [applyPolicy]
@[simp] theorem applyPolicy_transit (i : InitiatorId) : (applyPolicy i s).transit = s.transit := by
      dsimp only [applyPolicy]
@[simp] theorem applyPolicy_collected (i : InitiatorId) : (applyPolicy i s).collected = s.collected := by
      dsimp only [applyPolicy]
@[simp] theorem applyPolicy_starvation (i : InitiatorId) : (applyPolicy i s).starvation = s.starvation := by
      dsimp only [applyPolicy]
@[simp] theorem applyPolicy_abandoned (i : InitiatorId) : (applyPolicy i s).abandoned = s.abandoned := by
      dsimp only [applyPolicy]
@[simp] theorem applyPolicy_deadlines (i : InitiatorId) : (applyPolicy i s).deadlines = s.deadlines := by
      dsimp only [applyPolicy]
@[simp] theorem applyPolicy_timebase (i : InitiatorId) : (applyPolicy i s).timebase = s.timebase := by
      dsimp only [applyPolicy]
@[simp] theorem applyPolicy_divider (i : InitiatorId) : (applyPolicy i s).divider = s.divider := by
      dsimp only [applyPolicy]
@[simp] theorem applyPolicy_edge (i : InitiatorId) : (applyPolicy i s).edge = s.edge := by dsimp only [applyPolicy]
@[simp] theorem applyPolicy_lineLevel (i : InitiatorId) : (applyPolicy i s).lineLevel = s.lineLevel := by
      dsimp only [applyPolicy]
@[simp] theorem applyPolicy_markCounter (i : InitiatorId) : (applyPolicy i s).markCounter = s.markCounter := by
      dsimp only [applyPolicy]
@[simp] theorem applyPolicy_fault (i : InitiatorId) : (applyPolicy i s).fault = s.fault := by dsimp only [applyPolicy]
@[simp] theorem applyPolicy_lost (i : InitiatorId) : (applyPolicy i s).lost = s.lost := by dsimp only [applyPolicy]
@[simp] theorem applyPolicy_latches (i : InitiatorId) : (applyPolicy i s).latches = s.latches := by
      dsimp only [applyPolicy]
@[simp] theorem applyPolicy_enables (i : InitiatorId) : (applyPolicy i s).enables = s.enables := by
      dsimp only [applyPolicy]
@[simp] theorem applyPolicy_argument0 (i : InitiatorId) : (applyPolicy i s).argument0 = s.argument0 := by
      dsimp only [applyPolicy]
@[simp] theorem applyPolicy_argument1 (i : InitiatorId) : (applyPolicy i s).argument1 = s.argument1 := by
      dsimp only [applyPolicy]
@[simp] theorem applyPolicy_commandResult (i : InitiatorId) : (applyPolicy i s).commandResult = s.commandResult := by
      dsimp only [applyPolicy]
@[simp] theorem applyPolicy_lastWrite (i : InitiatorId) : (applyPolicy i s).lastWrite = s.lastWrite := by
      dsimp only [applyPolicy]
@[simp] theorem applyPolicy_resetCause (i : InitiatorId) : (applyPolicy i s).resetCause = s.resetCause := by
      dsimp only [applyPolicy]
@[simp] theorem applyPolicy_draining (i : InitiatorId) : (applyPolicy i s).draining = s.draining := by
      dsimp only [applyPolicy]
@[simp] theorem applyPolicy_responses (i : InitiatorId) : (applyPolicy i s).responses = s.responses := by
      dsimp only [applyPolicy]
@[simp] theorem applyPolicy_portOperations (i : InitiatorId) : (applyPolicy i s).portOperations =
      s.portOperations := by dsimp only [applyPolicy]
@[simp] theorem applyPolicy_pending (i : InitiatorId) : (applyPolicy i s).pending = s.pending := by
      dsimp only [applyPolicy]

/-! claimEntries -/

@[simp] theorem claimEntries_windows (r : Request) (region : Region) (targets : List (Piece × Address)) :
      (claimEntries r region targets s).windows = s.windows := by dsimp only [claimEntries]
@[simp] theorem claimEntries_initiators (r : Request) (region : Region) (targets : List (Piece × Address)) :
      (claimEntries r region targets s).initiators = s.initiators := by dsimp only [claimEntries]
@[simp] theorem claimEntries_cache (r : Request) (region : Region) (targets : List (Piece × Address)) :
      (claimEntries r region targets s).cache = s.cache := by dsimp only [claimEntries]
@[simp] theorem claimEntries_cachePointer (r : Request) (region : Region) (targets : List (Piece × Address)) :
      (claimEntries r region targets s).cachePointer = s.cachePointer := by dsimp only [claimEntries]
@[simp] theorem claimEntries_walkJobs (r : Request) (region : Region) (targets : List (Piece × Address)) :
      (claimEntries r region targets s).walkJobs = s.walkJobs := by dsimp only [claimEntries]
@[simp] theorem claimEntries_publication (r : Request) (region : Region) (targets : List (Piece × Address)) :
      (claimEntries r region targets s).publication = s.publication := by dsimp only [claimEntries]
@[simp] theorem claimEntries_publishWrite (r : Request) (region : Region) (targets : List (Piece × Address)) :
      (claimEntries r region targets s).publishWrite = s.publishWrite := by dsimp only [claimEntries]
@[simp] theorem claimEntries_domains (r : Request) (region : Region) (targets : List (Piece × Address)) :
      (claimEntries r region targets s).domains = s.domains := by dsimp only [claimEntries]
@[simp] theorem claimEntries_changes (r : Request) (region : Region) (targets : List (Piece × Address)) :
      (claimEntries r region targets s).changes = s.changes := by dsimp only [claimEntries]
@[simp] theorem claimEntries_freeFrames (r : Request) (region : Region) (targets : List (Piece × Address)) :
      (claimEntries r region targets s).freeFrames = s.freeFrames := by dsimp only [claimEntries]
@[simp] theorem claimEntries_poolSize (r : Request) (region : Region) (targets : List (Piece × Address)) :
      (claimEntries r region targets s).poolSize = s.poolSize := by dsimp only [claimEntries]
@[simp] theorem claimEntries_poolThreshold (r : Request) (region : Region) (targets : List (Piece × Address)) :
      (claimEntries r region targets s).poolThreshold = s.poolThreshold := by dsimp only [claimEntries]
@[simp] theorem claimEntries_slots (r : Request) (region : Region) (targets : List (Piece × Address)) :
      (claimEntries r region targets s).slots = s.slots := by dsimp only [claimEntries]
@[simp] theorem claimEntries_ranks (r : Request) (region : Region) (targets : List (Piece × Address)) :
      (claimEntries r region targets s).ranks = s.ranks := by dsimp only [claimEntries]
@[simp] theorem claimEntries_transit (r : Request) (region : Region) (targets : List (Piece × Address)) :
      (claimEntries r region targets s).transit = s.transit ++ targets.map (transitEntry r region) := rfl
@[simp] theorem claimEntries_collected (r : Request) (region : Region) (targets : List (Piece × Address)) :
      (claimEntries r region targets s).collected = s.collected := by dsimp only [claimEntries]
@[simp] theorem claimEntries_starvation (r : Request) (region : Region) (targets : List (Piece × Address)) :
      (claimEntries r region targets s).starvation = s.starvation := by dsimp only [claimEntries]
@[simp] theorem claimEntries_abandoned (r : Request) (region : Region) (targets : List (Piece × Address)) :
      (claimEntries r region targets s).abandoned = s.abandoned := by dsimp only [claimEntries]
@[simp] theorem claimEntries_deadlines (r : Request) (region : Region) (targets : List (Piece × Address)) :
      (claimEntries r region targets s).deadlines = s.deadlines := by dsimp only [claimEntries]
@[simp] theorem claimEntries_timebase (r : Request) (region : Region) (targets : List (Piece × Address)) :
      (claimEntries r region targets s).timebase = s.timebase := by dsimp only [claimEntries]
@[simp] theorem claimEntries_divider (r : Request) (region : Region) (targets : List (Piece × Address)) :
      (claimEntries r region targets s).divider = s.divider := by dsimp only [claimEntries]
@[simp] theorem claimEntries_edge (r : Request) (region : Region) (targets : List (Piece × Address)) :
      (claimEntries r region targets s).edge = s.edge := by dsimp only [claimEntries]
@[simp] theorem claimEntries_lineLevel (r : Request) (region : Region) (targets : List (Piece × Address)) :
      (claimEntries r region targets s).lineLevel = s.lineLevel := by dsimp only [claimEntries]
@[simp] theorem claimEntries_markCounter (r : Request) (region : Region) (targets : List (Piece × Address)) :
      (claimEntries r region targets s).markCounter = s.markCounter := by dsimp only [claimEntries]
@[simp] theorem claimEntries_fault (r : Request) (region : Region) (targets : List (Piece × Address)) :
      (claimEntries r region targets s).fault = s.fault := by dsimp only [claimEntries]
@[simp] theorem claimEntries_lost (r : Request) (region : Region) (targets : List (Piece × Address)) :
      (claimEntries r region targets s).lost = s.lost := by dsimp only [claimEntries]
@[simp] theorem claimEntries_latches (r : Request) (region : Region) (targets : List (Piece × Address)) :
      (claimEntries r region targets s).latches = s.latches := by dsimp only [claimEntries]
@[simp] theorem claimEntries_enables (r : Request) (region : Region) (targets : List (Piece × Address)) :
      (claimEntries r region targets s).enables = s.enables := by dsimp only [claimEntries]
@[simp] theorem claimEntries_argument0 (r : Request) (region : Region) (targets : List (Piece × Address)) :
      (claimEntries r region targets s).argument0 = s.argument0 := by dsimp only [claimEntries]
@[simp] theorem claimEntries_argument1 (r : Request) (region : Region) (targets : List (Piece × Address)) :
      (claimEntries r region targets s).argument1 = s.argument1 := by dsimp only [claimEntries]
@[simp] theorem claimEntries_commandResult (r : Request) (region : Region) (targets : List (Piece × Address)) :
      (claimEntries r region targets s).commandResult = s.commandResult := by dsimp only [claimEntries]
@[simp] theorem claimEntries_lastWrite (r : Request) (region : Region) (targets : List (Piece × Address)) :
      (claimEntries r region targets s).lastWrite = s.lastWrite := by dsimp only [claimEntries]
@[simp] theorem claimEntries_resetCause (r : Request) (region : Region) (targets : List (Piece × Address)) :
      (claimEntries r region targets s).resetCause = s.resetCause := by dsimp only [claimEntries]
@[simp] theorem claimEntries_draining (r : Request) (region : Region) (targets : List (Piece × Address)) :
      (claimEntries r region targets s).draining = s.draining := by dsimp only [claimEntries]
@[simp] theorem claimEntries_responses (r : Request) (region : Region) (targets : List (Piece × Address)) :
      (claimEntries r region targets s).responses = s.responses := by dsimp only [claimEntries]
@[simp] theorem claimEntries_portOperations (r : Request) (region : Region) (targets : List (Piece × Address)) :
      (claimEntries r region targets s).portOperations = s.portOperations := by dsimp only [claimEntries]
@[simp] theorem claimEntries_pending (r : Request) (region : Region) (targets : List (Piece × Address)) :
      (claimEntries r region targets s).pending = s.pending := by dsimp only [claimEntries]

/-! sendOperation -/

@[simp] theorem sendOperation_windows (o : PortOperation) : (sendOperation o s).windows = s.windows := by
      dsimp only [sendOperation]
@[simp] theorem sendOperation_initiators (o : PortOperation) : (sendOperation o s).initiators = s.initiators := by
      dsimp only [sendOperation]
@[simp] theorem sendOperation_cache (o : PortOperation) : (sendOperation o s).cache = s.cache := by
      dsimp only [sendOperation]
@[simp] theorem sendOperation_cachePointer (o : PortOperation) : (sendOperation o s).cachePointer =
      s.cachePointer := by dsimp only [sendOperation]
@[simp] theorem sendOperation_walkJobs (o : PortOperation) : (sendOperation o s).walkJobs = s.walkJobs := by
      dsimp only [sendOperation]
@[simp] theorem sendOperation_publication (o : PortOperation) : (sendOperation o s).publication = s.publication := by
      dsimp only [sendOperation]
@[simp] theorem sendOperation_publishWrite (o : PortOperation) : (sendOperation o s).publishWrite =
      s.publishWrite := by dsimp only [sendOperation]
@[simp] theorem sendOperation_domains (o : PortOperation) : (sendOperation o s).domains = s.domains := by
      dsimp only [sendOperation]
@[simp] theorem sendOperation_changes (o : PortOperation) : (sendOperation o s).changes = s.changes := by
      dsimp only [sendOperation]
@[simp] theorem sendOperation_freeFrames (o : PortOperation) : (sendOperation o s).freeFrames = s.freeFrames := by
      dsimp only [sendOperation]
@[simp] theorem sendOperation_poolSize (o : PortOperation) : (sendOperation o s).poolSize = s.poolSize := by
      dsimp only [sendOperation]
@[simp] theorem sendOperation_poolThreshold (o : PortOperation) : (sendOperation o s).poolThreshold =
      s.poolThreshold := by dsimp only [sendOperation]
@[simp] theorem sendOperation_slots (o : PortOperation) : (sendOperation o s).slots = s.slots := by
      dsimp only [sendOperation]
@[simp] theorem sendOperation_ranks (o : PortOperation) : (sendOperation o s).ranks = s.ranks := by
      dsimp only [sendOperation]
@[simp] theorem sendOperation_transit (o : PortOperation) : (sendOperation o s).transit = s.transit := by
      dsimp only [sendOperation]
@[simp] theorem sendOperation_collected (o : PortOperation) : (sendOperation o s).collected = s.collected := by
      dsimp only [sendOperation]
@[simp] theorem sendOperation_starvation (o : PortOperation) : (sendOperation o s).starvation = s.starvation := by
      dsimp only [sendOperation]
@[simp] theorem sendOperation_abandoned (o : PortOperation) : (sendOperation o s).abandoned = s.abandoned := by
      dsimp only [sendOperation]
@[simp] theorem sendOperation_deadlines (o : PortOperation) : (sendOperation o s).deadlines = s.deadlines := by
      dsimp only [sendOperation]
@[simp] theorem sendOperation_timebase (o : PortOperation) : (sendOperation o s).timebase = s.timebase := by
      dsimp only [sendOperation]
@[simp] theorem sendOperation_divider (o : PortOperation) : (sendOperation o s).divider = s.divider := by
      dsimp only [sendOperation]
@[simp] theorem sendOperation_edge (o : PortOperation) : (sendOperation o s).edge = s.edge := by
      dsimp only [sendOperation]
@[simp] theorem sendOperation_lineLevel (o : PortOperation) : (sendOperation o s).lineLevel = s.lineLevel := by
      dsimp only [sendOperation]
@[simp] theorem sendOperation_markCounter (o : PortOperation) : (sendOperation o s).markCounter = s.markCounter := by
      dsimp only [sendOperation]
@[simp] theorem sendOperation_fault (o : PortOperation) : (sendOperation o s).fault = s.fault := by
      dsimp only [sendOperation]
@[simp] theorem sendOperation_lost (o : PortOperation) : (sendOperation o s).lost = s.lost := by
      dsimp only [sendOperation]
@[simp] theorem sendOperation_latches (o : PortOperation) : (sendOperation o s).latches = s.latches := by
      dsimp only [sendOperation]
@[simp] theorem sendOperation_enables (o : PortOperation) : (sendOperation o s).enables = s.enables := by
      dsimp only [sendOperation]
@[simp] theorem sendOperation_argument0 (o : PortOperation) : (sendOperation o s).argument0 = s.argument0 := by
      dsimp only [sendOperation]
@[simp] theorem sendOperation_argument1 (o : PortOperation) : (sendOperation o s).argument1 = s.argument1 := by
      dsimp only [sendOperation]
@[simp] theorem sendOperation_commandResult (o : PortOperation) : (sendOperation o s).commandResult =
      s.commandResult := by dsimp only [sendOperation]
@[simp] theorem sendOperation_lastWrite (o : PortOperation) : (sendOperation o s).lastWrite = s.lastWrite := by
      dsimp only [sendOperation]
@[simp] theorem sendOperation_resetCause (o : PortOperation) : (sendOperation o s).resetCause = s.resetCause := by
      dsimp only [sendOperation]
@[simp] theorem sendOperation_draining (o : PortOperation) : (sendOperation o s).draining = s.draining := by
      dsimp only [sendOperation]
@[simp] theorem sendOperation_responses (o : PortOperation) : (sendOperation o s).responses = s.responses := by
      dsimp only [sendOperation]
@[simp] theorem sendOperation_portOperations (o : PortOperation) : (sendOperation o s).portOperations =
      s.portOperations ++ [o] := rfl
@[simp] theorem sendOperation_pending (o : PortOperation) : (sendOperation o s).pending = s.pending := by
      dsimp only [sendOperation]

/-! dropAbandoned -/

@[simp] theorem dropAbandoned_windows (tag : LinkTag) : (dropAbandoned tag s).windows = s.windows := by
      dsimp only [dropAbandoned]
@[simp] theorem dropAbandoned_initiators (tag : LinkTag) : (dropAbandoned tag s).initiators = s.initiators := by
      dsimp only [dropAbandoned]
@[simp] theorem dropAbandoned_cache (tag : LinkTag) : (dropAbandoned tag s).cache = s.cache := by
      dsimp only [dropAbandoned]
@[simp] theorem dropAbandoned_cachePointer (tag : LinkTag) : (dropAbandoned tag s).cachePointer =
      s.cachePointer := by dsimp only [dropAbandoned]
@[simp] theorem dropAbandoned_walkJobs (tag : LinkTag) : (dropAbandoned tag s).walkJobs = s.walkJobs := by
      dsimp only [dropAbandoned]
@[simp] theorem dropAbandoned_publication (tag : LinkTag) : (dropAbandoned tag s).publication = s.publication := by
      dsimp only [dropAbandoned]
@[simp] theorem dropAbandoned_publishWrite (tag : LinkTag) : (dropAbandoned tag s).publishWrite =
      s.publishWrite := by dsimp only [dropAbandoned]
@[simp] theorem dropAbandoned_domains (tag : LinkTag) : (dropAbandoned tag s).domains = s.domains := by
      dsimp only [dropAbandoned]
@[simp] theorem dropAbandoned_changes (tag : LinkTag) : (dropAbandoned tag s).changes = s.changes := by
      dsimp only [dropAbandoned]
@[simp] theorem dropAbandoned_freeFrames (tag : LinkTag) : (dropAbandoned tag s).freeFrames = s.freeFrames := by
      dsimp only [dropAbandoned]
@[simp] theorem dropAbandoned_poolSize (tag : LinkTag) : (dropAbandoned tag s).poolSize = s.poolSize := by
      dsimp only [dropAbandoned]
@[simp] theorem dropAbandoned_poolThreshold (tag : LinkTag) : (dropAbandoned tag s).poolThreshold =
      s.poolThreshold := by dsimp only [dropAbandoned]
@[simp] theorem dropAbandoned_slots (tag : LinkTag) : (dropAbandoned tag s).slots = s.slots := by
      dsimp only [dropAbandoned]
@[simp] theorem dropAbandoned_ranks (tag : LinkTag) : (dropAbandoned tag s).ranks = s.ranks := by
      dsimp only [dropAbandoned]
@[simp] theorem dropAbandoned_transit (tag : LinkTag) : (dropAbandoned tag s).transit = s.transit := by
      dsimp only [dropAbandoned]
@[simp] theorem dropAbandoned_collected (tag : LinkTag) : (dropAbandoned tag s).collected = s.collected := by
      dsimp only [dropAbandoned]
@[simp] theorem dropAbandoned_starvation (tag : LinkTag) : (dropAbandoned tag s).starvation = s.starvation := by
      dsimp only [dropAbandoned]
@[simp] theorem dropAbandoned_abandoned (tag : LinkTag) : (dropAbandoned tag s).abandoned =
      s.abandoned.filter fun t => !decide (t = tag) := rfl
@[simp] theorem dropAbandoned_deadlines (tag : LinkTag) : (dropAbandoned tag s).deadlines = s.deadlines := by
      dsimp only [dropAbandoned]
@[simp] theorem dropAbandoned_timebase (tag : LinkTag) : (dropAbandoned tag s).timebase = s.timebase := by
      dsimp only [dropAbandoned]
@[simp] theorem dropAbandoned_divider (tag : LinkTag) : (dropAbandoned tag s).divider = s.divider := by
      dsimp only [dropAbandoned]
@[simp] theorem dropAbandoned_edge (tag : LinkTag) : (dropAbandoned tag s).edge = s.edge := by
      dsimp only [dropAbandoned]
@[simp] theorem dropAbandoned_lineLevel (tag : LinkTag) : (dropAbandoned tag s).lineLevel = s.lineLevel := by
      dsimp only [dropAbandoned]
@[simp] theorem dropAbandoned_markCounter (tag : LinkTag) : (dropAbandoned tag s).markCounter = s.markCounter := by
      dsimp only [dropAbandoned]
@[simp] theorem dropAbandoned_fault (tag : LinkTag) : (dropAbandoned tag s).fault = s.fault := by
      dsimp only [dropAbandoned]
@[simp] theorem dropAbandoned_lost (tag : LinkTag) : (dropAbandoned tag s).lost = s.lost := by
      dsimp only [dropAbandoned]
@[simp] theorem dropAbandoned_latches (tag : LinkTag) : (dropAbandoned tag s).latches = s.latches := by
      dsimp only [dropAbandoned]
@[simp] theorem dropAbandoned_enables (tag : LinkTag) : (dropAbandoned tag s).enables = s.enables := by
      dsimp only [dropAbandoned]
@[simp] theorem dropAbandoned_argument0 (tag : LinkTag) : (dropAbandoned tag s).argument0 = s.argument0 := by
      dsimp only [dropAbandoned]
@[simp] theorem dropAbandoned_argument1 (tag : LinkTag) : (dropAbandoned tag s).argument1 = s.argument1 := by
      dsimp only [dropAbandoned]
@[simp] theorem dropAbandoned_commandResult (tag : LinkTag) : (dropAbandoned tag s).commandResult =
      s.commandResult := by dsimp only [dropAbandoned]
@[simp] theorem dropAbandoned_lastWrite (tag : LinkTag) : (dropAbandoned tag s).lastWrite = s.lastWrite := by
      dsimp only [dropAbandoned]
@[simp] theorem dropAbandoned_resetCause (tag : LinkTag) : (dropAbandoned tag s).resetCause = s.resetCause := by
      dsimp only [dropAbandoned]
@[simp] theorem dropAbandoned_draining (tag : LinkTag) : (dropAbandoned tag s).draining = s.draining := by
      dsimp only [dropAbandoned]
@[simp] theorem dropAbandoned_responses (tag : LinkTag) : (dropAbandoned tag s).responses = s.responses := by
      dsimp only [dropAbandoned]
@[simp] theorem dropAbandoned_portOperations (tag : LinkTag) : (dropAbandoned tag s).portOperations =
      s.portOperations := by dsimp only [dropAbandoned]
@[simp] theorem dropAbandoned_pending (tag : LinkTag) : (dropAbandoned tag s).pending = s.pending := by
      dsimp only [dropAbandoned]

/-! beginDrain -/

@[simp] theorem beginDrain_windows : (beginDrain s).windows = s.windows := by dsimp only [beginDrain, answerRanks]
@[simp] theorem beginDrain_initiators : (beginDrain s).initiators = s.initiators := by dsimp only [beginDrain,
      answerRanks]
@[simp] theorem beginDrain_cache : (beginDrain s).cache = s.cache := by dsimp only [beginDrain, answerRanks]
@[simp] theorem beginDrain_cachePointer : (beginDrain s).cachePointer = s.cachePointer := by dsimp only [beginDrain,
      answerRanks]
@[simp] theorem beginDrain_walkJobs : (beginDrain s).walkJobs = s.walkJobs.filter fun j => (walkTag j).isSome := rfl
@[simp] theorem beginDrain_publication : (beginDrain s).publication = s.publication := by dsimp only [beginDrain,
      answerRanks]
@[simp] theorem beginDrain_publishWrite : (beginDrain s).publishWrite = s.publishWrite := by dsimp only [beginDrain,
      answerRanks]
@[simp] theorem beginDrain_domains : (beginDrain s).domains = s.domains := by dsimp only [beginDrain, answerRanks]
@[simp] theorem beginDrain_changes : (beginDrain s).changes = s.changes := by dsimp only [beginDrain, answerRanks]
@[simp] theorem beginDrain_freeFrames : (beginDrain s).freeFrames = s.freeFrames := by dsimp only [beginDrain,
      answerRanks]
@[simp] theorem beginDrain_poolSize : (beginDrain s).poolSize = s.poolSize := by dsimp only [beginDrain, answerRanks]
@[simp] theorem beginDrain_poolThreshold : (beginDrain s).poolThreshold = s.poolThreshold := by
      dsimp only [beginDrain, answerRanks]
@[simp] theorem beginDrain_slots : (beginDrain s).slots = s.slots := by dsimp only [beginDrain, answerRanks]
@[simp] theorem beginDrain_ranks : (beginDrain s).ranks = (answerRanks (fun _ => true) .failed s).ranks := rfl
@[simp] theorem beginDrain_transit : (beginDrain s).transit = s.transit := by dsimp only [beginDrain, answerRanks]
@[simp] theorem beginDrain_collected : (beginDrain s).collected = s.collected := by dsimp only [beginDrain, answerRanks]
@[simp] theorem beginDrain_starvation : (beginDrain s).starvation = s.starvation := by dsimp only [beginDrain,
      answerRanks]
@[simp] theorem beginDrain_abandoned : (beginDrain s).abandoned = s.abandoned := by dsimp only [beginDrain, answerRanks]
@[simp] theorem beginDrain_deadlines : (beginDrain s).deadlines = s.deadlines := by dsimp only [beginDrain, answerRanks]
@[simp] theorem beginDrain_timebase : (beginDrain s).timebase = s.timebase := by dsimp only [beginDrain, answerRanks]
@[simp] theorem beginDrain_divider : (beginDrain s).divider = s.divider := by dsimp only [beginDrain, answerRanks]
@[simp] theorem beginDrain_edge : (beginDrain s).edge = s.edge := by dsimp only [beginDrain, answerRanks]
@[simp] theorem beginDrain_lineLevel : (beginDrain s).lineLevel = s.lineLevel := by dsimp only [beginDrain, answerRanks]
@[simp] theorem beginDrain_markCounter : (beginDrain s).markCounter = s.markCounter := by dsimp only [beginDrain,
      answerRanks]
@[simp] theorem beginDrain_fault : (beginDrain s).fault = s.fault := by dsimp only [beginDrain, answerRanks]
@[simp] theorem beginDrain_lost : (beginDrain s).lost = s.lost := by dsimp only [beginDrain, answerRanks]
@[simp] theorem beginDrain_latches : (beginDrain s).latches = s.latches := by dsimp only [beginDrain, answerRanks]
@[simp] theorem beginDrain_enables : (beginDrain s).enables = s.enables := by dsimp only [beginDrain, answerRanks]
@[simp] theorem beginDrain_argument0 : (beginDrain s).argument0 = s.argument0 := by dsimp only [beginDrain, answerRanks]
@[simp] theorem beginDrain_argument1 : (beginDrain s).argument1 = s.argument1 := by dsimp only [beginDrain, answerRanks]
@[simp] theorem beginDrain_commandResult : (beginDrain s).commandResult = s.commandResult := by
      dsimp only [beginDrain, answerRanks]
@[simp] theorem beginDrain_lastWrite : (beginDrain s).lastWrite = s.lastWrite := by dsimp only [beginDrain, answerRanks]
@[simp] theorem beginDrain_resetCause : (beginDrain s).resetCause = s.resetCause := by dsimp only [beginDrain,
      answerRanks]
@[simp] theorem beginDrain_draining : (beginDrain s).draining = true := rfl
@[simp] theorem beginDrain_responses : (beginDrain s).responses =
      (answerRanks (fun _ => true) .failed s).responses := rfl
@[simp] theorem beginDrain_portOperations : (beginDrain s).portOperations = s.portOperations := by
      dsimp only [beginDrain, answerRanks]
@[simp] theorem beginDrain_pending : (beginDrain s).pending = s.pending := by dsimp only [beginDrain, answerRanks]

end Sys2Proof.Machine
end

