-- ==== Sys2Proof/Laws/Frames.lean ====
section
/-! SUPPORT. Frames: which fields a group of operations leaves as they are. A lemma `x_frame` says that the operation x
keeps its group's frame, and a proof takes from it the one field it needs. -/

namespace Sys2Proof.Machine

/-- The fields that the Epoch Unit's transitions leave as they are: all but the Domain Records, the deadline counters, the
Change Table, the Free Frame Queue, the latches, the ranks and the publication order. -/
structure EpochFrame (s t : State) : Prop where
  windows : t.windows = s.windows
  initiators : t.initiators = s.initiators
  cache : t.cache = s.cache
  cachePointer : t.cachePointer = s.cachePointer
  walkJobs : t.walkJobs = s.walkJobs
  publishWrite : t.publishWrite = s.publishWrite
  poolSize : t.poolSize = s.poolSize
  poolThreshold : t.poolThreshold = s.poolThreshold
  slots : t.slots = s.slots
  transit : t.transit = s.transit
  collected : t.collected = s.collected
  starvation : t.starvation = s.starvation
  abandoned : t.abandoned = s.abandoned
  timebase : t.timebase = s.timebase
  divider : t.divider = s.divider
  edge : t.edge = s.edge
  lineLevel : t.lineLevel = s.lineLevel
  markCounter : t.markCounter = s.markCounter
  fault : t.fault = s.fault
  lost : t.lost = s.lost
  enables : t.enables = s.enables
  argument0 : t.argument0 = s.argument0
  argument1 : t.argument1 = s.argument1
  commandResult : t.commandResult = s.commandResult
  lastWrite : t.lastWrite = s.lastWrite
  resetCause : t.resetCause = s.resetCause
  draining : t.draining = s.draining
  responses : t.responses = s.responses
  portOperations : t.portOperations = s.portOperations
  pending : t.pending = s.pending

theorem EpochFrame.refl (s : State) : EpochFrame s s := by constructor <;> rfl

theorem EpochFrame.trans {s t u : State} (h : EpochFrame s t) (k : EpochFrame t u) : EpochFrame s u where
  windows := k.windows.trans h.windows
  initiators := k.initiators.trans h.initiators
  cache := k.cache.trans h.cache
  cachePointer := k.cachePointer.trans h.cachePointer
  walkJobs := k.walkJobs.trans h.walkJobs
  publishWrite := k.publishWrite.trans h.publishWrite
  poolSize := k.poolSize.trans h.poolSize
  poolThreshold := k.poolThreshold.trans h.poolThreshold
  slots := k.slots.trans h.slots
  transit := k.transit.trans h.transit
  collected := k.collected.trans h.collected
  starvation := k.starvation.trans h.starvation
  abandoned := k.abandoned.trans h.abandoned
  timebase := k.timebase.trans h.timebase
  divider := k.divider.trans h.divider
  edge := k.edge.trans h.edge
  lineLevel := k.lineLevel.trans h.lineLevel
  markCounter := k.markCounter.trans h.markCounter
  fault := k.fault.trans h.fault
  lost := k.lost.trans h.lost
  enables := k.enables.trans h.enables
  argument0 := k.argument0.trans h.argument0
  argument1 := k.argument1.trans h.argument1
  commandResult := k.commandResult.trans h.commandResult
  lastWrite := k.lastWrite.trans h.lastWrite
  resetCause := k.resetCause.trans h.resetCause
  draining := k.draining.trans h.draining
  responses := k.responses.trans h.responses
  portOperations := k.portOperations.trans h.portOperations
  pending := k.pending.trans h.pending

/-- The fields that the translation of pieces leaves as they are: all but the Domain Records, the Change Table, the Free
Frame Queue, the latches, the Translation Cache, the copy slots and the walk list. -/
structure LookupFrame (s t : State) : Prop where
  windows : t.windows = s.windows
  initiators : t.initiators = s.initiators
  cachePointer : t.cachePointer = s.cachePointer
  publication : t.publication = s.publication
  publishWrite : t.publishWrite = s.publishWrite
  poolSize : t.poolSize = s.poolSize
  poolThreshold : t.poolThreshold = s.poolThreshold
  ranks : t.ranks = s.ranks
  transit : t.transit = s.transit
  collected : t.collected = s.collected
  starvation : t.starvation = s.starvation
  abandoned : t.abandoned = s.abandoned
  deadlines : t.deadlines = s.deadlines
  timebase : t.timebase = s.timebase
  divider : t.divider = s.divider
  edge : t.edge = s.edge
  lineLevel : t.lineLevel = s.lineLevel
  markCounter : t.markCounter = s.markCounter
  fault : t.fault = s.fault
  lost : t.lost = s.lost
  enables : t.enables = s.enables
  argument0 : t.argument0 = s.argument0
  argument1 : t.argument1 = s.argument1
  commandResult : t.commandResult = s.commandResult
  lastWrite : t.lastWrite = s.lastWrite
  resetCause : t.resetCause = s.resetCause
  draining : t.draining = s.draining
  responses : t.responses = s.responses
  portOperations : t.portOperations = s.portOperations
  pending : t.pending = s.pending

theorem LookupFrame.refl (s : State) : LookupFrame s s := by constructor <;> rfl

theorem LookupFrame.trans {s t u : State} (h : LookupFrame s t) (k : LookupFrame t u) : LookupFrame s u where
  windows := k.windows.trans h.windows
  initiators := k.initiators.trans h.initiators
  cachePointer := k.cachePointer.trans h.cachePointer
  publication := k.publication.trans h.publication
  publishWrite := k.publishWrite.trans h.publishWrite
  poolSize := k.poolSize.trans h.poolSize
  poolThreshold := k.poolThreshold.trans h.poolThreshold
  ranks := k.ranks.trans h.ranks
  transit := k.transit.trans h.transit
  collected := k.collected.trans h.collected
  starvation := k.starvation.trans h.starvation
  abandoned := k.abandoned.trans h.abandoned
  deadlines := k.deadlines.trans h.deadlines
  timebase := k.timebase.trans h.timebase
  divider := k.divider.trans h.divider
  edge := k.edge.trans h.edge
  lineLevel := k.lineLevel.trans h.lineLevel
  markCounter := k.markCounter.trans h.markCounter
  fault := k.fault.trans h.fault
  lost := k.lost.trans h.lost
  enables := k.enables.trans h.enables
  argument0 := k.argument0.trans h.argument0
  argument1 := k.argument1.trans h.argument1
  commandResult := k.commandResult.trans h.commandResult
  lastWrite := k.lastWrite.trans h.lastWrite
  resetCause := k.resetCause.trans h.resetCause
  draining := k.draining.trans h.draining
  responses := k.responses.trans h.responses
  portOperations := k.portOperations.trans h.portOperations
  pending := k.pending.trans h.pending

/-- The fields that the evaluation of a request leaves as they are, whatever its outcome. -/
structure SettleFrame (s t : State) : Prop where
  windows : t.windows = s.windows
  cachePointer : t.cachePointer = s.cachePointer
  publishWrite : t.publishWrite = s.publishWrite
  poolSize : t.poolSize = s.poolSize
  poolThreshold : t.poolThreshold = s.poolThreshold
  collected : t.collected = s.collected
  starvation : t.starvation = s.starvation
  abandoned : t.abandoned = s.abandoned
  timebase : t.timebase = s.timebase
  divider : t.divider = s.divider
  edge : t.edge = s.edge
  lineLevel : t.lineLevel = s.lineLevel
  markCounter : t.markCounter = s.markCounter
  enables : t.enables = s.enables
  argument0 : t.argument0 = s.argument0
  argument1 : t.argument1 = s.argument1
  commandResult : t.commandResult = s.commandResult
  lastWrite : t.lastWrite = s.lastWrite
  resetCause : t.resetCause = s.resetCause
  draining : t.draining = s.draining
  portOperations : t.portOperations = s.portOperations
  pending : t.pending = s.pending

theorem SettleFrame.refl (s : State) : SettleFrame s s := by constructor <;> rfl

theorem SettleFrame.trans {s t u : State} (h : SettleFrame s t) (k : SettleFrame t u) : SettleFrame s u where
  windows := k.windows.trans h.windows
  cachePointer := k.cachePointer.trans h.cachePointer
  publishWrite := k.publishWrite.trans h.publishWrite
  poolSize := k.poolSize.trans h.poolSize
  poolThreshold := k.poolThreshold.trans h.poolThreshold
  collected := k.collected.trans h.collected
  starvation := k.starvation.trans h.starvation
  abandoned := k.abandoned.trans h.abandoned
  timebase := k.timebase.trans h.timebase
  divider := k.divider.trans h.divider
  edge := k.edge.trans h.edge
  lineLevel := k.lineLevel.trans h.lineLevel
  markCounter := k.markCounter.trans h.markCounter
  enables := k.enables.trans h.enables
  argument0 := k.argument0.trans h.argument0
  argument1 := k.argument1.trans h.argument1
  commandResult := k.commandResult.trans h.commandResult
  lastWrite := k.lastWrite.trans h.lastWrite
  resetCause := k.resetCause.trans h.resetCause
  draining := k.draining.trans h.draining
  portOperations := k.portOperations.trans h.portOperations
  pending := k.pending.trans h.pending

/-- The fields that the four completions leave as they are, up to the end of a soft reset drain. -/
structure CompletionFrame (s t : State) : Prop where
  windows : t.windows = s.windows
  initiators : t.initiators = s.initiators
  poolSize : t.poolSize = s.poolSize
  poolThreshold : t.poolThreshold = s.poolThreshold
  abandoned : t.abandoned = s.abandoned
  timebase : t.timebase = s.timebase
  divider : t.divider = s.divider
  edge : t.edge = s.edge
  lineLevel : t.lineLevel = s.lineLevel
  markCounter : t.markCounter = s.markCounter
  enables : t.enables = s.enables
  argument0 : t.argument0 = s.argument0
  argument1 : t.argument1 = s.argument1
  commandResult : t.commandResult = s.commandResult
  lastWrite : t.lastWrite = s.lastWrite
  resetCause : t.resetCause = s.resetCause
  draining : t.draining = s.draining
  portOperations : t.portOperations = s.portOperations
  pending : t.pending = s.pending

theorem CompletionFrame.refl (s : State) : CompletionFrame s s := by constructor <;> rfl

theorem CompletionFrame.trans {s t u : State} (h : CompletionFrame s t) (k : CompletionFrame t u) : CompletionFrame s u where
  windows := k.windows.trans h.windows
  initiators := k.initiators.trans h.initiators
  poolSize := k.poolSize.trans h.poolSize
  poolThreshold := k.poolThreshold.trans h.poolThreshold
  abandoned := k.abandoned.trans h.abandoned
  timebase := k.timebase.trans h.timebase
  divider := k.divider.trans h.divider
  edge := k.edge.trans h.edge
  lineLevel := k.lineLevel.trans h.lineLevel
  markCounter := k.markCounter.trans h.markCounter
  enables := k.enables.trans h.enables
  argument0 := k.argument0.trans h.argument0
  argument1 := k.argument1.trans h.argument1
  commandResult := k.commandResult.trans h.commandResult
  lastWrite := k.lastWrite.trans h.lastWrite
  resetCause := k.resetCause.trans h.resetCause
  draining := k.draining.trans h.draining
  portOperations := k.portOperations.trans h.portOperations
  pending := k.pending.trans h.pending

theorem EpochFrame.toSettleFrame {s t : State} (h : EpochFrame s t) : SettleFrame s t where
  windows := h.windows
  cachePointer := h.cachePointer
  publishWrite := h.publishWrite
  poolSize := h.poolSize
  poolThreshold := h.poolThreshold
  collected := h.collected
  starvation := h.starvation
  abandoned := h.abandoned
  timebase := h.timebase
  divider := h.divider
  edge := h.edge
  lineLevel := h.lineLevel
  markCounter := h.markCounter
  enables := h.enables
  argument0 := h.argument0
  argument1 := h.argument1
  commandResult := h.commandResult
  lastWrite := h.lastWrite
  resetCause := h.resetCause
  draining := h.draining
  portOperations := h.portOperations
  pending := h.pending

theorem LookupFrame.toSettleFrame {s t : State} (h : LookupFrame s t) : SettleFrame s t where
  windows := h.windows
  cachePointer := h.cachePointer
  publishWrite := h.publishWrite
  poolSize := h.poolSize
  poolThreshold := h.poolThreshold
  collected := h.collected
  starvation := h.starvation
  abandoned := h.abandoned
  timebase := h.timebase
  divider := h.divider
  edge := h.edge
  lineLevel := h.lineLevel
  markCounter := h.markCounter
  enables := h.enables
  argument0 := h.argument0
  argument1 := h.argument1
  commandResult := h.commandResult
  lastWrite := h.lastWrite
  resetCause := h.resetCause
  draining := h.draining
  portOperations := h.portOperations
  pending := h.pending

theorem EpochFrame.toCompletionFrame {s t : State} (h : EpochFrame s t) : CompletionFrame s t where
  windows := h.windows
  initiators := h.initiators
  poolSize := h.poolSize
  poolThreshold := h.poolThreshold
  abandoned := h.abandoned
  timebase := h.timebase
  divider := h.divider
  edge := h.edge
  lineLevel := h.lineLevel
  markCounter := h.markCounter
  enables := h.enables
  argument0 := h.argument0
  argument1 := h.argument1
  commandResult := h.commandResult
  lastWrite := h.lastWrite
  resetCause := h.resetCause
  draining := h.draining
  portOperations := h.portOperations
  pending := h.pending

end Sys2Proof.Machine
end

