-- ==== Sys2Proof/Laws/Epoch.lean ====
section
/-! SUPPORT. What the Epoch Unit's transitions can do: their frame, how they wake ranks, and the balance of the pool. -/

namespace Sys2Proof.Machine

/-! ## Frames -/

theorem setDomainState_frame (d : DomainId) (st : DomainState) (s : State) : EpochFrame s (setDomainState d st s) := by
  constructor <;> simp

theorem stopDeadline_frame (d : DomainId) (s : State) : EpochFrame s (stopDeadline d s) := by
  constructor <;> simp

theorem setLatch_frame (a : Alert) (s : State) : EpochFrame s (setLatch a s) := by
  constructor <;> simp

theorem enterOpen_frame (d : DomainId) (s : State) : EpochFrame s (enterOpen d s) := by
  constructor <;> simp [enterOpen]

theorem endDomainWaits_frame (d : DomainId) (s : State) : EpochFrame s (endDomainWaits d s) := by
  constructor <;> simp

theorem endWaits_frame (p : Rank → Bool) (s : State) : EpochFrame s (endWaits p s) := by
  constructor <;> simp

theorem enterFaulted_frame (d : DomainId) (s : State) : EpochFrame s (enterFaulted d s) := by
  constructor <;> simp

theorem releaseDomain_frame (d : DomainId) (s : State) : EpochFrame s (releaseDomain d s) := by
  constructor <;> (simp only [releaseDomain]; split <;> simp [enterOpen])

theorem discardDomain_frame (d : DomainId) (s : State) : EpochFrame s (discardDomain d s) := by
  constructor <;> simp [discardDomain]

theorem endPass_frame (d : DomainId) (s : State) : EpochFrame s (endPass d s) := by
  unfold endPass
  split
  · exact enterFaulted_frame d s
  · exact releaseDomain_frame d s

theorem enterPublish_frame (d : DomainId) (s : State) : EpochFrame s (enterPublish d s) := by
  have h := (setDomainState_frame d (.committing .publish) s).trans (stopDeadline_frame d _)
  unfold enterPublish
  split
  · refine h.trans ?_
    constructor <;> rfl
  · exact h.trans (endPass_frame d _)

theorem testCommitDrain_frame (d : DomainId) (s : State) : EpochFrame s (testCommitDrain d s) := by
  unfold testCommitDrain
  split
  · exact (endDomainWaits_frame d s).trans (enterPublish_frame d _)
  · exact .refl s

theorem testRollbackDrain_frame (d : DomainId) (s : State) : EpochFrame s (testRollbackDrain d s) := by
  unfold testRollbackDrain
  split
  · exact discardDomain_frame d s
  · exact .refl s

theorem testDrain_frame (d : DomainId) (s : State) : EpochFrame s (testDrain d s) := by
  unfold testDrain
  split
  · exact testCommitDrain_frame d s
  · exact testRollbackDrain_frame d s
  all_goals exact .refl s

theorem enterCommit_frame (d : DomainId) (s : State) : EpochFrame s (enterCommit d s) :=
  ((setDomainState_frame d _ s).trans (stopDeadline_frame d _)).trans (testCommitDrain_frame d _)

theorem enterRollback_frame (d : DomainId) (s : State) : EpochFrame s (enterRollback d s) :=
  ((setDomainState_frame d _ s).trans (stopDeadline_frame d _)).trans (testRollbackDrain_frame d _)

theorem causeCommit_frame (d : DomainId) (s : State) : EpochFrame s (causeCommit d s) := by
  unfold causeCommit
  split
  · exact enterCommit_frame d s
  · exact .refl s

theorem causeRollback_frame (d : DomainId) (s : State) : EpochFrame s (causeRollback d s) := by
  unfold causeRollback
  split
  · exact enterRollback_frame d s
  · exact .refl s

theorem reportViolation_frame (d : DomainId) (s : State) : EpochFrame s (reportViolation d s) := by
  unfold reportViolation
  split
  · exact causeRollback_frame d s
  · exact .refl s

theorem reportOverflow_frame (d : DomainId) (s : State) : EpochFrame s (reportOverflow d s) := by
  unfold reportOverflow
  split
  · exact causeRollback_frame d s
  · exact .refl s

end Sys2Proof.Machine
end

