-- ==== Sys2Proof/Laws/Translation.lean ====
section
/-! SUPPORT. What the translation and the evaluation of a request can do: their frames, and the frame of a rank's leaving
and of an arrival. -/

namespace Sys2Proof.Machine

/-! ## The translation of pieces -/

theorem postWalk_frame (w : WindowId) (tile : Nat) (s : State) : LookupFrame s (postWalk w tile s) := by
  constructor <;> simp

theorem createEntry_frame (d : DomainId) (c : CacheEntry) (f : Frame) (k : SlotId) (s : State) :
    LookupFrame s (createEntry d c f k s) := by
  constructor <;> simp

theorem firstWrite_frame (d : DomainId) (c : CacheEntry) (s : State) : LookupFrame s (firstWrite d c s).2 := by
  unfold firstWrite
  split
  · exact .refl s
  · split
    · exact .refl s
    · split
      · exact .refl s
      · split
        · exact .refl s
        · exact createEntry_frame ..

theorem closedWrite_frame (d : DomainId) (p : Piece) (c : CacheEntry) (s : State) :
    LookupFrame s (closedWrite d p c s).2 := by
  unfold closedWrite
  split <;> exact .refl s

theorem lookup_frame (kind : Kind) (w : WindowId) (p : Piece) (onWrite : CacheEntry → State → PieceOutcome × State)
    (h : ∀ c s, LookupFrame s (onWrite c s).2) (s : State) : LookupFrame s (lookup kind w p onWrite s).2 := by
  unfold lookup
  split
  · exact .refl s
  · split
    · exact postWalk_frame w p.tile s
    · split
      · exact .refl s
      · split
        · exact h _ s
        · exact .refl s

theorem translatePiece_frame (kind : Kind) (w : WindowId) (d : DomainId) (p : Piece) (s : State) :
    LookupFrame s (translatePiece kind w d p s).2 := by
  unfold translatePiece
  split
  · exact lookup_frame _ _ _ _ (fun c s => closedWrite_frame d p c s) s
  · exact lookup_frame _ _ _ _ (fun c s => firstWrite_frame d c s) s
  · exact lookup_frame _ _ _ _ (fun c s => firstWrite_frame d c s) s
  · exact lookup_frame _ _ _ _ (fun _ s => .refl s) s
  all_goals exact .refl s

theorem translatePieces_frame (kind : Kind) (w : WindowId) (d : DomainId) (ps : List Piece) (s : State) :
    LookupFrame s (translatePieces kind w d ps s).2 := by
  induction ps generalizing s with
  | nil => exact .refl s
  | cons p ps ih =>
    have h := translatePiece_frame kind w d p s
    unfold translatePieces
    split
    · rename_i heq; rw [heq] at h; exact h
    · rename_i heq; rw [heq] at h; exact h
    · rename_i s₁ heq
      rw [heq] at h
      have k := ih s₁
      split <;> (rename_i heq₂; rw [heq₂] at k; exact h.trans k)

theorem evaluate_frame (r : Request) (dec : Decoded) (s : State) : LookupFrame s (evaluate r dec s).2 := by
  unfold evaluate
  split
  · exact translatePieces_frame ..
  all_goals exact .refl s

/-! ## The evaluation of a request -/

theorem sendResponse_frame (a : Response) (s : State) : SettleFrame s (sendResponse a s) := by
  constructor <;> simp

theorem reportFault_frame (f : FaultReport) (s : State) : SettleFrame s (reportFault f s) := by
  constructor <;> simp

theorem applyPolicy_frame (i : InitiatorId) (s : State) : SettleFrame s (applyPolicy i s) := by
  constructor <;> simp

theorem claimEntries_frame (r : Request) (region : Region) (targets : List (Piece × Address)) (s : State) :
    SettleFrame s (claimEntries r region targets s) := by
  constructor <;> simp

theorem takeViolation_frame (r : Request) (region : Region) (s : State) :
    SettleFrame s (takeViolation r region s) := by
  have h := applyPolicy_frame r.initiator s
  unfold takeViolation
  dsimp only
  split
  · exact h.trans (reportViolation_frame _ _).toSettleFrame
  all_goals exact h

theorem refuseTranslated_frame (r : Request) (region : Region) (code : FaultCode) (s : State) :
    SettleFrame s (refuseTranslated r region code s) := by
  have h := (sendResponse_frame (plainResponse r .refused false) s).trans
    (reportFault_frame (requestFault code r (regionWindow region) (regionDomain region)
      (sendResponse (plainResponse r .refused false) s)) _)
  have k : SettleFrame s (if isViolation code then takeViolation r region
      (reportFault (requestFault code r (regionWindow region) (regionDomain region)
        (sendResponse (plainResponse r .refused false) s)) (sendResponse (plainResponse r .refused false) s))
      else reportFault (requestFault code r (regionWindow region) (regionDomain region)
        (sendResponse (plainResponse r .refused false) s)) (sendResponse (plainResponse r .refused false) s)) := by
    split
    · exact h.trans (takeViolation_frame ..)
    · exact h
  unfold refuseTranslated
  dsimp only
  split
  · split
    · exact k.trans (reportOverflow_frame _ _).toSettleFrame
    · exact k
  · exact k

/-- The evaluation of a request touches no window, no register of the management port and no timer but through the Epoch
Unit. -/
theorem settle_frame (r : Request) (dec : Decoded) (s : State) : SettleFrame s (settle r dec s).2 := by
  have h := (evaluate_frame r dec s).toSettleFrame
  unfold settle
  split
  · rename_i heq
    rw [heq] at h
    split
    · exact h.trans (claimEntries_frame ..)
    · exact h
  · rename_i heq; rw [heq] at h; exact h
  · rename_i heq; rw [heq] at h; exact h.trans (refuseTranslated_frame ..)

theorem freeRank_frame (n : Nat) (i : InitiatorId) (s : State) : SettleFrame s (freeRank n i s) := by
  constructor <;> simp

theorem parkAgain_frame (n : Nat) (reason : WaitReason) (s : State) : SettleFrame s (parkAgain n reason s) := by
  constructor <;> simp

theorem addRank_frame (k : Rank) (s : State) : SettleFrame s (addRank k s) := by
  constructor <;> simp

theorem leaveRank_frame (n : Nat) (k : Rank) (s : State) : SettleFrame s (leaveRank n k s) := by
  have h := settle_frame k.request k.decoded s
  unfold leaveRank
  split <;> (rename_i heq; rw [heq] at h)
  · exact h.trans (freeRank_frame ..)
  · exact h.trans (parkAgain_frame ..)

/-! ## The arrival of a request -/

theorem refuseIntake_frame (r : Request) (f : IntakeRefusal) (s : State) : SettleFrame s (refuseIntake r f s) := by
  have h := (sendResponse_frame (plainResponse r .refused (decide (f.code = .dupTag))) s).trans
    (reportFault_frame (requestFault f.code r f.window f.domain
      (sendResponse (plainResponse r .refused (decide (f.code = .dupTag))) s)) _)
  unfold refuseIntake
  dsimp only
  split
  · exact h.trans (takeViolation_frame ..)
  · exact h

theorem dropCache_frame (p : CacheEntry → Bool) (s : State) : SettleFrame s (dropCache p s) := by
  constructor <;> simp

theorem snoopInvalidate_frame (r : Request) (s : State) : SettleFrame s (snoopInvalidate r s) := by
  unfold snoopInvalidate
  split
  · exact .refl s
  · exact dropCache_frame ..

theorem takeIn_frame (r : Request) (dec : Decoded) (s : State) : SettleFrame s (takeIn r dec s) := by
  have h := settle_frame r dec s
  unfold takeIn
  split
  · exact addRank_frame ..
  · split <;> (rename_i heq; rw [heq] at h)
    · exact h
    · exact h.trans (addRank_frame ..)

theorem arrive_frame (r : Request) (s : State) : SettleFrame s (arrive r s) := by
  unfold arrive
  split
  · exact refuseIntake_frame ..
  · exact (snoopInvalidate_frame r s).trans (takeIn_frame ..)
  · exact .refl s

end Sys2Proof.Machine
end

