-- ==== Sys2Proof/Laws/MemoryPort.lean ====
section
/-! SUPPORT. What the completions can do: their frames, and that they do the same while a soft reset drains. -/

namespace Sys2Proof.Machine

theorem answerRanks_frame (p : Rank → Bool) (status : ResponseStatus) (s : State) :
    CompletionFrame s (answerRanks p status s) := by
  constructor <;> simp

theorem reportFault_completionFrame (f : FaultReport) (s : State) : CompletionFrame s (reportFault f s) := by
  constructor <;> simp

theorem reportFaults_frame (fs : List FaultReport) (s : State) : CompletionFrame s (reportFaults fs s) := by
  induction fs generalizing s with
  | nil => exact .refl s
  | cons f fs ih => exact (reportFault_completionFrame f s).trans (ih _)

theorem setSlot_frame (k : SlotId) (c : Option CopyJob) (s : State) : CompletionFrame s (setSlot k c s) := by
  constructor <;> simp

theorem setEntryState_frame (w : WindowId) (tile : Nat) (st : EntryState) (s : State) :
    EpochFrame s (setEntryState w tile st s) := by
  constructor <;> simp

theorem removeEntry_frame (e : ChangeEntry) (s : State) : EpochFrame s (removeEntry e s) := by
  constructor <;> simp

theorem fillCache_frame (c : CacheEntry) (s : State) : CompletionFrame s (fillCache c s) := by
  constructor <;> simp

theorem flushEntries_frame (s : State) : CompletionFrame s (flushEntries s) := by
  constructor <;> simp

theorem publishToCache_frame (e : ChangeEntry) (s : State) : CompletionFrame s (publishToCache e s) := by
  constructor <;> simp

theorem settleStarvation_frame (b s : State) : CompletionFrame s (settleStarvation b s) := by
  constructor <;> simp

/-! ## Copies -/

theorem completeCopy_frame (k : SlotId) (c : CopyJob) (s : State) : CompletionFrame s (completeCopy k c s) := by
  have h : CompletionFrame s (endWaits (parkedOn .slot) (endWaits (parkedOn (.copy c.window c.tile))
      (setSlot k none (setEntryState c.window c.tile .live s)))) :=
    ((setEntryState_frame ..).toCompletionFrame.trans (setSlot_frame ..)).trans
      ((endWaits_frame _ _).trans (endWaits_frame _ _)).toCompletionFrame
  unfold completeCopy
  dsimp only
  split
  · exact h.trans (testDrain_frame _ _).toCompletionFrame
  · exact h

theorem failCopy_frame (k : SlotId) (c : CopyJob) (s : State) : CompletionFrame s (failCopy k c s) := by
  unfold failCopy
  split
  · dsimp only
    refine CompletionFrame.trans ?_ (testDrain_frame _ _).toCompletionFrame
    refine CompletionFrame.trans ?_ (endWaits_frame _ _).toCompletionFrame
    refine CompletionFrame.trans ?_ (setSlot_frame _ _ _)
    refine CompletionFrame.trans ?_ (reportFault_completionFrame _ _)
    exact (removeEntry_frame _ s).toCompletionFrame.trans (answerRanks_frame ..)
  · exact (setSlot_frame ..).trans (endWaits_frame _ _).toCompletionFrame

theorem stopCopy_frame (k : SlotId) (c : CopyJob) (s : State) : CompletionFrame s (stopCopy k c s) := by
  unfold stopCopy
  split
  · exact failCopy_frame k c s
  · exact setSlot_frame ..

theorem completeChunk_frame (k : SlotId) (c : CopyJob) (tag : LinkTag) (chunk : ChunkInProgress)
    (status : Completion) (data : Chunk) (s : State) :
    CompletionFrame s (completeChunk k c tag chunk status data s) := by
  unfold completeChunk
  split
  · exact stopCopy_frame ..
  · split
    · exact stopCopy_frame ..
    · split
      · exact setSlot_frame ..
      · dsimp only
        split
        · exact completeCopy_frame ..
        · exact setSlot_frame ..
      all_goals exact .refl s

/-! ## Walks and publication -/

theorem walkFill_frame (j : WalkJob) (entry : Beat) (s : State) : CompletionFrame s (walkFill j entry s) :=
  (fillCache_frame _ s).trans (endWaits_frame _ _).toCompletionFrame

theorem walkInvalid_frame (j : WalkJob) (s : State) : CompletionFrame s (walkInvalid j s) :=
  (answerRanks_frame _ _ s).trans (reportFaults_frame _ _)

theorem walkFailed_frame (j : WalkJob) (s : State) : CompletionFrame s (walkFailed j s) :=
  ((answerRanks_frame _ _ s).trans (reportFault_completionFrame _ _)).trans (flushEntries_frame _)

theorem completeWalk_frame (j : WalkJob) (status : Completion) (entry : Beat) (s : State) :
    CompletionFrame s (completeWalk j status entry s) := by
  have h : CompletionFrame s { s with walkJobs := s.walkJobs.eraseP (jobKey j.window j.tile) } := by
    constructor <;> rfl
  unfold completeWalk
  dsimp only
  split
  · split
    · exact h.trans (walkFill_frame ..)
    · exact h.trans (walkInvalid_frame ..)
  · exact h.trans (walkFailed_frame ..)

theorem publishOutcome_frame (p : PublishWrite) (status : Completion) (s : State) :
    CompletionFrame s (publishOutcome p status s) := by
  unfold publishOutcome
  split
  · split
    · exact (setEntryState_frame ..).toCompletionFrame.trans (publishToCache_frame ..)
    · exact .refl s
  · exact reportFault_completionFrame ..

theorem continuePass_frame (d : DomainId) (s : State) : CompletionFrame s (continuePass d s) := by
  unfold continuePass
  split
  · exact .refl s
  · refine CompletionFrame.trans ?_ (endPass_frame _ _).toCompletionFrame
    constructor <;> rfl

/-! ## Forwarded operations -/

theorem answerPiece_frame (e : TransitEntry) (status : Completion) (beats : List Beat) (s : State) :
    CompletionFrame s (answerPiece e status beats s) := by
  unfold answerPiece
  split
  · constructor <;> dsimp only
  · constructor <;> simp

theorem reportMemory_frame (e : TransitEntry) (status : Completion) (s : State) :
    CompletionFrame s (reportMemory e status s) := by
  unfold reportMemory
  split
  · exact .refl s
  · exact reportFault_completionFrame ..

theorem tellFreed_frame (e : TransitEntry) (s : State) : EpochFrame s (tellFreed e s) := by
  unfold tellFreed
  split
  · exact .refl s
  · split
    · exact testDrain_frame _ s
    · exact testRollbackDrain_frame _ s

theorem completeTransit_frame (e : TransitEntry) (tag : LinkTag) (status : Completion) (beats : List Beat) (s : State) :
    CompletionFrame s (completeTransit e tag status beats s) := by
  have h : CompletionFrame s { s with transit := s.transit.eraseP (sentUnder tag) } := by
    constructor <;> rfl
  unfold completeTransit
  dsimp only
  refine CompletionFrame.trans ?_ (tellFreed_frame _ _).toCompletionFrame
  refine CompletionFrame.trans ?_ (endWaits_frame _ _).toCompletionFrame
  exact (h.trans (reportMemory_frame ..)).trans (answerPiece_frame ..)

/-! ## The draining bit: what a completion does does not depend on it, up to the end of the drain -/

/-- A function of State that neither looks at the draining bit nor changes it. -/
def KeepsDraining (f : State → State) : Prop :=
  ∀ (b : Bool) (s : State), f { s with draining := b } = { f s with draining := b }


theorem releaseDomain_keepsDraining (d : DomainId) :
    KeepsDraining (releaseDomain d) := by
  intro b s
  unfold releaseDomain
  dsimp only
  rw [show settingsOf d { s with draining := b } = settingsOf d s from rfl]
  split <;> rfl

theorem discardDomain_keepsDraining (d : DomainId) :
    KeepsDraining (discardDomain d) := fun _ _ => rfl

theorem endPass_keepsDraining (d : DomainId) :
    KeepsDraining (endPass d) := by
  intro b s
  unfold endPass
  rw [show entriesOf d { s with draining := b } = entriesOf d s from rfl]
  split
  · rfl
  · exact releaseDomain_keepsDraining d b s

theorem enterPublish_keepsDraining (d : DomainId) :
    KeepsDraining (enterPublish d) := by
  intro b s
  unfold enterPublish
  dsimp only
  rw [show entriesOf d { s with draining := b } = entriesOf d s from rfl]
  split
  · rfl
  · exact endPass_keepsDraining d b (stopDeadline d (setDomainState d (.committing .publish) s))

theorem testCommitDrain_keepsDraining (d : DomainId) :
    KeepsDraining (testCommitDrain d) := by
  intro b s
  unfold testCommitDrain
  rw [show domainState d { s with draining := b } = domainState d s from rfl,
    show commitDrained d { s with draining := b } = commitDrained d s from rfl]
  split
  · exact enterPublish_keepsDraining d b (endDomainWaits d s)
  · rfl

theorem testRollbackDrain_keepsDraining (d : DomainId) :
    KeepsDraining (testRollbackDrain d) := by
  intro b s
  unfold testRollbackDrain
  rw [show domainState d { s with draining := b } = domainState d s from rfl,
    show rollbackDrained d { s with draining := b } = rollbackDrained d s from rfl]
  split <;> rfl

theorem testDrain_keepsDraining (d : DomainId) :
    KeepsDraining (testDrain d) := by
  intro b s
  unfold testDrain
  rw [show domainState d { s with draining := b } = domainState d s from rfl]
  split
  · exact testCommitDrain_keepsDraining d b s
  · exact testRollbackDrain_keepsDraining d b s
  all_goals rfl

theorem completeCopy_keepsDraining (k : SlotId) (c : CopyJob) :
    KeepsDraining (completeCopy k c) := by
  intro b s
  unfold completeCopy
  dsimp only
  rw [show findChange c.window c.tile { s with draining := b } = findChange c.window c.tile s from rfl]
  split
  · exact testDrain_keepsDraining _ b (endWaits (parkedOn .slot) (endWaits (parkedOn (.copy c.window c.tile))
      (setSlot k none (setEntryState c.window c.tile .live s))))
  · rfl

theorem failCopy_keepsDraining (k : SlotId) (c : CopyJob) :
    KeepsDraining (failCopy k c) := by
  intro b s
  unfold failCopy
  rw [show findChange c.window c.tile { s with draining := b } = findChange c.window c.tile s from rfl]
  split
  · rename_i e _
    let s₁ := answerRanks (parkedOn (.copy c.window c.tile)) .failed (removeEntry e s)
    exact testDrain_keepsDraining _ b (endWaits (parkedOn .slot) (setSlot k none (reportFault
      (internalFault .copyFailed (tileAddress s.windows[c.window] c.tile) c.window e.domain s₁) s₁)))
  · rfl

theorem stopCopy_keepsDraining (k : SlotId) (c : CopyJob) :
    KeepsDraining (stopCopy k c) := by
  intro b s
  unfold stopCopy
  split
  · exact failCopy_keepsDraining k c b s
  · rfl

theorem completeChunk_keepsDraining (k : SlotId) (c : CopyJob) (tag : LinkTag) (x : ChunkInProgress)
    (st : Completion) (data : Chunk) :
    KeepsDraining (completeChunk k c tag x st data) := by
  intro b s
  unfold completeChunk
  split
  · exact stopCopy_keepsDraining _ _ b s
  · split
    · exact stopCopy_keepsDraining _ _ b s
    · split
      · rfl
      · dsimp only
        split
        · exact completeCopy_keepsDraining _ _ b s
        · rfl
      all_goals rfl

theorem reportFaults_keepsDraining (fs : List FaultReport) :
    KeepsDraining (reportFaults fs) := by
  intro b s
  induction fs generalizing s with
  | nil => rfl
  | cons f fs ih => exact ih (reportFault f s)

theorem completeWalk_keepsDraining (j : WalkJob) (st : Completion) (entry : Beat) :
    KeepsDraining (completeWalk j st entry) := by
  intro b s
  unfold completeWalk
  dsimp only
  split
  · rw [show walkUsable entry { s with walkJobs := s.walkJobs.eraseP (jobKey j.window j.tile), draining := b } =
      walkUsable entry { s with walkJobs := s.walkJobs.eraseP (jobKey j.window j.tile) } from rfl]
    split
    · rfl
    · exact reportFaults_keepsDraining _ b (answerRanks (parkedOn (.walk j.window j.tile)) .refused
        { s with walkJobs := s.walkJobs.eraseP (jobKey j.window j.tile) })
  · rfl

theorem publishOutcome_keepsDraining (p : PublishWrite) (st : Completion) :
    KeepsDraining (publishOutcome p st) := by
  intro b s
  unfold publishOutcome
  split
  · rw [show findChange p.window p.tile { s with draining := b } = findChange p.window p.tile s from rfl]
    split <;> rfl
  · rfl

theorem continuePass_keepsDraining (d : DomainId) :
    KeepsDraining (continuePass d) := by
  intro b s
  unfold continuePass
  rw [show passContinues d { s with draining := b } = passContinues d s from rfl]
  split
  · rfl
  · exact endPass_keepsDraining d b { s with publication := s.publication.filter fun p => !decide (p.domain = d) }

theorem answerPiece_keepsDraining (e : TransitEntry) (st : Completion) (bs : List Beat) :
    KeepsDraining (answerPiece e st bs) := by
  intro b s
  unfold answerPiece
  dsimp only
  split <;> rfl

theorem reportMemory_keepsDraining (e : TransitEntry) (st : Completion) :
    KeepsDraining (reportMemory e st) := by
  intro b s
  unfold reportMemory
  split <;> rfl

theorem tellFreed_keepsDraining (e : TransitEntry) :
    KeepsDraining (tellFreed e) := by
  intro b s
  unfold tellFreed
  split
  · rfl
  · split
    · exact testDrain_keepsDraining _ b s
    · exact testRollbackDrain_keepsDraining _ b s

theorem completeTransit_keepsDraining (e : TransitEntry) (tag : LinkTag) (st : Completion) (bs : List Beat) :
    KeepsDraining (completeTransit e tag st bs) := by
  intro b s
  unfold completeTransit
  dsimp only
  have h1 := reportMemory_keepsDraining e st b { s with transit := s.transit.eraseP (sentUnder tag) }
  have h2 := answerPiece_keepsDraining e st bs b
    (reportMemory e st { s with transit := s.transit.eraseP (sentUnder tag) })
  dsimp only at h1
  rw [h1, h2]
  exact tellFreed_keepsDraining e b (endWaits (parkedOn .transit)
    (answerPiece e st bs (reportMemory e st { s with transit := s.transit.eraseP (sentUnder tag) })))

end Sys2Proof.Machine
end

