-- ==== Sys2Proof/Laws/Timers.lean ====
section
/-! SUPPORT. What the Deadline Timer Unit's events can do, and the order in which one event takes the domains. -/

namespace Sys2Proof.Machine

/-! ## The order of the domains -/

theorem eraseDups_nodup {α : Type} [BEq α] [LawfulBEq α] :
    ∀ (n : Nat) (l : List α), l.length ≤ n → l.eraseDups.Nodup
  | _, [], _ => by simp
  | 0, _ :: _, h => by simp at h
  | n + 1, a :: l, h => by
    rw [List.eraseDups_cons, List.nodup_cons]
    refine ⟨by simp [List.mem_eraseDups], eraseDups_nodup n _ ?_⟩
    exact (List.length_filter_le _ l).trans (Nat.le_of_succ_le_succ h)

/-- No domain is taken twice in one event. -/
theorem domainOrder_nodup (order : List DomainId) : (domainOrder order).Nodup := eraseDups_nodup _ _ le_rfl

/-- Every domain is taken in an event that reaches all four. -/
theorem mem_domainOrder (order : List DomainId) (d : DomainId) : d ∈ domainOrder order := by
  simp [domainOrder, List.mem_eraseDups]

/-! ## Frames -/

theorem setDeadline_frame (d : DomainId) (c : DeadlineCounter) (s : State) : EpochFrame s (setDeadline d c s) := by
  constructor <;> simp

theorem expire_frame (d : DomainId) (s : State) : EpochFrame s (expire d s) := by
  have h := (setDeadline_frame d { value := 0, running := false } s).trans (setLatch_frame (.deadline d) _)
  unfold expire
  dsimp only
  split
  · exact h
  · exact h.trans (causeCommit_frame _ _)
  · exact h.trans (causeRollback_frame _ _)

theorem tickCounter_frame (d : DomainId) (s : State) : EpochFrame s (tickCounter d s) := by
  unfold tickCounter
  dsimp only
  split
  · split
    · exact expire_frame d s
    · exact setDeadline_frame ..
  · exact .refl s

theorem deliverMark_frame (d : DomainId) (s : State) : EpochFrame s (deliverMark d s) := by
  unfold deliverMark
  split
  · exact enterCommit_frame d s
  · split
    · exact enterCommit_frame d s
    · exact .refl s
  all_goals exact .refl s

/-- A fold of transitions over domains keeps the Epoch Unit's frame. -/
theorem foldl_frame (f : State → DomainId → State) (h : ∀ s d, EpochFrame s (f s d)) (ds : List DomainId) (s : State) :
    EpochFrame s (ds.foldl f s) := by
  induction ds generalizing s with
  | nil => exact .refl s
  | cons d ds ih => exact (h s d).trans (ih _)

/-- A tick moves the divider to its beginning and is otherwise the Epoch Unit's work. -/
theorem takeTick_frame (order : List DomainId) (s : State) : EpochFrame { s with divider := 0 } (takeTick order s) :=
  foldl_frame _ (fun s d => tickCounter_frame d s) _ _

/-- A mark event moves the line and the mark counter and is otherwise the Epoch Unit's work. -/
theorem takeMark_frame (order : List DomainId) (s : State) :
    EpochFrame { s with lineLevel := activeLevel s.edge, markCounter := s.markCounter + 1 } (takeMark order s) :=
  foldl_frame _ (fun s d => deliverMark_frame d s) _ _

end Sys2Proof.Machine
end

