-- ==== Sys2Proof/Laws/Moves.lean ====
section
/-! SUPPORT. Everything a step can do, said once: each command is a sequence of moves, and a move is one change of one
block's state under the condition on which the part makes it (`exec_moves`, `step_moves`). A property of State that every
move keeps is kept by every step. -/

namespace Sys2Proof.Machine

/-- The fields that a change of registers, outputs and inputs leaves as they are: all of the blocks' tables, queues and
counters. -/
structure OutsideFrame (s t : State) : Prop where
  windows : t.windows = s.windows
  cache : t.cache = s.cache
  cachePointer : t.cachePointer = s.cachePointer
  walkJobs : t.walkJobs = s.walkJobs
  publication : t.publication = s.publication
  publishWrite : t.publishWrite = s.publishWrite
  domains : t.domains = s.domains
  changes : t.changes = s.changes
  freeFrames : t.freeFrames = s.freeFrames
  poolSize : t.poolSize = s.poolSize
  slots : t.slots = s.slots
  ranks : t.ranks = s.ranks
  transit : t.transit = s.transit
  deadlines : t.deadlines = s.deadlines
  timebase : t.timebase = s.timebase
  divider : t.divider = s.divider
  fault : t.fault = s.fault
  lost : t.lost = s.lost
  draining : t.draining = s.draining
  abandoned : t.abandoned = s.abandoned

/-- A request can be evaluated: no soft reset drains, or a rank is left (R64, R129). -/
def evaluates (s : State) : Prop := s.draining = false ∨ s.ranks ≠ []

/-- What a copy keeps of itself while it runs. -/
def sameCopy (c c' : CopyJob) : Prop :=
  c'.window = c.window ∧ c'.tile = c.tile ∧ c'.source = c.source ∧ c'.destination = c.destination

/-- A copy's chunks in progress and its next read lie in their ranges (R109). -/
def chunksFit (c : CopyJob) : Prop := c.chunks.length ≤ 2 ∧ c.nextRead ≤ Config.chunksPerTile

/-- Which link tags a copy has outstanding: `c'` has none but those of `c` and tags that no abandoned operation holds. -/
def tagsFit (s : State) (c c' : CopyJob) : Prop :=
  ∀ x ∈ c'.chunks, ∀ tag, chunkTag x = some tag → tag ∉ s.abandoned ∨ ∃ y ∈ c.chunks, chunkTag y = some tag

/-- One change of State that the part makes, with the condition on which it makes it. -/
inductive Move : State → State → Prop
  | outside {s t : State} : OutsideFrame s t → Move s t
  | report (f : FaultReport) (s : State) : Move s (reportFault f s)
  | clearFault (s : State) : Move s { s with fault := none, lost := false }
  | divider (n : Nat) (s : State) : n < 2 ^ s.timebase.toNat → Move s { s with divider := n }
  | timebase (p : BitVec 4) (s : State) : Move s { s with timebase := p, divider := 0 }
  | window (w : WindowId) (word : WindowWord) (data : Word) (new : Window) (s : State) :
      windowWith s.windows[w] word data = some new → windowWriteHolds w new s = true →
      Move s { s with windows := s.windows.set w new }
  | settings (d : DomainId) (word : DomainWord) (data : Word) (new : DomainSettings) (s : State) :
      settingsWith (settingsOf d s) word data = some new → domainState d s = .closed →
      Move s (modifyDomain d (fun r => { r with settings := new }) s)
  | poolLoad (fs : List Frame) (s : State) : poolIdle s = true →
      Move s { s with freeFrames := fs, poolSize := fs.length }
  | dropCache (p : CacheEntry → Bool) (s : State) : Move s (dropCache p s)
  | flush (s : State) : Move s (flushEntries s)
  | fill (c : CacheEntry) (s : State) : Move s (fillCache c s)
  | publishCache (e : ChangeEntry) (s : State) : Move s (publishToCache e s)
  | postWalk (w : WindowId) (tile : Nat) (s : State) : evaluates s → Move s (postWalk w tile s)
  | issueWalk (tag : LinkTag) (s : State) : walkerBusy s = false → s.draining = false → tag ∉ s.abandoned →
      Move s { s with walkJobs := issueOldest tag s.walkJobs }
  | wakeWalk (w : WindowId) (tile : Nat) (s : State) :
      Move s (endWaits (parkedOn (.walk w tile)) { s with walkJobs := s.walkJobs.eraseP (jobKey w tile) })
  | answerWalk (w : WindowId) (tile : Nat) (status : ResponseStatus) (s : State) :
      Move s (answerRanks (parkedOn (.walk w tile)) status { s with walkJobs := s.walkJobs.eraseP (jobKey w tile) })
  | publishGrant (tag : LinkTag) (p : Publication) (e : ChangeEntry) (a : Address) (s : State) :
      walkerBusy s = false → s.draining = false → publishTurn s = some (p, e) → tag ∉ s.abandoned →
      Move s { s with
        publication := s.publication.map (advanceCursor p e.sequence)
        publishWrite := some { tag := tag, domain := p.domain, window := e.window, tile := e.tile, mapAddress := a } }
  | publishOk (p : PublishWrite) (s : State) : s.publishWrite = some p →
      Move s (continuePass p.domain (setEntryState p.window p.tile .published { s with publishWrite := none }))
  | publishEnd (p : PublishWrite) (s : State) : s.publishWrite = some p →
      Move s (continuePass p.domain { s with publishWrite := none })
  | openDomain (d : DomainId) (s : State) : domainState d s = .closed → Move s (enterOpen d s)
  | arm (d : DomainId) (s : State) : domainState d s = .opened → Move s (setDomainState d .marked s)
  | startCommit (d : DomainId) (s : State) : inEpoch d s = true →
      Move s (stopDeadline d (setDomainState d (.committing .drain) s))
  | publish (d : DomainId) (s : State) :
      (domainState d s = .committing .drain ∧ commitDrained d s = true) ∨ domainState d s = .faulted →
      Move s (enterPublish d s)
  | startRollback (d : DomainId) (s : State) : inEpoch d s = true →
      Move s (stopDeadline d (setDomainState d .rollingBack s))
  | discard (d : DomainId) (s : State) : domainState d s = .rollingBack → rollbackDrained d s = true →
      Move s (discardDomain d s)
  | lowerDeadline (d : DomainId) (s : State) : 1 < s.deadlines[d].value →
      Move s (setDeadline d { s.deadlines[d] with value := s.deadlines[d].value - 1 } s)
  | stopAtZero (d : DomainId) (s : State) : Move s (setDeadline d { value := 0, running := false } s)
  | createEntry (d : DomainId) (c : CacheEntry) (f : Frame) (k : SlotId) (s : State) :
      inEpoch d s = true → findChange c.window c.tile s = none → quotaHolds s.domains[d] = true →
      s.changes.length < Config.changeEntries → s.freeFrames.head? = some f → freeSlot s = some k → evaluates s →
      Move s (createEntry d c f k s)
  | copyDone (k : SlotId) (c c' : CopyJob) (s : State) : s.slots[k] = some c → sameCopy c c' →
      Move s (endWaits (parkedOn .slot) (endWaits (parkedOn (.copy c'.window c'.tile))
        (setSlot k none (setEntryState c'.window c'.tile .live s))))
  | copyFailed (k : SlotId) (c c' : CopyJob) (e : ChangeEntry) (s : State) : s.slots[k] = some c → sameCopy c c' →
      findChange c'.window c'.tile s = some e →
      Move s (endWaits (parkedOn .slot) (setSlot k none
        (answerRanks (parkedOn (.copy c'.window c'.tile)) .failed (removeEntry e s))))
  | copyLost (k : SlotId) (c c' : CopyJob) (s : State) : s.slots[k] = some c → sameCopy c c' →
      findChange c'.window c'.tile s = none → Move s (endWaits (parkedOn .slot) (setSlot k none s))
  | copyGoesOn (k : SlotId) (c c' : CopyJob) (s : State) : s.slots[k] = some c → sameCopy c c' →
      (chunksFit c → chunksFit c') → tagsFit s c c' → Move s (setSlot k (some c') s)
  | forward (tag : LinkTag) (s : State) : tag ∉ s.abandoned → Move s { s with transit := sendOldest tag s.transit }
  | freeTransit (tag : LinkTag) (s : State) :
      Move s (endWaits (parkedOn .transit) { s with transit := s.transit.eraseP (sentUnder tag) })
  | abandonedReturns (tag : LinkTag) (s : State) : Move s (dropAbandoned tag s)
  | wakeDomain (d : DomainId) (s : State) : Move s (endDomainWaits d s)
  | park (r : Request) (dec : Decoded) (reason : WaitReason) (s : State) : accepting s = true →
      pairInUse r.initiator r.tag s = false → (reason = .order ↔ hasRank r.initiator s = true) →
      Move s (addRank { request := r, decoded := dec, state := .parked reason } s)
  | issue (r : Request) (region : Region) (targets : List (Piece × Address)) (s : State) :
      pairInUse r.initiator r.tag s = false → s.draining = false →
      s.transit.length + targets.length ≤ Config.transitEntries → Move s (claimEntries r region targets s)
  | leave (n : Nat) (k : Rank) (s : State) : s.ranks[n]? = some k → k.state = .eligible →
      Move s (freeRank n k.request.initiator s)
  | leaveIssued (n : Nat) (k : Rank) (targets : List (Piece × Address)) (s : State) : s.ranks[n]? = some k →
      k.state = .eligible → s.transit.length + targets.length ≤ Config.transitEntries →
      Move s (freeRank n k.request.initiator (claimEntries k.request k.decoded.region targets s))
  | parkAgain (n : Nat) (k : Rank) (reason : WaitReason) (s : State) : s.ranks[n]? = some k → k.state = .eligible →
      reason ≠ .order → Move s (parkAgain n reason s)
  | beginDrain (s : State) : s.draining = false → Move s (beginDrain s)
  | endDrain (s : State) : s.draining = true → quiescent s = true → Move s (endDrain s)
  | hardReset (cause : ResetCause) (line : Level) (s : State) : Move s (hardReset cause line s)

/-- Any number of moves, one after another. -/
abbrev Moves : State → State → Prop := Relation.ReflTransGen Move

theorem Moves.one {s t : State} (h : Move s t) : Moves s t := .single h

/-- A property that every move keeps is kept by any number of them. -/
theorem Moves.keeps {P : State → Prop} (hP : ∀ s t, Move s t → P s → P t) {s t : State} (h : Moves s t) (hs : P s) :
    P t := by
  induction h with
  | refl => exact hs
  | tail _ m ih => exact hP _ _ m ih

/-! ## The Epoch Unit's transitions as moves -/

theorem setDomainState_same (d : DomainId) (st : DomainState) (s : State) :
    domainState d (setDomainState d st s) = st := by
  simp [domainState]

theorem enterPublish_moves {d : DomainId} {s : State} (h : domainState d s = .committing .drain)
    (k : commitDrained d s = true) : Moves s (enterPublish d s) :=
  .one (.publish d s (.inl ⟨h, k⟩))

theorem testCommitDrain_moves (d : DomainId) (s : State) : Moves s (testCommitDrain d s) := by
  unfold testCommitDrain
  split
  · rename_i h
    exact (Moves.one (.wakeDomain d s)).trans (enterPublish_moves h.1 h.2)
  · exact .refl

theorem testRollbackDrain_moves (d : DomainId) (s : State) : Moves s (testRollbackDrain d s) := by
  unfold testRollbackDrain
  split
  · rename_i h
    exact .one (.discard d s h.1 h.2)
  · exact .refl

theorem testDrain_moves (d : DomainId) (s : State) : Moves s (testDrain d s) := by
  unfold testDrain
  split
  · exact testCommitDrain_moves d s
  · exact testRollbackDrain_moves d s
  all_goals exact .refl

theorem enterCommit_moves {d : DomainId} {s : State} (h : inEpoch d s = true) : Moves s (enterCommit d s) :=
  (Moves.one (.startCommit d s h)).trans (testCommitDrain_moves d _)

theorem enterRollback_moves {d : DomainId} {s : State} (h : inEpoch d s = true) : Moves s (enterRollback d s) :=
  (Moves.one (.startRollback d s h)).trans (testRollbackDrain_moves d _)

theorem causeCommit_moves (d : DomainId) (s : State) : Moves s (causeCommit d s) := by
  unfold causeCommit
  split
  · exact enterCommit_moves ‹_›
  · exact .refl

theorem causeRollback_moves (d : DomainId) (s : State) : Moves s (causeRollback d s) := by
  unfold causeRollback
  split
  · exact enterRollback_moves ‹_›
  · exact .refl

theorem reportViolation_moves (d : DomainId) (s : State) : Moves s (reportViolation d s) := by
  unfold reportViolation
  split
  · exact causeRollback_moves d s
  · exact .refl

theorem reportOverflow_moves (d : DomainId) (s : State) : Moves s (reportOverflow d s) := by
  unfold reportOverflow
  split
  · exact causeRollback_moves d s
  · exact .refl

/-! ## The evaluation of a request as moves -/

/-- What one piece's translation does: moves, and an outcome that is never to wait with reason ORDER. -/
theorem translatePiece_moves (kind : Kind) (w : WindowId) (d : DomainId) (p : Piece) {s : State} (he : evaluates s) :
    Moves s (translatePiece kind w d p s).2 ∧ (translatePiece kind w d p s).1 ≠ .park .order := by
  have look : ∀ (kind' : Kind) (onWrite : CacheEntry → State → PieceOutcome × State),
      (∀ c, findChange c.window c.tile s = none → Moves s (onWrite c s).2 ∧ (onWrite c s).1 ≠ .park .order) →
      Moves s (lookup kind' w p onWrite s).2 ∧ (lookup kind' w p onWrite s).1 ≠ .park .order := by
    intro kind' onWrite h
    unfold lookup
    split
    · refine ⟨.refl, ?_⟩
      unfold routeChanged
      split <;> simp
    · rename_i hc
      split
      · exact ⟨.one (.postWalk w p.tile s he), by simp⟩
      · rename_i c hcache
        have hk := List.find?_some hcache
        simp only [cacheKey, decide_eq_true_eq] at hk
        split
        · exact ⟨.refl, by simp⟩
        · split
          · exact h c (by rw [hk.1, hk.2]; exact hc)
          · exact ⟨.refl, by simp⟩
  have first : inEpoch d s = true → ∀ c, findChange c.window c.tile s = none →
      Moves s (firstWrite d c s).2 ∧ (firstWrite d c s).1 ≠ .park .order := by
    intro hd c hc
    unfold firstWrite
    split
    · exact ⟨.refl, by simp⟩
    · rename_i hq
      split
      · exact ⟨.refl, by simp⟩
      · rename_i hl
        split
        · exact ⟨.refl, by simp⟩
        · rename_i f fs hf
          split
          · exact ⟨.refl, by simp⟩
          · rename_i k hk
            exact ⟨.one (.createEntry d c f k s hd hc (by simpa using hq) (by omega) (by simp [hf]) hk he), by simp⟩
  unfold translatePiece
  split
  · refine look _ _ fun c _ => ?_
    unfold closedWrite
    split <;> exact ⟨.refl, by simp⟩
  · rename_i hd
    exact look _ _ (first (by simp [inEpoch, hd]))
  · rename_i hd
    exact look _ _ (first (by simp [inEpoch, hd]))
  · exact look _ _ fun c _ => ⟨.refl, by simp⟩
  all_goals exact ⟨.refl, by simp⟩

theorem evaluates_of_lookup {s t : State} (h : LookupFrame s t) (he : evaluates s) : evaluates t := by
  unfold evaluates at *
  rw [h.draining, h.ranks]
  exact he

theorem translatePieces_moves (kind : Kind) (w : WindowId) (d : DomainId) (ps : List Piece) {s : State}
    (he : evaluates s) : Moves s (translatePieces kind w d ps s).2 ∧
      (translatePieces kind w d ps s).1 ≠ .park .order := by
  induction ps generalizing s with
  | nil => exact ⟨.refl, by simp [translatePieces]⟩
  | cons p ps ih =>
    obtain ⟨h, hn⟩ := translatePiece_moves kind w d p he
    have hf := translatePiece_frame kind w d p s
    unfold translatePieces
    split
    · rename_i heq; rw [heq] at h hn; exact ⟨h, by simpa using hn⟩
    · rename_i heq; rw [heq] at h; exact ⟨h, by simp⟩
    · rename_i s₁ heq
      rw [heq] at h hf
      obtain ⟨k, kn⟩ := ih (evaluates_of_lookup hf he)
      split
      · rename_i heq₂; rw [heq₂] at k; exact ⟨h.trans k, by simp⟩
      · rename_i heq₂; rw [heq₂] at k kn; exact ⟨h.trans k, by simpa using kn⟩
      · rename_i heq₂; rw [heq₂] at k; exact ⟨h.trans k, by simp⟩

theorem evaluate_moves (r : Request) (dec : Decoded) {s : State} (he : evaluates s) :
    Moves s (evaluate r dec s).2 ∧ (evaluate r dec s).1 ≠ .park .order := by
  unfold evaluate
  split
  · exact translatePieces_moves _ _ _ _ he
  all_goals exact ⟨.refl, by simp⟩

theorem sendResponse_moves (a : Response) (s : State) : Moves s (sendResponse a s) :=
  .one (.outside (by constructor <;> rfl))

theorem takeViolation_moves (r : Request) (region : Region) (s : State) : Moves s (takeViolation r region s) := by
  have h : Moves s (applyPolicy r.initiator s) := .one (.outside (by constructor <;> simp))
  unfold takeViolation
  dsimp only
  split
  · exact h.trans (reportViolation_moves _ _)
  all_goals exact h

theorem refuseTranslated_moves (r : Request) (region : Region) (code : FaultCode) (s : State) :
    Moves s (refuseTranslated r region code s) := by
  have h : Moves s (reportFault (requestFault code r (regionWindow region) (regionDomain region)
      (sendResponse (plainResponse r .refused false) s)) (sendResponse (plainResponse r .refused false) s)) :=
    (sendResponse_moves _ s).tail (.report _ _)
  have k : ∀ t, Moves t (if isViolation code then takeViolation r region t else t) := by
    intro t
    split
    · exact takeViolation_moves r region t
    · exact .refl
  unfold refuseTranslated
  dsimp only
  split
  · split
    · exact (h.trans (k _)).trans (reportOverflow_moves _ _)
    · exact h.trans (k _)
  · exact h.trans (k _)

/-! ## Ranks while a request is evaluated -/

/-- The ranks are as they were, but that some that waited for their domain are ELIGIBLE. -/
def RanksWoken (s t : State) : Prop :=
  List.Forall₂ (fun a b : Rank => b = a ∨ (a.state = .parked .domain ∧ b = { a with state := .eligible }))
    s.ranks t.ranks

theorem RanksWoken.of_eq {s t : State} (h : t.ranks = s.ranks) : RanksWoken s t := by
  unfold RanksWoken
  rw [h]
  exact List.forall₂_same.mpr fun _ _ => .inl rfl

theorem RanksWoken.trans {s t u : State} (h : RanksWoken s t) (k : RanksWoken t u) : RanksWoken s u := by
  unfold RanksWoken at *
  generalize s.ranks = l, t.ranks = m, u.ranks = n at h k
  induction h generalizing n with
  | nil => cases k; exact .nil
  | cons hab _ ih =>
    cases k with
    | cons hbc hrest =>
      refine .cons ?_ (ih _ hrest)
      rcases hab with rfl | ⟨ha, rfl⟩
      · exact hbc
      · rcases hbc with rfl | ⟨hb, rfl⟩
        · exact .inr ⟨ha, rfl⟩
        · simp at hb

theorem endDomainWaits_woken (d : DomainId) (s : State) : RanksWoken s (endDomainWaits d s) := by
  unfold RanksWoken
  rw [endDomainWaits_ranks, List.forall₂_map_right_iff]
  refine List.forall₂_same.mpr fun k _ => ?_
  unfold wake
  split
  · rename_i h
    right
    simp only [parkedOnDomain, parkedOn, Bool.and_eq_true, decide_eq_true_eq] at h
    exact ⟨h.1, rfl⟩
  · exact .inl rfl

theorem discardDomain_woken (d : DomainId) (s : State) : RanksWoken s (discardDomain d s) :=
  RanksWoken.trans (RanksWoken.of_eq (by simp)) (endDomainWaits_woken d _)

theorem causeRollback_woken (d : DomainId) (s : State) : RanksWoken s (causeRollback d s) := by
  unfold causeRollback
  split
  · unfold enterRollback testRollbackDrain
    split
    · exact RanksWoken.trans (RanksWoken.of_eq (by simp)) (discardDomain_woken d _)
    · exact RanksWoken.of_eq (by simp)
  · exact RanksWoken.of_eq rfl

theorem takeViolation_woken (r : Request) (region : Region) (s : State) :
    RanksWoken s (takeViolation r region s) := by
  unfold takeViolation reportViolation
  dsimp only
  split
  · split
    · exact RanksWoken.trans (RanksWoken.of_eq (by simp)) (causeRollback_woken _ _)
    · exact RanksWoken.of_eq (by simp)
  all_goals exact RanksWoken.of_eq (by simp)

theorem refuseTranslated_woken (r : Request) (region : Region) (code : FaultCode) (s : State) :
    RanksWoken s (refuseTranslated r region code s) := by
  have k : ∀ t, RanksWoken t (if isViolation code then takeViolation r region t else t) := by
    intro t
    split
    · exact takeViolation_woken r region t
    · exact RanksWoken.of_eq rfl
  have o : ∀ d t, RanksWoken t (reportOverflow d t) := by
    intro d t
    unfold reportOverflow
    split
    · exact causeRollback_woken d t
    · exact RanksWoken.of_eq rfl
  have h : ∀ f a, RanksWoken s (reportFault f (sendResponse a s)) := fun f a => RanksWoken.of_eq (by simp)
  unfold refuseTranslated
  dsimp only
  split
  · split
    · exact ((h _ _).trans (k _)).trans (o _ _)
    · exact (h _ _).trans (k _)
  · exact (h _ _).trans (k _)

/-- An ELIGIBLE rank stays where it is while ranks that wait for a domain are woken. -/
theorem RanksWoken.eligible {s t : State} (h : RanksWoken s t) {n : Nat} {k : Rank} (hk : s.ranks[n]? = some k)
    (he : k.state = .eligible) : t.ranks[n]? = some k := by
  unfold RanksWoken at h
  have hl := h.length_eq
  obtain ⟨hn, rfl⟩ := List.getElem?_eq_some_iff.mp hk
  have := List.Forall₂.get h hn (hl ▸ hn)
  simp only [List.get_eq_getElem] at this
  rw [List.getElem?_eq_getElem (hl ▸ hn)]
  rcases this with h | ⟨h, _⟩
  · rw [h]
  · rw [h] at he
    cases he

/-! ## A rank's leaving and an arrival as moves -/

theorem leaveRank_moves {n : Nat} {k : Rank} {s : State} (hk : s.ranks[n]? = some k) (hel : k.state = .eligible) :
    Moves s (leaveRank n k s) := by
  have he : evaluates s := .inr fun h => by simp [h] at hk
  obtain ⟨h, hn⟩ := evaluate_moves k.request k.decoded he
  have hf := evaluate_frame k.request k.decoded s
  unfold leaveRank settle
  rcases hev : evaluate k.request k.decoded s with ⟨v, s₁⟩
  rw [hev] at h hn hf
  dsimp only at h hn hf
  have hk₁ : s₁.ranks[n]? = some k := by rw [hf.ranks]; exact hk
  cases v with
  | forward targets =>
    dsimp only
    split
    · rename_i heq
      split at heq
      · rename_i hlen
        cases heq
        exact h.tail (.leaveIssued n k targets s₁ hk₁ hel hlen)
      · cases heq
    · rename_i heq
      split at heq
      · cases heq
      · cases heq
        exact h.tail (.parkAgain n k _ s₁ hk₁ hel (by simp))
  | park reason =>
    dsimp only
    exact h.tail (.parkAgain n k reason s₁ hk₁ hel (by simpa using hn))
  | refuse code =>
    dsimp only
    exact (h.trans (refuseTranslated_moves _ _ _ _)).tail (.leave n k _ ((refuseTranslated_woken k.request k.decoded.region code s₁).eligible hk₁ hel) hel)

theorem refuseIntake_moves (r : Request) (f : IntakeRefusal) (s : State) : Moves s (refuseIntake r f s) := by
  have h : Moves s (reportFault (requestFault f.code r f.window f.domain
      (sendResponse (plainResponse r .refused (decide (f.code = .dupTag))) s))
      (sendResponse (plainResponse r .refused (decide (f.code = .dupTag))) s)) :=
    (sendResponse_moves _ s).tail (.report _ _)
  unfold refuseIntake
  dsimp only
  split
  · exact h.trans (takeViolation_moves _ _ _)
  · exact h

theorem takeIn_moves (r : Request) (dec : Decoded) {s : State} (ha : accepting s = true)
    (hp : pairInUse r.initiator r.tag s = false) : Moves s (takeIn r dec s) := by
  have hd : s.draining = false := by
    simp only [accepting, Bool.and_eq_true, Bool.not_eq_true'] at ha
    exact ha.2
  have he : evaluates s := .inl hd
  obtain ⟨h, hn⟩ := evaluate_moves r dec he
  have hf := evaluate_frame r dec s
  unfold takeIn
  split
  · rename_i hr
    exact .one (.park r dec .order s ha hp (by simp [hr]))
  · rename_i hr
    unfold settle
    rcases hev : evaluate r dec s with ⟨v, s₁⟩
    rw [hev] at h hn hf
    dsimp only at h hn hf
    have hp₁ : pairInUse r.initiator r.tag s₁ = false := by
      unfold pairInUse at *
      rw [hf.ranks, hf.transit]
      exact hp
    have ha₁ : accepting s₁ = true := by
      unfold accepting at *
      rw [hf.ranks, hf.draining]
      exact ha
    have hr₁ : ¬ hasRank r.initiator s₁ = true := by
      unfold hasRank at *
      rw [hf.ranks]
      exact hr
    cases v with
    | forward targets =>
      dsimp only
      split
      · rename_i heq
        split at heq
        · rename_i hlen
          cases heq
          exact h.tail (.issue r dec.region targets s₁ hp₁ (by rw [hf.draining]; exact hd) hlen)
        · cases heq
      · rename_i heq
        split at heq
        · cases heq
        · cases heq
          exact h.tail (.park r dec _ s₁ ha₁ hp₁ (by simp [hr₁]))
    | park reason =>
      dsimp only
      refine h.tail (.park r dec reason s₁ ha₁ hp₁ ?_)
      simp only [hr₁]
      simpa using hn
    | refuse code =>
      dsimp only
      exact h.trans (refuseTranslated_moves _ _ _ _)

theorem arrive_moves (r : Request) {s : State} (ha : accepting s = true) : Moves s (arrive r s) := by
  unfold arrive
  split
  · exact refuseIntake_moves _ _ _
  · rename_i dec hc _
    have hp : pairInUse r.initiator r.tag s = false := by
      unfold intakeChecks at hc
      split at hc
      · cases hc
      · simpa using ‹¬ pairInUse r.initiator r.tag s = true›
    unfold snoopInvalidate
    split
    · exact takeIn_moves r _ ha hp
    · refine (Moves.one (.dropCache _ s)).trans (takeIn_moves r _ ?_ ?_)
      · simpa [accepting] using ha
      · simpa [pairInUse] using hp
  · exact .refl

end Sys2Proof.Machine
end

