-- ==== Sys2Proof/Laws/Commands.lean ====
section
/-! SUPPORT. Every command is a sequence of moves (`exec_moves`), and so is every step (`step_moves`). -/

namespace Sys2Proof.Machine

theorem endDrainIfDone_moves (s : State) : Moves s (endDrainIfDone s) := by
  unfold endDrainIfDone
  split
  · rename_i h
    simp only [Bool.and_eq_true] at h
    exact .one (.endDrain s h.1 h.2)
  · exact .refl

/-! ## Grants -/

theorem sendOperation_moves (o : PortOperation) (s : State) : Moves s (sendOperation o s) :=
  .one (.outside (by constructor <;> rfl))

theorem grantWalker_moves {tag : LinkTag} {s : State} (hb : walkerBusy s = false) (hd : s.draining = false)
    (ht : tag ∉ s.abandoned) :
    Moves s (grantWalker tag s) := by
  unfold grantWalker
  split
  · exact (Moves.one (.issueWalk tag s hb hd ht)).trans (sendOperation_moves _ _)
  · split
    · exact .refl
    · rename_i p e hp
      exact (Moves.one (.publishGrant tag p e _ s hb hd hp ht)).trans (sendOperation_moves _ _)

theorem grantForwarded_moves {tag : LinkTag} {s : State} (ht : tag ∉ s.abandoned) : Moves s (grantForwarded tag s) := by
  unfold grantForwarded
  split
  · exact .refl
  · refine (Moves.one (.forward tag s ht)).tail (.outside ?_)
    constructor <;> simp

theorem lowestHeld_fits (tag : LinkTag) (c : CopyJob) (a : CopyAction) (h : readyOperation c = some a) :
    sameCopy c (afterSend tag c a) ∧ (chunksFit c → chunksFit (afterSend tag c a)) := by
  unfold readyOperation at h
  split at h
  · cases h
  · split at h
    · cases h
      exact ⟨⟨rfl, rfl, rfl, rfl⟩, fun k => ⟨by simpa [afterSend] using k.1, k.2⟩⟩
    · split at h
      · rename_i hc
        cases h
        refine ⟨⟨rfl, rfl, rfl, rfl⟩, fun k => ⟨?_, ?_⟩⟩
        · simp only [afterSend, List.length_append, List.length_singleton]
          omega
        · simp only [afterSend]
          omega
      · cases h

/-- What a slot sends goes under the tag given, and its other tags are those it had. -/
theorem afterSend_tags {tag : LinkTag} {s : State} (ht : tag ∉ s.abandoned) (c : CopyJob) (a : CopyAction) :
    tagsFit s c (afterSend tag c a) := by
  intro x hx t hxt
  cases a with
  | readChunk number =>
    simp only [afterSend, List.mem_append, List.mem_singleton] at hx
    rcases hx with hx | rfl
    · exact .inr ⟨x, hx, hxt⟩
    · simp only [chunkTag, Option.some.injEq] at hxt
      exact .inl (hxt ▸ ht)
  | writeChunk number data =>
    simp only [afterSend, List.mem_map] at hx
    obtain ⟨y, hy, rfl⟩ := hx
    split at hxt
    · simp only [chunkTag, Option.some.injEq] at hxt
      exact .inl (hxt ▸ ht)
    · exact .inr ⟨y, hy, hxt⟩

theorem grantSlot_moves (k : SlotId) {tag : LinkTag} {s : State} (ht : tag ∉ s.abandoned) : Moves s (grantSlot k tag s) := by
  unfold grantSlot
  split
  · exact .refl
  · rename_i c hc
    split
    · exact .refl
    · rename_i a ha
      obtain ⟨hs, hf⟩ := lowestHeld_fits tag c a ha
      refine (Moves.one (.copyGoesOn k c _ s hc hs hf (afterSend_tags ht c a))).tail (.outside ?_)
      constructor <;> simp

theorem grant_moves {tag : LinkTag} {s : State} {q : Requester} (h : arbitrate s = some q) (ht : tag ∉ s.abandoned) :
    Moves s (grant tag s q) := by
  unfold grant
  split
  · have hw : walkerWaits s = true := by
      unfold arbitrate at h
      split at h
      · cases h
      · split at h
        · assumption
        · split at h
          · cases h
          · split at h <;> cases h
    simp only [walkerWaits, Bool.and_eq_true, Bool.not_eq_true'] at hw
    exact grantWalker_moves hw.1.1 hw.1.2 ht
  · exact grantForwarded_moves ht
  · exact grantSlot_moves _ ht

/-! ## The completion of a walk -/

theorem reportFaults_moves (fs : List FaultReport) (s : State) : Moves s (reportFaults fs s) := by
  induction fs generalizing s with
  | nil => exact .refl
  | cons f fs ih => exact (Moves.one (.report f s)).trans (ih _)

theorem completeWalk_moves (j : WalkJob) (status : Completion) (entry : Beat) (s : State) :
    Moves s (completeWalk j status entry s) := by
  unfold completeWalk
  dsimp only
  split
  · split
    · exact (Moves.one (.fill _ s)).tail (.wakeWalk j.window j.tile _)
    · exact (Moves.one (.answerWalk j.window j.tile .refused s)).trans (reportFaults_moves _ _)
  · exact ((Moves.one (.answerWalk j.window j.tile .failed s)).tail (.report _ _)).tail (.flush _)

/-! ## The completion of a publish write -/

theorem publish_moves {p : PublishWrite} (status : Completion) {s : State} (h : s.publishWrite = some p) :
    Moves s (continuePass p.domain (publishOutcome p status { s with publishWrite := none })) := by
  unfold publishOutcome
  split
  · split
    · rename_i e _
      have swap : publishToCache e (setEntryState p.window p.tile .published { s with publishWrite := none }) =
          setEntryState p.window p.tile .published { publishToCache e s with publishWrite := none } := by
        dsimp only [publishToCache, setEntryState]
      rw [swap]
      exact (Moves.one (.publishCache e s)).tail (.publishOk p _ (by simpa using h))
    · exact .one (.publishEnd p s h)
  · rw [show ∀ f, reportFault f { s with publishWrite := none } = { reportFault f s with publishWrite := none } from
      fun f => by dsimp only [reportFault]]
    exact (Moves.one (.report _ s)).tail (.publishEnd p _ (by simpa using h))

/-! ## The completion of a chunk operation -/

theorem failCopy_moves {k : SlotId} {c c' : CopyJob} {s : State} (hc : s.slots[k] = some c) (hs : sameCopy c c') :
    Moves s (failCopy k c' s) := by
  unfold failCopy
  split
  · rename_i e he
    dsimp only
    refine Relation.ReflTransGen.trans ?_ (testDrain_moves _ _)
    exact (Moves.one (.copyFailed k c c' e s hc hs he)).tail (.report _ _)
  · rename_i he
    exact .one (.copyLost k c c' s hc hs he)

theorem completeCopy_moves {k : SlotId} {c c' : CopyJob} {s : State} (hc : s.slots[k] = some c) (hs : sameCopy c c') :
    Moves s (completeCopy k c' s) := by
  unfold completeCopy
  dsimp only
  split
  · exact (Moves.one (.copyDone k c c' s hc hs)).trans (testDrain_moves _ _)
  · exact .one (.copyDone k c c' s hc hs)

theorem setChunkPhase_fits (tag : LinkTag) (phase : ChunkPhase) (c : CopyJob) :
    sameCopy c (setChunkPhase tag phase c) ∧ (chunksFit c → chunksFit (setChunkPhase tag phase c)) :=
  ⟨⟨rfl, rfl, rfl, rfl⟩, fun k => ⟨by simpa [setChunkPhase] using k.1, k.2⟩⟩

/-- A chunk that is held or has ended has no tag, and the other chunks keep theirs. -/
theorem setChunkPhase_tags (tag : LinkTag) {phase : ChunkPhase} (h : ∀ n, chunkTag { number := n, phase := phase } = none)
    (c : CopyJob) (s : State) : tagsFit s c (setChunkPhase tag phase c) := by
  intro x hx t hxt
  simp only [setChunkPhase, List.mem_map] at hx
  obtain ⟨y, hy, rfl⟩ := hx
  split at hxt
  · exact absurd hxt (by simp [h y.number])
  · exact .inr ⟨y, hy, hxt⟩

theorem stopCopy_moves {k : SlotId} {c c' : CopyJob} {s : State} (hc : s.slots[k] = some c) (hs : sameCopy c c')
    (hf : chunksFit c → chunksFit c') (ht : tagsFit s c c') : Moves s (stopCopy k c' s) := by
  unfold stopCopy
  split
  · exact failCopy_moves hc hs
  · exact .one (.copyGoesOn k c c' s hc hs hf ht)

theorem completeChunk_moves {k : SlotId} {c : CopyJob} {s : State} (tag : LinkTag) (chunk : ChunkInProgress)
    (status : Completion) (data : Chunk) (hc : s.slots[k] = some c) :
    Moves s (completeChunk k c tag chunk status data s) := by
  unfold completeChunk
  split
  · obtain ⟨hs, hf⟩ := setChunkPhase_fits tag .ended c
    exact stopCopy_moves hc hs hf (setChunkPhase_tags tag (fun _ => rfl) c s)
  · split
    · obtain ⟨hs, hf⟩ := setChunkPhase_fits tag .ended c
      exact stopCopy_moves hc hs hf (setChunkPhase_tags tag (fun _ => rfl) c s)
    · split
      · obtain ⟨hs, hf⟩ := setChunkPhase_fits tag (.held data) c
        exact .one (.copyGoesOn k c _ s hc hs hf (setChunkPhase_tags tag (fun _ => rfl) c s))
      · have hs : sameCopy c (finishChunk tag c) := ⟨rfl, rfl, rfl, rfl⟩
        have hf : chunksFit c → chunksFit (finishChunk tag c) := fun h =>
          ⟨(List.length_filter_le _ _).trans h.1, h.2⟩
        dsimp only
        split
        · exact completeCopy_moves hc hs
        · exact .one (.copyGoesOn k c _ s hc hs hf fun x hx t hxt => .inr ⟨x, List.mem_of_mem_filter hx, hxt⟩)
      all_goals exact .refl

/-- The slot that a chunk's completion belongs to holds the copy it is given. -/
theorem findChunk_slot {tag : LinkTag} {s : State} {k : SlotId} {c : CopyJob} {chunk : ChunkInProgress}
    (h : findChunk tag s = some (k, c, chunk)) : s.slots[k] = some c := by
  unfold findChunk at h
  obtain ⟨k', _, hk⟩ := List.exists_of_findSome?_eq_some h
  simp only [Option.bind_eq_some_iff, Option.map_eq_some_iff, Prod.mk.injEq] at hk
  obtain ⟨c', hc, _, _, rfl, rfl, rfl⟩ := hk
  exact hc

/-! ## The completion of a forwarded operation -/

theorem tellFreed_moves (e : TransitEntry) (s : State) : Moves s (tellFreed e s) := by
  unfold tellFreed
  split
  · exact .refl
  · split
    · exact testDrain_moves _ s
    · exact testRollbackDrain_moves _ s

theorem completeTransit_moves (e : TransitEntry) (tag : LinkTag) (status : Completion) (beats : List Beat) (s : State) :
    Moves s (completeTransit e tag status beats s) := by
  unfold completeTransit
  dsimp only
  refine Relation.ReflTransGen.trans ?_ (tellFreed_moves _ _)
  have answer : ∀ u, Moves (endWaits (parkedOn .transit) u) (endWaits (parkedOn .transit) (answerPiece e status beats u)) :=
    fun u => .one (.outside (by unfold answerPiece; split <;> constructor <;> simp))
  refine Relation.ReflTransGen.trans ?_ (answer _)
  unfold reportMemory
  split
  · exact Moves.one (.freeTransit tag s)
  · exact (Moves.one (.freeTransit tag s)).tail (.report _ _)

/-! ## Timers -/

theorem foldl_moves (f : State → DomainId → State) (h : ∀ s d, Moves s (f s d)) (ds : List DomainId) (s : State) :
    Moves s (ds.foldl f s) := by
  induction ds generalizing s with
  | nil => exact .refl
  | cons d ds ih => exact (h s d).trans (ih _)

theorem expire_moves (d : DomainId) (s : State) : Moves s (expire d s) := by
  have h : Moves s (setLatch (.deadline d) (setDeadline d { value := 0, running := false } s)) :=
    (Moves.one (.stopAtZero d s)).tail (.outside (by constructor <;> simp))
  unfold expire
  dsimp only
  split
  · exact h
  · exact h.trans (causeCommit_moves _ _)
  · exact h.trans (causeRollback_moves _ _)

theorem tickCounter_moves (d : DomainId) (s : State) : Moves s (tickCounter d s) := by
  unfold tickCounter
  dsimp only
  split
  · split
    · exact expire_moves d s
    · exact .one (.lowerDeadline d s (by omega))
  · exact .refl

theorem takeTick_moves (order : List DomainId) (s : State) : Moves s (takeTick order s) :=
  (Moves.one (.divider 0 s (Nat.two_pow_pos _))).trans (foldl_moves _ (fun s d => tickCounter_moves d s) _ _)

theorem deliverMark_moves (d : DomainId) (s : State) : Moves s (deliverMark d s) := by
  unfold deliverMark
  split
  · rename_i h
    exact enterCommit_moves (by simp [inEpoch, h])
  · rename_i h
    split
    · exact enterCommit_moves (by simp [inEpoch, h])
    · exact .refl
  all_goals exact .refl

theorem takeMark_moves (order : List DomainId) (s : State) : Moves s (takeMark order s) :=
  (Moves.one (.outside (by constructor <;> rfl))).trans (foldl_moves _ (fun s d => deliverMark_moves d s) _ _)

theorem refclkPeriod_moves (s : State) : Moves s (refclkPeriod s) := by
  unfold refclkPeriod
  split
  · exact .one (.divider _ s ‹_›)
  · exact takeTick_moves [] s

/-! ## Commands and setting writes -/

theorem setResult_moves (result : ResultCode) (code : Byte) (s : State) : Moves s (setResult result code s) :=
  .one (.outside (by constructor <;> rfl))

theorem takeCommand_moves (code : Byte) (decide_ : State → ResultCode × State) (s : State)
    (h : s.draining = false → Moves s (decide_ s).2) : Moves s (takeCommand code decide_ s) := by
  unfold takeCommand
  split
  · exact setResult_moves _ _ _
  · exact (h (by simpa using ‹¬ s.draining = true›)).trans (setResult_moves _ _ _)

theorem setLastWrite_moves (status : WriteStatus) (s : State) : Moves s (setLastWrite status s) :=
  .one (.outside (by constructor <;> rfl))

theorem writeWindow_moves (w : WindowId) (word : WindowWord) (data : Word) (s : State) :
    Moves s (writeWindow w word data s) := by
  unfold writeWindow
  split
  · exact setLastWrite_moves _ _
  · rename_i new hn
    split
    · rename_i hw
      exact ((Moves.one (.window w word data new s hn hw)).tail (.dropCache _ _)).trans (setLastWrite_moves _ _)
    · exact setLastWrite_moves _ _

theorem writeDomainSetting_moves (d : DomainId) (word : DomainWord) (data : Word) (s : State) :
    Moves s (writeDomainSetting d word data s) := by
  unfold writeDomainSetting
  split
  · exact setLastWrite_moves _ _
  · rename_i new hn
    split
    · rename_i hd
      exact (Moves.one (.settings d word data new s hn hd.1)).trans (setLastWrite_moves _ _)
    · exact setLastWrite_moves _ _

theorem writeInitiator_moves (i : InitiatorId) (word : InitiatorWord) (data : Word) (s : State) :
    Moves s (writeInitiator i word data s) := by
  unfold writeInitiator
  split
  · exact setLastWrite_moves _ _
  · split
    · exact setLastWrite_moves _ _
    · exact .one (.outside (by constructor <;> simp))

theorem writePoolThreshold_moves (data : Word) (s : State) : Moves s (writePoolThreshold data s) := by
  unfold writePoolThreshold
  split
  · exact .one (.outside (by constructor <;> simp))
  · exact setLastWrite_moves _ _

theorem writeTimebase_moves (data : Word) (s : State) : Moves s (writeTimebase data s) := by
  unfold writeTimebase
  split
  · refine (Moves.one (.timebase (data.extractLsb' 0 4) s)).tail (.outside ?_)
    constructor <;> simp
  · exact setLastWrite_moves _ _

theorem writeLatches_moves (data : Word) (s : State) : Moves s (writeLatches data s) := by
  unfold writeLatches
  split
  · exact .one (.outside (by constructor <;> simp))
  · exact setLastWrite_moves _ _

theorem writeEnables_moves (data : Word) (s : State) : Moves s (writeEnables data s) := by
  unfold writeEnables
  split
  · exact .one (.outside (by constructor <;> simp))
  · exact setLastWrite_moves _ _

theorem writeArgument0_moves (data : Word) (s : State) : Moves s (writeArgument0 data s) := by
  unfold writeArgument0
  split
  · exact setLastWrite_moves _ _
  · exact .one (.outside (by constructor <;> simp))

theorem writeArgument1_moves (data : Word) (s : State) : Moves s (writeArgument1 data s) := by
  unfold writeArgument1
  split
  · exact .one (.outside (by constructor <;> simp))
  · exact setLastWrite_moves _ _

theorem writeWord_moves (offset : Offset) (data : Word) (s : State) : Moves s (writeWord offset data s) := by
  unfold writeWord
  split
  · exact writeArgument0_moves data s
  · exact writeArgument1_moves data s
  · exact writeLatches_moves data s
  · exact writeEnables_moves data s
  · exact writePoolThreshold_moves data s
  · exact writeTimebase_moves data s
  · exact writeDomainSetting_moves _ _ data s
  · exact writeWindow_moves _ _ data s
  · exact writeInitiator_moves _ _ data s
  all_goals exact setLastWrite_moves _ _

theorem openCommand_moves (d : DomainId) (s : State) : Moves s (takeCommand 0x01 (decideOpen d) s) := by
  refine takeCommand_moves _ _ s fun _ => ?_
  unfold decideOpen
  split
  · exact .one (.openDomain d s ‹_›)
  all_goals exact .refl

theorem commitCommand_moves (d : DomainId) (s : State) : Moves s (takeCommand 0x02 (decideCommit d) s) := by
  refine takeCommand_moves _ _ s fun _ => ?_
  unfold decideCommit
  split
  · rename_i h
    exact enterCommit_moves (by simp [inEpoch, h])
  · rename_i h
    exact enterCommit_moves (by simp [inEpoch, h])
  · exact .one (.publish d s (.inr ‹_›))
  all_goals exact .refl

theorem commitAtMarkCommand_moves (d : DomainId) (s : State) : Moves s (takeCommand 0x03 (decideCommitAtMark d) s) := by
  refine takeCommand_moves _ _ s fun _ => ?_
  unfold decideCommitAtMark
  split
  · exact .one (.arm d s ‹_›)
  all_goals exact .refl

theorem rollbackCommand_moves (d : DomainId) (s : State) : Moves s (takeCommand 0x04 (decideRollback d) s) := by
  refine takeCommand_moves _ _ s fun _ => ?_
  unfold decideRollback
  split
  · rename_i h
    exact enterRollback_moves (by simp [inEpoch, h])
  · rename_i h
    exact enterRollback_moves (by simp [inEpoch, h])
  all_goals exact .refl

theorem poolLoadCommand_moves (s : State) : Moves s (takeCommand 0x10 decidePoolLoad s) := by
  refine takeCommand_moves _ _ s fun _ => ?_
  unfold decidePoolLoad
  split
  · exact .refl
  · split
    · exact .refl
    · rename_i h
      have := Move.poolLoad (poolFrames (poolBase s) (poolCount s)) s (by simpa using h)
      rw [show (poolFrames (poolBase s) (poolCount s)).length = poolCount s by simp [poolFrames]] at this
      exact .one this

theorem flushCommand_moves (s : State) : Moves s (takeCommand 0x11 decideFlushCache s) :=
  takeCommand_moves _ _ s fun _ => .one (.flush s)

theorem clearFaultCommand_moves (s : State) : Moves s (takeCommand 0x12 decideClearFault s) :=
  takeCommand_moves _ _ s fun _ => .one (.clearFault s)

theorem resetAllCommand_moves (s : State) :
    Moves s (if s.draining then takeCommand 0x1F decideResetAll s else resetAll s) := by
  have h : Moves s (takeCommand 0x1F decideResetAll s) := takeCommand_moves _ _ s fun hd => .one (.beginDrain s hd)
  split
  · exact h
  · exact h.trans (endDrainIfDone_moves _)

theorem takeCommandWord_moves (word : Word) {s t : State} (h : takeCommandWord word s = .next t) : Moves s t := by
  unfold takeCommandWord at h
  split at h
  · cases h; exact openCommand_moves _ s
  · cases h; exact commitCommand_moves _ s
  · cases h; exact commitAtMarkCommand_moves _ s
  · cases h; exact rollbackCommand_moves _ s
  · cases h; exact poolLoadCommand_moves s
  · cases h; exact flushCommand_moves s
  · cases h; exact clearFaultCommand_moves s
  · cases h; exact resetAllCommand_moves s
  · cases h; exact setResult_moves _ _ s

/-! ## Every command -/

/-- What a command does is a sequence of moves. -/
theorem exec_moves {c : Instr} {s t : State} (h : exec c s = .next t) : Moves s t := by
  cases c with
  | powerOnReset line => cases h; exact .one (.hardReset .power line s)
  | resetNPinReset line => cases h; exact .one (.hardReset .pin line s)
  | upstreamRequest r =>
    cases h
    split
    · rename_i hc
      simp only [Bool.and_eq_true] at hc
      exact arrive_moves r hc.1
    · exact .refl
  | rankLeave n =>
    simp only [exec, execRankLeave] at h
    split at h
    · cases h; exact .refl
    · rename_i k hk
      split at h
      · cases h; exact leaveRank_moves hk ‹_›
      · cases h; exact .refl
  | memoryPortGrant tag =>
    simp only [exec, execMemoryPortGrant] at h
    split at h
    · cases h; exact .refl
    · split at h
      · cases h; exact .refl
      · cases h; exact grant_moves ‹_› (by simp_all [tagHeld])
  | walkCompletion tag status entry =>
    simp only [exec, execWalkCompletion] at h
    split at h
    · cases h; exact .one (.abandonedReturns tag s)
    split at h
    · cases h; exact .refl
    · cases h; exact (completeWalk_moves _ status entry s).trans (endDrainIfDone_moves _)
  | publishWriteCompletion tag status =>
    simp only [exec, execPublishWriteCompletion] at h
    split at h
    · cases h; exact .one (.abandonedReturns tag s)
    split at h
    · cases h; exact .refl
    · split at h
      · cases h; exact (publish_moves status ‹_›).trans (endDrainIfDone_moves _)
      · cases h; exact .refl
  | chunkCompletion tag status data =>
    simp only [exec, execChunkCompletion] at h
    split at h
    · cases h; exact .one (.abandonedReturns tag s)
    split at h
    · cases h; exact .refl
    · rename_i k c chunk hf
      cases h
      exact ((completeChunk_moves tag chunk status data (findChunk_slot hf)).tail
        (.outside (by constructor <;> simp))).trans (endDrainIfDone_moves _)
  | transitCompletion tag status beats =>
    simp only [exec, execTransitCompletion] at h
    split at h
    · cases h; exact .one (.abandonedReturns tag s)
    split at h
    · cases h; exact .refl
    · cases h; exact (completeTransit_moves _ tag status beats s).trans (endDrainIfDone_moves _)
  | tick order => cases h; exact takeTick_moves order s
  | deadlineExpiry d =>
    cases h
    split
    · exact expire_moves d s
    · exact .refl
  | markEvent order =>
    cases h
    split
    · exact takeMark_moves order s
    · exact .refl
  | openDomain d => cases h; exact openCommand_moves d s
  | commit d => cases h; exact commitCommand_moves d s
  | commitAtMark d => cases h; exact commitAtMarkCommand_moves d s
  | rollback d => cases h; exact rollbackCommand_moves d s
  | poolLoad => cases h; exact poolLoadCommand_moves s
  | flushCache => cases h; exact flushCommand_moves s
  | clearFault => cases h; exact clearFaultCommand_moves s
  | resetAll => cases h; exact resetAllCommand_moves s
  | unknownCommand word => exact takeCommandWord_moves word h
  | windowSettingWrite w word data => cases h; exact writeWindow_moves w word data s
  | domainSettingWrite d word data => cases h; exact writeDomainSetting_moves d word data s
  | initiatorSettingWrite i word data => cases h; exact writeInitiator_moves i word data s
  | poolThresholdWrite data => cases h; exact writePoolThreshold_moves data s
  | timebaseAndEdgeWrite data => cases h; exact writeTimebase_moves data s
  | alertLatchesWrite data => cases h; exact writeLatches_moves data s
  | alertEnablesWrite data => cases h; exact writeEnables_moves data s
  | settingWrite offset data =>
    simp only [exec, execSettingWrite] at h
    split at h
    · exact takeCommandWord_moves data h
    · cases h; exact writeWord_moves offset data s
  | softResetDrainEnd => cases h; exact endDrainIfDone_moves s
  | epochLineInactiveChange => cases h; exact .one (.outside (by constructor <;> rfl))

/-- What a step does, once the front command has left the queue, is a sequence of moves. -/
theorem step_moves {s t : State} (h : step s = .next t) : Moves { s with pending := s.pending.tail } t := by
  unfold step at h
  split at h
  · rename_i hp
    cases h
    have : ({ s with pending := s.pending.tail } : State) = s := by rw [hp, List.tail_nil, ← hp]
    rw [this]
    exact refclkPeriod_moves s
  · rename_i c rest hp
    have k := exec_moves h
    rw [hp]
    exact k

/-- A property that every move keeps is kept by every step. -/
theorem step_keeps {P : State → Prop} (hP : ∀ s t, Move s t → P s → P t) {s t : State} (h : step s = .next t)
    (hs : P s) : P t :=
  (step_moves h).keeps hP (hP _ _ (.outside (by constructor <;> rfl)) hs)

end Sys2Proof.Machine
end

