-- ==== Sys2Proof/Laws/Ops.lean ====
section
/-! SUPPORT. Laws of the shared operations that the statements lean on: reading a numbered register after writing one, the
order of change entries by sequence number, the ends of waits, and what the DRAIN conditions look at. -/

namespace Sys2Proof.Machine

/-! ## Numbered registers -/

/-- Reading a register after one is written. -/
theorem vector_set_get {α : Type} {n : Nat} (v : Vector α n) (i j : Fin n) (x : α) :
    (v.set i x)[j] = if i = j then x else v[j] := by
  simp only [Fin.getElem_fin, Vector.getElem_set, Fin.ext_iff]

/-- Every register of a file that holds one value. -/
theorem vector_replicate_get {α : Type} {n : Nat} (x : α) (i : Fin n) : (Vector.replicate n x)[i] = x := by simp

/-- A register of a file given register by register. -/
theorem vector_ofFn_get {α : Type} {n : Nat} (f : Fin n → α) (i : Fin n) : (Vector.ofFn f)[i] = f i := by simp

/-- Two register files are equal when they agree in every register. -/
theorem vector_ext_fin {α : Type} {n : Nat} {v w : Vector α n} (h : ∀ i : Fin n, v[i] = w[i]) : v = w := by
  apply Vector.ext
  intro i hi
  exact h ⟨i, hi⟩

/-- Writing back what a register holds changes nothing. -/
theorem vector_set_same {α : Type} {n : Nat} (v : Vector α n) (i : Fin n) : v.set i v[i] = v := by
  apply vector_ext_fin
  intro j
  rw [vector_set_get]
  split
  · subst_vars; rfl
  · rfl

/-! ## Entries by sequence number (R45) -/

theorem insertBySequence_perm (e : ChangeEntry) (l : List ChangeEntry) : (insertBySequence e l).Perm (e :: l) := by
  induction l with
  | nil => exact .refl _
  | cons x xs ih =>
    simp only [insertBySequence]
    split
    · exact .refl _
    · exact (ih.cons x).trans (.swap ..)

theorem insertBySequence_sorted (e : ChangeEntry) (l : List ChangeEntry)
    (h : l.Pairwise fun a b => a.sequence ≤ b.sequence) :
    (insertBySequence e l).Pairwise fun a b => a.sequence ≤ b.sequence := by
  induction l with
  | nil => simp [insertBySequence]
  | cons x xs ih =>
    rw [List.pairwise_cons] at h
    simp only [insertBySequence]
    split
    · rename_i hx
      refine List.pairwise_cons.mpr ⟨fun y hy => ?_, List.pairwise_cons.mpr h⟩
      rcases List.mem_cons.mp hy with rfl | hy
      · exact hx
      · exact hx.trans (h.1 y hy)
    · rename_i hx
      refine List.pairwise_cons.mpr ⟨fun y hy => ?_, ih h.2⟩
      rcases List.mem_cons.mp ((insertBySequence_perm e xs).mem_iff.mp hy) with rfl | hy
      · omega
      · exact h.1 y hy

/-- The ordered entries are the entries. -/
theorem bySequence_perm (l : List ChangeEntry) : (bySequence l).Perm l := by
  induction l with
  | nil => exact .refl _
  | cons e es ih => exact (insertBySequence_perm e _).trans (ih.cons e)

/-- The ordered entries rise in sequence number. -/
theorem bySequence_sorted (l : List ChangeEntry) : (bySequence l).Pairwise fun a b => a.sequence ≤ b.sequence := by
  induction l with
  | nil => exact .nil
  | cons e es ih => exact insertBySequence_sorted e _ ih

/-- Entries with distinct sequence numbers have one ascending order. -/
theorem bySequence_eq {l es : List ChangeEntry} (hp : es.Perm l)
    (hs : es.Pairwise fun a b => a.sequence < b.sequence) : bySequence l = es := by
  refine List.Perm.eq_of_pairwise (le := fun a b => a.sequence ≤ b.sequence) ?_ (bySequence_sorted l)
    (hs.imp fun h => h.le) ((bySequence_perm l).trans hp.symm)
  intro a b ha hb hab hba
  by_contra hne
  have symm : Std.Symm fun a b : ChangeEntry => a.sequence ≠ b.sequence := ⟨fun _ _ h => h.symm⟩
  exact (hs.imp fun h => Nat.ne_of_lt h).forall
    (hp.symm.mem_iff.mp ((bySequence_perm l).mem_iff.mp ha)) hb hne (Nat.le_antisymm hab hba)

/-! ## Waits -/

/-- Ending a wait a second time changes nothing more. -/
theorem map_wake_twice {p : Rank → Bool} (hp : ∀ k : Rank, p { k with state := .eligible } = false) (l : List Rank) :
    (l.map (wake p)).map (wake p) = l.map (wake p) := by
  rw [List.map_map]
  refine List.map_congr_left fun k _ => ?_
  simp only [Function.comp, wake]
  split
  · simp [hp]
  · simp [*]

theorem parkedOnDomain_eligible (d : DomainId) (k : Rank) :
    parkedOnDomain d { k with state := .eligible } = false := by
  simp [parkedOnDomain, parkedOn]

/-- With no rank left, the end of ORDER has nothing to do. -/
theorem foldl_endOrder_nil (is : List InitiatorId) : is.foldl (fun ks i => endOrder i ks) [] = [] := by
  induction is with
  | nil => rfl
  | cons i is ih => simpa [endOrder] using ih

/-! ## Domains -/

theorem inEpoch_iff (d : DomainId) (s : State) :
    inEpoch d s = true ↔ s.domains[d].state = .opened ∨ s.domains[d].state = .marked := by
  simp only [inEpoch, domainState]
  cases s.domains[d].state <;> simp

theorem domainState_setDomainState (d e : DomainId) (st : DomainState) (s : State) :
    domainState e (setDomainState d st s) = if d = e then st else domainState e s := by
  simp only [domainState, setDomainState_domains, vector_set_get]
  split <;> rfl

/-- The entries of a domain are in the Change Table alone. -/
theorem entriesOf_congr {s t : State} (d : DomainId) (h : t.changes = s.changes) : entriesOf d t = entriesOf d s := by
  simp [entriesOf, h]

/-! ## Link tags -/

theorem transitTag_eq {tag : LinkTag} {e : TransitEntry} : transitTag e = some tag ↔ e.state = .sent tag := by
  unfold transitTag
  split <;> simp_all

/-- What the outstanding operations are: a walk, a publish write, a forwarded operation, or a chunk's. -/
theorem mem_outstandingTags {tag : LinkTag} {s : State} : tag ∈ outstandingTags s ↔
    (∃ j ∈ s.walkJobs, walkTag j = some tag) ∨ (∃ p, s.publishWrite = some p ∧ p.tag = tag) ∨
      (∃ e ∈ s.transit, e.state = .sent tag) ∨
      ∃ c, some c ∈ s.slots ∧ ∃ x ∈ c.chunks, chunkTag x = some tag := by
  simp only [outstandingTags, List.mem_append, List.mem_filterMap, List.mem_map, List.mem_flatMap, Option.mem_toList,
    transitTag_eq, Vector.mem_toList_iff, or_assoc]
  refine or_congr_right (or_congr_right (or_congr_right ⟨?_, ?_⟩))
  · rintro ⟨c, hc, x, ⟨y, rfl, hx⟩, hx'⟩
    exact ⟨y, hc, x, hx, hx'⟩
  · rintro ⟨c, hc, x, hx, hx'⟩
    exact ⟨some c, hc, x, ⟨c, rfl, hx⟩, hx'⟩

theorem tagHeld_iff {tag : LinkTag} {s : State} :
    tagHeld tag s = true ↔ tag ∈ outstandingTags s ∨ tag ∈ s.abandoned := by
  simp [tagHeld]

/-- With nothing in the blocks, nothing is outstanding. -/
theorem outstandingTags_reset : outstandingTags State.reset = [] := by decide

end Sys2Proof.Machine
end

