-- ==== Sys2Proof/Laws/PerInstr.lean ====
section
/-! SUPPORT. A statement made per command: the frame that carries a command has the seven bytes of Table 12-4 and begins
with the WRITE operation byte (R174). The commands that the management port does not take have no frame. -/

namespace Sys2Proof.Laws

/-- The frame of a command, if it has one. -/
def SevenBytes.Statement (c : Instr) : Prop :=
  ∀ bytes, encodeFrame c = some bytes → bytes.length = 7 ∧ bytes.head? = some writeOperation

theorem sevenBytes_of_none {c : Instr} (h : managementWrite c = none) : SevenBytes.Statement c := by
  intro bytes hb
  simp [encodeFrame, h] at hb

theorem sevenBytes_of_some {c : Instr} {w : Offset × Word} (h : managementWrite c = some w) :
    SevenBytes.Statement c := by
  intro bytes hb
  simp only [encodeFrame, h, Option.map_some, Option.some.injEq] at hb
  subst hb
  exact ⟨rfl, rfl⟩

theorem SevenBytes.powerOnReset (line : Level) : SevenBytes.Statement (.powerOnReset line) :=
  sevenBytes_of_none rfl

theorem SevenBytes.resetNPinReset (line : Level) : SevenBytes.Statement (.resetNPinReset line) :=
  sevenBytes_of_none rfl

theorem SevenBytes.upstreamRequest (request : Request) : SevenBytes.Statement (.upstreamRequest request) :=
  sevenBytes_of_none rfl

theorem SevenBytes.rankLeave (rank : Nat) : SevenBytes.Statement (.rankLeave rank) :=
  sevenBytes_of_none rfl

theorem SevenBytes.memoryPortGrant (tag : LinkTag) : SevenBytes.Statement (.memoryPortGrant tag) :=
  sevenBytes_of_none rfl

theorem SevenBytes.walkCompletion (tag : LinkTag) (status : Completion) (entry : Beat) : SevenBytes.Statement (.walkCompletion tag status entry) :=
  sevenBytes_of_none rfl

theorem SevenBytes.publishWriteCompletion (tag : LinkTag) (status : Completion) : SevenBytes.Statement (.publishWriteCompletion tag status) :=
  sevenBytes_of_none rfl

theorem SevenBytes.chunkCompletion (tag : LinkTag) (status : Completion) (data : Chunk) : SevenBytes.Statement (.chunkCompletion tag status data) :=
  sevenBytes_of_none rfl

theorem SevenBytes.transitCompletion (tag : LinkTag) (status : Completion) (beats : List Beat) : SevenBytes.Statement (.transitCompletion tag status beats) :=
  sevenBytes_of_none rfl

theorem SevenBytes.tick (order : List DomainId) : SevenBytes.Statement (.tick order) :=
  sevenBytes_of_none rfl

theorem SevenBytes.deadlineExpiry (d : DomainId) : SevenBytes.Statement (.deadlineExpiry d) :=
  sevenBytes_of_none rfl

theorem SevenBytes.markEvent (order : List DomainId) : SevenBytes.Statement (.markEvent order) :=
  sevenBytes_of_none rfl

theorem SevenBytes.openDomain (d : DomainId) : SevenBytes.Statement (.openDomain d) :=
  sevenBytes_of_some rfl

theorem SevenBytes.commit (d : DomainId) : SevenBytes.Statement (.commit d) :=
  sevenBytes_of_some rfl

theorem SevenBytes.commitAtMark (d : DomainId) : SevenBytes.Statement (.commitAtMark d) :=
  sevenBytes_of_some rfl

theorem SevenBytes.rollback (d : DomainId) : SevenBytes.Statement (.rollback d) :=
  sevenBytes_of_some rfl

theorem SevenBytes.poolLoad : SevenBytes.Statement (.poolLoad) :=
  sevenBytes_of_some rfl

theorem SevenBytes.flushCache : SevenBytes.Statement (.flushCache) :=
  sevenBytes_of_some rfl

theorem SevenBytes.clearFault : SevenBytes.Statement (.clearFault) :=
  sevenBytes_of_some rfl

theorem SevenBytes.resetAll : SevenBytes.Statement (.resetAll) :=
  sevenBytes_of_some rfl

theorem SevenBytes.unknownCommand (word : Word) : SevenBytes.Statement (.unknownCommand word) :=
  sevenBytes_of_some rfl

theorem SevenBytes.windowSettingWrite (w : WindowId) (word : WindowWord) (data : Word) : SevenBytes.Statement (.windowSettingWrite w word data) :=
  sevenBytes_of_some rfl

theorem SevenBytes.domainSettingWrite (d : DomainId) (word : DomainWord) (data : Word) : SevenBytes.Statement (.domainSettingWrite d word data) :=
  sevenBytes_of_some rfl

theorem SevenBytes.initiatorSettingWrite (i : InitiatorId) (word : InitiatorWord) (data : Word) : SevenBytes.Statement (.initiatorSettingWrite i word data) :=
  sevenBytes_of_some rfl

theorem SevenBytes.poolThresholdWrite (data : Word) : SevenBytes.Statement (.poolThresholdWrite data) :=
  sevenBytes_of_some rfl

theorem SevenBytes.timebaseAndEdgeWrite (data : Word) : SevenBytes.Statement (.timebaseAndEdgeWrite data) :=
  sevenBytes_of_some rfl

theorem SevenBytes.alertLatchesWrite (data : Word) : SevenBytes.Statement (.alertLatchesWrite data) :=
  sevenBytes_of_some rfl

theorem SevenBytes.alertEnablesWrite (data : Word) : SevenBytes.Statement (.alertEnablesWrite data) :=
  sevenBytes_of_some rfl

theorem SevenBytes.settingWrite (offset : Offset) (data : Word) : SevenBytes.Statement (.settingWrite offset data) :=
  sevenBytes_of_some rfl

theorem SevenBytes.softResetDrainEnd : SevenBytes.Statement (.softResetDrainEnd) :=
  sevenBytes_of_none rfl

theorem SevenBytes.epochLineInactiveChange : SevenBytes.Statement (.epochLineInactiveChange) :=
  sevenBytes_of_none rfl

end Sys2Proof.Laws
end

