-- ==== Sys2Proof/Tests/Slice0.lean ====
section
/-! SUPPORT. The session's own tests: ill-formed commands that the check refuses, frames written out from Tables 12-4 to
12-6, single steps whose results the spec's rules and examples give, and, for every statement with hypotheses, states and
operands that meet them. -/

namespace Sys2Proof.Tests

open Sys2Proof.Machine

/-! ## Small states -/

/-- A one-beat read. -/
def readOf (i : InitiatorId) (t : Tag) (beat : BitVec 37) : Request :=
  { initiator := i, tag := t, kind := .read, beatAddress := beat, length := 1, burst := .incr, beats := [] }

/-- A one-beat write. -/
def writeOf (i : InitiatorId) (t : Tag) (beat : BitVec 37) : Request :=
  { initiator := i, tag := t, kind := .write, beatAddress := beat, length := 1, burst := .incr,
    beats := [{ data := 0xA5, enables := 0xFF }] }

/-- A JOURNALED window of domain 0: 64 KiB at 0x10000, map base 0x90000. -/
def journaledWindow : Window :=
  { enable := true, kind := .journaled, baseHigh := 1, sizeExp := 16, domain := 0, mapPage := 0x90 }

/-- The machine after reset with domain 0 in a state and window 0 JOURNALED under it. -/
def inState (st : DomainState) : State :=
  { State.reset with
    windows := State.reset.windows.set 0 journaledWindow
    domains := State.reset.domains.set 0 { DomainRecord.reset with state := st } }

/-- A change entry of domain 0 in window 0. -/
def entryOf (tile sequence : Nat) (st : EntryState) : ChangeEntry :=
  { domain := 0, window := 0, tile := tile, oldFrame := BitVec.ofNat 28 (16 + tile),
    newFrame := BitVec.ofNat 28 (32 + tile), savedW := true, savedSw := 0, sequence := sequence, state := st }

/-- Domain 0 in a state with change entries. -/
def withEntries (st : DomainState) (es : List ChangeEntry) : State :=
  { inState st with
    domains := State.reset.domains.set 0
      { DomainRecord.reset with state := st, entryCount := es.length, nextSequence := es.length }
    changes := es
    poolSize := es.length }

/-- The copy of tile 0's entry in slot 0, with its chunks. -/
def copyOf (chunks : List ChunkInProgress) (progress : Nat) (stopping : Bool) : CopyJob :=
  { window := 0, tile := 0, source := 16, destination := 32, nextRead := 2, chunks := chunks, progress := progress,
    stopping := stopping }

/-- A copy in progress in slot 0 while domain 0 is OPEN. -/
def copying (c : CopyJob) : State :=
  { withEntries .opened [entryOf 0 0 (.copying 0)] with slots := State.reset.slots.set 0 (some c) }

/-- A transit entry of domain 0. -/
def transitOf (t : Tag) (kind : Kind) (place : Place) (st : TransitState) : TransitEntry :=
  { initiator := 1, tag := t, place := place, kind := kind, burst := .incr, count := 1, domain := some 0,
    window := some 0, upstreamAddress := 0x10000, memoryAddress := 0x20000, beats := [], state := st }

/-- A rank of a request in window 0. -/
def rankOf (r : Request) (st : RankState) : Rank :=
  { request := r
    decoded := { region := .journaled 0 0
                 pieces := [{ place := .oneOfOne, address := r.beatAddress ++ 0#3, skip := 0, count := 1, tile := 0,
                              offset := 0 }] }
    state := st }

/-- A rank of a request in no window. -/
def outsideRank (r : Request) (st : RankState) : Rank :=
  { request := r
    decoded := { region := .outside
                 pieces := [{ place := .oneOfOne, address := r.beatAddress ++ 0#3, skip := 0, count := 1, tile := 0,
                              offset := 0 }] }
    state := st }

/-- The committed translation of a tile of window 0. -/
def cachedTile (tile : Nat) (writable : Bool) : CacheEntry :=
  { window := 0, tile := tile, frame := BitVec.ofNat 28 (16 + tile), writable := writable, sw := 0x12 }

/-- A state with tile 0 of window 0 in the cache. -/
def withCached (writable : Bool) (s : State) : State :=
  { s with cache := s.cache.set 0 (some (cachedTile 0 writable)) }

/-! ## Well-formed commands -/

theorem test_read_wellFormed : (Instr.upstreamRequest (readOf 3 5 0x2000)).wellFormed = true := by decide

theorem test_length_zero_refused :
    (Instr.upstreamRequest { readOf 3 5 0x2000 with length := 0 }).wellFormed = false := by decide

theorem test_length_seventeen_refused :
    (Instr.upstreamRequest { readOf 3 5 0x2000 with length := 17 }).wellFormed = false := by decide

theorem test_read_with_beats_refused :
    (Instr.upstreamRequest { readOf 3 5 0x2000 with beats := [{ data := 0, enables := 0 }] }).wellFormed = false := by
  decide

theorem test_write_without_its_beats_refused :
    (Instr.upstreamRequest { writeOf 3 5 0x2000 with length := 2 }).wellFormed = false := by decide

theorem test_ninth_rank_refused : (Instr.rankLeave 8).wellFormed = false := by decide

theorem test_seventeen_read_beats_refused :
    (Instr.transitCompletion 1 .okay (List.replicate 17 0)).wellFormed = false := by decide

/-- A FAILED completion carries no data (R154). -/
theorem test_failed_completion_with_data_refused :
    (Instr.transitCompletion 1 .failed [0x77]).wellFormed = false := by decide

theorem test_known_command_is_not_unknown : (Instr.unknownCommand 0x00000301).wellFormed = false := by decide

theorem test_other_rows_offset_refused : (Instr.settingWrite 0x0034 1).wellFormed = false := by decide

/-! ## Frames (Tables 12-4 to 12-6) -/

/-- OPEN of domain 1: code 0x01, domain in bits 9:8. -/
theorem test_frame_open : decodeFrame [0x02, 0x00, 0x00, 0x00, 0x00, 0x01, 0x01] = some (.openDomain 1) := by decide

theorem test_frame_rollback : decodeFrame [0x02, 0x00, 0x00, 0x00, 0x00, 0x03, 0x04] = some (.rollback 3) := by decide

theorem test_frame_reset_all : decodeFrame [0x02, 0x00, 0x00, 0x00, 0x00, 0x00, 0x1F] = some .resetAll := by decide

theorem test_frame_unknown :
    decodeFrame [0x02, 0x00, 0x00, 0x00, 0x00, 0x04, 0x01] = some (.unknownCommand 0x00000401) := by decide

/-- Window 2's base word is at 0x0224. -/
theorem test_frame_window :
    decodeFrame [0x02, 0x02, 0x24, 0x00, 0x01, 0x00, 0x00] = some (.windowSettingWrite 2 .base 0x00010000) := by decide

/-- Domain 3's second settings word is at 0x015C. -/
theorem test_frame_domain :
    decodeFrame [0x02, 0x01, 0x5C, 0x00, 0x01, 0x00, 0x0A] =
      some (.domainSettingWrite 3 .settings1 0x0001000A) := by decide

/-- Initiator 15's high bound is at 0x03F8. -/
theorem test_frame_initiator :
    decodeFrame [0x02, 0x03, 0xF8, 0x10, 0x00, 0x00, 0x00] =
      some (.initiatorSettingWrite 15 .highBound 0x10000000) := by decide

theorem test_frame_alert_latches :
    decodeFrame [0x02, 0x00, 0x30, 0x00, 0x03, 0xFF, 0xFF] = some (.alertLatchesWrite 0x0003FFFF) := by decide

theorem test_frame_argument : decodeFrame [0x02, 0x00, 0x08, 0x00, 0x08, 0x00, 0x00] =
    some (.settingWrite 0x0008 0x00080000) := by decide

theorem test_frame_bytes_after_the_seventh_ignored :
    decodeFrame [0x02, 0x00, 0x38, 0x00, 0x00, 0x00, 0x0A, 0xFF] = some (.poolThresholdWrite 10) := by decide

theorem test_read_frame_is_no_command : decodeFrame [0x01, 0x00, 0x00, 0x00, 0x00, 0x00, 0x01] = none := by decide

theorem test_short_frame_is_no_command : decodeFrame [0x02, 0x00, 0x00, 0x00, 0x00, 0x01] = none := by decide

/-- The timebase reads 10 after reset (R162, Table 12-5). -/
theorem test_read_frame_returns_timebase :
    frameReply State.reset [0x01, 0x00, 0x3C, 0x00, 0x00, 0x00, 0x00] = [0x00, 0x00, 0x00, 0x0A] := by decide

theorem test_no_table_word_spells_a_command : decodeTableWord 56 0x0000000000000002 = none := rfl

/-! ## Single steps -/

/-- The outcome's state, or the reset state. -/
def stateOf : Host.Outcome State Fault Refusal → State
  | .next t => t
  | .fault _ | .refused _ => State.reset

/-- After a publish write the map entry is V = 1 with the saved W and SW and the new frame (R10): frame 0x60001, W = 1,
SW = 0x12. -/
theorem test_map_entry_value :
    mapEntryValue { entryOf 0 0 .live with newFrame := 0x60001, savedSw := 0x12 } = 0x000000006000104B := by decide

/-- The address 0x0800005100 is tile 5, offset 0x100, of the 16 MiB window at 0x0800000000 (R7). -/
theorem test_tile_of_address :
    let w : Window := { journaledWindow with baseHigh := 0x080000, sizeExp := 24 }
    tileIndex w 0x0800005100 = 5 ∧ tileOffset w 0x0800005100 = 0x100 ∧ windowHit w 0x0800005100 = true := by decide

/-- The first OPEN gives epoch 1 (R43, R44). -/
theorem test_open_gives_epoch_one :
    (stateOf (exec (.openDomain 2) State.reset)).domains[(2 : DomainId)].epoch = 1 := by decide

/-- The epoch number goes from 2^32 - 1 to 0 (R44). -/
theorem test_open_wraps_epoch :
    (stateOf (exec (.openDomain 0) { State.reset with
      domains := State.reset.domains.set 0 { DomainRecord.reset with epoch := 0xFFFFFFFF } })).domains[(0 : DomainId)].epoch
      = 0 := by decide

/-- OPEN of a domain that is OPEN gets STATE (R41). -/
theorem test_open_of_open_refused :
    (stateOf (exec (.openDomain 0) (inState .opened))).commandResult = { result := .state, code := 1 } := by decide

/-- A commit with nothing journaled ends CLOSED with COMMIT_DONE of domain 0, latch 6 (R77, Table 12-3). -/
theorem test_empty_commit_done : (stateOf (exec (.commit 0) (inState .opened))).latches = 0x40 := by decide

/-- A rollback returns new frames in descending sequence number (R94): sequences 0 and 1 return 33, then 32. -/
theorem test_rollback_order :
    (stateOf (exec (.rollback 0) (withEntries .opened [entryOf 0 0 .live, entryOf 1 1 .live]))).freeFrames =
      [33, 32] := by decide

/-- A pool load of 3 frames at 0x60000000 (R104). -/
theorem test_pool_load :
    (stateOf (exec .poolLoad { State.reset with argument0 := 0x60000000, argument1 := 0x00030000 })).freeFrames =
      [0x60000, 0x60001, 0x60002] := by decide

/-- A pool load of no frames gets ARG (R103). -/
theorem test_pool_load_of_none :
    (stateOf (exec .poolLoad State.reset)).commandResult = { result := .arg, code := 0x10 } := by decide

/-- The allocation that leaves one fewer than the threshold sets POOL_LOW (R105): threshold 1, one frame. -/
theorem test_pool_low : (takeFrame { State.reset with freeFrames := [7], poolThreshold := 1 }).latches = 2 := by decide

/-- A tick brings a counter from 1 to 0: DEADLINE of domain 0, latch 2 (R165). -/
theorem test_tick_expires :
    (stateOf (exec (.tick []) { inState .opened with
      deadlines := State.reset.deadlines.set 0 { value := 1, running := true } })).latches = 4 := by decide

/-- The mark counter goes from 65535 to 0 (R167). -/
theorem test_mark_counter_wraps :
    (stateOf (exec (.markEvent []) { State.reset with markCounter := 0xFFFF })).markCounter = 0 := by decide

/-- A request that spans a window edge is refused with SPAN (R3): the last beat of window 0 and the one after it. -/
theorem test_span_refused :
    ((stateOf (exec (.upstreamRequest { readOf 1 1 0x3FFF with length := 2 }) (inState .closed))).fault.map (·.code)) =
      some .span := by decide

/-- A read of a tile that is not cached parks on its walk at 0x90000 + 8 (R8, R23): address 0x11000 is tile 1. -/
theorem test_read_miss_posts_walk :
    (stateOf (exec (.upstreamRequest (readOf 1 1 0x2200)) (inState .closed))).walkJobs.map (·.mapAddress) =
      [0x90008] := by decide

/-- The first walk sent is an 8-byte read of the map entry (R153). -/
theorem test_grant_sends_walk :
    (stateOf (exec (.memoryPortGrant 5) (stateOf (exec (.upstreamRequest (readOf 1 1 0x2200))
      (inState .closed))))).portOperations =
      [{ tag := 5, kind := .read, address := 0x90008, burst := .incr, count := 1, beats := [] }] := by decide

/-- The oldest rank of an initiator that leaves ends the ORDER of the next (R123). -/
theorem test_end_of_order :
    (stateOf (exec (.rankLeave 0) { State.reset with
      ranks := [outsideRank (readOf 1 1 8) .eligible, outsideRank (readOf 1 2 8) (.parked .order)] })).ranks.map
        (·.state) = [.eligible] := by decide

/-- An OKAY read completion answers with its beats (R158). -/
theorem test_transit_answer :
    (stateOf (exec (.transitCompletion 3 .okay [0x77]) { State.reset with
      transit := [transitOf 9 .read .oneOfOne (.sent 3)] })).responses =
      [{ initiator := 1, tag := 9, status := .okay, dup := false, beats := [0x77] }] := by decide

/-- A walk sent before a pin reset completes after it, and is not acted on (R161): nothing is cached and its tag is free
again. -/
theorem test_abandoned_walk :
    let s := stateOf (exec (.resetNPinReset .low) { inState .opened with
      walkJobs := [{ window := 0, tile := 1, mapAddress := 0x90008, domain := 0, status := .issued 4 }] })
    let t := stateOf (exec (.walkCompletion 4 .okay 0x6000104B) s)
    tagHeld 4 s = true ∧ (∀ i : Fin 32, t.cache[i] = none) ∧ tagHeld 4 t = false := by decide

/-- A FAILED piece hands no data on while the other piece is outstanding (R159). -/
theorem test_failed_piece_hands_no_data_on :
    ((stateOf (exec (.transitCompletion 3 .failed [0x77]) { State.reset with
      transit := [transitOf 9 .read .oneOfTwo (.sent 3), transitOf 9 .read .twoOfTwo .waiting] })).collected.map
        (·.beats)) = [[]] := by decide

/-! ## States that meet the statements' hypotheses -/

/-- Domain 0 OPEN with two LIVE entries, a rank and a transit entry, an abandoned operation's tag, and a command in the
queue. -/
def running : State :=
  { withEntries .opened [entryOf 0 0 .live, entryOf 1 1 .live] with
    ranks := [rankOf (readOf 1 1 0x2000) .eligible, rankOf (readOf 1 2 0x2000) (.parked .order)]
    transit := [transitOf 9 .read .oneOfOne (.sent 3)]
    abandoned := [4]
    pending := [.clearFault] }

/-- The reset state in a soft reset drain. -/
def drained : State := { State.reset with draining := true }

theorem witness_StepRunsFrontCommand :
    ({ State.reset with pending := [.flushCache, .clearFault] } : State).pending = .flushCache :: [.clearFault] := rfl

theorem witness_EmptyQueueIsOneRefclkPeriod : State.reset.pending = [] := rfl

theorem witness_ResetAllBeginsDrain :
    let s := { inState .opened with transit := [transitOf 9 .read .oneOfOne (.sent 3)],
                                    ranks := [rankOf (readOf 1 1 8) .eligible] }
    s.draining = false ∧ quiescent s = false := by decide

theorem witness_DrainEnds :
    (drained.draining = true ∧ quiescent drained = true) ∧
    (let s := { drained with transit := [transitOf 9 .read .oneOfOne (.sent 3)] }
     s.draining = true ∧ quiescent s = false ∧ IsCompletion (.transitCompletion 3 .okay []) ∧
      quiescent (stateOf (exec (.transitCompletion 3 .okay []) { s with draining := false })) = true) ∧
    (inState .opened).draining = false ∧ quiescent (inState .opened) = true := by
  refine ⟨by decide, ⟨by decide, by decide, ?_, by decide⟩, by decide⟩
  exact .inr (.inr (.inr ⟨3, .okay, [], rfl⟩))

theorem witness_DrainAnswersBusyAndRefuses :
    drained.draining = true ∧ (0x0004 : Offset) ≠ 0x0000 ∧ (0x0004 : Offset) ≠ 0x0030 ∧
      (0xFFFF : Offset) ≠ 0x0000 ∧ (0xFFFF : Offset) ≠ 0x0030 := by decide

theorem witness_OpenEntersOpen :
    (State.reset.draining = false ∧ State.reset.domains[(0 : DomainId)].state = .closed) ∧
    ((inState .opened).draining = false ∧ (inState .opened).domains[(0 : DomainId)].state ≠ .closed) ∧
    ((inState .rollingBack).domains[(0 : DomainId)].state ≠ .opened ∧
      (inState .rollingBack).domains[(0 : DomainId)].state ≠ .marked ∧
      (inState .rollingBack).domains[(0 : DomainId)].state ≠ .faulted) := by decide

theorem witness_CommitAtMarkArms :
    drained.draining = true ∧ (inState .opened).draining = false ∧
    (inState .opened).domains[(0 : DomainId)].state = .opened ∧
    (inState .marked).domains[(0 : DomainId)].state = .marked ∧
    (inState .faulted).domains[(0 : DomainId)].state ≠ .opened ∧
    (inState .faulted).domains[(0 : DomainId)].state ≠ .marked ∧
    (let s := withEntries .marked [entryOf 0 0 (.copying 0)]
     s.domains[(0 : DomainId)].state = .marked ∧ s.lineLevel = inactiveLevel s.edge ∧ commitDrained 0 s = false) := by
  decide

theorem witness_CommitAndRollbackEnterDrain :
    let s := withEntries .opened [entryOf 0 0 (.copying 0)]
    let m := withEntries .marked [entryOf 0 0 (.copying 0)]
    s.draining = false ∧ s.domains[(0 : DomainId)].state = .opened ∧ m.domains[(0 : DomainId)].state = .marked ∧
      commitDrained 0 s = false ∧ rollbackDrained 0 s = false := by decide

theorem witness_CommitReachesPublishOrReleases :
    (let s := withEntries .opened [entryOf 0 0 .live]
     s.draining = false ∧ (entriesOf 0 s).any isLive = true ∧ s.domains[(0 : DomainId)].state = .opened ∧
      commitDrained 0 s = true) ∧
    (let s := withEntries .faulted [entryOf 0 0 .live]
     s.draining = false ∧ (entriesOf 0 s).any isLive = true ∧ s.domains[(0 : DomainId)].state = .faulted) ∧
    (let s := inState .marked
     s.draining = false ∧ s.domains[(0 : DomainId)].state = .marked ∧ entriesOf 0 s = [] ∧
      commitDrained 0 s = true) := by decide

theorem witness_RollbackDiscards :
    let s := withEntries .opened [entryOf 0 0 .live, entryOf 1 1 .live]
    let es := [entryOf 1 1 .live, entryOf 0 0 .live]
    s.draining = false ∧ s.domains[(0 : DomainId)].state = .opened ∧ rollbackDrained 0 s = true ∧
      es.Perm (entriesOf 0 s) ∧ es.Pairwise (fun a b => b.sequence < a.sequence) := by decide

theorem witness_PoolLoadDecides :
    let s := { State.reset with argument0 := 0xFF000000, argument1 := 0x100000FF }
    let none := { State.reset with argument1 := 0x10010000 }
    s.draining = false ∧
      (0xFFFF000000 : Nat) = (s.argument1.extractLsb' 0 8).toNat * 2 ^ 32 + s.argument0.toNat ∧
      (4096 : Nat) = (s.argument1.extractLsb' 16 13).toNat ∧
      (4097 : Nat) = (none.argument1.extractLsb' 16 13).toNat := by decide

theorem witness_FlushCacheEmptiesCache :
    let j : WalkJob := { window := 0, tile := 1, mapAddress := 0x90008, domain := 0, status := .issued 4 }
    let s := { inState .opened with walkJobs := [j] }
    s.draining = false ∧ 4 ∉ s.abandoned ∧ s.walkJobs.find? (fun k => walkTag k == some 4) = some j ∧
      mapUsable 0x000000006000104B = true ∧ isUnpublishedFrame (mapFrame 0x000000006000104B) s = false := by decide

theorem witness_ClearFaultEmptiesRecord : drained.draining = true ∧ State.reset.draining = false := by decide

theorem witness_UnknownCommandAnswersArg :
    (0x00000400 : Word).extractLsb' 10 22 ≠ 0 ∧
      (0x00000005 : Word).extractLsb' 0 8 ∉ ([1, 2, 3, 4, 0x10, 0x11, 0x12, 0x1F] : List Byte) := by decide

/-- A control word that names its settings, one of every refused kind, and a write in each state that decides it. -/
theorem witness_WindowSettingWriteDecides :
    State.reset.draining = false ∧ windowWith .reset .control 0x00011001 ≠ none ∧
      windowWith .reset .control 0x00012501 = none ∧ windowWith .reset .control 0x00011007 = none ∧
      windowWith .reset .base 0x00000001 = none := by decide

theorem witness_DomainSettingWriteDecides :
    State.reset.draining = false ∧ State.reset.domains[(0 : DomainId)].state = .closed ∧
      (inState .opened).draining = false ∧ (inState .opened).domains[(0 : DomainId)].state ≠ .closed := by decide

theorem witness_OtherSettingWritesDecide :
    State.reset.draining = false ∧ (0x0003FFFF : Word) &&& 0xFFFC0000 = 0 ∧ (0x00040000 : Word) &&& 0xFFFC0000 ≠ 0 := by decide

theorem witness_SettingWriteDispatches :
    (0x0001 : Offset).toNat % 4 ≠ 0 ∧ 0x000C ≤ (0x002C : Offset).toNat ∧ (0x002C : Offset).toNat < 0x0030 ∧
      0x0040 ≤ (0x013C : Offset).toNat ∧ (0x013C : Offset).toNat < 0x0140 ∧ 0x0160 ≤ (0x0160 : Offset).toNat ∧
      (0x0160 : Offset).toNat < 0x0200 ∧ 0x0280 ≤ (0x0280 : Offset).toNat ∧ (0x0280 : Offset).toNat < 0x0300 ∧
      0x0300 ≤ (0x030C : Offset).toNat ∧ (0x030C : Offset).toNat % 16 = 12 ∧ 0x0400 ≤ (0x0400 : Offset).toNat := by
  decide

/-- A write of every setting word that is accepted. -/
theorem witness_SettingsReadBack :
    (stateOf (exec (.windowSettingWrite 1 .control 0x00022405) State.reset)).lastWrite = .accepted ∧
    (stateOf (exec (.domainSettingWrite 1 .settings0 0x0001F100) State.reset)).lastWrite = .accepted ∧
    (stateOf (exec (.initiatorSettingWrite 1 .highBound 0x10000000) State.reset)).lastWrite = .accepted ∧
    (stateOf (exec (.poolThresholdWrite 4096) State.reset)).lastWrite = .accepted ∧
    (stateOf (exec (.timebaseAndEdgeWrite 0x0000010F) State.reset)).lastWrite = .accepted ∧
    (stateOf (exec (.alertEnablesWrite 0x0003FFFF) State.reset)).lastWrite = .accepted ∧
    (stateOf (exec (.settingWrite 0x0004 0xFFFFFFFF) State.reset)).lastWrite = .accepted ∧
    (stateOf (exec (.settingWrite 0x0008 0x1FFF00FF) State.reset)).lastWrite = .accepted := by decide

theorem witness_FaultReportFillsRecord :
    State.reset.fault = none ∧
      (reportFault (internalFault .mapRead 0 0 0 State.reset) State.reset).fault ≠ none := by decide

theorem witness_AlertLineFollowsLatches :
    let s := { State.reset with latches := 0x20000 }
    s.latches.getLsbD (alertBit (.domainFaulted 3)) = true ∧
      (0x00020000 : Word).getLsbD (alertBit (.domainFaulted 3)) = true ∧
      (stateOf (exec (.alertEnablesWrite 0x00020000) s)).lastWrite = .accepted := by decide

/-- The drain's last operation is a forwarded read; its completion ends the drain. -/
def lastOfDrain : State := { drained with transit := [transitOf 9 .read .oneOfOne (.sent 3)] }

/-- Every way in which the part takes its reset values: the two hard resets, a RESET_ALL that ends at once, the completion
that ends a drain, and a drain end that is due. -/
theorem witness_ResetBy :
    ResetBy (.powerOnReset .low) running (stateOf (exec (.powerOnReset .low) running)) ∧
    ResetBy (.resetNPinReset .high) running (stateOf (exec (.resetNPinReset .high) running)) ∧
    ResetBy .resetAll State.reset (stateOf (exec .resetAll State.reset)) ∧
    ResetBy (.transitCompletion 3 .okay []) lastOfDrain
      (stateOf (exec (.transitCompletion 3 .okay []) lastOfDrain)) ∧
    ResetBy .softResetDrainEnd drained (stateOf (exec .softResetDrainEnd drained)) :=
  ⟨⟨rfl, .inl ⟨.low, .inl rfl⟩⟩, ⟨rfl, .inl ⟨.high, .inr rfl⟩⟩, ⟨rfl, .inr (.inl ⟨rfl, rfl⟩)⟩,
    ⟨rfl, .inr (.inr ⟨.inl (.inr (.inr (.inr ⟨3, .okay, [], rfl⟩))), rfl, by decide⟩)⟩,
    ⟨rfl, .inr (.inr ⟨.inr rfl, rfl, by decide⟩)⟩⟩

/-- Domain 0 with a counter at 1 and an action, and a COPYING entry that holds its DRAIN. -/
def expiring (st : DomainState) (action : DeadlineAction) : State :=
  { withEntries st [entryOf 0 0 (.copying 0)] with
    domains := State.reset.domains.set 0
      { DomainRecord.reset with state := st, settings := { DomainSettings.reset with deadlineAction := action } }
    deadlines := State.reset.deadlines.set 0 { value := 1, running := true } }

theorem witness_TickExpiryAlerts :
    ∀ d : DomainId, (expiring .opened .alert).deadlines[d].running = true →
      (expiring .opened .alert).deadlines[d].value = 1 →
      (expiring .opened .alert).domains[d].settings.deadlineAction = .alert := by decide

theorem witness_ExpiryDecidesInItsEvent :
    (expiring .opened .alert).draining = false ∧
    (expiring .opened .alert).deadlines[(0 : DomainId)].running = true ∧
    (expiring .opened .alert).deadlines[(0 : DomainId)].value = 1 ∧
    (expiring .opened .alert).domains[(0 : DomainId)].settings.deadlineAction = .alert ∧
    ((expiring .faulted .commit).domains[(0 : DomainId)].state ≠ .opened ∧
      (expiring .faulted .commit).domains[(0 : DomainId)].state ≠ .marked) ∧
    ((expiring .marked .commit).domains[(0 : DomainId)].settings.deadlineAction = .commit ∧
      (expiring .marked .commit).domains[(0 : DomainId)].state = .marked ∧
      commitDrained 0 (expiring .marked .commit) = false) ∧
    ((expiring .opened .rollback).domains[(0 : DomainId)].settings.deadlineAction = .rollback ∧
      (expiring .opened .rollback).domains[(0 : DomainId)].state = .opened ∧
      rollbackDrained 0 (expiring .opened .rollback) = false) ∧
    ∀ e : DomainId, e ≠ 0 → ¬ ((expiring .opened .rollback).deadlines[e].running = true ∧
      (expiring .opened .rollback).deadlines[e].value = 1) := by decide

theorem witness_EpochLineChanges :
    (let s := withEntries .marked [entryOf 0 0 (.copying 0)]
     s.lineLevel = inactiveLevel s.edge ∧ ∀ d : DomainId,
      (decide (s.domains[d].state = .marked) ||
        (decide (s.domains[d].state = .opened) && s.domains[d].settings.autoMark)) = true →
        commitDrained d s = true → (entriesOf d s).any isLive = true) ∧
    (let s := withEntries .marked [entryOf 0 0 .live]
     s.lineLevel = inactiveLevel s.edge ∧ commitDrained 0 s = true ∧ ∀ d : DomainId,
      (decide (s.domains[d].state = .marked) ||
        (decide (s.domains[d].state = .opened) && s.domains[d].settings.autoMark)) = true →
        (entriesOf d s).any isLive = true) ∧
    (let s := inState .marked
     s.lineLevel = inactiveLevel s.edge ∧ s.domains[(0 : DomainId)].state = .marked ∧ entriesOf 0 s = [] ∧
      commitDrained 0 s = true ∧ ∀ d : DomainId,
      (decide (s.domains[d].state = .marked) ||
        (decide (s.domains[d].state = .opened) && s.domains[d].settings.autoMark)) = true → d = 0) ∧
    ({ State.reset with lineLevel := .high } : State).lineLevel ≠ inactiveLevel State.reset.edge := by decide

theorem witness_EventsThatDoNotOccur :
    ({ State.reset with ranks := List.replicate 8 (outsideRank (readOf 1 1 8) .eligible) } : State).ranks.length ≥ 8 ∧
    drained.draining = true ∧ ({ readOf 1 1 8 with length := 0 } : Request).length = 0 ∧
    16 < ({ readOf 1 1 8 with length := 17 } : Request).length ∧
    ({ writeOf 1 1 8 with length := 2 } : Request).beats.length ≠ 2 ∧
    ({ readOf 1 1 8 with beats := [{ data := 0, enables := 0 }] } : Request).beats ≠ [] ∧
    State.reset.ranks[0]? = none ∧
    (outsideRank (readOf 1 1 8) (.parked .transit)).state ≠ .eligible ∧
    tagHeld 5 { State.reset with transit := [transitOf 9 .read .oneOfOne (.sent 3)] } = false ∧
    (5 : LinkTag) ∈ ({ State.reset with abandoned := [4, 5] } : State).abandoned := by decide

/-- The decode result of a one-beat request outside every window. -/
def outsideDecode (beat : BitVec 37) : Decoded :=
  { region := .outside
    pieces := [{ place := .oneOfOne, address := beat ++ 0#3, skip := 0, count := 1, tile := 0, offset := 0 }] }

/-- The decode result of a one-beat request at the start of tile 0 of window 0. -/
def tileDecode : Decoded :=
  { region := .journaled 0 0
    pieces := [{ place := .oneOfOne, address := 0x10000, skip := 0, count := 1, tile := 0, offset := 0 }] }

theorem witness_IntakeRefusesBeforeDecode :
    accepting (inState .opened) = true ∧ (readOf 1 1 0x2000).wellFormed = true ∧
    (let s := { State.reset with ranks := [outsideRank (readOf 1 1 8) .eligible] }
     ∃ k ∈ s.ranks, k.request.initiator = 1 ∧ k.request.tag = 1) ∧
    (let s := { State.reset with transit := [transitOf 9 .read .oneOfOne (.sent 3)] }
     ∃ e ∈ s.transit, e.initiator = 1 ∧ e.tag = 9) ∧
    (let s := { State.reset with
      initiators := State.reset.initiators.set 1 { InitiatorEntry.reset with state := .blocked } }
     pairInUse 1 1 s = false ∧ s.initiators[(1 : InitiatorId)].state = .blocked) ∧
    (let s := inState .opened
     let r := { readOf 1 1 0x3FFF with length := 2 }
     pairInUse 1 1 s = false ∧ s.initiators[(1 : InitiatorId)].state = .enabled ∧
      selectWindow s.windows (firstByte r) ≠ selectWindow s.windows (lastByte r)) := by decide

/-- Initiator 1 may use only the second tile of the address space and no domain, under policy BLOCK. -/
def confined (st : DomainState) (abort : Bool) : State :=
  { withEntries st [entryOf 0 0 (.copying 0)] with
    windows := (State.reset.windows.set 0 journaledWindow).set 1 { journaledWindow with kind := .guarded, baseHigh := 2 }
    initiators := State.reset.initiators.set 1
      { state := .enabled, lowPage := 1, highPage := 0x21, mask := 0, policy := .block }
    domains := State.reset.domains.set 0
      { DomainRecord.reset with state := st, settings := { DomainSettings.reset with violationAbort := abort } } }

/-- A read below the low bound, one at the high bound, a write of a GUARDED window inside the bounds, a denied write. -/
theorem witness_ViolationsAtIntake :
    let s := confined .opened true
    accepting s = true ∧ pairInUse 1 1 s = false ∧ s.initiators[(1 : InitiatorId)].state = .enabled ∧
    (decodeRequest s.windows (readOf 1 1 0x1FF) = some (outsideDecode 0x1FF) ∧ firstByte (readOf 1 1 0x1FF) < 4096) ∧
    (decodeRequest s.windows (readOf 1 1 0x4200) ≠ none ∧ 4096 * 0x21 ≤ lastByte (readOf 1 1 0x4200)) ∧
    ((decodeRequest s.windows (writeOf 1 1 0x4000)).map (·.region) = some (.guarded 1)) ∧
    (decodeRequest s.windows (writeOf 1 1 0x2000) = some tileDecode ∧
      s.initiators[(1 : InitiatorId)].mask.getLsbD 0 = false) ∧
    (s.domains[(0 : DomainId)].settings.violationAbort = true ∧ s.domains[(0 : DomainId)].state = .opened ∧
      rollbackDrained 0 s = false) ∧
    (let u := { s with changes := [entryOf 0 0 .live, entryOf 1 1 .live] }
     u.domains[(0 : DomainId)].state = .opened ∧ rollbackDrained 0 u = true ∧
      [entryOf 1 1 .live, entryOf 0 0 .live].Perm (entriesOf 0 u)) ∧
    (confined .closed true).domains[(0 : DomainId)].state ≠ .opened ∧
    (confined .opened false).domains[(0 : DomainId)].settings.violationAbort = false := by decide

/-- A write to 0x90008, the map entry of tile 1 of window 0, while domain 0 is OPEN. -/
theorem witness_MapSnoopRefusesBusy :
    let s := inState .opened
    let r := writeOf 1 1 0x12001
    accepting s = true ∧ r.wellFormed = true ∧ pairInUse 1 1 s = false ∧
    s.initiators[(1 : InitiatorId)].state = .enabled ∧ decodeRequest s.windows r = some (outsideDecode 0x12001) ∧
    outOfBounds r s = false ∧ guardedWrite r .outside = false ∧ domainDenied r .outside s = false ∧
    r.kind = .write ∧ lastByte r < 2 ^ 40 ∧
    (s.windows[(0 : WindowId)].enable = true ∧ s.windows[(0 : WindowId)].kind = .journaled ∧
      (1 < tileCount s.windows[(0 : WindowId)] ∧ (mapEntryAddress s.windows[(0 : WindowId)] 1).toNat ∈ coveredBeats r) ∧
      s.domains[(0 : DomainId)].state ≠ .closed) ∧
    ∀ v : WindowId, ¬ v < 0 := by decide

theorem witness_UntranslatedRequestIssues :
    (Admitted (writeOf 1 1 8) (outsideDecode 8) (inState .opened) ∧
      regionDomain (outsideDecode 8).region = none ∧ (inState .opened).transit.length < 32) ∧
    (let s := { State.reset with transit := List.replicate 32 (transitOf 9 .read .oneOfOne .waiting) }
     Admitted (readOf 1 1 8) (outsideDecode 8) s ∧ 32 ≤ s.transit.length) := by
  unfold Admitted
  decide

theorem witness_RequestWaitsInOrder :
    let s := { State.reset with ranks := [outsideRank (readOf 1 2 8) .eligible] }
    accepting s = true ∧ (readOf 1 1 8).wellFormed = true ∧ intakeChecks (readOf 1 1 8) s = none ∧
      decodeRequest s.windows (readOf 1 1 8) = some (outsideDecode 8) ∧
      ∃ k ∈ s.ranks, k.request.initiator = (1 : InitiatorId) := by decide

/-- A read of a cached tile, with room in the Transit Table and without. -/
theorem witness_TranslatedRequestIssues :
    let s := withCached true (inState .opened)
    let r := readOf 1 1 0x2000
    Admitted r tileDecode s ∧ tileDecode.region = .journaled 0 0 ∧
    (∀ p ∈ tileDecode.pieces, Forwards r.kind 0 0 p 0x10000 (snoopInvalidate r s)) ∧
    s.transit.length + tileDecode.pieces.length ≤ 32 ∧
    (let u := { s with transit := List.replicate 32 (transitOf 9 .read .oneOfOne .waiting) }
     Admitted r tileDecode u ∧ 32 < u.transit.length + tileDecode.pieces.length) := by
  unfold Admitted
  refine ⟨by decide, by decide, fun p hp => ?_, by decide, by decide⟩
  simp only [tileDecode, List.mem_singleton] at hp
  subst hp
  exact ⟨by decide, by decide, by decide, .inr ⟨by decide, cachedTile 0 true, by decide, by decide, .inl rfl⟩⟩

/-- The pieces of a two-beat request over the boundary of tiles 0 and 1 of window 0. -/
def firstPiece : Piece := { place := .oneOfTwo, address := 0x10FF8, skip := 0, count := 1, tile := 0, offset := 0xFF8 }
def secondPiece : Piece := { place := .twoOfTwo, address := 0x11000, skip := 1, count := 1, tile := 1, offset := 0 }

/-- Domain 0 in a state, tile 0 with a LIVE entry that its forwarded requests go to, tile 1 with none, and the request over
both tiles ELIGIBLE. -/
def acrossTiles (kind : Kind) (st : DomainState) : State :=
  { withEntries st [entryOf 0 0 .live] with
    ranks := [{ request := { readOf 1 1 0x21FF with kind := kind, length := 2 }
                decoded := { region := .journaled 0 0, pieces := [firstPiece, secondPiece] }, state := .eligible }] }

/-- The first piece is forwarded to the new frame of its tile's entry. -/
theorem firstPiece_forwarded (kind : Kind) : ∀ q ∈ [firstPiece], ∃ a, Forwards kind 0 0 q a (acrossTiles kind .opened) := by
  intro q hq
  simp only [List.mem_singleton] at hq
  subst hq
  cases kind <;>
  exact ⟨(entryOf 0 0 .live).newFrame ++ firstPiece.offset, by decide, by decide, by decide,
    .inl ⟨entryOf 0 0 .live, by decide, .inr ⟨by decide, rfl⟩⟩⟩

theorem witness_ReadParksOrIsRefused :
    (Admitted (readOf 1 1 0x2000) tileDecode (inState .opened) ∧
      (inState .opened).domains[(0 : DomainId)].state ≠ .rollingBack ∧
      (inState .opened).domains[(0 : DomainId)].state ≠ .faulted ∧ findChange 0 0 (inState .opened) = none ∧
      findCache 0 0 (inState .opened) = none) ∧
    (Admitted (readOf 1 1 0x2000) tileDecode (inState .rollingBack) ∧
      (inState .rollingBack).domains[(0 : DomainId)].state = .rollingBack) ∧
    (Admitted (readOf 1 1 0x2000) tileDecode (inState .faulted) ∧
      (inState .faulted).domains[(0 : DomainId)].state = .faulted) := by
  unfold Admitted
  decide

/-- A request leaves its rank with its first piece forwarded, and its second piece misses; and the same at an arrival. -/
theorem witness_ReadParksOrIsRefused_second :
    (let s := acrossTiles .read .opened
     (∀ q ∈ [firstPiece], ∃ a, Forwards .read 0 0 q a s) ∧
      (∃ k, s.ranks[0]? = some k ∧ k.state = .eligible ∧ k.request.kind = .read ∧ k.decoded.region = .journaled 0 0 ∧
        k.decoded.pieces = [firstPiece] ++ secondPiece :: []) ∧
      s.domains[(0 : DomainId)].state ≠ .rollingBack ∧ s.domains[(0 : DomainId)].state ≠ .faulted ∧
      findChange 0 1 s = none ∧ findCache 0 1 s = none) ∧
    Admitted { readOf 1 1 0x21FF with length := 2 }
      { region := .journaled 0 0, pieces := [firstPiece] ++ secondPiece :: [] }
      { acrossTiles .read .opened with ranks := [] } := by
  refine ⟨⟨firstPiece_forwarded .read, ⟨_, rfl, rfl, rfl, rfl, rfl⟩, by decide⟩, ?_⟩
  unfold Admitted
  decide

/-- A request that ends at the tile boundary, and one that runs over it by a beat. -/
theorem witness_RequestsAreCutAtTileBoundaries :
    let ws := (inState .opened).windows
    let one := { readOf 1 1 0x21FE with length := 2 }
    let two := { readOf 1 1 0x21FF with length := 2 }
    16 ≤ ws[(0 : WindowId)].sizeExp ∧ ws[(0 : WindowId)].sizeExp ≤ 36 ∧
    (decodeRequest ws one).map (·.region) = some (.journaled 0 0) ∧
    (firstByte one - effectiveBase ws[(0 : WindowId)]) % 4096 + 8 * one.length = 4096 ∧
    (decodeRequest ws two).map (·.region) = some (.journaled 0 0) ∧ two.burst = .incr ∧
    (firstByte two - effectiveBase ws[(0 : WindowId)]) % 4096 + 8 * two.length = 4104 := by decide

theorem witness_RankLeaveIssues :
    (let k := outsideRank (readOf 1 1 8) .eligible
     let s := { State.reset with ranks := [k] }
     s.ranks[0]? = some k ∧ k.state = .eligible ∧ regionDomain k.decoded.region = none ∧
      k.decoded.pieces = [{ place := .oneOfOne, address := 0x40, skip := 0, count := 1, tile := 0, offset := 0 }] ∧
      s.transit.length < 32 ∧ 32 ≤ (List.replicate 32 (transitOf 9 .read .oneOfOne .waiting)).length) ∧
    (let s := { withEntries .opened [entryOf 0 0 .live, entryOf 1 1 .live] with ranks := (acrossTiles .write .opened).ranks }
     (∃ k, s.ranks[0]? = some k ∧ k.state = .eligible ∧ k.decoded.region = .journaled 0 0 ∧
      (∀ p ∈ k.decoded.pieces, ∃ e, findChange 0 p.tile s = some e ∧ isCopying e = false) ∧
      s.transit.length + k.decoded.pieces.length ≤ 32) ∧
      domainState 0 s ≠ .rollingBack ∧ domainState 0 s ≠ .faulted ∧ domainState 0 s ≠ .committing .drain ∧
      domainState 0 s ≠ .committing .publish ∧
      32 < (List.replicate 31 (transitOf 9 .read .oneOfOne .waiting)).length + 2) ∧
    (let before := [outsideRank (readOf 2 1 8) .eligible]
     (∀ x ∈ before, x.request.initiator ≠ 1) ∧
      (outsideRank (readOf 1 2 8) (.parked .order)).request.initiator = 1 ∧
      (outsideRank (readOf 1 2 8) (.parked .order)).state = .parked .order ∧
      (outsideRank (readOf 1 2 8) .eligible).state ≠ .parked .order) := by
  refine ⟨by decide, ⟨⟨_, rfl, rfl, rfl, ?_, by decide⟩, by decide⟩, by decide⟩
  intro p hp
  simp only [List.mem_cons, List.not_mem_nil, or_false] at hp
  rcases hp with rfl | rfl
  · exact ⟨entryOf 0 0 .live, by decide, by decide⟩
  · exact ⟨entryOf 1 1 .live, by decide, by decide⟩

/-- Domain 0 OPEN with tile 0 cached, two free frames and a write of the tile ELIGIBLE. -/
def writing (st : DomainState) (writable : Bool) : State :=
  { withCached writable (inState st) with
    freeFrames := [40, 41]
    poolSize := 2
    ranks := [rankOf (writeOf 1 1 0x2000) .eligible] }

theorem witness_FirstWriteCreatesEntry :
    let s := writing .opened true
    let k := rankOf (writeOf 1 1 0x2000) .eligible
    s.ranks[0]? = some k ∧ k.state = .eligible ∧ k.request.kind = .write ∧ k.decoded.region = .journaled 0 0 ∧
    s.domains[(0 : DomainId)].state = .opened ∧ findChange 0 0 s = none ∧
    findCache 0 0 s = some (cachedTile 0 true) ∧ (cachedTile 0 true).writable = true ∧
    s.domains[(0 : DomainId)].entryCount < s.domains[(0 : DomainId)].settings.quota ∧
    s.domains[(0 : DomainId)].sequenceSpent = false ∧ s.changes.length < 256 ∧ s.freeFrames = 40 :: [41] ∧
    s.slots[(0 : SlotId)] = none ∧
    (let u := { s with slots := State.reset.slots.set 0 (some (copyOf [] 0 false)) }
     u.slots[(0 : SlotId)] ≠ none ∧ u.slots[(1 : SlotId)] = none) := by decide

theorem witness_WritesThatAreNotForwarded :
    let k := rankOf (writeOf 1 1 0x2000) .eligible
    let s := writing .opened true
    let spent := { s with domains := s.domains.set 0 { s.domains[(0 : DomainId)] with sequenceSpent := true } }
    let rolls := { withEntries .opened [entryOf 3 0 (.copying 0)] with
      domains := s.domains.set 0 { s.domains[(0 : DomainId)] with
        settings := { DomainSettings.reset with overflow := .rollback } } }
    let slots : Vector (Option CopyJob) 2 := Vector.replicate 2 (some (copyOf [] 0 false))
    (s.ranks[0]? = some k ∧ k.state = .eligible ∧ k.request.kind = .write ∧ k.decoded.region = .journaled 0 0 ∧
      findChange 0 0 s = none ∧ findCache 0 0 s = some (cachedTile 0 true)) ∧
    (s.domains[(0 : DomainId)].settings.overflow = .refuse ∧ spent.domains[(0 : DomainId)].sequenceSpent = true ∧
      ¬ s.domains[(0 : DomainId)].settings.quota ≤ s.domains[(0 : DomainId)].entryCount) ∧
    (rolls.domains[(0 : DomainId)].settings.overflow = .rollback ∧ rollbackDrained 0 rolls = false) ∧
    (slots[(0 : SlotId)] ≠ none ∧ slots[(1 : SlotId)] ≠ none ∧ s.freeFrames ≠ []) ∧
    (findCache 0 0 (writing .opened false) = some (cachedTile 0 false) ∧
      (writing .opened false).domains[(0 : DomainId)].settings.violationAbort = false) ∧
    (let c := { writing .closed true with domains := State.reset.domains.set 0 { DomainRecord.reset with
        settings := { DomainSettings.reset with closedWrite := .refuse } } }
     c.domains[(0 : DomainId)].state = .closed ∧ c.domains[(0 : DomainId)].settings.closedWrite = .refuse ∧
      findCache 0 0 c = some (cachedTile 0 true)) ∧
    (writing (.committing .publish) true).domains[(0 : DomainId)].state = .committing .publish ∧
    (writing .faulted true).domains[(0 : DomainId)].state = .faulted ∧
    (let u := { inState .opened with ranks := [k] }
     u.ranks[0]? = some k ∧ u.domains[(0 : DomainId)].state = .opened ∧ findChange 0 0 u = none ∧
      findCache 0 0 u = none) ∧
    (let u := { withEntries .opened [entryOf 0 0 (.copying 0)] with ranks := [k] }
     findChange 0 0 u = some (entryOf 0 0 (.copying 0)) ∧ isCopying (entryOf 0 0 (.copying 0)) = true) := by decide

/-- The rollbacks that a refused write starts: of an overflow with its DRAIN condition holding, and of a violation, with the
condition holding and without. -/
theorem witness_WritesThatAreNotForwarded_rollbacks :
    let k := rankOf (writeOf 1 1 0x2000) .eligible
    let settings := { DomainSettings.reset with overflow := .rollback, violationAbort := true, quota := 1 }
    let s : Bool → List ChangeEntry → State := fun writable es =>
      { withCached writable (withEntries .opened es) with
        ranks := [k]
        domains := State.reset.domains.set 0
          { DomainRecord.reset with state := .opened, entryCount := 1, nextSequence := 1, settings := settings } }
    (let u := s true [entryOf 3 0 .live]
     u.domains[(0 : DomainId)].settings.overflow = .rollback ∧ rollbackDrained 0 u = true ∧
      [entryOf 3 0 .live].Perm (entriesOf 0 u) ∧
      u.domains[(0 : DomainId)].settings.quota ≤ u.domains[(0 : DomainId)].entryCount ∧
      u.domains[(0 : DomainId)].state = .opened ∧ findChange 0 0 u = none ∧
      findCache 0 0 u = some (cachedTile 0 true)) ∧
    (let u := s false [entryOf 3 0 .live]
     u.domains[(0 : DomainId)].settings.violationAbort = true ∧ u.domains[(0 : DomainId)].state ≠ .closed ∧
      rollbackDrained 0 u = true ∧ findCache 0 0 u = some (cachedTile 0 false)) ∧
    rollbackDrained 0 (s false [entryOf 3 0 (.copying 0)]) = false := by decide

/-- A write over two tiles whose first piece is forwarded and whose second is the first write of its tile, or misses. -/
theorem witness_secondPieceWrites :
    let s := acrossTiles .write .opened
    (∀ q ∈ [firstPiece], ∃ a, Forwards .write 0 0 q a s) ∧
    (∃ k, s.ranks[0]? = some k ∧ k.state = .eligible ∧ k.request.kind = .write ∧ k.decoded.region = .journaled 0 0 ∧
      k.decoded.pieces = [firstPiece] ++ secondPiece :: []) ∧
    (s.domains[(0 : DomainId)].state = .opened ∧ findChange 0 1 s = none ∧ findCache 0 1 s = none) ∧
    (let u := { s with cache := State.reset.cache.set 0 (some (cachedTile 1 true)) }
     findChange 0 1 u = none ∧ findCache 0 1 u = some (cachedTile 1 true)) :=
  ⟨firstPiece_forwarded .write, ⟨_, rfl, rfl, rfl, rfl, rfl⟩, by decide, by decide⟩

/-- A walk job of tile 1 of window 0. -/
def jobOf (status : WalkStatus) : WalkJob :=
  { window := 0, tile := 1, mapAddress := 0x90008, domain := 0, status := status }

/-- Domain 0 in PUBLISH with LIVE entries of tiles 0 and 1, its cursor, and its outstanding write. -/
def publishing (cursor : Option Nat) (write : Option PublishWrite) : State :=
  { withEntries (.committing .publish) [entryOf 0 0 .live, entryOf 1 1 .live] with
    publication := [{ domain := 0, cursor := cursor }]
    publishWrite := write }

/-- The outstanding write of tile 0's entry. -/
def writeOut (tile : Nat) : PublishWrite :=
  { tag := 4, domain := 0, window := 0, tile := tile, mapAddress := BitVec.ofNat 40 (0x90000 + 8 * tile) }

theorem witness_GrantOrder :
    (let s := copying (copyOf [] 0 false)
     tagHeld 5 s = false ∧ copyWaits s = true ∧ copyWaits { s with starvation := 8 } = true ∧
      s.starvation ≠ 8 ∧ walkerWaits s = false ∧ ∀ e ∈ s.transit, e.state ≠ .waiting) ∧
    (let s := { inState .opened with walkJobs := [jobOf .pending] }
     walkerWaits s = true ∧ copyWaits s = false ∧ tagHeld 5 s = false) ∧
    (let s := { inState .opened with transit := [transitOf 9 .read .oneOfOne .waiting] }
     walkerWaits s = false ∧ tagHeld 5 s = false ∧ ∃ e ∈ s.transit, e.state = .waiting) ∧
    tagHeld 3 { State.reset with transit := [transitOf 9 .read .oneOfOne (.sent 3)] } = true := by decide

theorem witness_GrantSendsWalkOrPublishWrite :
    (let s := { inState .opened with walkJobs := [jobOf .pending] }
     tagHeld 5 s = false ∧ copyWaits s = false ∧ walkerBusy s = false ∧ s.draining = false ∧
      s.walkJobs = [] ++ jobOf .pending :: [] ∧ (jobOf .pending).status = .pending) ∧
    (let s := publishing none none
     let p : Publication := { domain := 0, cursor := none }
     tagHeld 5 s = false ∧ copyWaits s = false ∧ walkerBusy s = false ∧ s.draining = false ∧
      (∀ j ∈ s.walkJobs, j.status ≠ .pending) ∧ s.publication = [] ++ p :: [] ∧
      (s.publication.map (·.domain)).Nodup ∧ entryOf 0 0 .live ∈ s.changes ∧
      aboveCursor p.cursor (entryOf 0 0 .live) = true ∧
      ∀ x ∈ s.changes, x.domain = p.domain → x.state = .live → aboveCursor p.cursor x = true →
        x = entryOf 0 0 .live ∨ (entryOf 0 0 .live).sequence < x.sequence) := by decide

theorem witness_GrantSendsForwarded :
    let e := transitOf 9 .read .oneOfOne .waiting
    let f := transitOf 8 .read .oneOfOne (.sent 3)
    let s := { inState .opened with transit := [f, e] }
    tagHeld 5 s = false ∧ copyWaits s = false ∧ walkerWaits s = false ∧ s.transit = [f] ++ e :: [] ∧
      (∀ x ∈ [f], x.state ≠ .waiting) ∧ e.state = .waiting := by decide

theorem witness_GrantSendsChunk :
    (let c := copyOf [{ number := 0, phase := .held 7 }, { number := 1, phase := .reading 2 }] 0 false
     let s := copying c
     tagHeld 5 s = false ∧ walkerWaits s = false ∧ s.transit = [] ∧ s.slots[(0 : SlotId)] = some c ∧
      c.stopping = false ∧ ({ number := 0, phase := .held 7 } : ChunkInProgress) ∈ c.chunks) ∧
    (let c := copyOf [{ number := 1, phase := .reading 2 }] 0 false
     let s := { copying c with starvation := 8 }
     tagHeld 5 s = false ∧ s.starvation = 8 ∧ s.slots[(0 : SlotId)] = some c ∧ c.chunks.length < 2 ∧
      c.nextRead < 64) := by
  decide +kernel

/-- The held chunk of `witness_GrantSendsChunk` is the lowest, and no chunk is held in its second state. -/
theorem witness_GrantSendsChunk_lowest :
    (∀ x ∈ (copyOf [{ number := 0, phase := .held 7 }, { number := 1, phase := .reading 2 }] 0 false).chunks,
      ∀ other, x.phase = .held other → x = { number := 0, phase := .held 7 } ∨ 0 < x.number) ∧
    ∀ x ∈ (copyOf [{ number := 1, phase := .reading 2 }] 0 false).chunks, ∀ data, x.phase ≠ .held data := by
  simp [copyOf]

theorem witness_CacheFillVictim :
    (withCached true State.reset).cache[(0 : Fin 32)] = some (cachedTile 0 true) ∧
    State.reset.cache[(31 : Fin 32)] = none ∧ (∀ i : Fin 32, State.reset.cache[i] = none) ∧
    ∀ i : Fin 32, ({ State.reset with
      cache := Vector.replicate 32 (some (cachedTile 1 true)) } : State).cache[i] ≠ none := by decide

/-- The one valid entry of `withCached` makes the cache's keys unique, and no entry of the reset cache is of any tile. -/
theorem witness_CacheFillVictim_keys :
    CacheKeysUnique (withCached true State.reset) ∧
    ∀ (i : Fin 32) (x : CacheEntry), State.reset.cache[i] = some x → ¬ (x.window = 0 ∧ x.tile = 0) := by
  constructor
  · intro i j a b hi hj _ _
    have key : ∀ n : Fin 32, (withCached true State.reset).cache[n] ≠ none → n = 0 := by
      intro n h
      by_contra hn
      simp only [withCached, State.reset, Fin.getElem_fin, Vector.getElem_set, Vector.getElem_replicate] at h
      exact h (if_neg fun e => hn (Fin.ext e.symm))
    rw [key i (by simp [-Fin.getElem_fin, hi]), key j (by simp [-Fin.getElem_fin, hj])]
  · intro i x h
    have key : ∀ n : Fin 32, State.reset.cache[n] = none := by decide
    rw [key i] at h
    cases h

theorem witness_WalkCompletionResolves :
    let s := { inState .opened with
      walkJobs := [jobOf (.issued 4)]
      ranks := [rankOf (readOf 1 1 0x2200) (.parked (.walk 0 1))] }
    s.draining = false ∧ 4 ∉ s.abandoned ∧ s.walkJobs.find? (fun k => walkTag k == some 4) = some (jobOf (.issued 4)) ∧
    ((0x6000104B : Beat).getLsbD 0 = true ∧ (0x6000104B : Beat).extractLsb' 40 24 = 0 ∧
      ∀ e ∈ s.changes, e.newFrame = (0x6000104B : Beat).extractLsb' 12 28 → e.state = .published) ∧
    ¬ (0x6000104A : Beat).getLsbD 0 = true := by decide

theorem witness_PublishWriteCompletesOrFaults :
    (let s := publishing (some 0) (some (writeOut 0))
     let q : Publication := { domain := 0, cursor := some 0 }
     s.draining = false ∧ 4 ∉ s.abandoned ∧ s.publishWrite = some (writeOut 0) ∧ findChange 0 0 s = some (entryOf 0 0 .live) ∧
      q ∈ s.publication ∧ entryOf 1 1 .live ∈ s.changes ∧ aboveCursor q.cursor (entryOf 1 1 .live) = true ∧
      ¬ ((entryOf 1 1 .live).window = 0 ∧ (entryOf 1 1 .live).tile = 0)) ∧
    (let s := publishing (some 1) (some (writeOut 1))
     s.draining = false ∧ 4 ∉ s.abandoned ∧ s.publishWrite = some (writeOut 1) ∧ entryOf 1 1 .live ∈ s.changes ∧
      findChange 0 1 s = some (entryOf 1 1 .live) ∧
      (entryOf 0 0 .live ∈ s.changes ∧ ¬ ((entryOf 0 0 .live).window = 0 ∧ (entryOf 0 0 .live).tile = 1)) ∧
      ∀ q ∈ s.publication, q.domain = (writeOut 1).domain → ∀ x ∈ s.changes, x.domain = (writeOut 1).domain →
        x.state = .live → aboveCursor q.cursor x = false) := by decide

theorem witness_LastPublishReleases :
    let s := { publishing (some 1) (some (writeOut 1)) with changes := [entryOf 0 0 .published, entryOf 1 1 .live] }
    s.draining = false ∧ 4 ∉ s.abandoned ∧ s.publishWrite = some (writeOut 1) ∧ KeysUnique s ∧ entryOf 1 1 .live ∈ s.changes ∧
      (∀ x ∈ s.changes, x.domain = (writeOut 1).domain → x = entryOf 1 1 .live ∨ x.state = .published) ∧
      s.changes.Perm (entriesOf 0 s) ∧ s.changes.Pairwise (fun a b => a.sequence < b.sequence) := by
  unfold KeysUnique
  decide

/-- A copy whose only chunk is reading, and one whose only chunk is writing, under link tag 5. -/
theorem witness_ChunkCompletionsAdvanceCopy :
    ∀ x : ChunkInProgress, (x = { number := 3, phase := .reading 5 } ∨ x = { number := 3, phase := .writing 5 7 }) →
      let c := copyOf [x] 2 false
      let s := copying c
      s.draining = false ∧ 5 ∉ s.abandoned ∧ s.slots[(0 : SlotId)] = some c ∧ c.stopping = false ∧ x ∈ c.chunks ∧
        chunkTag x = some 5 ∧ c.progress + 1 ≠ 64 ∧
        (∀ (j : SlotId) (c' : CopyJob), s.slots[j] = some c' → ∀ y ∈ c'.chunks, chunkTag y = some 5 →
          j = 0 ∧ y.number = 3) ∧
        ∀ y ∈ c.chunks, chunkTag y = some 5 → y = x := by
  rintro x (rfl | rfl) <;>
  refine ⟨rfl, List.not_mem_nil, rfl, rfl, by simp [copyOf], rfl, by decide, fun j c' h => ?_, by simp [copyOf]⟩ <;>
  · obtain rfl | rfl : j = 0 ∨ j = 1 := (by decide : ∀ i : SlotId, i = 0 ∨ i = 1) j
    · cases h
      simp [copyOf]
    · cases h

/-- The last chunk's write in a copy, a FAILED completion beside another outstanding chunk, and one with none. -/
theorem witness_CopyCompletesOrFails :
    let x : ChunkInProgress := { number := 63, phase := .writing 5 7 }
    let other : ChunkInProgress := { number := 62, phase := .reading 6 }
    (∀ c ∈ [copyOf [x] 63 false, copyOf [other, x] 62 false],
      let s := copying c
      s.draining = false ∧ 5 ∉ s.abandoned ∧ s.slots[(0 : SlotId)] = some c ∧ c.stopping = false ∧ x ∈ c.chunks ∧
        chunkTag x = some 5 ∧ findChange c.window c.tile s = some (entryOf 0 0 (.copying 0)) ∧
        ∀ (j : SlotId) (c' : CopyJob), s.slots[j] = some c' → ∀ y ∈ c'.chunks, chunkTag y = some 5 →
          j = 0 ∧ y = x) ∧
    (copyOf [x] 63 false).progress = 63 ∧
    (∃ y ∈ (copyOf [other, x] 62 false).chunks, chunkTag y ≠ none ∧ chunkTag y ≠ some 5) ∧
    ∀ y ∈ (copyOf [x] 63 false).chunks, chunkTag y = none ∨ chunkTag y = some 5 := by
  refine ⟨fun c hc => ?_, rfl, by decide, by decide⟩
  simp only [List.mem_cons, List.not_mem_nil, or_false] at hc
  rcases hc with rfl | rfl <;>
  refine ⟨rfl, List.not_mem_nil, rfl, rfl, by simp [copyOf], rfl, by decide, fun j c' h => ?_⟩ <;>
  · obtain rfl | rfl : j = 0 ∨ j = 1 := (by decide : ∀ i : SlotId, i = 0 ∨ i = 1) j
    · cases h
      simp [copyOf, chunkTag]
    · cases h

/-- A whole request, the first piece of two, and the second piece with the first one's result held. -/
theorem witness_TransitCompletionAnswers :
    let whole := transitOf 9 .read .oneOfOne (.sent 3)
    let first := transitOf 9 .read .oneOfTwo (.sent 3)
    let second := transitOf 9 .read .twoOfTwo .waiting
    let q : PieceResult := { initiator := 1, tag := 9, place := .oneOfTwo, status := .okay, beats := [7] }
    (let s := { inState .opened with transit := [whole] }
     s.draining = false ∧ 3 ∉ s.abandoned ∧
      s.transit.find? (fun x => decide (x.state = .sent 3)) = some whole ∧ s.collected = [] ∧
      ¬ ∃ x ∈ s.transit.eraseP (fun x => decide (x.state = .sent 3)), x.initiator = 1 ∧ x.tag = 9) ∧
    (let s := { inState .opened with transit := [first, second] }
     s.transit.find? (fun x => decide (x.state = .sent 3)) = some first ∧
      ∃ x ∈ s.transit.eraseP (fun x => decide (x.state = .sent 3)), x.initiator = 1 ∧ x.tag = 9) ∧
    (let s := { inState .opened with transit := [{ second with state := .sent 3 }], collected := [q] }
     s.transit.find? (fun x => decide (x.state = .sent 3)) = some { second with state := .sent 3 } ∧
      s.collected.filter (fun x => decide (x.initiator = 1 ∧ x.tag = 9)) = [q] ∧ q.status = .okay) := by decide

theorem witness_DrainTestMovesDomain :
    (let s := withEntries (.committing .drain) [entryOf 0 0 .live]
     s.domains[(0 : DomainId)].state = .committing .drain ∧ commitDrained 0 s = true ∧
      (entriesOf 0 s).any isLive = true) ∧
    (let s := inState (.committing .drain)
     commitDrained 0 s = true ∧ (entriesOf 0 s).any isLive = false ∧ entriesOf 0 s = []) ∧
    (let s := withEntries .rollingBack [entryOf 0 0 .live, entryOf 1 1 .live]
     s.domains[(0 : DomainId)].state = .rollingBack ∧ rollbackDrained 0 s = true ∧
      [entryOf 1 1 .live, entryOf 0 0 .live].Perm (entriesOf 0 s)) ∧
    commitDrained 0 (withEntries (.committing .drain) [entryOf 0 0 (.copying 0)]) = false := by decide

theorem witness_FrameRoundTrip :
    (Instr.settingWrite 0x0008 5).wellFormed = true ∧
      encodeFrame (.settingWrite 0x0008 5) = some [0x02, 0x00, 0x08, 0x00, 0x00, 0x00, 0x05] := by decide

theorem witness_FramesCarryCommandsAndReads :
    ([0x02, 0x00] : List Byte).length < 7 ∧ ([0x01, 0, 0, 0, 0, 0, 0] : List Byte).head? ≠ some 0x02 ∧
      decodeFrame [0x02, 0x00, 0x00, 0x00, 0x00, 0x00, 0x11] = some .flushCache ∧
      ∀ word, offsetOf word ≠ 0x0001 := by
  refine ⟨by decide, by decide, by decide, fun word => ?_⟩
  have key : ∀ w : RegisterWord, (offsetOf w).extractLsb' 0 2 = 0 := by
    intro w
    cases w <;> try decide
    case faultRecord k => revert k; decide
    case domainStatus d => revert d; decide
    case domainEpoch d => revert d; decide
    case domainSettings d v => revert d; cases v <;> decide
    case window d v => revert d; cases v <;> decide
    case initiator d v => revert d; cases v <;> decide
  intro h
  have := key word
  rw [h] at this
  exact absurd this (by decide)

theorem running_cache (i : Fin 32) : running.cache[i] = none := by
  simp [running, withEntries, inState, State.reset]

theorem running_slots (k : SlotId) : running.slots[k] = none := by
  simp [running, withEntries, inState, State.reset]

theorem running_steps : ∃ t, step running = .next t := ⟨_, rfl⟩

theorem witness_PoolBalanceKept :
    PoolBalanced running ∧ (∃ t, step running = .next t) ∧
      ResetBy .softResetDrainEnd drained (stateOf (exec .softResetDrainEnd drained)) :=
  ⟨by unfold PoolBalanced; decide, running_steps, witness_ResetBy.2.2.2.2⟩

theorem witness_JournalAccountsKept :
    (EntriesCounted running ∧ ClosedHoldsNone running ∧ QuotaRespected running ∧ SequencesOrdered running) ∧
      ∃ t, step running = .next t := by
  refine ⟨⟨?_, ?_, ?_, ?_⟩, running_steps⟩
  · unfold EntriesCounted; decide
  · unfold ClosedHoldsNone; decide
  · unfold QuotaRespected; decide
  · unfold SequencesOrdered; decide

theorem witness_TablesKept :
    (TableBounded running ∧ KeysUnique running ∧ CacheKeysUnique running ∧ WindowsFit running ∧
      DividerFits running ∧ LostFits running) ∧ ∃ t, step running = .next t := by
  refine ⟨⟨?_, ?_, ?_, ?_, ?_, ?_⟩, running_steps⟩
  · unfold TableBounded; decide
  · unfold KeysUnique; decide
  · intro i j a b h
    rw [running_cache] at h
    cases h
  · unfold WindowsFit; decide
  · unfold DividerFits; decide
  · unfold LostFits; decide

theorem witness_QueueDisciplineKept :
    (RanksBounded running ∧ OrderKept running ∧ TransitBounded running ∧ PairsUnique running) ∧
      ∃ t, step running = .next t := by
  refine ⟨⟨?_, ?_, ?_, ?_⟩, running_steps⟩
  · unfold RanksBounded; decide
  · unfold OrderKept; decide
  · unfold TransitBounded; decide
  · unfold PairsUnique; decide

theorem witness_EnginesKept :
    (WalkerSingle running ∧ JobsUnique running ∧ ChunksBounded running ∧ StarvationFits running ∧
      AbandonedApart running) ∧
      ∃ t, step running = .next t := by
  refine ⟨⟨?_, ?_, ?_, ?_, ?_⟩, running_steps⟩
  · unfold WalkerSingle; decide
  · unfold JobsUnique; decide
  · intro k c h
    rw [running_slots] at h
    cases h
  · unfold StarvationFits; decide
  · unfold AbandonedApart; decide

theorem running_epochSound : EpochSound running := by
  refine ⟨?_, ?_, ⟨?_, ?_⟩, ?_, ?_, ⟨?_, ?_, ?_⟩, ?_, ?_⟩
  · unfold KeysUnique; decide
  · unfold ClosedHoldsNone; decide
  · have key : ∀ e ∈ running.changes, e.state = .live := by decide
    intro e he k h
    rw [key e he] at h
    cases h
  · intro k c h
    rw [running_slots] at h
    cases h
  · unfold EntryStatesFit; decide
  · unfold DrainsHeld; decide
  · decide
  · decide
  · intro p h
    cases h
  · intro p h
    cases h
  · unfold DeadlinesFit; decide

theorem witness_EpochUnitKept : EpochSound running ∧ ∃ t, step running = .next t := ⟨running_epochSound, running_steps⟩

theorem witness_WaitsStayBacked :
    (EpochSound running ∧ RanksBounded running ∧ OrderKept running ∧ PiecesFit running ∧ WaitsBacked running) ∧
      ∃ t, step running = .next t := by
  refine ⟨⟨running_epochSound, ?_, ?_, ?_, ?_⟩, running_steps⟩
  · unfold RanksBounded; decide
  · unfold OrderKept; decide
  · unfold PiecesFit; decide
  · intro k hk
    simp only [running, List.mem_cons, List.not_mem_nil, or_false] at hk
    rcases hk with rfl | rfl
    · trivial
    · exact ⟨rankOf (readOf 1 1 0x2000) .eligible, by simp [running], rfl, rfl⟩

theorem witness_DrainKept :
    let s := { drained with transit := [transitOf 9 .read .oneOfOne (.sent 3)] }
    DrainFits s ∧ ∃ t, step s = .next t :=
  ⟨by unfold DrainFits; decide, _, rfl⟩

end Sys2Proof.Tests
end

