-- ==== Sys2Proof/Proofs/CommitAtMark.lean ====
section
/-! SUPPORT. COMMIT_AT_MARK and the mark event it waits for (R66, R167): the command's decision in each state, what the
delivery of a mark event to one domain leaves of another, and where it takes a MARKED domain. -/

namespace Sys2Proof.Machine

/-! ## The command -/

theorem takeCommand_draining {code : Byte} {f : State → ResultCode × State} {s : State} (h : s.draining = true) :
    takeCommand code f s = setResult .busy code s := by
  simp [takeCommand, h]

theorem takeCommand_decided {code : Byte} {f : State → ResultCode × State} {s : State} (h : s.draining = false) :
    takeCommand code f s = setResult (f s).1 code (f s).2 := by
  simp [takeCommand, h]

theorem decideCommitAtMark_opened {d : DomainId} {s : State} (h : s.domains[d].state = .opened) :
    decideCommitAtMark d s = (.done, setDomainState d .marked s) := by
  simp only [decideCommitAtMark, domainState, h]

theorem decideCommitAtMark_marked {d : DomainId} {s : State} (h : s.domains[d].state = .marked) :
    decideCommitAtMark d s = (.done, s) := by
  simp only [decideCommitAtMark, domainState, h]

theorem decideCommitAtMark_otherwise {d : DomainId} {s : State} (ho : s.domains[d].state ≠ .opened)
    (hm : s.domains[d].state ≠ .marked) : decideCommitAtMark d s = (.state, s) := by
  simp only [decideCommitAtMark, domainState]
  split
  · exact absurd ‹_› ho
  · exact absurd ‹_› hm
  all_goals rfl

theorem exec_commitAtMark (d : DomainId) (s : State) :
    exec (.commitAtMark d) s = .next (takeCommand 0x03 (decideCommitAtMark d) s) := rfl

theorem exec_commitAtMark_decided {d : DomainId} {s t : State} {result : ResultCode} (hs : s.draining = false)
    (h : decideCommitAtMark d s = (result, t)) :
    exec (.commitAtMark d) s = .next (setResult result 0x03 t) := by
  rw [exec_commitAtMark, takeCommand_decided hs, h]

/-! ## What a transition of one domain leaves of another -/

/-- A domain's record and entries are as they were. -/
structure DomainKept (d : DomainId) (s t : State) : Prop where
  record : t.domains[d] = s.domains[d]
  entries : entriesOf d t = entriesOf d s

theorem DomainKept.refl (d : DomainId) (s : State) : DomainKept d s s := ⟨rfl, rfl⟩

theorem DomainKept.trans {d : DomainId} {s t u : State} (h : DomainKept d s t) (k : DomainKept d t u) :
    DomainKept d s u :=
  ⟨k.record.trans h.record, k.entries.trans h.entries⟩

theorem domainKept_of_eq {d : DomainId} {s t : State} (hd : t.domains = s.domains) (hc : t.changes = s.changes) :
    DomainKept d s t :=
  ⟨by rw [hd], entriesOf_congr d hc⟩

/-- A commit's DRAIN condition looks at the domain's entries and at the Transit Table (R69). -/
theorem commitDrained_congr {d : DomainId} {s t : State} (he : entriesOf d t = entriesOf d s)
    (ht : t.transit = s.transit) : commitDrained d t = commitDrained d s := by
  simp only [commitDrained, he, ht]

section OtherDomain

variable {d e : DomainId} (h : e ≠ d) (s : State)
include h

theorem modifyDomain_keeps (f : DomainRecord → DomainRecord) : DomainKept d s (modifyDomain e f s) :=
  ⟨by rw [modifyDomain_domains, vector_set_get, if_neg h], entriesOf_congr d (modifyDomain_changes s e f)⟩

theorem setDomainState_keeps (st : DomainState) : DomainKept d s (setDomainState e st s) :=
  modifyDomain_keeps h s _

theorem enterOpen_keeps : DomainKept d s (enterOpen e s) :=
  (modifyDomain_keeps h s _).trans (domainKept_of_eq (loadDeadline_domains _ e) (loadDeadline_changes _ e))

theorem freeEntries_keeps : DomainKept d s (freeEntries e s) := by
  have removed : DomainKept d s { s with changes := s.changes.filter fun x => !decide (x.domain = e) } := by
    refine ⟨rfl, ?_⟩
    simp only [entriesOf, List.filter_filter]
    refine List.filter_congr fun x _ => ?_
    by_cases hx : x.domain = d
    · simp [hx, h.symm]
    · simp [hx]
  exact removed.trans (modifyDomain_keeps h _ _)

theorem releaseDomain_keeps : DomainKept d s (releaseDomain e s) := by
  have returned : DomainKept d s (appendFrames (releasedFrames e s) s) := domainKept_of_eq (by simp) (by simp)
  have freed := returned.trans (freeEntries_keeps h _)
  have latched := freed.trans
    (domainKept_of_eq (setLatch_domains _ (.commitDone e)) (setLatch_changes _ (.commitDone e)))
  unfold releaseDomain
  refine DomainKept.trans ?_ (domainKept_of_eq (endDomainWaits_domains _ e) (endDomainWaits_changes _ e))
  split
  · exact latched.trans (enterOpen_keeps h _)
  · exact latched.trans (setDomainState_keeps h _ _)

theorem enterFaulted_keeps : DomainKept d s (enterFaulted e s) :=
  (setDomainState_keeps h s .faulted).trans (domainKept_of_eq (by simp [enterFaulted]) (by simp))

theorem endPass_keeps : DomainKept d s (endPass e s) := by
  unfold endPass
  split
  · exact enterFaulted_keeps h s
  · exact releaseDomain_keeps h s

theorem startPhase_keeps (st : DomainState) : DomainKept d s (stopDeadline e (setDomainState e st s)) :=
  (setDomainState_keeps h s st).trans (domainKept_of_eq (stopDeadline_domains _ e) (stopDeadline_changes _ e))

theorem enterPublish_keeps : DomainKept d s (enterPublish e s) := by
  have published := startPhase_keeps h s (.committing .publish)
  unfold enterPublish
  split
  · exact published.trans (domainKept_of_eq rfl rfl)
  · exact published.trans (endPass_keeps h _)

theorem testCommitDrain_keeps : DomainKept d s (testCommitDrain e s) := by
  unfold testCommitDrain
  split
  · exact (domainKept_of_eq (endDomainWaits_domains s e) (endDomainWaits_changes s e)).trans (enterPublish_keeps h _)
  · exact .refl d s

theorem enterCommit_keeps : DomainKept d s (enterCommit e s) :=
  (startPhase_keeps h s (.committing .drain)).trans (testCommitDrain_keeps h _)

theorem deliverMark_keeps : DomainKept d s (deliverMark e s) := by
  unfold deliverMark
  split
  · exact enterCommit_keeps h s
  · split
    · exact enterCommit_keeps h s
    · exact .refl d s
  all_goals exact .refl d s

end OtherDomain

/-! ## Where a commit takes its own domain -/

theorem domainState_congr {d : DomainId} {s t : State} (h : t.domains = s.domains) :
    domainState d t = domainState d s := by
  simp only [domainState, h]

theorem domainState_enterOpen (d : DomainId) (s : State) : domainState d (enterOpen d s) = .opened := by
  simp [domainState, enterOpen]

theorem releaseDomain_not_marked (d : DomainId) (s : State) : domainState d (releaseDomain d s) ≠ .marked := by
  unfold releaseDomain
  rw [domainState_congr (endDomainWaits_domains _ d)]
  split
  · simp [domainState_enterOpen]
  · simp [setDomainState_same]

theorem domainState_enterFaulted (d : DomainId) (s : State) : domainState d (enterFaulted d s) = .faulted := by
  simp [domainState]

theorem endPass_not_marked (d : DomainId) (s : State) : domainState d (endPass d s) ≠ .marked := by
  unfold endPass
  split
  · simp [domainState_enterFaulted]
  · exact releaseDomain_not_marked d s

theorem domainState_startPhase (d : DomainId) (st : DomainState) (s : State) :
    domainState d (stopDeadline d (setDomainState d st s)) = st :=
  (domainState_congr (stopDeadline_domains _ d)).trans (setDomainState_same d st s)

theorem enterPublish_not_marked (d : DomainId) (s : State) : domainState d (enterPublish d s) ≠ .marked := by
  unfold enterPublish
  split
  · have state := domainState_startPhase d (.committing .publish) s
    exact fun marked => nomatch state.symm.trans marked
  · exact endPass_not_marked d _

theorem commitDrained_startPhase (d : DomainId) (st : DomainState) (s : State) :
    commitDrained d (stopDeadline d (setDomainState d st s)) = commitDrained d s :=
  commitDrained_congr (entriesOf_congr d (by simp)) (by simp)

/-- A commit whose DRAIN condition does not hold stays in DRAIN (R68, R69). -/
theorem domainState_enterCommit_of_not_drained {d : DomainId} {s : State} (h : commitDrained d s = false) :
    domainState d (enterCommit d s) = .committing .drain := by
  simp [enterCommit, testCommitDrain, commitDrained_startPhase, h, domainState_startPhase]

theorem enterCommit_not_marked (d : DomainId) (s : State) : domainState d (enterCommit d s) ≠ .marked := by
  unfold enterCommit testCommitDrain
  split
  · exact enterPublish_not_marked d _
  · simp [domainState_startPhase]

theorem deliverMark_of_marked {d : DomainId} {s : State} (h : domainState d s = .marked) :
    deliverMark d s = enterCommit d s := by
  simp only [deliverMark, h]

/-! ## The mark event -/

theorem foldl_deliverMark_keeps {d : DomainId} (ds : List DomainId) (h : d ∉ ds) (s : State) :
    DomainKept d s (ds.foldl (fun t e => deliverMark e t) s) := by
  induction ds generalizing s with
  | nil => exact .refl d s
  | cons e ds ih =>
    rw [List.mem_cons, not_or] at h
    obtain ⟨hne, hds⟩ := h
    exact (deliverMark_keeps (Ne.symm hne) s).trans (ih hds _)

/-- Of the deliveries to distinct domains one is a domain's own, and those before and after it leave the domain's record
and entries as they are. -/
theorem foldl_deliverMark_reaches {d : DomainId} {ds : List DomainId} (hd : d ∈ ds) (hnodup : ds.Nodup) (s : State) :
    ∃ t, DomainKept d s t ∧ t.transit = s.transit ∧
      DomainKept d (deliverMark d t) (ds.foldl (fun t e => deliverMark e t) s) := by
  obtain ⟨before, after, rfl⟩ := List.append_of_mem hd
  have hother : d ∉ before ++ after := (List.nodup_middle.mp hnodup).notMem
  rw [List.mem_append, not_or] at hother
  obtain ⟨hbefore, hafter⟩ := hother
  have frame := foldl_frame _ (fun s e => deliverMark_frame e s) before s
  refine ⟨_, foldl_deliverMark_keeps before hbefore s, frame.transit, ?_⟩
  rw [List.foldl_append, List.foldl_cons]
  exact foldl_deliverMark_keeps after hafter _

/-- A mark event reaches a domain as it stood when the event came (R167). -/
theorem takeMark_reaches (order : List DomainId) (d : DomainId) (s : State) :
    ∃ t, DomainKept d s t ∧ t.transit = s.transit ∧ DomainKept d (deliverMark d t) (takeMark order s) := by
  obtain ⟨t, before, htransit, after⟩ :=
    foldl_deliverMark_reaches (mem_domainOrder order d) (domainOrder_nodup order)
      { s with lineLevel := activeLevel s.edge, markCounter := s.markCounter + 1 }
  exact ⟨t, ⟨before.record, before.entries⟩, htransit, after⟩

/-- The next mark event starts the commit of a MARKED domain (R66, R167). -/
theorem takeMark_starts_commit {d : DomainId} {s : State} (order : List DomainId) (h : domainState d s = .marked) :
    domainState d (takeMark order s) ≠ .marked ∧
      (commitDrained d s = false → domainState d (takeMark order s) = .committing .drain) := by
  obtain ⟨t, before, htransit, after⟩ := takeMark_reaches order d s
  have hmarked : domainState d t = .marked := (congrArg (·.state) before.record).trans h
  have hstate : domainState d (takeMark order s) = domainState d (enterCommit d t) :=
    (congrArg (·.state) after.record).trans (by rw [deliverMark_of_marked hmarked]; rfl)
  rw [hstate]
  refine ⟨enterCommit_not_marked d t, fun hdrained => domainState_enterCommit_of_not_drained ?_⟩
  exact (commitDrained_congr before.entries htransit).trans hdrained

theorem exec_markEvent_of_inactive {s : State} (order : List DomainId) (h : s.lineLevel = inactiveLevel s.edge) :
    exec (.markEvent order) s = .next (takeMark order s) :=
  congrArg Host.Outcome.next (if_pos h)

/-- Settles O10: the command by its decision in each state, and the mark event by the one delivery that reaches the
domain. -/
theorem commitAtMarkArms : Obligations.CommitAtMarkArms := by
  intro d s
  refine ⟨fun hdrain => ?_, fun hs => ⟨fun ho => ?_, fun hm => ?_, fun ho hm => ?_⟩, fun hm hline order => ?_⟩
  · exact congrArg Host.Outcome.next (takeCommand_draining hdrain)
  · exact exec_commitAtMark_decided hs (decideCommitAtMark_opened ho)
  · exact exec_commitAtMark_decided hs (decideCommitAtMark_marked hm)
  · exact exec_commitAtMark_decided hs (decideCommitAtMark_otherwise ho hm)
  · exact ⟨_, exec_markEvent_of_inactive order hline, takeMark_starts_commit order hm⟩

end Sys2Proof.Machine
end

