-- ==== Sys2Proof/Proofs/FlushCache.lean ====
section
/-! SUPPORT. FLUSH_CACHE and the walk that completes after it (R177, R25, R29): the entry that a fill of an empty cache
takes, and what the completion of an issued walk leaves in the cache. -/

namespace Sys2Proof.Machine

/-! ## The command -/

theorem exec_flushCache_decided {s : State} (h : s.draining = false) :
    exec .flushCache s = .next (setResult .done 0x11 (flushEntries s)) :=
  congrArg Host.Outcome.next (takeCommand_decided h)

/-! ## The fill of an empty cache -/

section EmptyCache

variable {s : State} (h : s.cache = Vector.replicate 32 none)
include h

theorem cacheSlotOf_of_empty (w : WindowId) (tile : Nat) : cacheSlotOf w tile s = none := by
  refine List.find?_eq_none.mpr fun i _ => ?_
  simp only [h, vector_replicate_get, Option.any_none, Bool.false_eq_true, not_false_eq_true]

theorem lowestInvalid_of_empty : lowestInvalid s = some 0 := by
  simp only [lowestInvalid, h, vector_replicate_get]
  rfl

/-- The first fill of an empty cache takes entry 0, wherever the pointer stands (R25). -/
theorem fillVictim_of_empty (w : WindowId) (tile : Nat) : fillVictim w tile s = 0 := by
  simp only [fillVictim, cacheSlotOf_of_empty h, lowestInvalid_of_empty h, Option.getD_some]

theorem fillCache_of_empty (c : CacheEntry) : (fillCache c s).cache[(0 : Fin 32)] = some c := by
  rw [fillCache_cache, vector_set_get, if_pos (fillVictim_of_empty h _ _)]

end EmptyCache

/-! ## The completion of an issued walk -/

theorem endDrainIfDone_of_not_draining {s : State} (h : s.draining = false) : endDrainIfDone s = s := by
  simp [endDrainIfDone, h]

theorem exec_walkCompletion_issued {tag : LinkTag} {j : WalkJob} {s : State} (htag : tag ∉ s.abandoned)
    (hjob : s.walkJobs.find? (fun k => walkTag k == some tag) = some j) (status : Completion) (entry : Beat) :
    exec (.walkCompletion tag status entry) s = .next (endDrainIfDone (completeWalk j status entry s)) := by
  simp [exec, execWalkCompletion, htag, hjob]

/-- Outside a soft reset drain the completion is the resolution of the walk's job and no more. -/
theorem exec_walkCompletion_of_not_draining {tag : LinkTag} {j : WalkJob} {s : State} (hdrain : s.draining = false)
    (htag : tag ∉ s.abandoned) (hjob : s.walkJobs.find? (fun k => walkTag k == some tag) = some j)
    (status : Completion) (entry : Beat) :
    exec (.walkCompletion tag status entry) s = .next (completeWalk j status entry s) := by
  have kept : (completeWalk j status entry s).draining = false :=
    (completeWalk_frame j status entry s).draining.trans hdrain
  rw [exec_walkCompletion_issued htag hjob, endDrainIfDone_of_not_draining kept]

theorem walkUsable_eq_true_iff {entry : Beat} {s : State} :
    walkUsable entry s = true ↔ mapUsable entry = true ∧ isUnpublishedFrame (mapFrame entry) s = false := by
  simp [walkUsable]

theorem completeWalk_of_usable {entry : Beat} {s : State} (h : walkUsable entry s = true) (j : WalkJob) :
    completeWalk j .okay entry s =
      walkFill j entry { s with walkJobs := s.walkJobs.eraseP (jobKey j.window j.tile) } :=
  if_pos h

/-- A walk that fills an empty cache leaves the translation that it read in entry 0 (R25, R34). -/
theorem walkFill_of_empty {s : State} (h : s.cache = Vector.replicate 32 none) (j : WalkJob) (entry : Beat) :
    (walkFill j entry s).cache[(0 : Fin 32)] =
      some { window := j.window, tile := j.tile, frame := mapFrame entry, writable := mapWritable entry,
             sw := mapSw entry } := by
  rw [walkFill, endWaits_cache]
  exact fillCache_of_empty h _

/-- Outside a soft reset drain a walk that completes with a usable entry over an empty cache fills entry 0. -/
theorem walkCompletion_fills_empty {tag : LinkTag} {j : WalkJob} {entry : Beat} {s : State}
    (hdrain : s.draining = false) (hempty : s.cache = Vector.replicate 32 none) (htag : tag ∉ s.abandoned)
    (hjob : s.walkJobs.find? (fun k => walkTag k == some tag) = some j) (husable : walkUsable entry s = true) :
    ∃ t, exec (.walkCompletion tag .okay entry) s = .next t ∧
      t.cache[(0 : Fin 32)] =
        some { window := j.window, tile := j.tile, frame := mapFrame entry, writable := mapWritable entry,
               sw := mapSw entry } := by
  refine ⟨_, exec_walkCompletion_of_not_draining hdrain htag hjob .okay entry, ?_⟩
  rw [completeWalk_of_usable husable]
  exact walkFill_of_empty hempty j entry

/-- Settles O13: the command's decision is the flush, and the walk that completes after it finds every entry invalid. -/
theorem flushCacheEmptiesCache : Obligations.FlushCacheEmptiesCache := by
  intro s hdrain
  refine ⟨exec_flushCache_decided hdrain, fun tag j entry htag hjob husable hframe => ?_⟩
  exact walkCompletion_fills_empty (s := setResult .done 0x11 (flushEntries s)) hdrain rfl htag hjob
    (walkUsable_eq_true_iff.mpr ⟨husable, hframe⟩)

end Sys2Proof.Machine
end

