-- ==== Sys2Proof/Proofs/AlertLine.lean ====
section
/-! SUPPORT. The ALERT line (R172, R173): its reading as an enabled latch that is set, what a write of the enables does
to it, and the latches after every reset. -/

namespace Sys2Proof.Machine

/-! ## The line and the latches -/

/-- Every position of the latch word is a latch's (Table 12-5). -/
theorem exists_alertBit_eq {i : Nat} (h : i < 18) : ∃ a : Alert, alertBit a = i := by
  have ranges : i = 0 ∨ i = 1 ∨ (2 ≤ i ∧ i < 6) ∨ (6 ≤ i ∧ i < 10) ∨ (10 ≤ i ∧ i < 14) ∨ (14 ≤ i ∧ i < 18) := by
    omega
  obtain hi | hi | ⟨lo, hi⟩ | ⟨lo, hi⟩ | ⟨lo, hi⟩ | ⟨lo, hi⟩ := ranges
  · exact ⟨.fault, hi.symm⟩
  · exact ⟨.poolLow, hi.symm⟩
  · exact ⟨.deadline ⟨i - 2, by omega⟩, Nat.add_sub_of_le lo⟩
  · exact ⟨.commitDone ⟨i - 6, by omega⟩, Nat.add_sub_of_le lo⟩
  · exact ⟨.rollbackDone ⟨i - 10, by omega⟩, Nat.add_sub_of_le lo⟩
  · exact ⟨.domainFaulted ⟨i - 14, by omega⟩, Nat.add_sub_of_le lo⟩

theorem alertBit_lt (a : Alert) : alertBit a < 18 := by
  cases a <;> simp only [alertBit] <;> omega

/-- The line is active just while an enabled latch is set (R173). -/
theorem alertLine_eq_true_iff (s : State) :
    alertLine s = true ↔
      ∃ a : Alert, s.latches.getLsbD (alertBit a) = true ∧ s.enables.getLsbD (alertBit a) = true := by
  constructor
  · intro active
    have ⟨i, hi, differs⟩ : ∃ i, ∃ _ : i < 18, (s.latches &&& s.enables).getLsbD i ≠ (0#18).getLsbD i := by
      by_contra hnone
      push Not at hnone
      exact (bne_iff_ne.mp active) (BitVec.eq_of_getLsbD_eq hnone)
    obtain ⟨a, rfl⟩ := exists_alertBit_eq hi
    exact ⟨a, by simpa using differs⟩
  · rintro ⟨a, hlatch, henable⟩
    refine bne_iff_ne.mpr fun zero => ?_
    have cleared := congrArg (·.getLsbD (alertBit a)) zero
    simp [hlatch, henable] at cleared

theorem alertLine_of_no_latch {s : State} (h : s.latches = 0) : alertLine s = false := by
  simp [alertLine, h]

/-! ## A write of the enables -/

/-- A write of the enables that is accepted sets the enables and leaves the latches; one that is refused says so
(R172, R175). -/
theorem writeEnables_cases (data : Word) (s : State) :
    ((writeEnables data s).enables = data.extractLsb' 0 18 ∧ (writeEnables data s).latches = s.latches) ∨
      (writeEnables data s).lastWrite = .refused := by
  unfold writeEnables
  split
  · exact .inl ⟨rfl, rfl⟩
  · exact .inr rfl

theorem alertLine_writeEnables {a : Alert} {data : Word} {s : State} (hlatch : s.latches.getLsbD (alertBit a) = true)
    (hdata : data.getLsbD (alertBit a) = true) (haccepted : (writeEnables data s).lastWrite = .accepted) :
    alertLine (writeEnables data s) = true := by
  obtain ⟨henables, hlatches⟩ | hrefused := writeEnables_cases data s
  · refine (alertLine_eq_true_iff _).mpr ⟨a, by rw [hlatches, hlatch], ?_⟩
    simp [henables, alertBit_lt, hdata]
  · exact nomatch hrefused.symm.trans haccepted

/-! ## The latches after a reset -/

/-- The test for the drain's end either goes on draining or gives the latches their reset value (R172, R178). -/
theorem latches_endDrainIfDone {s : State} (before : s.draining = true) (after : (endDrainIfDone s).draining = false) :
    (endDrainIfDone s).latches = 0 := by
  unfold endDrainIfDone at after ⊢
  split
  · rfl
  · rw [if_neg ‹_›, before] at after
    exact nomatch after

/-- What every completion does to the draining bit: nothing, up to the test for the drain's end (R178). -/
theorem exec_completion_cases {c : Instr} {s t : State} (hc : IsCompletion c) (h : exec c s = .next t) :
    ∃ u : State, u.draining = s.draining ∧ (t = u ∨ t = endDrainIfDone u) := by
  obtain ⟨tag, status, entry, rfl⟩ | ⟨tag, status, rfl⟩ | ⟨tag, status, data, rfl⟩ | ⟨tag, status, beats, rfl⟩ := hc
  · simp only [exec, execWalkCompletion] at h
    split at h
    · cases h; exact ⟨_, dropAbandoned_draining .., .inl rfl⟩
    split at h
    · cases h; exact ⟨s, rfl, .inl rfl⟩
    · cases h; exact ⟨_, (completeWalk_frame ..).draining, .inr rfl⟩
  · simp only [exec, execPublishWriteCompletion] at h
    split at h
    · cases h; exact ⟨_, dropAbandoned_draining .., .inl rfl⟩
    split at h
    · cases h; exact ⟨s, rfl, .inl rfl⟩
    · split at h
      · cases h
        refine ⟨_, ?_, .inr rfl⟩
        exact ((publishOutcome_frame ..).trans (continuePass_frame ..)).draining
      · cases h; exact ⟨s, rfl, .inl rfl⟩
  · simp only [exec, execChunkCompletion] at h
    split at h
    · cases h; exact ⟨_, dropAbandoned_draining .., .inl rfl⟩
    split at h
    · cases h; exact ⟨s, rfl, .inl rfl⟩
    · cases h
      exact ⟨_, ((completeChunk_frame ..).trans (settleStarvation_frame ..)).draining, .inr rfl⟩
  · simp only [exec, execTransitCompletion] at h
    split at h
    · cases h; exact ⟨_, dropAbandoned_draining .., .inl rfl⟩
    split at h
    · cases h; exact ⟨s, rfl, .inl rfl⟩
    · cases h; exact ⟨_, (completeTransit_frame ..).draining, .inr rfl⟩

theorem exec_resetAll_draining {s : State} (h : s.draining = true) :
    exec .resetAll s = .next (setResult .busy 0x1F s) :=
  congrArg Host.Outcome.next ((if_pos h).trans (takeCommand_draining h))

theorem exec_resetAll_decided {s : State} (h : s.draining = false) :
    exec .resetAll s = .next (endDrainIfDone (setResult .done 0x1F (beginDrain s))) :=
  congrArg Host.Outcome.next ((if_neg (by simp [h])).trans (congrArg endDrainIfDone (takeCommand_decided h)))

theorem latches_of_resetAll {s t : State} (h : exec .resetAll s = .next t) (ht : t.draining = false) :
    t.latches = 0 := by
  cases hs : s.draining with
  | true =>
    cases (exec_resetAll_draining hs).symm.trans h
    exact nomatch hs.symm.trans ht
  | false =>
    cases (exec_resetAll_decided hs).symm.trans h
    exact latches_endDrainIfDone rfl ht

theorem latches_of_drain_end {c : Instr} {s t : State} (hc : IsCompletion c ∨ c = .softResetDrainEnd)
    (h : exec c s = .next t) (hs : s.draining = true) (ht : t.draining = false) : t.latches = 0 := by
  have ⟨u, hu, htu⟩ : ∃ u : State, u.draining = s.draining ∧ (t = u ∨ t = endDrainIfDone u) := by
    obtain hc | rfl := hc
    · exact exec_completion_cases hc h
    · cases h; exact ⟨s, rfl, .inr rfl⟩
  obtain rfl | rfl := htu
  · exact nomatch (hu.trans hs).symm.trans ht
  · exact latches_endDrainIfDone (hu.trans hs) ht

/-- Every reset clears the alert latches, in whatever event it falls (R172, R178). -/
theorem latches_of_resetBy {c : Instr} {s t : State} (h : ResetBy c s t) : t.latches = 0 := by
  obtain ⟨hexec, ⟨line, rfl | rfl⟩ | ⟨rfl, ht⟩ | ⟨hc, hs, ht⟩⟩ := h
  · cases hexec; rfl
  · cases hexec; rfl
  · exact latches_of_resetAll hexec ht
  · exact latches_of_drain_end hc hexec hs ht

/-- Settles O22: the line read as an enabled latch that is set, the write of the enables by its two outcomes, and the
resets by the latches that they clear. -/
theorem alertLineFollowsLatches : Obligations.AlertLineFollowsLatches := by
  refine ⟨alertLine_eq_true_iff, fun a data s t hlatch hdata hexec haccepted => ?_, fun c s t hreset => ?_⟩
  · cases hexec
    exact alertLine_writeEnables hlatch hdata haccepted
  · exact alertLine_of_no_latch (latches_of_resetBy hreset)

end Sys2Proof.Machine
end

