-- ==== Sys2Proof/Proofs/PoolBalance.lean ====
section
/-! SUPPORT. The balance of the frame pool (R101): which changes move frames between the Free Frame Queue and the Change
Table, and what a reset leaves of the pool. -/

namespace Sys2Proof.Machine

/-! ## The entries of a domain leave the Change Table -/

/-- The entries of a domain and the others make up the Change Table. -/
theorem entriesOf_length_add (d : DomainId) (s : State) :
    (entriesOf d s).length + (s.changes.filter fun e => !decide (e.domain = d)).length = s.changes.length := by
  have parts := List.length_eq_length_filter_add (l := s.changes) fun e => decide (e.domain = d)
  exact parts.symm

theorem releasedFrames_length (d : DomainId) (s : State) : (releasedFrames d s).length = (entriesOf d s).length := by
  rw [releasedFrames, List.length_map, (bySequence_perm _).length_eq]

theorem discardedFrames_length (d : DomainId) (s : State) :
    (discardedFrames d s).length = (entriesOf d s).length := by
  rw [discardedFrames, List.length_map, List.length_reverse, (bySequence_perm _).length_eq]

/-- The pool balance looks at the Free Frame Queue, the Change Table's length and the pool size. -/
theorem poolBalanced_of_eq {s t : State} (hf : t.freeFrames = s.freeFrames)
    (hc : t.changes.length = s.changes.length) (hp : t.poolSize = s.poolSize) (h : PoolBalanced s) : PoolBalanced t := by
  unfold PoolBalanced at *
  rw [hf, hc, hp, h]

theorem releaseDomain_changes (d : DomainId) (s : State) :
    (releaseDomain d s).changes = s.changes.filter fun e => !decide (e.domain = d) := by
  unfold releaseDomain
  rw [endDomainWaits_changes]
  split <;> simp [enterOpen]

theorem releaseDomain_freeFrames (d : DomainId) (s : State) :
    (releaseDomain d s).freeFrames = s.freeFrames ++ releasedFrames d s := by
  unfold releaseDomain
  rw [endDomainWaits_freeFrames]
  split <;> simp [enterOpen]

theorem discardDomain_changes (d : DomainId) (s : State) :
    (discardDomain d s).changes = s.changes.filter fun e => !decide (e.domain = d) := by
  simp [discardDomain]

theorem discardDomain_freeFrames (d : DomainId) (s : State) :
    (discardDomain d s).freeFrames = s.freeFrames ++ discardedFrames d s := by
  simp [discardDomain]

/-- A RELEASE returns as many frames as it removes entries (R77). -/
theorem releaseDomain_keeps_pool {d : DomainId} {s : State} (h : PoolBalanced s) : PoolBalanced (releaseDomain d s) := by
  have parts := entriesOf_length_add d s
  unfold PoolBalanced at *
  rw [releaseDomain_freeFrames, releaseDomain_changes, (releaseDomain_frame d s).poolSize, List.length_append,
    releasedFrames_length]
  omega

/-- A DISCARD returns as many frames as it removes entries (R94). -/
theorem discardDomain_keeps_pool {d : DomainId} {s : State} (h : PoolBalanced s) : PoolBalanced (discardDomain d s) := by
  have parts := entriesOf_length_add d s
  unfold PoolBalanced at *
  rw [discardDomain_freeFrames, discardDomain_changes, (discardDomain_frame d s).poolSize, List.length_append,
    discardedFrames_length]
  omega

theorem endPass_keeps_pool {d : DomainId} {s : State} (h : PoolBalanced s) : PoolBalanced (endPass d s) := by
  unfold endPass
  split
  · exact poolBalanced_of_eq (by simp) (by simp) (by simp) h
  · exact releaseDomain_keeps_pool h

theorem enterPublish_keeps_pool {d : DomainId} {s : State} (h : PoolBalanced s) : PoolBalanced (enterPublish d s) := by
  unfold enterPublish
  split
  · exact poolBalanced_of_eq (by simp) (by simp) (by simp) h
  · exact endPass_keeps_pool (poolBalanced_of_eq (by simp) (by simp) (by simp) h)

theorem continuePass_keeps_pool {d : DomainId} {s : State} (h : PoolBalanced s) : PoolBalanced (continuePass d s) := by
  unfold continuePass
  split
  · exact h
  · exact endPass_keeps_pool h

/-! ## One entry comes or goes -/

theorem createEntry_keeps_pool {d : DomainId} {c : CacheEntry} {f : Frame} {k : SlotId} {s : State}
    (hf : s.freeFrames.head? = some f) (h : PoolBalanced s) : PoolBalanced (createEntry d c f k s) := by
  obtain ⟨fs, hfs⟩ := List.head?_eq_some_iff.mp hf
  unfold PoolBalanced at *
  rw [hfs] at h
  simp only [createEntry_freeFrames, createEntry_changes, createEntry_poolSize, hfs, List.tail_cons,
    List.length_append, List.length_cons, List.length_nil] at h ⊢
  omega

theorem removeEntry_keeps_pool {e : ChangeEntry} {s : State} (he : e ∈ s.changes) (h : PoolBalanced s) :
    PoolBalanced (removeEntry e s) := by
  have removed : (s.changes.eraseP (changeKey e.window e.tile)).length = s.changes.length - 1 :=
    List.length_eraseP_of_mem he (by simp [changeKey])
  have some_entry : 0 < s.changes.length := List.length_pos_of_mem he
  unfold PoolBalanced at *
  simp only [removeEntry_freeFrames, removeEntry_changes, removeEntry_poolSize, List.length_append,
    List.length_singleton, removed]
  omega

theorem poolIdle_changes {s : State} (h : poolIdle s = true) : s.changes = [] := by
  simp only [poolIdle, Bool.and_eq_true, List.isEmpty_iff] at h
  exact h.2

theorem findChange_mem {w : WindowId} {tile : Nat} {s : State} {e : ChangeEntry} (h : findChange w tile s = some e) :
    e ∈ s.changes ∧ e.window = w ∧ e.tile = tile := by
  have key := List.find?_some h
  simp only [changeKey, decide_eq_true_eq] at key
  exact ⟨List.mem_of_find?_eq_some h, key⟩

/-! ## Every move -/

theorem move_keeps_pool (s t : State) (m : Move s t) (h : PoolBalanced s) : PoolBalanced t := by
  cases m with
  | poolLoad fs s hi =>
    simp [PoolBalanced, poolIdle_changes hi]
  | publishOk p s _ => exact continuePass_keeps_pool (poolBalanced_of_eq (by simp) (by simp) (by simp) h)
  | publishEnd p s _ => exact continuePass_keeps_pool h
  | publish d s _ => exact enterPublish_keeps_pool h
  | discard d s _ _ => exact discardDomain_keeps_pool h
  | createEntry d c f k s _ _ _ _ hf _ _ => exact createEntry_keeps_pool hf h
  | copyFailed k c c' e s _ _ he =>
    exact poolBalanced_of_eq (by simp) (by simp) (by simp) (removeEntry_keeps_pool (findChange_mem he).1 h)
  | endDrain s _ _ => rfl
  | hardReset cause line s => rfl
  | outside hf => exact poolBalanced_of_eq hf.freeFrames (by rw [hf.changes]) hf.poolSize h
  | _ => exact poolBalanced_of_eq (by simp [enterOpen]) (by simp [enterOpen]) (by simp [enterOpen]) h

/-! ## Resets -/

/-- A drain that ends in an event ends by taking the reset values. -/
theorem endDrainIfDone_eq_endDrain {s : State} (before : s.draining = true)
    (after : (endDrainIfDone s).draining = false) : endDrainIfDone s = endDrain s := by
  unfold endDrainIfDone at after ⊢
  split
  · rfl
  · rw [if_neg ‹_›, before] at after
    exact nomatch after

/-- The event of a reset leaves what a power-on or pin reset leaves, or what the end of a drain does (R178). -/
theorem resetBy_cases {c : Instr} {s t : State} (h : ResetBy c s t) :
    (∃ cause line, t = hardReset cause line s) ∨ ∃ u, t = endDrain u := by
  obtain ⟨hexec, ⟨line, rfl | rfl⟩ | ⟨rfl, ht⟩ | ⟨hc, hs, ht⟩⟩ := h
  · cases hexec; exact .inl ⟨_, _, rfl⟩
  · cases hexec; exact .inl ⟨_, _, rfl⟩
  · cases hs : s.draining with
    | true =>
      cases (exec_resetAll_draining hs).symm.trans hexec
      exact nomatch hs.symm.trans ht
    | false =>
      cases (exec_resetAll_decided hs).symm.trans hexec
      exact .inr ⟨_, endDrainIfDone_eq_endDrain rfl ht⟩
  · have ⟨u, hu, htu⟩ : ∃ u : State, u.draining = s.draining ∧ (t = u ∨ t = endDrainIfDone u) := by
      obtain hc | rfl := hc
      · exact exec_completion_cases hc hexec
      · cases hexec; exact ⟨s, rfl, .inr rfl⟩
    obtain rfl | rfl := htu
    · exact nomatch (hu.trans hs).symm.trans ht
    · exact .inr ⟨u, endDrainIfDone_eq_endDrain (hu.trans hs) ht⟩

/-- Settles O52: every move keeps the balance, and a reset empties the pool and the Change Table. -/
theorem poolBalanceKept : Obligations.PoolBalanceKept := by
  refine ⟨fun s t hs hstep => step_keeps move_keeps_pool hstep hs, fun c s t hreset => ?_⟩
  obtain ⟨cause, line, rfl⟩ | ⟨u, rfl⟩ := resetBy_cases hreset
  · exact ⟨rfl, rfl, rfl⟩
  · exact ⟨rfl, rfl, rfl⟩

end Sys2Proof.Machine
end

