-- ==== Sys2Proof/Proofs/Tables.lean ====
section
/-! SUPPORT. The bounds of the tables and the uniqueness of their keys (R24, R45, R162, R170): what each change can do to
the Change Table's keys and to the Translation Cache. -/

namespace Sys2Proof.Machine

/-! ## The Change Table -/

/-- The tile that a change entry is of. -/
def tileOf (e : ChangeEntry) : WindowId × Nat := (e.window, e.tile)

theorem keysUnique_iff (s : State) : KeysUnique s ↔ (s.changes.map tileOf).Nodup := Iff.rfl

/-- No tile has gained a change entry. -/
def TilesWithin (s t : State) : Prop := (t.changes.map tileOf).Sublist (s.changes.map tileOf)

theorem TilesWithin.trans {s t u : State} (h : TilesWithin s t) (k : TilesWithin t u) : TilesWithin s u :=
  List.Sublist.trans k h

theorem tilesWithin_of_eq {s t : State} (h : t.changes = s.changes) : TilesWithin s t := by
  rw [TilesWithin, h]

theorem tilesWithin_of_sublist {s t : State} (h : t.changes.Sublist s.changes) : TilesWithin s t := h.map _

theorem setEntryState_tilesWithin (w : WindowId) (tile : Nat) (st : EntryState) (s : State) :
    TilesWithin s (setEntryState w tile st s) := by
  rw [TilesWithin, setEntryState_changes, List.map_map]
  have same : s.changes.map (tileOf ∘ fun e => if changeKey w tile e then { e with state := st } else e) =
      s.changes.map tileOf := List.map_congr_left fun e _ => by
    simp only [Function.comp]
    split <;> rfl
  rw [same]

theorem releaseDomain_tilesWithin (d : DomainId) (s : State) : TilesWithin s (releaseDomain d s) :=
  tilesWithin_of_sublist (by rw [releaseDomain_changes]; exact List.filter_sublist)

theorem discardDomain_tilesWithin (d : DomainId) (s : State) : TilesWithin s (discardDomain d s) :=
  tilesWithin_of_sublist (by rw [discardDomain_changes]; exact List.filter_sublist)

theorem endPass_tilesWithin (d : DomainId) (s : State) : TilesWithin s (endPass d s) := by
  unfold endPass
  split
  · exact tilesWithin_of_eq (by simp)
  · exact releaseDomain_tilesWithin d s

theorem enterPublish_tilesWithin (d : DomainId) (s : State) : TilesWithin s (enterPublish d s) := by
  unfold enterPublish
  split
  · exact tilesWithin_of_eq (by simp)
  · exact (tilesWithin_of_eq (by simp)).trans (endPass_tilesWithin d _)

theorem continuePass_tilesWithin (d : DomainId) (s : State) : TilesWithin s (continuePass d s) := by
  unfold continuePass
  split
  · exact tilesWithin_of_eq rfl
  · exact (tilesWithin_of_eq rfl).trans (endPass_tilesWithin d _)

/-- The creation of an entry is the one change that gives a tile an entry, and then the tile had none. -/
theorem move_tiles {s t : State} (m : Move s t) :
    TilesWithin s t ∨ ∃ d c f k, t = createEntry d c f k s ∧ findChange c.window c.tile s = none ∧
      s.changes.length < Config.changeEntries := by
  cases m with
  | createEntry d c f k s _ hfind _ hlen _ _ _ => exact .inr ⟨d, c, f, k, rfl, hfind, hlen⟩
  | publishOk p s _ =>
    exact .inl (((tilesWithin_of_eq rfl).trans (setEntryState_tilesWithin p.window p.tile .published
      { s with publishWrite := none })).trans (continuePass_tilesWithin _ _))
  | publishEnd p s _ => exact .inl ((tilesWithin_of_eq rfl).trans (continuePass_tilesWithin _ _))
  | publish d s _ => exact .inl (enterPublish_tilesWithin d s)
  | discard d s _ _ => exact .inl (discardDomain_tilesWithin d s)
  | copyDone k c c' s _ _ =>
    exact .inl ((setEntryState_tilesWithin c'.window c'.tile .live s).trans (tilesWithin_of_eq (by simp)))
  | copyFailed k c c' e s _ _ _ =>
    exact .inl (tilesWithin_of_sublist (by simpa using List.eraseP_sublist))
  | endDrain s _ _ => exact .inl (tilesWithin_of_sublist (List.nil_sublist _))
  | hardReset cause line s => exact .inl (tilesWithin_of_sublist (List.nil_sublist _))
  | outside hf => exact .inl (tilesWithin_of_eq hf.changes)
  | _ => exact .inl (tilesWithin_of_eq (by simp [enterOpen]))

theorem move_keeps_tableBounded (s t : State) (m : Move s t) (h : TableBounded s) : TableBounded t := by
  obtain within | ⟨d, c, f, k, rfl, -, hlen⟩ := move_tiles m
  · have shorter := within.length_le
    simp only [List.length_map] at shorter
    exact shorter.trans h
  · simpa [TableBounded] using hlen

/-- A tile without a change entry is not among the tiles of the Change Table. -/
theorem tile_not_mem_of_findChange {w : WindowId} {tile : Nat} {s : State} (h : findChange w tile s = none) :
    (w, tile) ∉ s.changes.map tileOf := by
  intro hmem
  obtain ⟨e, he, hkey⟩ := List.mem_map.mp hmem
  have other := List.find?_eq_none.mp h e he
  rw [tileOf, Prod.mk.injEq] at hkey
  simp [changeKey, hkey] at other

theorem move_keeps_keysUnique (s t : State) (m : Move s t) (h : KeysUnique s) : KeysUnique t := by
  rw [keysUnique_iff] at *
  obtain within | ⟨d, c, f, k, rfl, hfind, -⟩ := move_tiles m
  · exact within.nodup h
  · simp only [createEntry_changes, List.map_append, List.map_cons, List.map_nil]
    exact List.nodup_append.mpr ⟨h, List.nodup_singleton _, fun a ha b hb hab => by
      rw [List.mem_singleton] at hb
      exact tile_not_mem_of_findChange hfind (by rw [← hb.symm.trans hab.symm] at ha; exact ha)⟩

/-! ## The Translation Cache -/

/-- Every valid cache entry is of the tile that the same entry was of before. -/
def CacheWithin (s t : State) : Prop :=
  ∀ (i : Fin 32) (b : CacheEntry), t.cache[i] = some b →
    ∃ a, s.cache[i] = some a ∧ a.window = b.window ∧ a.tile = b.tile

theorem CacheWithin.unique {s t : State} (h : CacheWithin s t) (hs : CacheKeysUnique s) : CacheKeysUnique t := by
  intro i j a b ha hb hw htile
  obtain ⟨a', ha', haw, hat⟩ := h i a ha
  obtain ⟨b', hb', hbw, hbt⟩ := h j b hb
  exact hs i j a' b' ha' hb' (by rw [haw, hbw, hw]) (by rw [hat, hbt, htile])

theorem cacheWithin_of_eq {s t : State} (h : t.cache = s.cache) : CacheWithin s t :=
  fun i b hb => ⟨b, by rw [← h]; exact hb, rfl, rfl⟩

theorem dropCache_cacheWithin (p : CacheEntry → Bool) (s : State) : CacheWithin s (dropCache p s) := by
  intro i b hb
  rw [dropCache_cache, vector_ofFn_get, Option.filter_eq_some_iff] at hb
  exact ⟨b, hb.1, rfl, rfl⟩

theorem createEntry_cacheWithin (d : DomainId) (c : CacheEntry) (f : Frame) (k : SlotId) (s : State) :
    CacheWithin s (createEntry d c f k s) := by
  intro i b hb
  rw [createEntry_cache] at hb
  exact dropCache_cacheWithin _ s i b hb

theorem publishToCache_cache_get (e : ChangeEntry) (i : Fin 32) (s : State) :
    (publishToCache e s).cache[i] = s.cache[i].map fun c => if cacheKey e.window e.tile c then
      { c with frame := e.newFrame, writable := e.savedW, sw := e.savedSw } else c :=
  vector_ofFn_get ..

theorem publishToCache_cacheWithin (e : ChangeEntry) (s : State) : CacheWithin s (publishToCache e s) := by
  intro i b hb
  rw [publishToCache_cache_get, Option.map_eq_some_iff] at hb
  obtain ⟨a, ha, rfl⟩ := hb
  refine ⟨a, ha, ?_⟩
  split <;> exact ⟨rfl, rfl⟩

theorem cacheWithin_of_empty {s t : State} (h : t.cache = Vector.replicate 32 none) : CacheWithin s t := by
  intro i b hb
  rw [h, vector_replicate_get] at hb
  exact nomatch hb

/-- The entry that a fill goes to is the only one that can hold the tile (R25). -/
theorem fillVictim_of_key {c a : CacheEntry} {i : Fin 32} {s : State} (hs : CacheKeysUnique s)
    (ha : s.cache[i] = some a) (hw : a.window = c.window) (ht : a.tile = c.tile) :
    fillVictim c.window c.tile s = i := by
  cases hslot : cacheSlotOf c.window c.tile s with
  | none =>
    have other := List.find?_eq_none.mp hslot i (List.mem_finRange i)
    rw [ha] at other
    simp [cacheKey, hw, ht] at other
  | some j =>
    have hj := List.find?_some hslot
    obtain ⟨b, hb, hkey⟩ := (Option.any_eq_true ..).mp hj
    simp only [cacheKey, decide_eq_true_eq] at hkey
    simp only [fillVictim, hslot]
    exact hs j i b a hb ha (hkey.1.trans hw.symm) (hkey.2.trans ht.symm)

theorem fillCache_keeps_cacheKeysUnique {c : CacheEntry} {s : State} (hs : CacheKeysUnique s) :
    CacheKeysUnique (fillCache c s) := by
  intro i j a b ha hb hw ht
  rw [fillCache_cache, vector_set_get] at ha hb
  split at ha <;> split at hb
  · exact ‹fillVictim c.window c.tile s = i›.symm.trans ‹fillVictim c.window c.tile s = j›
  · cases ha
    exact absurd (fillVictim_of_key hs hb hw.symm ht.symm) ‹_›
  · cases hb
    exact absurd (fillVictim_of_key hs ha hw ht) ‹_›
  · exact hs i j a b ha hb hw ht

theorem continuePass_cache (d : DomainId) (s : State) : (continuePass d s).cache = s.cache := by
  unfold continuePass
  split
  · rfl
  · exact (endPass_frame d _).cache

theorem move_keeps_cacheKeysUnique (s t : State) (m : Move s t) (h : CacheKeysUnique s) : CacheKeysUnique t := by
  cases m with
  | fill c s => exact fillCache_keeps_cacheKeysUnique h
  | dropCache p s => exact (dropCache_cacheWithin p s).unique h
  | publishCache e s => exact (publishToCache_cacheWithin e s).unique h
  | createEntry d c f k s _ _ _ _ _ _ _ => exact (createEntry_cacheWithin d c f k s).unique h
  | flush s => exact (cacheWithin_of_empty (s := s) rfl).unique h
  | endDrain s _ _ => exact (cacheWithin_of_empty (s := s) rfl).unique h
  | hardReset cause line s => exact (cacheWithin_of_empty (s := s) rfl).unique h
  | outside hf => exact (cacheWithin_of_eq hf.cache).unique h
  | publishOk p s _ => exact (cacheWithin_of_eq ((continuePass_cache _ _).trans (by simp))).unique h
  | publishEnd p s _ => exact (cacheWithin_of_eq (continuePass_cache _ _)).unique h
  | publish d s _ => exact (cacheWithin_of_eq (enterPublish_frame d s).cache).unique h
  | discard d s _ _ => exact (cacheWithin_of_eq (discardDomain_frame d s).cache).unique h
  | _ => exact (cacheWithin_of_eq (by simp [enterOpen])).unique h

/-! ## Windows, the divider and LOST -/

/-- A window setting word either keeps the size exponent or gives one of 16 to 36 (R15). -/
theorem windowWith_sizeExp {w new : Window} {word : WindowWord} {data : Word} (h : windowWith w word data = some new) :
    new.sizeExp = w.sizeExp ∨ (16 ≤ new.sizeExp ∧ new.sizeExp ≤ 36) := by
  unfold windowWith at h
  split at h
  · exact nomatch h
  · split at h
    · dsimp only at h
      split at h
      · split at h
        · cases h; exact .inr ‹_›
        · exact nomatch h
      · exact nomatch h
    all_goals cases h; exact .inl rfl

theorem move_keeps_windowsFit (s t : State) (m : Move s t) (h : WindowsFit s) : WindowsFit t := by
  have of_eq : ∀ {u : State}, u.windows = s.windows → WindowsFit u := fun he w => by rw [he]; exact h w
  cases m with
  | window w word data new s hnew _ =>
    intro v
    rw [vector_set_get]
    split
    · obtain same | range := windowWith_sizeExp hnew
      · rw [same]; exact h w
      · exact range
    · exact h v
  | outside hf => exact of_eq hf.windows
  | publishOk p s _ => exact of_eq ((continuePass_frame _ _).windows.trans (by simp))
  | publishEnd p s _ => exact of_eq (continuePass_frame _ _).windows
  | publish d s _ => exact of_eq (enterPublish_frame d s).windows
  | discard d s _ _ => exact of_eq (discardDomain_frame d s).windows
  | endDrain s _ _ => intro w; rw [show (endDrain s).windows[w] = _ from vector_replicate_get ..]; decide
  | hardReset cause line s =>
    intro w; rw [show (hardReset cause line s).windows[w] = _ from vector_replicate_get ..]; decide
  | _ => exact of_eq (by simp [enterOpen])

theorem move_keeps_dividerFits (s t : State) (m : Move s t) (h : DividerFits s) : DividerFits t := by
  have of_eq : ∀ {u : State}, u.divider = s.divider → u.timebase = s.timebase → DividerFits u := fun hd ht => by
    unfold DividerFits; rw [hd, ht]; exact h
  cases m with
  | divider n s hn => exact hn
  | timebase p s => exact Nat.two_pow_pos _
  | outside hf => exact of_eq hf.divider hf.timebase
  | publishOk p s _ =>
    exact of_eq ((continuePass_frame _ _).divider.trans (by simp)) ((continuePass_frame _ _).timebase.trans (by simp))
  | publishEnd p s _ => exact of_eq (continuePass_frame _ _).divider (continuePass_frame _ _).timebase
  | publish d s _ => exact of_eq (enterPublish_frame d s).divider (enterPublish_frame d s).timebase
  | discard d s _ _ => exact of_eq (discardDomain_frame d s).divider (discardDomain_frame d s).timebase
  | endDrain s _ _ => exact Nat.two_pow_pos _
  | hardReset cause line s => exact Nat.two_pow_pos _
  | _ => exact of_eq (by simp [enterOpen]) (by simp [enterOpen])

theorem continuePass_fault (d : DomainId) (s : State) :
    (continuePass d s).fault = s.fault ∧ (continuePass d s).lost = s.lost := by
  unfold continuePass
  split
  · exact ⟨rfl, rfl⟩
  · exact ⟨(endPass_frame d _).fault, (endPass_frame d _).lost⟩

theorem move_keeps_lostFits (s t : State) (m : Move s t) (h : LostFits s) : LostFits t := by
  have of_eq : ∀ {u : State}, u.fault = s.fault → u.lost = s.lost → LostFits u := fun hf hl => by
    unfold LostFits; rw [hf, hl]; exact h
  cases m with
  | report f s => exact fun _ => rfl
  | clearFault s => exact fun lost => nomatch lost
  | outside hf => exact of_eq hf.fault hf.lost
  | publishOk p s _ =>
    obtain ⟨hf, hl⟩ := continuePass_fault p.domain (setEntryState p.window p.tile .published
      { s with publishWrite := none })
    exact of_eq (hf.trans (by simp)) (hl.trans (by simp))
  | publishEnd p s _ =>
    obtain ⟨hf, hl⟩ := continuePass_fault p.domain { s with publishWrite := none }
    exact of_eq hf hl
  | publish d s _ => exact of_eq (enterPublish_frame d s).fault (enterPublish_frame d s).lost
  | discard d s _ _ => exact of_eq (discardDomain_frame d s).fault (discardDomain_frame d s).lost
  | endDrain s _ _ => exact h
  | hardReset cause line s => exact fun lost => nomatch lost
  | _ => exact of_eq (by simp [enterOpen]) (by simp [enterOpen])

/-- Settles O54: each bound by the moves that touch its table. -/
theorem tablesKept : Obligations.TablesKept := by
  rintro s t ⟨hbounded, hkeys, hcache, hwindows, hdivider, hlost⟩ hstep
  exact ⟨step_keeps move_keeps_tableBounded hstep hbounded, step_keeps move_keeps_keysUnique hstep hkeys,
    step_keeps move_keeps_cacheKeysUnique hstep hcache, step_keeps move_keeps_windowsFit hstep hwindows,
    step_keeps move_keeps_dividerFits hstep hdivider, step_keeps move_keeps_lostFits hstep hlost⟩

end Sys2Proof.Machine
end

