-- ==== Sys2Proof/Proofs/JournalAccounts.lean ====
section
/-! SUPPORT. A domain's journal accounts (R45, R47, R54): its entry count, its quota and the order of its sequence numbers
speak of its record and its entries alone, so each change is looked at for the one domain that it reaches. -/

namespace Sys2Proof.Machine

/-! ## The accounts of one domain -/

/-- An entry's sequence number was taken before the domain's next one (R47). -/
def sequenceTaken (r : DomainRecord) (e : ChangeEntry) : Prop :=
  e.sequence < r.nextSequence ∨ (r.sequenceSpent = true ∧ e.sequence = 255 ∧ r.nextSequence = 255)

/-- What a Domain Record says of the domain's entries. -/
structure AccountsFit (r : DomainRecord) (es : List ChangeEntry) : Prop where
  counted : es.length = r.entryCount
  closedNone : r.state = .closed → es = []
  withinQuota : r.entryCount ≤ r.settings.quota
  quotaRange : 1 ≤ r.settings.quota ∧ r.settings.quota ≤ 256
  taken : ∀ e ∈ es, sequenceTaken r e
  nextRange : r.nextSequence ≤ 255
  rising : es.Pairwise fun a b => a.sequence < b.sequence

/-- Every domain's accounts fit. -/
def JournalFits (s : State) : Prop := ∀ d : DomainId, AccountsFit s.domains[d] (entriesOf d s)

theorem mem_entriesOf {d : DomainId} {e : ChangeEntry} {s : State} :
    e ∈ entriesOf d s ↔ e ∈ s.changes ∧ e.domain = d := by
  simp [entriesOf]

theorem closedHoldsNone_iff (s : State) :
    ClosedHoldsNone s ↔ ∀ d : DomainId, s.domains[d].state = .closed → entriesOf d s = [] := by
  constructor
  · intro h d hd
    refine List.eq_nil_iff_forall_not_mem.mpr fun e he => ?_
    obtain ⟨hmem, rfl⟩ := mem_entriesOf.mp he
    exact h e hmem hd
  · intro h e he hd
    have none := h e.domain hd
    exact List.not_mem_nil (none ▸ mem_entriesOf.mpr ⟨he, rfl⟩)

theorem rising_iff (s : State) :
    (s.changes.Pairwise fun a b => a.domain = b.domain → a.sequence < b.sequence) ↔
      ∀ d : DomainId, (entriesOf d s).Pairwise fun a b => a.sequence < b.sequence := by
  simp only [entriesOf, List.pairwise_filter, decide_eq_true_eq]
  constructor
  · exact fun h d => h.imp fun hab ha hb => hab (ha.trans hb.symm)
  · intro h
    rw [List.pairwise_iff_forall_sublist]
    intro a b hab hd
    exact List.pairwise_iff_forall_sublist.mp (h a.domain) hab rfl hd.symm

/-- The statement's four invariants are the accounts of the four domains. -/
theorem journalFits_iff (s : State) :
    JournalFits s ↔ EntriesCounted s ∧ ClosedHoldsNone s ∧ QuotaRespected s ∧ SequencesOrdered s := by
  constructor
  · intro h
    refine ⟨fun d => (h d).counted, (closedHoldsNone_iff s).mpr fun d => (h d).closedNone,
      fun d => ⟨(h d).withinQuota, (h d).quotaRange⟩, fun e he => ?_, fun d => (h d).nextRange,
      (rising_iff s).mpr fun d => (h d).rising⟩
    exact (h e.domain).taken e (mem_entriesOf.mpr ⟨he, rfl⟩)
  · rintro ⟨hcount, hclosed, hquota, htaken, hnext, hrising⟩ d
    refine ⟨hcount d, (closedHoldsNone_iff s).mp hclosed d, (hquota d).1, (hquota d).2, fun e he => ?_, hnext d,
      (rising_iff s).mp hrising d⟩
    obtain ⟨hmem, rfl⟩ := mem_entriesOf.mp he
    exact htaken e hmem

/-! ## How a record and its entries may change together -/

/-- A domain that is not CLOSED after the change may be in any state. -/
theorem AccountsFit.withState {r : DomainRecord} {es : List ChangeEntry} (h : AccountsFit r es) {st : DomainState}
    (hst : st ≠ .closed) : AccountsFit { r with state := st } es where
  counted := h.counted
  closedNone := fun hc => absurd hc hst
  withinQuota := h.withinQuota
  quotaRange := h.quotaRange
  taken := h.taken
  nextRange := h.nextRange
  rising := h.rising

/-- The accounts of a domain whose entries are gone. -/
theorem accountsFit_nil {r : DomainRecord} (hcount : r.entryCount = 0)
    (hquota : 1 ≤ r.settings.quota ∧ r.settings.quota ≤ 256) (hnext : r.nextSequence ≤ 255) : AccountsFit r [] where
  counted := hcount.symm
  closedNone := fun _ => rfl
  withinQuota := hcount ▸ Nat.zero_le _
  quotaRange := hquota
  taken := fun _ he => absurd he List.not_mem_nil
  nextRange := hnext
  rising := .nil

/-- A change of the entries that keeps their number and their sequence numbers. -/
theorem AccountsFit.map {r : DomainRecord} {es : List ChangeEntry} (h : AccountsFit r es)
    {f : ChangeEntry → ChangeEntry} (hf : ∀ e, (f e).sequence = e.sequence) : AccountsFit r (es.map f) where
  counted := by rw [List.length_map, h.counted]
  closedNone := fun hc => by rw [h.closedNone hc, List.map_nil]
  withinQuota := h.withinQuota
  quotaRange := h.quotaRange
  taken := fun e he => by
    obtain ⟨a, ha, rfl⟩ := List.mem_map.mp he
    simpa only [sequenceTaken, hf] using h.taken a ha
  nextRange := h.nextRange
  rising := List.pairwise_map.mpr (h.rising.imp fun hab => by rwa [hf, hf])

/-- A new entry takes the domain's next sequence number, which is above those of its other entries (R47). -/
theorem AccountsFit.takeSequence {r : DomainRecord} {es : List ChangeEntry} (h : AccountsFit r es)
    (hq : quotaHolds r = true) (hopen : r.state ≠ .closed) {e : ChangeEntry} (he : e.sequence = r.nextSequence) :
    AccountsFit (takeSequence r) (es ++ [e]) := by
  simp only [quotaHolds, Bool.and_eq_true, decide_eq_true_eq, Bool.not_eq_true'] at hq
  obtain ⟨hroom, hunspent⟩ := hq
  have below : ∀ a ∈ es, a.sequence < r.nextSequence := fun a ha =>
    (h.taken a ha).resolve_right fun spent => nomatch hunspent.symm.trans spent.1
  have hnext := h.nextRange
  have takenBefore : ∀ a : ChangeEntry, a.sequence ≤ r.nextSequence →
      (a.sequence < r.nextSequence ∨ a.sequence = r.nextSequence) → sequenceTaken (Machine.takeSequence r) a := by
    intro a _ ha
    simp only [sequenceTaken, Machine.takeSequence]
    split
    · exact .inl (by omega)
    · obtain lt | eq := ha
      · exact .inl lt
      · exact .inr ⟨by simp [*], by omega, by omega⟩
  exact {
    counted := by simp [Machine.takeSequence, h.counted]
    closedNone := fun hc => absurd hc hopen
    withinQuota := hroom
    quotaRange := h.quotaRange
    taken := fun a ha => by
      obtain ha | ha := List.mem_append.mp ha
      · exact takenBefore a (below a ha).le (.inl (below a ha))
      · rw [List.mem_singleton.mp ha]
        exact takenBefore e he.le (.inr he)
    nextRange := by
      simp only [Machine.takeSequence]
      split <;> omega
    rising := List.pairwise_append.mpr ⟨h.rising, List.pairwise_singleton .., fun a ha b hb => by
      rw [List.mem_singleton.mp hb, he]
      exact below a ha⟩ }

/-- An entry of a copy that failed leaves the table (R113). -/
theorem AccountsFit.remove {r : DomainRecord} {before after : List ChangeEntry} {e : ChangeEntry}
    (h : AccountsFit r (before ++ e :: after)) :
    AccountsFit { r with entryCount := r.entryCount - 1 } (before ++ after) := by
  have fewer : (before ++ after).Sublist (before ++ e :: after) :=
    List.Sublist.append_left (List.sublist_cons_self e after) before
  exact {
    counted := by
      have count := h.counted
      simp only [List.length_append, List.length_cons] at count ⊢
      omega
    closedNone := fun hc => absurd (h.closedNone hc) (by simp)
    withinQuota := (Nat.sub_le _ _).trans h.withinQuota
    quotaRange := h.quotaRange
    taken := fun a ha => h.taken a (fewer.subset ha)
    nextRange := h.nextRange
    rising := h.rising.sublist fewer }

/-! ## One domain is reached -/

/-- A change that leaves every other domain's record and entries is looked at for the one domain. -/
theorem journalFits_of_reached (d : DomainId) {s t : State} (h : JournalFits s)
    (hother : ∀ e : DomainId, d ≠ e → DomainKept e s t) (hd : AccountsFit t.domains[d] (entriesOf d t)) :
    JournalFits t := by
  intro e
  by_cases hde : d = e
  · exact hde ▸ hd
  · rw [(hother e hde).record, (hother e hde).entries]
    exact h e

theorem journalFits_of_eq {s t : State} (hd : t.domains = s.domains) (hc : t.changes = s.changes)
    (h : JournalFits s) : JournalFits t := by
  intro d
  rw [hd, entriesOf_congr d hc]
  exact h d

theorem setDomainState_get (d : DomainId) (st : DomainState) (s : State) :
    (setDomainState d st s).domains[d] = { s.domains[d] with state := st } := by
  rw [setDomainState_domains, vector_set_get, if_pos rfl]

theorem setDomainState_keeps_journal {d : DomainId} {st : DomainState} {s : State} (hst : st ≠ .closed)
    (h : JournalFits s) : JournalFits (setDomainState d st s) := by
  refine journalFits_of_reached d h (fun e hde => setDomainState_keeps hde s st) ?_
  rw [setDomainState_get, entriesOf_congr d (setDomainState_changes s d st)]
  exact (h d).withState hst

theorem startPhase_keeps_journal {d : DomainId} {st : DomainState} {s : State} (hst : st ≠ .closed)
    (h : JournalFits s) : JournalFits (stopDeadline d (setDomainState d st s)) :=
  journalFits_of_eq (stopDeadline_domains ..) (stopDeadline_changes ..) (setDomainState_keeps_journal hst h)

theorem enterOpen_get (d : DomainId) (s : State) :
    (enterOpen d s).domains[d] = { s.domains[d] with state := .opened, epoch := s.domains[d].epoch + 1,
                                                     nextSequence := 0, sequenceSpent := false } := by
  rw [enterOpen, loadDeadline_domains, modifyDomain_domains, vector_set_get, if_pos rfl]

theorem enterOpen_changes (d : DomainId) (s : State) : (enterOpen d s).changes = s.changes := by
  simp [enterOpen]

theorem enterOpen_keeps_journal {d : DomainId} {s : State} (hclosed : domainState d s = .closed)
    (h : JournalFits s) : JournalFits (enterOpen d s) := by
  refine journalFits_of_reached d h (fun e hde => enterOpen_keeps hde s) ?_
  have none := (h d).closedNone hclosed
  have count := (h d).counted
  rw [enterOpen_get, entriesOf_congr d (enterOpen_changes d s), none]
  rw [none] at count
  exact accountsFit_nil count.symm (h d).quotaRange (Nat.zero_le _)

theorem filter_not_domain_entries (d : DomainId) (es : List ChangeEntry) :
    (es.filter fun e => !decide (e.domain = d)).filter (fun e => decide (e.domain = d)) = [] := by
  simp [List.filter_filter]

theorem releaseDomain_entries (d : DomainId) (s : State) : entriesOf d (releaseDomain d s) = [] := by
  rw [entriesOf, releaseDomain_changes, filter_not_domain_entries]

theorem discardDomain_entries (d : DomainId) (s : State) : entriesOf d (discardDomain d s) = [] := by
  rw [entriesOf, discardDomain_changes, filter_not_domain_entries]

/-- The Domain Record after RELEASE (R77, R78). -/
theorem releaseDomain_get (d : DomainId) (s : State) :
    (releaseDomain d s).domains[d] =
      if s.domains[d].settings.autoReopen then
        { s.domains[d] with state := .opened, epoch := s.domains[d].epoch + 1, entryCount := 0, nextSequence := 0,
                            sequenceSpent := false }
      else { s.domains[d] with state := .closed, entryCount := 0 } := by
  have freed : ∀ u : State, (freeEntries d u).domains[d] = { u.domains[d] with entryCount := 0 } := fun u => by
    rw [freeEntries_domains, vector_set_get, if_pos rfl]
  have reopens : (settingsOf d s).autoReopen = s.domains[d].settings.autoReopen := rfl
  unfold releaseDomain
  rw [endDomainWaits_domains, ← reopens]
  split
  · rw [enterOpen_get, setLatch_domains, freed, appendFrames_domains]
  · rw [setDomainState_get, setLatch_domains, freed, appendFrames_domains]

/-- The Domain Record after DISCARD (R94). -/
theorem discardDomain_get (d : DomainId) (s : State) :
    (discardDomain d s).domains[d] = { s.domains[d] with state := .closed, entryCount := 0 } := by
  rw [discardDomain, endDomainWaits_domains, setDomainState_get, setLatch_domains, freeEntries_domains,
    vector_set_get, if_pos rfl, appendFrames_domains]

theorem releaseDomain_keeps_journal {d : DomainId} {s : State} (h : JournalFits s) :
    JournalFits (releaseDomain d s) := by
  refine journalFits_of_reached d h (fun e hde => releaseDomain_keeps hde s) ?_
  rw [releaseDomain_entries, releaseDomain_get]
  split
  · exact accountsFit_nil rfl (h d).quotaRange (Nat.zero_le _)
  · exact accountsFit_nil rfl (h d).quotaRange (h d).nextRange

theorem discardDomain_keeps {d e : DomainId} (h : e ≠ d) (s : State) : DomainKept d s (discardDomain e s) :=
  ((domainKept_of_eq (appendFrames_domains ..) (appendFrames_changes ..)).trans (freeEntries_keeps h _)).trans
    (((domainKept_of_eq (setLatch_domains _ (.rollbackDone e)) (setLatch_changes _ (.rollbackDone e))).trans
      (setDomainState_keeps h _ .closed)).trans
      (domainKept_of_eq (endDomainWaits_domains _ e) (endDomainWaits_changes _ e)))

theorem discardDomain_keeps_journal {d : DomainId} {s : State} (h : JournalFits s) :
    JournalFits (discardDomain d s) := by
  refine journalFits_of_reached d h (fun e hde => discardDomain_keeps hde s) ?_
  rw [discardDomain_entries, discardDomain_get]
  exact accountsFit_nil rfl (h d).quotaRange (h d).nextRange

theorem endPass_keeps_journal {d : DomainId} {s : State} (h : JournalFits s) : JournalFits (endPass d s) := by
  unfold endPass
  split
  · exact journalFits_of_eq (s := setDomainState d .faulted s) (by simp [enterFaulted]) (by simp)
      (setDomainState_keeps_journal (by simp) h)
  · exact releaseDomain_keeps_journal h

theorem enterPublish_keeps_journal {d : DomainId} {s : State} (h : JournalFits s) :
    JournalFits (enterPublish d s) := by
  have published := startPhase_keeps_journal (d := d) (st := .committing .publish) (by simp) h
  unfold enterPublish
  split
  · exact journalFits_of_eq rfl rfl published
  · exact endPass_keeps_journal published

theorem continuePass_keeps_journal {d : DomainId} {s : State} (h : JournalFits s) :
    JournalFits (continuePass d s) := by
  unfold continuePass
  split
  · exact h
  · exact endPass_keeps_journal (journalFits_of_eq rfl rfl h)

/-! ## One entry is reached -/

theorem entriesOf_setEntryState (d : DomainId) (w : WindowId) (tile : Nat) (st : EntryState) (s : State) :
    entriesOf d (setEntryState w tile st s) =
      (entriesOf d s).map fun e => if changeKey w tile e then { e with state := st } else e := by
  rw [entriesOf, setEntryState_changes, List.filter_map, entriesOf]
  congr 1
  refine List.filter_congr fun e _ => ?_
  simp only [Function.comp]
  split <;> rfl

theorem setEntryState_keeps_journal {w : WindowId} {tile : Nat} {st : EntryState} {s : State} (h : JournalFits s) :
    JournalFits (setEntryState w tile st s) := by
  intro d
  rw [setEntryState_domains, entriesOf_setEntryState]
  refine (h d).map fun e => ?_
  split <;> rfl

theorem createEntry_keeps_journal {d : DomainId} {c : CacheEntry} {f : Frame} {k : SlotId} {s : State}
    (hd : inEpoch d s = true) (hq : quotaHolds s.domains[d] = true) (h : JournalFits s) :
    JournalFits (createEntry d c f k s) := by
  have hopen : s.domains[d].state ≠ .closed := by
    obtain ho | hm := (inEpoch_iff d s).mp hd
    · simp only [ho, ne_eq, reduceCtorEq, not_false_eq_true]
    · simp only [hm, ne_eq, reduceCtorEq, not_false_eq_true]
  refine journalFits_of_reached d h (fun e hde => ⟨?_, ?_⟩) ?_
  · rw [createEntry_domains, vector_set_get, if_neg hde]
  · simp [entriesOf, List.filter_append, hde]
  · rw [createEntry_domains, vector_set_get, if_pos rfl, entriesOf, createEntry_changes, List.filter_append]
    simp only [decide_true, List.filter_cons_of_pos, List.filter_nil]
    exact (h d).takeSequence hq hopen rfl

/-- The Change Table around the entry of a tile, which is what its removal takes out. -/
theorem findChange_split {w : WindowId} {tile : Nat} {s : State} {e : ChangeEntry} (h : findChange w tile s = some e) :
    ∃ before after, s.changes = before ++ e :: after ∧
      s.changes.eraseP (changeKey w tile) = before ++ after := by
  obtain ⟨hkey, before, after, hsplit, hbefore⟩ := List.find?_eq_some_iff_append.mp h
  refine ⟨before, after, hsplit, ?_⟩
  rw [hsplit, List.eraseP_append_right _ fun a ha => by simpa using hbefore a ha, List.eraseP_cons_of_pos hkey]

theorem removeEntry_keeps_journal {w : WindowId} {tile : Nat} {e : ChangeEntry} {s : State}
    (he : findChange w tile s = some e) (h : JournalFits s) : JournalFits (removeEntry e s) := by
  obtain ⟨-, rfl, rfl⟩ := findChange_mem he
  obtain ⟨before, after, hsplit, herase⟩ := findChange_split he
  have fits := h e.domain
  refine journalFits_of_reached e.domain h (fun d hde => ⟨?_, ?_⟩) ?_
  · rw [removeEntry_domains, vector_set_get, if_neg hde]
  · rw [entriesOf, removeEntry_changes, herase, entriesOf, hsplit, List.filter_append, List.filter_append,
      List.filter_cons_of_neg (by simpa using hde)]
  · rw [entriesOf, hsplit, List.filter_append, List.filter_cons_of_pos (by simp)] at fits
    rw [removeEntry_domains, vector_set_get, if_pos rfl, entriesOf, removeEntry_changes, herase, List.filter_append]
    exact fits.remove

/-! ## Settings -/

/-- A quota that a setting word gives lies in its range (R39). -/
theorem settingsWith_quota {old new : DomainSettings} {word : DomainWord} {data : Word}
    (h : settingsWith old word data = some new) : new.quota = old.quota ∨ (1 ≤ new.quota ∧ new.quota ≤ 256) := by
  unfold settingsWith at h
  split at h
  · exact nomatch h
  · split at h
    · dsimp only at h
      split at h
      · cases h; exact .inr ‹_›
      · exact nomatch h
    · obtain ⟨action, -, rfl⟩ := Option.map_eq_some_iff.mp h
      exact .inl rfl

theorem settings_keeps_journal {d : DomainId} {word : DomainWord} {data : Word} {new : DomainSettings} {s : State}
    (hnew : settingsWith (settingsOf d s) word data = some new) (hclosed : domainState d s = .closed)
    (h : JournalFits s) : JournalFits (modifyDomain d (fun r => { r with settings := new }) s) := by
  refine journalFits_of_reached d h (fun e hde => modifyDomain_keeps hde s _) ?_
  have fits := h d
  have none := fits.closedNone hclosed
  rw [modifyDomain_domains, vector_set_get, if_pos rfl, entriesOf_congr d (modifyDomain_changes ..), none]
  rw [none] at fits
  refine accountsFit_nil fits.counted.symm ?_ fits.nextRange
  obtain same | range := settingsWith_quota hnew
  · rw [same]; exact fits.quotaRange
  · exact range

/-! ## Every move -/

theorem journalFits_of_reset {t : State} (hd : t.domains = Vector.replicate 4 .reset) (hc : t.changes = []) :
    JournalFits t := by
  intro d
  rw [hd, vector_replicate_get, entriesOf, hc, List.filter_nil]
  exact accountsFit_nil rfl (by decide) (Nat.zero_le _)

theorem move_keeps_journal (s t : State) (m : Move s t) (h : JournalFits s) : JournalFits t := by
  cases m with
  | settings d word data new s hnew hclosed => exact settings_keeps_journal hnew hclosed h
  | publishOk p s _ =>
    exact continuePass_keeps_journal (setEntryState_keeps_journal (journalFits_of_eq rfl rfl h))
  | publishEnd p s _ => exact continuePass_keeps_journal (journalFits_of_eq rfl rfl h)
  | openDomain d s hclosed => exact enterOpen_keeps_journal hclosed h
  | arm d s _ => exact setDomainState_keeps_journal (by simp) h
  | startCommit d s _ => exact startPhase_keeps_journal (by simp) h
  | startRollback d s _ => exact startPhase_keeps_journal (by simp) h
  | publish d s _ => exact enterPublish_keeps_journal h
  | discard d s _ _ => exact discardDomain_keeps_journal h
  | createEntry d c f k s hd _ hq _ _ _ _ => exact createEntry_keeps_journal hd hq h
  | copyDone k c c' s _ _ =>
    exact journalFits_of_eq (by simp) (by simp)
      (setEntryState_keeps_journal (w := c'.window) (tile := c'.tile) (st := .live) h)
  | copyFailed k c c' e s _ _ he => exact journalFits_of_eq (by simp) (by simp) (removeEntry_keeps_journal he h)
  | endDrain s _ _ => exact journalFits_of_reset rfl rfl
  | hardReset cause line s => exact journalFits_of_reset rfl rfl
  | outside hf => exact journalFits_of_eq hf.domains hf.changes h
  | _ => exact journalFits_of_eq (by simp) (by simp) h

/-- Settles O53: the four invariants are the accounts of the four domains, which every move keeps. -/
theorem journalAccountsKept : Obligations.JournalAccountsKept := by
  intro s t hs hstep
  rw [← journalFits_iff] at hs ⊢
  exact step_keeps move_keeps_journal hstep hs

end Sys2Proof.Machine
end

