-- ==== Sys2Proof/Proofs/QueueDiscipline.lean ====
section
/-! SUPPORT. The discipline of the Hold Queue and of the Transit Table (R119, R120, R126, R134, R155). Order within an
initiator is stated initiator by initiator: of the ranks of one initiator only the first is not parked with ORDER. -/

namespace Sys2Proof.Machine

/-! ## The ranks of one initiator -/

/-- The ranks of an initiator, oldest first. -/
def queueOf (i : InitiatorId) (ks : List Rank) : List Rank := ks.filter fun k => decide (k.request.initiator = i)

/-- Of the ranks of one initiator the oldest is not parked with ORDER, and every other is (R120). -/
def InOrder : List Rank → Prop
  | [] => True
  | k :: ks => parkedOn .order k = false ∧ ∀ x ∈ ks, parkedOn .order x = true

theorem queueOf_cons (i : InitiatorId) (k : Rank) (ks : List Rank) :
    queueOf i (k :: ks) = if k.request.initiator = i then k :: queueOf i ks else queueOf i ks := by
  simp only [queueOf, List.filter_cons, decide_eq_true_eq]

theorem queueOf_append (i : InitiatorId) (ks ls : List Rank) : queueOf i (ks ++ ls) = queueOf i ks ++ queueOf i ls :=
  List.filter_append ..

theorem mem_queueOf {i : InitiatorId} {k : Rank} {ks : List Rank} :
    k ∈ queueOf i ks ↔ k ∈ ks ∧ k.request.initiator = i := by
  simp [queueOf]

/-- The model's test of order, told initiator by initiator: what the list `seen` holds has an older rank already. -/
theorem orderHolds_iff (seen : List InitiatorId) (ks : List Rank) :
    orderHolds seen ks = true ↔ ∀ i, if i ∈ seen then ∀ k ∈ queueOf i ks, parkedOn .order k = true
      else InOrder (queueOf i ks) := by
  induction ks generalizing seen with
  | nil => simp [orderHolds, queueOf, InOrder]
  | cons k ks ih =>
    rw [orderHolds, Bool.and_eq_true, beq_iff_eq, ih]
    constructor
    · rintro ⟨hk, hks⟩ i
      have hi := hks i
      rw [queueOf_cons]
      by_cases hki : k.request.initiator = i
      · subst hki
        simp only [List.mem_cons, true_or, if_true] at hi ⊢
        split
        · rintro x (rfl | hx)
          · simp [*]
          · exact hi x hx
        · exact ⟨by simp [*], hi⟩
      · simpa only [List.mem_cons, Ne.symm hki, false_or, if_neg hki] using hi
    · intro h
      have hk := h k.request.initiator
      rw [queueOf_cons, if_pos rfl] at hk
      refine ⟨?_, fun i => ?_⟩
      · split at hk
        · rw [hk k List.mem_cons_self, List.contains_iff_mem.mpr ‹_›]
        · rw [hk.1, Bool.eq_false_iff.mpr (mt List.contains_iff_mem.mp ‹_›)]
      · have hi := h i
        rw [queueOf_cons] at hi
        by_cases hki : k.request.initiator = i
        · subst hki
          simp only [List.mem_cons, true_or, if_true] at hi ⊢
          split at hi
          · exact fun x hx => hi x (.inr hx)
          · exact hi.2
        · simpa only [List.mem_cons, Ne.symm hki, false_or, if_neg hki] using hi

theorem orderKept_iff (s : State) : OrderKept s ↔ ∀ i, InOrder (queueOf i s.ranks) := by
  simp [OrderKept, orderHolds_iff]

/-! ## The end of ORDER -/

theorem wake_request (p : Rank → Bool) (k : Rank) : (wake p k).request = k.request := by
  unfold wake
  split <;> rfl

theorem endOrder_queueOf (i j : InitiatorId) (ks : List Rank) :
    queueOf i (endOrder j ks) = if j = i then endOrder i (queueOf i ks) else queueOf i ks := by
  induction ks with
  | nil => simp [endOrder, queueOf]
  | cons k ks ih =>
    rw [endOrder]
    by_cases hkj : k.request.initiator = j
    · rw [if_pos hkj, queueOf_cons, wake_request, queueOf_cons]
      split
      · rename_i hki
        rw [if_pos (hkj.symm.trans hki), endOrder, if_pos hki]
      · rename_i hki
        rw [if_neg fun hji => hki (hkj.trans hji)]
    · rw [if_neg hkj, queueOf_cons, ih, queueOf_cons]
      split
      · rename_i hki
        rw [if_neg fun hji => hkj (hki.trans hji.symm), if_neg fun hji => hkj (hki.trans hji.symm)]
      · rfl

/-- When the oldest rank of an initiator has left, the end of ORDER puts the rest in order (R123). -/
theorem endOrder_inOrder {i : InitiatorId} {ks : List Rank} (h : ∀ k ∈ ks, parkedOn .order k = true) :
    InOrder (endOrder i (queueOf i ks)) := by
  cases hq : queueOf i ks with
  | nil => exact trivial
  | cons k rest =>
    have hmem : ∀ x ∈ k :: rest, x ∈ ks ∧ x.request.initiator = i := fun x hx => mem_queueOf.mp (hq ▸ hx)
    rw [endOrder, if_pos (hmem k List.mem_cons_self).2, wake, if_pos (h k (hmem k List.mem_cons_self).1)]
    exact ⟨by simp [parkedOn], fun x hx => h x (hmem x (List.mem_cons_of_mem _ hx)).1⟩

/-- The end of ORDER changes nothing where the oldest rank is not parked with ORDER. -/
theorem endOrder_of_inOrder {i : InitiatorId} {ks : List Rank} (h : InOrder (queueOf i ks)) :
    endOrder i (queueOf i ks) = queueOf i ks := by
  cases hq : queueOf i ks with
  | nil => rfl
  | cons k rest =>
    have hk : k.request.initiator = i := (mem_queueOf.mp (hq ▸ List.mem_cons_self : k ∈ queueOf i ks)).2
    rw [hq] at h
    rw [endOrder, if_pos hk, wake, if_neg (by simp [h.1])]

theorem foldl_endOrder_queueOf (i : InitiatorId) (is : List InitiatorId) (ks : List Rank)
    (h : ∀ k ∈ queueOf i ks, parkedOn .order k = true) (hi : i ∈ is) :
    InOrder (queueOf i (is.foldl (fun ks j => endOrder j ks) ks)) := by
  have stays : ∀ (is : List InitiatorId) (ls : List Rank), InOrder (queueOf i ls) →
      InOrder (queueOf i (is.foldl (fun ks j => endOrder j ks) ls)) := by
    intro is
    induction is with
    | nil => exact fun _ hl => hl
    | cons j is ih =>
      intro ls hl
      refine ih _ ?_
      rw [endOrder_queueOf]
      split
      · rw [endOrder_of_inOrder hl]; exact hl
      · exact hl
  induction is generalizing ks with
  | nil => exact absurd hi List.not_mem_nil
  | cons j is ih =>
    rw [List.foldl_cons]
    by_cases hji : j = i
    · subst hji
      refine stays is _ ?_
      rw [endOrder_queueOf, if_pos rfl]
      have hq : queueOf j (queueOf j ks) = queueOf j ks := List.filter_filter .. |>.trans (by simp [queueOf])
      rw [← hq]
      exact endOrder_inOrder h
    · refine ih (endOrder j ks) ?_ ((List.mem_cons.mp hi).resolve_left (Ne.symm hji))
      rw [endOrder_queueOf, if_neg hji]
      exact h

theorem foldl_endOrder_queueOf_other (i : InitiatorId) (is : List InitiatorId) (ks : List Rank) (hi : i ∉ is) :
    queueOf i (is.foldl (fun ks j => endOrder j ks) ks) = queueOf i ks := by
  induction is generalizing ks with
  | nil => rfl
  | cons j is ih =>
    rw [List.mem_cons, not_or] at hi
    rw [List.foldl_cons, ih _ hi.2, endOrder_queueOf, if_neg (Ne.symm hi.1)]

/-! ## The queue by its keys -/

/-- What the discipline looks at in a rank: its request's pair, and whether it is parked with ORDER. -/
def rankKey (k : Rank) : (InitiatorId × Tag) × Bool := ((k.request.initiator, k.request.tag), parkedOn .order k)

/-- The pair of a rank's request (R134). -/
def pairOf (k : Rank) : InitiatorId × Tag := (k.request.initiator, k.request.tag)

/-- The pair of a transit entry's request (R134). -/
def transitPair (e : TransitEntry) : InitiatorId × Tag := (e.initiator, e.tag)

/-- The discipline of the Hold Queue. -/
structure RanksFit (s : State) : Prop where
  bounded : s.ranks.length ≤ Config.holdRanks
  inOrder : ∀ i, InOrder (queueOf i s.ranks)

/-- The discipline of the Transit Table and the pairs in use. -/
structure PairsFit (s : State) : Prop where
  bounded : s.transit.length ≤ Config.transitEntries
  once : (s.ranks.map pairOf).Nodup
  apart : ∀ p ∈ s.ranks.map pairOf, p ∉ s.transit.map transitPair

theorem ranksFit_iff (s : State) : RanksFit s ↔ RanksBounded s ∧ OrderKept s := by
  rw [orderKept_iff]
  exact ⟨fun h => ⟨h.bounded, h.inOrder⟩, fun ⟨hb, ho⟩ => ⟨hb, ho⟩⟩

theorem pairsUnique_iff (s : State) :
    PairsUnique s ↔ (s.ranks.map pairOf).Nodup ∧ ∀ p ∈ s.ranks.map pairOf, p ∉ s.transit.map transitPair := by
  refine and_congr Iff.rfl ⟨fun h p hp hq => ?_, fun h k hk e he heq => ?_⟩
  · obtain ⟨k, hk, rfl⟩ := List.mem_map.mp hp
    obtain ⟨e, he, heq⟩ := List.mem_map.mp hq
    exact h k hk e he (Prod.mk.inj heq)
  · have same : transitPair e = pairOf k := Prod.ext heq.1 heq.2
    exact h _ (List.mem_map_of_mem hk) (same ▸ List.mem_map_of_mem he)

theorem pairsFit_iff (s : State) : PairsFit s ↔ TransitBounded s ∧ PairsUnique s := by
  rw [pairsUnique_iff]
  exact ⟨fun h => ⟨h.bounded, h.once, h.apart⟩, fun ⟨hb, ho, ha⟩ => ⟨hb, ho, ha⟩⟩

theorem inOrder_of_keys {ks ls : List Rank} (h : ls.map rankKey = ks.map rankKey) (i : InitiatorId)
    (hi : InOrder (queueOf i ks)) : InOrder (queueOf i ls) := by
  have flags : ∀ ms : List Rank, (queueOf i ms).map (parkedOn .order) =
      ((ms.map rankKey).filter fun x => decide (x.1.1 = i)).map (·.2) := fun ms => by
    rw [List.filter_map, List.map_map]
    rfl
  have same : (queueOf i ls).map (parkedOn .order) = (queueOf i ks).map (parkedOn .order) := by
    rw [flags, flags, h]
  cases hl : queueOf i ls with
  | nil => exact trivial
  | cons l ls' =>
    cases hk : queueOf i ks with
    | nil => simp [hl, hk] at same
    | cons k ks' =>
      rw [hl, hk, List.map_cons, List.map_cons, List.cons.injEq] at same
      rw [hk] at hi
      refine ⟨same.1.trans hi.1, fun x hx => ?_⟩
      obtain ⟨y, hy, hxy⟩ := List.mem_map.mp (same.2 ▸ List.mem_map_of_mem hx : parkedOn .order x ∈ ks'.map _)
      exact hxy.symm.trans (hi.2 y hy)

/-- The ranks keep their requests and their ORDER waits, and the Transit Table gains no entry. -/
structure QueueKept (s t : State) : Prop where
  ranks : t.ranks.map rankKey = s.ranks.map rankKey
  transit : (t.transit.map transitPair).Sublist (s.transit.map transitPair)

theorem QueueKept.trans {s t u : State} (h : QueueKept s t) (k : QueueKept t u) : QueueKept s u :=
  ⟨k.ranks.trans h.ranks, k.transit.trans h.transit⟩

theorem QueueKept.pairs {s t : State} (h : QueueKept s t) : t.ranks.map pairOf = s.ranks.map pairOf := by
  have first := congrArg (List.map (·.1)) h.ranks
  rwa [List.map_map, List.map_map] at first

theorem QueueKept.ranksFit {s t : State} (h : QueueKept s t) (hs : RanksFit s) : RanksFit t where
  bounded := by
    have same := congrArg List.length h.ranks
    rw [List.length_map, List.length_map] at same
    exact same ▸ hs.bounded
  inOrder := fun i => inOrder_of_keys h.ranks i (hs.inOrder i)

theorem QueueKept.pairsFit {s t : State} (h : QueueKept s t) (hs : PairsFit s) : PairsFit t where
  bounded := by
    have fewer := h.transit.length_le
    rw [List.length_map, List.length_map] at fewer
    exact fewer.trans hs.bounded
  once := h.pairs ▸ hs.once
  apart := fun p hp hq => hs.apart p (h.pairs ▸ hp) (h.transit.subset hq)

theorem queueKept_of_eq {s t : State} (hr : t.ranks = s.ranks) (ht : t.transit = s.transit) : QueueKept s t :=
  ⟨by rw [hr], by rw [ht]⟩

/-- A wait that is no ORDER wait ends. -/
theorem endWaits_queueKept {p : Rank → Bool} (hp : ∀ k, p k = true → parkedOn .order k = false) (s : State) :
    QueueKept s (endWaits p s) := by
  refine ⟨?_, List.Sublist.refl _⟩
  rw [endWaits_ranks, List.map_map]
  refine List.map_congr_left fun k _ => ?_
  simp only [Function.comp, wake]
  split
  · rename_i hk
    simp only [rankKey, hp k hk]
    rfl
  · rfl

theorem not_order_of_parkedOn {reason : WaitReason} (hr : reason ≠ .order) (k : Rank)
    (h : parkedOn reason k = true) : parkedOn .order k = false := by
  simp only [parkedOn, decide_eq_true_eq, decide_eq_false_iff_not] at *
  rw [h]
  exact fun heq => hr (RankState.parked.inj heq)

theorem RanksWoken.queueKept {s t : State} (h : RanksWoken s t) (ht : t.transit = s.transit) : QueueKept s t := by
  refine ⟨?_, by rw [ht]⟩
  unfold RanksWoken at h
  generalize s.ranks = ks, t.ranks = ls at h
  induction h with
  | nil => rfl
  | cons hab _ ih =>
    rw [List.map_cons, List.map_cons, ih]
    obtain rfl | ⟨ha, rfl⟩ := hab
    · rfl
    · simp [rankKey, parkedOn, ha]

/-! ## The Epoch Unit's transitions wake ranks -/

theorem releaseDomain_woken (d : DomainId) (s : State) : RanksWoken s (releaseDomain d s) := by
  unfold releaseDomain
  refine RanksWoken.trans ?_ (endDomainWaits_woken d _)
  split <;> exact RanksWoken.of_eq (by simp [enterOpen])

theorem enterFaulted_woken (d : DomainId) (s : State) : RanksWoken s (enterFaulted d s) :=
  RanksWoken.trans (RanksWoken.of_eq (by simp)) (endDomainWaits_woken d _)

theorem endPass_woken (d : DomainId) (s : State) : RanksWoken s (endPass d s) := by
  unfold endPass
  split
  · exact enterFaulted_woken d s
  · exact releaseDomain_woken d s

theorem enterPublish_woken (d : DomainId) (s : State) : RanksWoken s (enterPublish d s) := by
  unfold enterPublish
  split
  · exact RanksWoken.of_eq (by simp)
  · exact RanksWoken.trans (RanksWoken.of_eq (by simp)) (endPass_woken d _)

theorem continuePass_woken (d : DomainId) (s : State) : RanksWoken s (continuePass d s) := by
  unfold continuePass
  split
  · exact RanksWoken.of_eq rfl
  · exact RanksWoken.trans (t := { s with publication := s.publication.filter fun p => !decide (p.domain = d) })
      (RanksWoken.of_eq rfl) (endPass_woken d _)

theorem continuePass_transit (d : DomainId) (s : State) : (continuePass d s).transit = s.transit := by
  unfold continuePass
  split
  · rfl
  · exact (endPass_frame d _).transit

/-! ## Ranks come and go -/

theorem endOrder_pairs (i : InitiatorId) (ks : List Rank) : (endOrder i ks).map pairOf = ks.map pairOf := by
  induction ks with
  | nil => rfl
  | cons k ks ih =>
    rw [endOrder]
    split
    · rw [List.map_cons, List.map_cons, pairOf, wake_request, pairOf]
    · rw [List.map_cons, ih, List.map_cons]

theorem foldl_endOrder_pairs (is : List InitiatorId) (ks : List Rank) :
    (is.foldl (fun ks i => endOrder i ks) ks).map pairOf = ks.map pairOf := by
  induction is generalizing ks with
  | nil => rfl
  | cons i is ih => rw [List.foldl_cons, ih, endOrder_pairs]

/-- Ranks that are answered are the oldest of their initiators, unless they are parked with ORDER (R123, R125). -/
theorem answerRanks_inOrder {p : Rank → Bool} (hp : ∀ k, p k = true → parkedOn .order k = false)
    (status : ResponseStatus) {s : State} (i : InitiatorId) (h : InOrder (queueOf i s.ranks)) :
    InOrder (queueOf i (answerRanks p status s).ranks) := by
  have left : queueOf i (s.ranks.filter fun k => !p k) = (queueOf i s.ranks).filter fun k => !p k := by
    rw [queueOf, queueOf, List.filter_comm]
  rw [answerRanks_ranks]
  by_cases hi : i ∈ (s.ranks.filter p).map fun k => k.request.initiator
  · refine foldl_endOrder_queueOf i _ _ (fun k hk => ?_) hi
    obtain ⟨a, ha, hai⟩ := List.mem_map.mp hi
    obtain ⟨hmem, hpa⟩ := List.mem_filter.mp ha
    have haq : a ∈ queueOf i s.ranks := mem_queueOf.mpr ⟨hmem, hai⟩
    rw [left, List.mem_filter] at hk
    cases hq : queueOf i s.ranks with
    | nil => rw [hq] at haq; exact absurd haq List.not_mem_nil
    | cons b rest =>
      rw [hq] at h haq hk
      have hab : a = b := (List.mem_cons.mp haq).resolve_right fun hr =>
        nomatch (hp a hpa).symm.trans (h.2 a hr)
      obtain rfl | hr := List.mem_cons.mp hk.1
      · rw [← hab, hpa] at hk
        exact nomatch hk.2
      · exact h.2 k hr
  · rw [foldl_endOrder_queueOf_other i _ _ hi, left]
    rw [List.filter_eq_self.mpr]
    · exact h
    · intro k hk
      obtain ⟨hmem, hki⟩ := mem_queueOf.mp hk
      by_contra hpk
      exact hi (List.mem_map.mpr ⟨k, List.mem_filter.mpr ⟨hmem, by simpa using hpk⟩, hki⟩)

theorem answerRanks_pairs (p : Rank → Bool) (status : ResponseStatus) (s : State) :
    ((answerRanks p status s).ranks.map pairOf).Sublist (s.ranks.map pairOf) := by
  rw [answerRanks_ranks, foldl_endOrder_pairs]
  exact List.filter_sublist.map _

/-- The list of ranks around the one at a place. -/
theorem ranks_split {α : Type} {ks : List α} {n : Nat} {k : α} (h : ks[n]? = some k) :
    ∃ before after, ks = before ++ k :: after ∧ ks.eraseIdx n = before ++ after := by
  obtain ⟨hn, rfl⟩ := List.getElem?_eq_some_iff.mp h
  exact ⟨ks.take n, ks.drop (n + 1), by rw [List.getElem_cons_drop, List.take_append_drop],
    List.eraseIdx_eq_take_drop_succ ..⟩

theorem parkedOn_of_eligible {k : Rank} (h : k.state = .eligible) (reason : WaitReason) :
    parkedOn reason k = false := by
  simp [parkedOn, h]

/-- An ELIGIBLE rank is the oldest of its initiator, so that those left of the initiator are parked with ORDER. -/
theorem freeRank_inOrder {n : Nat} {k : Rank} {s : State} (hk : s.ranks[n]? = some k) (he : k.state = .eligible)
    (h : ∀ i, InOrder (queueOf i s.ranks)) (i : InitiatorId) :
    InOrder (queueOf i (freeRank n k.request.initiator s).ranks) := by
  obtain ⟨before, after, hsplit, herase⟩ := ranks_split hk
  have hi := h i
  rw [freeRank_ranks, endOrder_queueOf, herase, queueOf_append]
  rw [hsplit, queueOf_append, queueOf_cons] at hi
  split
  · rename_i hki
    subst hki
    rw [if_pos rfl] at hi
    have rest : queueOf k.request.initiator before = [] ∧
        ∀ x ∈ queueOf k.request.initiator after, parkedOn .order x = true := by
      cases hb : queueOf k.request.initiator before with
      | nil => rw [hb] at hi; exact ⟨rfl, hi.2⟩
      | cons b bs =>
        rw [hb] at hi
        exact nomatch (parkedOn_of_eligible he .order).symm.trans (hi.2 k (by simp))
    rw [rest.1, List.nil_append]
    have again : queueOf k.request.initiator (queueOf k.request.initiator after) =
        queueOf k.request.initiator after := by simp [queueOf]
    rw [← again]
    exact endOrder_inOrder rest.2
  · rename_i hki
    rwa [if_neg hki] at hi

theorem freeRank_fewer {n : Nat} {k : Rank} {s : State} (hk : s.ranks[n]? = some k) :
    ((freeRank n k.request.initiator s).ranks.map pairOf).Sublist (s.ranks.map pairOf) := by
  obtain ⟨before, after, hsplit, herase⟩ := ranks_split hk
  rw [freeRank_ranks, endOrder_pairs, herase, hsplit]
  exact (List.Sublist.append_left (List.sublist_cons_self k after) before).map _

theorem freeRank_pairs {n : Nat} {k : Rank} {s : State} (hk : s.ranks[n]? = some k) (h : (s.ranks.map pairOf).Nodup) :
    ((freeRank n k.request.initiator s).ranks.map pairOf).Sublist (s.ranks.map pairOf) ∧
      pairOf k ∉ (freeRank n k.request.initiator s).ranks.map pairOf := by
  refine ⟨freeRank_fewer hk, ?_⟩
  obtain ⟨before, after, hsplit, herase⟩ := ranks_split hk
  rw [freeRank_ranks, endOrder_pairs, herase]
  rw [hsplit, List.map_append, List.map_cons] at h
  rw [List.map_append]
  exact (List.nodup_middle.mp h).notMem

theorem pairInUse_eq_false {i : InitiatorId} {t : Tag} {s : State} (h : pairInUse i t s = false) :
    (i, t) ∉ s.ranks.map pairOf ∧ (i, t) ∉ s.transit.map transitPair := by
  simp only [pairInUse, Bool.or_eq_false_iff, List.any_eq_false, decide_eq_true_eq] at h
  refine ⟨fun hmem => ?_, fun hmem => ?_⟩
  · obtain ⟨k, hk, heq⟩ := List.mem_map.mp hmem
    exact h.1 k hk (Prod.mk.inj heq)
  · obtain ⟨e, he, heq⟩ := List.mem_map.mp hmem
    exact h.2 e he (Prod.mk.inj heq)

theorem hasRank_iff (i : InitiatorId) (s : State) : hasRank i s = true ↔ queueOf i s.ranks ≠ [] := by
  simp [hasRank, queueOf]

/-- A new rank waits behind the others of its initiator just when it has some (R119). -/
theorem addRank_inOrder {r : Request} {dec : Decoded} {reason : WaitReason} {s : State} (i : InitiatorId)
    (hreason : reason = .order ↔ hasRank r.initiator s = true) (h : InOrder (queueOf i s.ranks)) :
    InOrder (queueOf i (addRank { request := r, decoded := dec, state := .parked reason } s).ranks) := by
  rw [addRank_ranks, queueOf_append, queueOf_cons]
  split
  · rename_i hki
    dsimp only at hki
    subst hki
    rw [hasRank_iff] at hreason
    cases hq : queueOf r.initiator s.ranks with
    | nil =>
      rw [hq] at hreason
      have : reason ≠ .order := fun ho => hreason.mp ho rfl
      exact ⟨by simpa [parkedOn] using this, fun x hx => absurd hx (by simp [queueOf])⟩
    | cons k ks =>
      rw [hq] at hreason h
      have ho : reason = .order := hreason.mpr (by simp)
      refine ⟨h.1, fun x hx => ?_⟩
      obtain hx | hx := List.mem_append.mp hx
      · exact h.2 x hx
      · rw [List.mem_singleton.mp hx]
        simp [parkedOn, ho]
  · rw [show queueOf i [] = [] from rfl, List.append_nil]
    exact h

/-- An ELIGIBLE rank that parks again, with another reason than ORDER, keeps its place. -/
theorem parkAgain_queueKept {n : Nat} {k : Rank} {reason : WaitReason} {s : State} (hk : s.ranks[n]? = some k)
    (he : k.state = .eligible) (hr : reason ≠ .order) : QueueKept s (parkAgain n reason s) := by
  obtain ⟨before, after, hsplit, -⟩ := ranks_split hk
  refine ⟨?_, List.Sublist.refl _⟩
  rw [parkAgain_ranks]
  refine List.ext_getElem? fun m => ?_
  rw [List.getElem?_map, List.getElem?_map, List.getElem?_modify]
  by_cases hnm : n = m
  · subst hnm
    simp [hk, rankKey, parkedOn, he, hr]
  · simp [hnm]

theorem answerRanks_all (status : ResponseStatus) (s : State) : (answerRanks (fun _ => true) status s).ranks = [] := by
  rw [answerRanks_ranks]
  simp [foldl_endOrder_nil]

theorem sendOldest_pairs (tag : LinkTag) (es : List TransitEntry) :
    (sendOldest tag es).map transitPair = es.map transitPair := by
  induction es with
  | nil => rfl
  | cons e es ih =>
    rw [sendOldest]
    split
    · rfl
    · rw [List.map_cons, ih, List.map_cons]

/-! ## Every move -/

/-- What a move does to the Hold Queue and the Transit Table. -/
inductive QueueMove (s t : State) : Prop
  | kept : QueueKept s t → QueueMove s t
  | answered (reason : WaitReason) (status : ResponseStatus) : reason ≠ .order →
      QueueKept (answerRanks (parkedOn reason) status s) t → QueueMove s t
  | parked (r : Request) (dec : Decoded) (reason : WaitReason) : accepting s = true →
      pairInUse r.initiator r.tag s = false → (reason = .order ↔ hasRank r.initiator s = true) →
      t = addRank { request := r, decoded := dec, state := .parked reason } s → QueueMove s t
  | issued (r : Request) (region : Region) (targets : List (Piece × Address)) :
      pairInUse r.initiator r.tag s = false → s.transit.length + targets.length ≤ Config.transitEntries →
      t = claimEntries r region targets s → QueueMove s t
  | left (n : Nat) (k : Rank) (targets : List (Piece × Address)) : s.ranks[n]? = some k → k.state = .eligible →
      (targets = [] ∨ s.transit.length + targets.length ≤ Config.transitEntries) →
      t.ranks = (freeRank n k.request.initiator s).ranks →
      t.transit = s.transit ++ targets.map (transitEntry k.request k.decoded.region) → QueueMove s t
  | emptied : t.ranks = [] → t.transit.Sublist s.transit → QueueMove s t

theorem queueMove_of_eq {s t : State} (hr : t.ranks = s.ranks) (ht : t.transit = s.transit) : QueueMove s t :=
  .kept (queueKept_of_eq hr ht)

theorem move_queue {s t : State} (m : Move s t) : QueueMove s t := by
  have waits : ∀ {reason : WaitReason} (u : State), reason ≠ .order → QueueKept u (endWaits (parkedOn reason) u) :=
    fun u hr => endWaits_queueKept (not_order_of_parkedOn hr) u
  cases m with
  | wakeWalk w tile s =>
    have gone : QueueKept s { s with walkJobs := s.walkJobs.eraseP (jobKey w tile) } := ⟨rfl, List.Sublist.refl _⟩
    exact .kept (gone.trans (waits _ (by simp)))
  | answerWalk w tile status s => exact .answered (.walk w tile) status (by simp) (queueKept_of_eq rfl rfl)
  | publishOk p s _ =>
    exact .kept ((queueKept_of_eq (s := s) (by simp) (by simp)).trans
      ((continuePass_woken p.domain _).queueKept (continuePass_transit ..)))
  | publishEnd p s _ =>
    have gone : QueueKept s { s with publishWrite := none } := ⟨rfl, List.Sublist.refl _⟩
    exact .kept (gone.trans ((continuePass_woken p.domain _).queueKept (continuePass_transit ..)))
  | publish d s _ => exact .kept ((enterPublish_woken d s).queueKept (enterPublish_frame d s).transit)
  | discard d s _ _ => exact .kept ((discardDomain_woken d s).queueKept (discardDomain_frame d s).transit)
  | copyDone k c c' s _ _ =>
    have done : QueueKept s (setSlot k none (setEntryState c'.window c'.tile .live s)) :=
      queueKept_of_eq (by simp) (by simp)
    exact .kept ((done.trans (waits _ (by simp))).trans (waits _ (by simp)))
  | copyFailed k c c' e s _ _ _ =>
    have removed : QueueKept (answerRanks (parkedOn (.copy c'.window c'.tile)) .failed s)
        (setSlot k none (answerRanks (parkedOn (.copy c'.window c'.tile)) .failed (removeEntry e s))) :=
      queueKept_of_eq (by simp) (by simp)
    exact .answered (.copy c'.window c'.tile) .failed (by simp) (removed.trans (waits _ (by simp)))
  | copyLost k c c' s _ _ _ =>
    have freed : QueueKept s (setSlot k none s) := ⟨rfl, List.Sublist.refl _⟩
    exact .kept (freed.trans (waits _ (by simp)))
  | forward tag s _ => exact .kept ⟨rfl, by rw [sendOldest_pairs]⟩
  | freeTransit tag s =>
    have freed : QueueKept s { s with transit := s.transit.eraseP (sentUnder tag) } :=
      ⟨rfl, List.eraseP_sublist.map _⟩
    exact .kept (freed.trans (waits _ (by simp)))
  | wakeDomain d s => exact .kept ((endDomainWaits_woken d s).queueKept (endDomainWaits_frame d s).transit)
  | park r dec reason s ha hp hr => exact .parked r dec reason ha hp hr rfl
  | issue r region targets s hp _ hroom => exact .issued r region targets hp hroom rfl
  | leave n k s hk he => exact .left n k [] hk he (.inl rfl) rfl (by simp)
  | leaveIssued n k targets s hk he hroom => exact .left n k targets hk he (.inr hroom) (by simp) (by simp)
  | parkAgain n k reason s hk he hr => exact .kept (parkAgain_queueKept hk he hr)
  | beginDrain s _ => exact .emptied (answerRanks_all .failed s) (List.Sublist.refl _)
  | endDrain s _ _ => exact .emptied rfl (List.nil_sublist _)
  | hardReset cause line s => exact .emptied rfl (List.nil_sublist _)
  | outside hf => exact queueMove_of_eq hf.ranks hf.transit
  | _ => exact queueMove_of_eq (by simp [enterOpen]) (by simp [enterOpen])

theorem length_le_of_pairs {ks ls : List Rank} (h : (ls.map pairOf).Sublist (ks.map pairOf)) :
    ls.length ≤ ks.length := by
  have fewer := h.length_le
  rwa [List.length_map, List.length_map] at fewer

theorem move_keeps_ranksFit (s t : State) (m : Move s t) (h : RanksFit s) : RanksFit t := by
  cases move_queue m with
  | kept hk => exact hk.ranksFit h
  | answered reason status hr hk =>
    exact hk.ranksFit ⟨(length_le_of_pairs (answerRanks_pairs _ status s)).trans h.bounded,
      fun i => answerRanks_inOrder (not_order_of_parkedOn hr) status i (h.inOrder i)⟩
  | parked r dec reason ha _ hr ht =>
    subst ht
    refine ⟨?_, fun i => addRank_inOrder i hr (h.inOrder i)⟩
    simp only [accepting, Bool.and_eq_true, decide_eq_true_eq] at ha
    rw [addRank_ranks, List.length_append]
    exact ha.1
  | issued r region targets _ _ ht => subst ht; exact ⟨h.bounded, h.inOrder⟩
  | left n k targets hk he _ hranks _ =>
    refine ⟨?_, fun i => ?_⟩
    · rw [hranks]
      exact (length_le_of_pairs (freeRank_fewer hk)).trans h.bounded
    · rw [hranks]
      exact freeRank_inOrder hk he h.inOrder i
  | emptied hranks _ => exact ⟨by simp [hranks], fun i => by rw [hranks]; exact trivial⟩

/-- The entries claimed for a request whose pair no rank holds keep the pairs apart. -/
theorem claimed_apart {r : Request} {region : Region} {targets : List (Piece × Address)} {es : List TransitEntry}
    {ps : List (InitiatorId × Tag)} (hr : (r.initiator, r.tag) ∉ ps) (h : ∀ p ∈ ps, p ∉ es.map transitPair) :
    ∀ p ∈ ps, p ∉ (es ++ targets.map (transitEntry r region)).map transitPair := by
  intro p hp hq
  rw [List.map_append, List.mem_append] at hq
  obtain hq | hq := hq
  · exact h p hp hq
  · obtain ⟨e, he, rfl⟩ := List.mem_map.mp hq
    obtain ⟨target, -, rfl⟩ := List.mem_map.mp he
    exact hr hp

theorem move_keeps_pairsFit (s t : State) (m : Move s t) (h : PairsFit s) : PairsFit t := by
  cases move_queue m with
  | kept hk => exact hk.pairsFit h
  | answered reason status _ hk =>
    have fewer := answerRanks_pairs (parkedOn reason) status s
    exact hk.pairsFit ⟨h.bounded, fewer.nodup h.once, fun p hp => h.apart p (fewer.subset hp)⟩
  | parked r dec reason _ hp _ ht =>
    subst ht
    obtain ⟨hranks, htransit⟩ := pairInUse_eq_false hp
    refine ⟨h.bounded, ?_, fun p hp => ?_⟩
    · rw [addRank_ranks, List.map_append]
      exact List.nodup_append.mpr ⟨h.once, List.nodup_singleton _, fun a ha b hb hab => by
        rw [hab, List.mem_singleton.mp hb] at ha
        exact hranks ha⟩
    · rw [addRank_ranks, List.map_append, List.mem_append] at hp
      obtain hp | hp := hp
      · exact h.apart p hp
      · rw [List.mem_singleton.mp hp]
        exact htransit
  | issued r region targets hp hroom ht =>
    subst ht
    exact ⟨by simpa using hroom, h.once, claimed_apart (pairInUse_eq_false hp).1 h.apart⟩
  | left n k targets hk _ hroom hranks htransit =>
    have left := freeRank_pairs hk h.once
    rw [← hranks] at left
    refine ⟨?_, left.1.nodup h.once, ?_⟩
    · rw [htransit, List.length_append, List.length_map]
      obtain rfl | hroom := hroom
      · exact h.bounded
      · exact hroom
    · rw [htransit]
      exact claimed_apart left.2 fun p hp => h.apart p (left.1.subset hp)
  | emptied hranks htransit =>
    exact ⟨htransit.length_le.trans h.bounded, by simp [hranks], fun p hp => by simp [hranks] at hp⟩

/-- Settles O55: the order within an initiator, and the bounds and pairs, are each kept by every move. -/
theorem queueDisciplineKept : Obligations.QueueDisciplineKept := by
  rintro s t ⟨hranks, horder, htransit, hpairs⟩ hstep
  obtain ⟨hranks, horder⟩ := (ranksFit_iff t).mp
    (step_keeps move_keeps_ranksFit hstep ((ranksFit_iff s).mpr ⟨hranks, horder⟩))
  obtain ⟨htransit, hpairs⟩ := (pairsFit_iff t).mp
    (step_keeps move_keeps_pairsFit hstep ((pairsFit_iff s).mpr ⟨htransit, hpairs⟩))
  exact ⟨hranks, horder, htransit, hpairs⟩

end Sys2Proof.Machine
end

