-- ==== Sys2Proof/Proofs/Engines.lean ====
section
/-! SUPPORT. The Map Walker's single operation, its jobs, the chunks of a copy, the link tags of abandoned operations and
the starvation counter (R30, R31, R109, R157, R161). -/

namespace Sys2Proof.Machine

/-! ## What holds operations on the memory link -/

/-- The walk list, the publish write, the Transit Table, the copy slots and the abandoned tags are as they were. -/
structure PortKept (s t : State) : Prop where
  walkJobs : t.walkJobs = s.walkJobs
  publishWrite : t.publishWrite = s.publishWrite
  transit : t.transit = s.transit
  slots : t.slots = s.slots
  abandoned : t.abandoned = s.abandoned

theorem EpochFrame.portKept {s t : State} (h : EpochFrame s t) : PortKept s t :=
  ⟨h.walkJobs, h.publishWrite, h.transit, h.slots, h.abandoned⟩

theorem OutsideFrame.portKept {s t : State} (h : OutsideFrame s t) : PortKept s t :=
  ⟨h.walkJobs, h.publishWrite, h.transit, h.slots, h.abandoned⟩

theorem PortKept.trans {s t u : State} (h : PortKept s t) (k : PortKept t u) : PortKept s u :=
  ⟨k.walkJobs.trans h.walkJobs, k.publishWrite.trans h.publishWrite, k.transit.trans h.transit,
    k.slots.trans h.slots, k.abandoned.trans h.abandoned⟩

theorem continuePass_portKept (d : DomainId) (s : State) : PortKept s (continuePass d s) := by
  unfold continuePass
  split
  · exact ⟨rfl, rfl, rfl, rfl, rfl⟩
  · exact PortKept.trans (t := { s with publication := s.publication.filter fun p => !decide (p.domain = d) })
      ⟨rfl, rfl, rfl, rfl, rfl⟩ (endPass_frame d _).portKept

/-! ## The walk list -/

/-- The tile that a walk job is of. -/
def jobTile (j : WalkJob) : WindowId × Nat := (j.window, j.tile)

/-- The number of issued walks in a walk list. -/
def issuedWalks (js : List WalkJob) : Nat := js.countP fun j => (walkTag j).isSome

theorem walkerOutstanding_eq (s : State) :
    walkerOutstanding s = issuedWalks s.walkJobs + s.publishWrite.toList.length := rfl

theorem issueOldest_tiles (tag : LinkTag) (js : List WalkJob) : (issueOldest tag js).map jobTile = js.map jobTile := by
  induction js with
  | nil => rfl
  | cons j js ih =>
    rw [issueOldest]
    split
    · rfl
    · rw [List.map_cons, ih, List.map_cons]

theorem issuedWalks_cons (j : WalkJob) (js : List WalkJob) :
    issuedWalks (j :: js) = issuedWalks js + if (walkTag j).isSome then 1 else 0 := List.countP_cons ..

theorem issuedWalks_issueOldest_le (tag : LinkTag) (js : List WalkJob) :
    issuedWalks (issueOldest tag js) ≤ issuedWalks js + 1 := by
  induction js with
  | nil => exact Nat.zero_le _
  | cons j js ih =>
    rw [issueOldest]
    split
    · rw [issuedWalks_cons, issuedWalks_cons]
      split <;> split <;> omega
    · rw [issuedWalks_cons, issuedWalks_cons]
      omega

theorem issueOldest_tags {tag t : LinkTag} {js : List WalkJob} (h : ∃ j ∈ issueOldest tag js, walkTag j = some t) :
    t = tag ∨ ∃ j ∈ js, walkTag j = some t := by
  induction js with
  | nil => obtain ⟨j, hj, -⟩ := h; exact absurd hj List.not_mem_nil
  | cons j js ih =>
    obtain ⟨i, hi, ht⟩ := h
    rw [issueOldest] at hi
    split at hi
    · obtain rfl | hi := List.mem_cons.mp hi
      · exact .inl (Option.some.inj ht).symm
      · exact .inr ⟨i, List.mem_cons_of_mem _ hi, ht⟩
    · obtain rfl | hi := List.mem_cons.mp hi
      · exact .inr ⟨i, List.mem_cons_self, ht⟩
      · obtain rfl | ⟨j', hj', ht'⟩ := ih ⟨i, hi, ht⟩
        · exact .inl rfl
        · exact .inr ⟨j', List.mem_cons_of_mem _ hj', ht'⟩

/-- A Map Walker that is not busy has nothing outstanding (R31). -/
theorem walkerBusy_eq_false {s : State} (h : walkerBusy s = false) :
    issuedWalks s.walkJobs = 0 ∧ s.publishWrite = none := by
  simp only [walkerBusy, Bool.or_eq_false_iff, List.any_eq_false] at h
  refine ⟨List.countP_eq_zero.mpr h.2, ?_⟩
  simpa using h.1

/-- A walk job of the tile stands in the list, or a PENDING one is added (R23, R30). -/
theorem postWalk_cases (w : WindowId) (tile : Nat) (s : State) :
    postWalk w tile s = s ∨
      (w, tile) ∉ s.walkJobs.map jobTile ∧ ∃ j, walkTag j = none ∧ jobTile j = (w, tile) ∧
        postWalk w tile s = { s with walkJobs := s.walkJobs ++ [j] } := by
  unfold postWalk
  split
  · exact .inl rfl
  · rename_i hnone
    refine .inr ⟨fun hmem => ?_, _, rfl, rfl, rfl⟩
    obtain ⟨j, hj, hkey⟩ := List.mem_map.mp hmem
    exact hnone (List.any_eq_true.mpr ⟨j, hj, by simpa [jobKey, jobTile] using hkey⟩)

/-! ## The Map Walker has one operation -/

theorem walkerSingle_of_kept {s t : State} (h : PortKept s t) (hs : WalkerSingle s) : WalkerSingle t := by
  unfold WalkerSingle at *
  rwa [walkerOutstanding_eq, h.walkJobs, h.publishWrite]

theorem walkerSingle_of_fewer {s t : State} (hs : WalkerSingle s) (hj : t.walkJobs.Sublist s.walkJobs)
    (hp : t.publishWrite = s.publishWrite) : WalkerSingle t := by
  unfold WalkerSingle at *
  rw [walkerOutstanding_eq] at *
  have fewer : issuedWalks t.walkJobs ≤ issuedWalks s.walkJobs := hj.countP_le
  rw [hp]
  omega

theorem walkerSingle_of_no_publishWrite {s t : State} (hs : WalkerSingle s) (hj : t.walkJobs = s.walkJobs)
    (hp : t.publishWrite = none) : WalkerSingle t := by
  unfold WalkerSingle at *
  rw [walkerOutstanding_eq] at *
  rw [hj, hp, Option.toList_none, List.length_nil]
  omega

theorem move_keeps_walkerSingle (s t : State) (m : Move s t) (h : WalkerSingle s) : WalkerSingle t := by
  cases m with
  | postWalk w tile s _ =>
    obtain same | ⟨-, j, hj, -, heq⟩ := postWalk_cases w tile s
    · rw [same]; exact h
    · unfold WalkerSingle at *
      rw [walkerOutstanding_eq] at h
      rw [heq, walkerOutstanding_eq, issuedWalks, List.countP_append]
      simpa [hj, issuedWalks] using h
  | issueWalk tag s hbusy _ _ =>
    obtain ⟨hnone, hp⟩ := walkerBusy_eq_false hbusy
    have one := issuedWalks_issueOldest_le tag s.walkJobs
    unfold WalkerSingle
    rw [walkerOutstanding_eq, hp]
    simpa [hnone] using one
  | publishGrant tag p e a s hbusy _ _ _ =>
    unfold WalkerSingle
    rw [walkerOutstanding_eq, (walkerBusy_eq_false hbusy).1]
    exact Nat.le_refl 1
  | wakeWalk w tile s => exact walkerSingle_of_fewer h List.eraseP_sublist rfl
  | answerWalk w tile status s => exact walkerSingle_of_fewer h List.eraseP_sublist rfl
  | publishOk p s _ =>
    exact walkerSingle_of_kept (continuePass_portKept _ _) (walkerSingle_of_no_publishWrite h rfl rfl)
  | publishEnd p s _ =>
    exact walkerSingle_of_kept (continuePass_portKept _ _) (walkerSingle_of_no_publishWrite h rfl rfl)
  | publish d s _ => exact walkerSingle_of_kept (enterPublish_frame d s).portKept h
  | discard d s _ _ => exact walkerSingle_of_kept (discardDomain_frame d s).portKept h
  | beginDrain s _ => exact walkerSingle_of_fewer h (List.filter_sublist) rfl
  | endDrain s _ _ => exact Nat.zero_le _
  | hardReset cause line s => exact Nat.zero_le _
  | outside hf => exact walkerSingle_of_kept hf.portKept h
  | _ => exact walkerSingle_of_fewer h (by simp [enterOpen]) (by simp [enterOpen])

/-! ## A tile has one walk job -/

theorem jobsUnique_iff (s : State) : JobsUnique s ↔ (s.walkJobs.map jobTile).Nodup := Iff.rfl

theorem jobsUnique_of_fewer {s t : State} (h : t.walkJobs.Sublist s.walkJobs) (hs : JobsUnique s) : JobsUnique t :=
  (h.map _).nodup hs

theorem jobsUnique_of_eq {s t : State} (h : t.walkJobs = s.walkJobs) (hs : JobsUnique s) : JobsUnique t :=
  jobsUnique_of_fewer (h ▸ List.Sublist.refl _) hs

theorem move_keeps_jobsUnique (s t : State) (m : Move s t) (h : JobsUnique s) : JobsUnique t := by
  cases m with
  | postWalk w tile s _ =>
    obtain same | ⟨hnew, j, -, hj, heq⟩ := postWalk_cases w tile s
    · rw [same]; exact h
    · rw [heq, jobsUnique_iff, List.map_append, List.map_singleton, hj]
      exact List.nodup_append.mpr ⟨h, List.nodup_singleton _, fun a ha b hb hab => by
        rw [hab, List.mem_singleton.mp hb] at ha
        exact hnew ha⟩
  | issueWalk tag s _ _ _ =>
    rw [jobsUnique_iff, issueOldest_tiles]
    exact h
  | wakeWalk w tile s => exact jobsUnique_of_fewer List.eraseP_sublist h
  | answerWalk w tile status s => exact jobsUnique_of_fewer List.eraseP_sublist h
  | publishOk p s _ => exact jobsUnique_of_eq (continuePass_portKept _ _).walkJobs h
  | publishEnd p s _ => exact jobsUnique_of_eq (continuePass_portKept _ _).walkJobs h
  | publish d s _ => exact jobsUnique_of_eq (enterPublish_frame d s).walkJobs h
  | discard d s _ _ => exact jobsUnique_of_eq (discardDomain_frame d s).walkJobs h
  | beginDrain s _ => exact jobsUnique_of_fewer List.filter_sublist h
  | endDrain s _ _ => exact List.nodup_nil
  | hardReset cause line s => exact List.nodup_nil
  | outside hf => exact jobsUnique_of_eq hf.walkJobs h
  | _ => exact jobsUnique_of_fewer (by simp [enterOpen]) h

/-! ## The chunks of a copy -/

theorem chunksBounded_of_eq {s t : State} (h : t.slots = s.slots) (hs : ChunksBounded s) : ChunksBounded t := by
  unfold ChunksBounded
  rw [h]
  exact hs

/-- One slot is set to a copy whose chunks lie in their ranges, or freed. -/
theorem chunksBounded_set {k : SlotId} {o : Option CopyJob} {s t : State} (h : t.slots = s.slots.set k o)
    (ho : ∀ c, o = some c → chunksFit c) (hs : ChunksBounded s) : ChunksBounded t := by
  intro j c hc
  rw [h, vector_set_get] at hc
  split at hc
  · exact ho c hc
  · exact hs j c hc

theorem move_keeps_chunksBounded (s t : State) (m : Move s t) (h : ChunksBounded s) : ChunksBounded t := by
  have freed : ∀ c : CopyJob, (none : Option CopyJob) = some c → chunksFit c := fun c hc => nomatch hc
  have of_reset : ∀ {u : State}, u.slots = Vector.replicate 2 none → ChunksBounded u := fun hu k c hc => by
    rw [hu, vector_replicate_get] at hc
    exact nomatch hc
  cases m with
  | createEntry d c f k s _ _ _ _ _ _ _ =>
    refine chunksBounded_set (createEntry_slots ..) (fun c' hc' => ?_) h
    cases hc'
    exact ⟨Nat.zero_le _, Nat.zero_le _⟩
  | copyDone k c c' s _ _ => exact chunksBounded_set (k := k) (by simp) freed h
  | copyFailed k c c' e s _ _ _ => exact chunksBounded_set (k := k) (by simp) freed h
  | copyLost k c c' s _ _ _ => exact chunksBounded_set (k := k) (by simp) freed h
  | copyGoesOn k c c' s hc _ hfit _ =>
    refine chunksBounded_set (setSlot_slots ..) (fun c'' hc'' => ?_) h
    cases hc''
    exact hfit (h k c hc)
  | publishOk p s _ => exact chunksBounded_of_eq ((continuePass_portKept _ _).slots.trans (by simp)) h
  | publishEnd p s _ => exact chunksBounded_of_eq (continuePass_portKept _ _).slots h
  | publish d s _ => exact chunksBounded_of_eq (enterPublish_frame d s).slots h
  | discard d s _ _ => exact chunksBounded_of_eq (discardDomain_frame d s).slots h
  | endDrain s _ _ => exact of_reset rfl
  | hardReset cause line s => exact of_reset rfl
  | outside hf => exact chunksBounded_of_eq hf.slots h
  | _ => exact chunksBounded_of_eq (by simp [enterOpen]) h

/-! ## Abandoned link tags -/

theorem mem_slots_iff {c : CopyJob} {s : State} : some c ∈ s.slots ↔ ∃ k : SlotId, s.slots[k] = some c := by
  rw [Vector.mem_iff_getElem]
  exact ⟨fun ⟨i, hi, h⟩ => ⟨⟨i, hi⟩, h⟩, fun ⟨k, h⟩ => ⟨k.val, k.isLt, h⟩⟩

/-- An operation's tag was outstanding before, or no abandoned operation holds it; and no tag is newly abandoned. -/
structure TagsWithin (s t : State) : Prop where
  outstanding : ∀ tag ∈ outstandingTags t, tag ∈ outstandingTags s ∨ tag ∉ s.abandoned
  abandoned : ∀ tag ∈ t.abandoned, tag ∈ s.abandoned

theorem TagsWithin.apart {s t : State} (h : TagsWithin s t) (hs : AbandonedApart s) : AbandonedApart t := by
  intro tag ha ho
  obtain old | new := h.outstanding tag ho
  · exact hs tag (h.abandoned tag ha) old
  · exact new (h.abandoned tag ha)

theorem TagsWithin.trans_kept {s t u : State} (h : TagsWithin s t) (k : PortKept t u) : TagsWithin s u := by
  have same : outstandingTags u = outstandingTags t := by
    unfold outstandingTags
    rw [k.walkJobs, k.publishWrite, k.transit, k.slots]
  exact ⟨by rw [same]; exact h.outstanding, by rw [k.abandoned]; exact h.abandoned⟩

theorem TagsWithin.refl (s : State) : TagsWithin s s := ⟨fun _ h => .inl h, fun _ h => h⟩

theorem PortKept.tagsWithin {s t : State} (h : PortKept s t) : TagsWithin s t := (TagsWithin.refl s).trans_kept h

/-- What holds operations has changed only in the walk list, whose tags are old or new. -/
theorem tagsWithin_of_walks (s : State) {t : State}
    (hj : ∀ tag, (∃ j ∈ t.walkJobs, walkTag j = some tag) → (∃ j ∈ s.walkJobs, walkTag j = some tag) ∨ tag ∉ s.abandoned)
    (hp : t.publishWrite = s.publishWrite) (ht : t.transit = s.transit) (hk : t.slots = s.slots)
    (ha : t.abandoned = s.abandoned) : TagsWithin s t := by
  refine ⟨fun tag htag => ?_, fun tag htag => ha ▸ htag⟩
  rw [mem_outstandingTags] at htag ⊢
  rw [hp, ht, hk] at htag
  obtain walk | rest := htag
  · exact (hj tag walk).imp_left .inl
  · exact .inl (.inr rest)

theorem tagsWithin_of_transit (s : State) {t : State} (hj : t.walkJobs = s.walkJobs) (hp : t.publishWrite = s.publishWrite)
    (ht : ∀ tag, (∃ e ∈ t.transit, e.state = .sent tag) → (∃ e ∈ s.transit, e.state = .sent tag) ∨ tag ∉ s.abandoned)
    (hk : t.slots = s.slots) (ha : t.abandoned = s.abandoned) : TagsWithin s t := by
  refine ⟨fun tag htag => ?_, fun tag htag => ha ▸ htag⟩
  rw [mem_outstandingTags] at htag ⊢
  rw [hp, hj, hk] at htag
  obtain walk | write | sent | chunk := htag
  · exact .inl (.inl walk)
  · exact .inl (.inr (.inl write))
  · exact (ht tag sent).imp_left fun h => .inr (.inr (.inl h))
  · exact .inl (.inr (.inr (.inr chunk)))

/-- One slot is set to a copy whose tags the slot had or no abandoned operation holds, or freed. -/
theorem tagsWithin_of_slot (s : State) {k : SlotId} {o : Option CopyJob} {t : State} (hj : t.walkJobs = s.walkJobs)
    (hp : t.publishWrite = s.publishWrite) (ht : t.transit = s.transit) (hk : t.slots = s.slots.set k o)
    (ho : ∀ c', o = some c' → ∀ x ∈ c'.chunks, ∀ tag, chunkTag x = some tag →
      tag ∉ s.abandoned ∨ ∃ c, s.slots[k] = some c ∧ ∃ y ∈ c.chunks, chunkTag y = some tag)
    (ha : t.abandoned = s.abandoned) : TagsWithin s t := by
  refine ⟨fun tag htag => ?_, fun tag htag => ha ▸ htag⟩
  rw [mem_outstandingTags] at htag ⊢
  rw [hp, hj, ht] at htag
  obtain walk | write | sent | ⟨c, hc, x, hx, hxt⟩ := htag
  · exact .inl (.inl walk)
  · exact .inl (.inr (.inl write))
  · exact .inl (.inr (.inr (.inl sent)))
  · obtain ⟨i, hi⟩ := mem_slots_iff.mp hc
    rw [hk, vector_set_get] at hi
    split at hi
    · obtain new | ⟨c', hc', y, hy, hyt⟩ := ho c hi x hx tag hxt
      · exact .inr new
      · exact .inl (.inr (.inr (.inr ⟨c', mem_slots_iff.mpr ⟨k, hc'⟩, y, hy, hyt⟩)))
    · exact .inl (.inr (.inr (.inr ⟨c, mem_slots_iff.mpr ⟨i, hi⟩, x, hx, hxt⟩)))

theorem tagsWithin_of_no_publishWrite (s : State) {t : State} (hj : t.walkJobs = s.walkJobs) (hp : t.publishWrite = none)
    (ht : t.transit = s.transit) (hk : t.slots = s.slots) (ha : t.abandoned = s.abandoned) : TagsWithin s t := by
  refine ⟨fun tag htag => .inl ?_, fun tag htag => ha ▸ htag⟩
  rw [mem_outstandingTags] at htag ⊢
  rw [hj, hp, ht, hk] at htag
  obtain walk | ⟨p, hnone, -⟩ | rest := htag
  · exact .inl walk
  · exact nomatch hnone
  · exact .inr (.inr rest)

theorem sendOldest_tags {tag t : LinkTag} {es : List TransitEntry} (h : ∃ e ∈ sendOldest tag es, e.state = .sent t) :
    t = tag ∨ ∃ e ∈ es, e.state = .sent t := by
  induction es with
  | nil => obtain ⟨e, he, -⟩ := h; exact absurd he List.not_mem_nil
  | cons e es ih =>
    obtain ⟨x, hx, ht⟩ := h
    rw [sendOldest] at hx
    split at hx
    · obtain rfl | hx := List.mem_cons.mp hx
      · exact .inl (TransitState.sent.inj ht).symm
      · exact .inr ⟨x, List.mem_cons_of_mem _ hx, ht⟩
    · obtain rfl | hx := List.mem_cons.mp hx
      · exact .inr ⟨x, List.mem_cons_self, ht⟩
      · obtain rfl | ⟨e', he', ht'⟩ := ih ⟨x, hx, ht⟩
        · exact .inl rfl
        · exact .inr ⟨e', List.mem_cons_of_mem _ he', ht'⟩

theorem claimEntries_tags {r : Request} {region : Region} {targets : List (Piece × Address)} {s : State}
    {tag : LinkTag} (h : ∃ e ∈ (claimEntries r region targets s).transit, e.state = .sent tag) :
    ∃ e ∈ s.transit, e.state = .sent tag := by
  obtain ⟨e, he, ht⟩ := h
  rw [claimEntries_transit, List.mem_append] at he
  obtain he | he := he
  · exact ⟨e, he, ht⟩
  · obtain ⟨target, -, rfl⟩ := List.mem_map.mp he
    exact nomatch ht

theorem abandonedApart_of_nothing {t : State} (h : outstandingTags t = []) : AbandonedApart t := by
  intro tag _ ho
  rw [h] at ho
  exact List.not_mem_nil ho

theorem move_keeps_abandonedApart (s t : State) (m : Move s t) (h : AbandonedApart s) : AbandonedApart t := by
  have freed : ∀ (k : SlotId) (c' : CopyJob), (none : Option CopyJob) = some c' → ∀ x ∈ c'.chunks, ∀ tag,
      chunkTag x = some tag →
        tag ∉ s.abandoned ∨ ∃ c, s.slots[k] = some c ∧ ∃ y ∈ c.chunks, chunkTag y = some tag :=
    fun _ _ hc => nomatch hc
  cases m with
  | postWalk w tile s _ =>
    refine TagsWithin.apart (tagsWithin_of_walks s (fun tag htag => .inl ?_) rfl rfl rfl rfl) h
    obtain same | ⟨-, j, hj, -, heq⟩ := postWalk_cases w tile s
    · rwa [same] at htag
    · rw [heq] at htag
      obtain ⟨i, hi, ht⟩ := htag
      obtain hi | hi := List.mem_append.mp hi
      · exact ⟨i, hi, ht⟩
      · rw [List.mem_singleton.mp hi, hj] at ht
        exact nomatch ht
  | issueWalk tag s _ _ htag =>
    refine TagsWithin.apart (tagsWithin_of_walks s (fun t ht => ?_) rfl rfl rfl rfl) h
    obtain rfl | old := issueOldest_tags ht
    · exact .inr htag
    · exact .inl old
  | wakeWalk w tile s =>
    refine TagsWithin.apart (tagsWithin_of_walks s (fun tag htag => .inl ?_) rfl rfl rfl rfl) h
    exact htag.imp fun j hj => ⟨List.mem_of_mem_eraseP hj.1, hj.2⟩
  | answerWalk w tile status s =>
    refine TagsWithin.apart (tagsWithin_of_walks s (fun tag htag => .inl ?_) rfl rfl rfl rfl) h
    exact htag.imp fun j hj => ⟨List.mem_of_mem_eraseP hj.1, hj.2⟩
  | beginDrain s _ =>
    refine TagsWithin.apart (tagsWithin_of_walks s (fun tag htag => .inl ?_) rfl rfl rfl rfl) h
    exact htag.imp fun j hj => ⟨List.mem_of_mem_filter hj.1, hj.2⟩
  | publishGrant tag p e a s _ _ _ htag =>
    refine TagsWithin.apart (s := s) ⟨fun t ht => ?_, fun t ht => ht⟩ h
    rw [mem_outstandingTags] at ht ⊢
    obtain walk | ⟨q, hq, rfl⟩ | rest := ht
    · exact .inl (.inl walk)
    · cases hq
      exact .inr htag
    · exact .inl (.inr (.inr rest))
  | publishOk p s _ =>
    have cleared : TagsWithin s (setEntryState p.window p.tile .published { s with publishWrite := none }) :=
      tagsWithin_of_no_publishWrite s rfl rfl rfl rfl rfl
    exact (cleared.trans_kept (continuePass_portKept _ _)).apart h
  | publishEnd p s _ =>
    have cleared : TagsWithin s { s with publishWrite := none } := tagsWithin_of_no_publishWrite s rfl rfl rfl rfl rfl
    exact (cleared.trans_kept (continuePass_portKept _ _)).apart h
  | publish d s _ => exact (enterPublish_frame d s).portKept.tagsWithin.apart h
  | discard d s _ _ => exact (discardDomain_frame d s).portKept.tagsWithin.apart h
  | createEntry d c f k s _ _ _ _ _ _ _ =>
    refine TagsWithin.apart (tagsWithin_of_slot s (by simp) (by simp) (by simp) (createEntry_slots ..) (fun c' hc' x hx => ?_)
      (by simp)) h
    cases hc'
    exact absurd hx List.not_mem_nil
  | copyDone k c c' s _ _ =>
    exact TagsWithin.apart (tagsWithin_of_slot s (k := k) (by simp) (by simp) (by simp) (by simp) (freed k) (by simp)) h
  | copyFailed k c c' e s _ _ _ =>
    exact TagsWithin.apart (tagsWithin_of_slot s (k := k) (by simp) (by simp) (by simp) (by simp) (freed k) (by simp)) h
  | copyLost k c c' s _ _ _ =>
    exact TagsWithin.apart (tagsWithin_of_slot s (k := k) (by simp) (by simp) (by simp) (by simp) (freed k) (by simp)) h
  | copyGoesOn k c c' s hc _ _ htags =>
    refine TagsWithin.apart (tagsWithin_of_slot s (by simp) (by simp) (by simp) (setSlot_slots ..) (fun c'' hc'' x hx tag hxt => ?_)
      (by simp)) h
    cases hc''
    exact (htags x hx tag hxt).imp_right fun old => ⟨c, hc, old⟩
  | forward tag s htag =>
    refine TagsWithin.apart (tagsWithin_of_transit s rfl rfl (fun t ht => ?_) rfl rfl) h
    obtain rfl | old := sendOldest_tags ht
    · exact .inr htag
    · exact .inl old
  | freeTransit tag s =>
    refine TagsWithin.apart (tagsWithin_of_transit s rfl rfl (fun t ht => .inl ?_) rfl rfl) h
    exact ht.imp fun e he => ⟨List.mem_of_mem_eraseP he.1, he.2⟩
  | issue r region targets s _ _ _ =>
    exact TagsWithin.apart (tagsWithin_of_transit s (by simp) (by simp) (fun t ht => .inl (claimEntries_tags ht)) (by simp)
      (by simp)) h
  | leaveIssued n k targets s _ _ _ =>
    exact TagsWithin.apart (tagsWithin_of_transit s (by simp) (by simp)
      (fun t ht => .inl (claimEntries_tags (region := k.decoded.region) (targets := targets) ht)) (by simp)
      (by simp)) h
  | abandonedReturns tag s =>
    exact TagsWithin.apart (s := s) ⟨fun t ht => .inl ht, fun t ht => List.mem_of_mem_filter ht⟩ h
  | endDrain s _ _ => exact abandonedApart_of_nothing outstandingTags_reset
  | hardReset cause line s => exact abandonedApart_of_nothing outstandingTags_reset
  | outside hf => exact hf.portKept.tagsWithin.apart h
  | _ =>
    exact (PortKept.tagsWithin ⟨by simp [enterOpen], by simp [enterOpen], by simp [enterOpen], by simp [enterOpen],
      by simp [enterOpen]⟩).apart h

end Sys2Proof.Machine
end

