-- ==== Sys2Proof/Proofs/Evaluation.lean ====
section
/-! SUPPORT. What the evaluation of a request can do, said once: it changes State only where a piece waits for a walk that
it posts or for a copy that it starts, and otherwise it claims transit entries, refuses the request, or finds what the
request has to wait for (R18, R19, R146). -/

namespace Sys2Proof.Machine

/-- A wait that the translation for a domain decides, with the state that it leaves: what is waited for is there
(Table 7-2). -/
inductive Waits (d : DomainId) (s : State) : WaitReason → State → Prop
  | walk (w : WindowId) (tile : Nat) : Waits d s (.walk w tile) (postWalk w tile s)
  | copying (e : ChangeEntry) : e ∈ s.changes → isCopying e = true → Waits d s (.copy e.window e.tile) s
  | slot : freeSlot s = none → Waits d s .slot s
  | domain : (∃ phase, domainState d s = .committing phase) ∨ domainState d s = .rollingBack → Waits d s .domain s
  | created (c : CacheEntry) (f : Frame) (k : SlotId) : inEpoch d s = true → findChange c.window c.tile s = none →
      quotaHolds s.domains[d] = true → s.changes.length < Config.changeEntries → s.freeFrames.head? = some f →
      freeSlot s = some k → Waits d s (.copy c.window c.tile) (createEntry d c f k s)

/-! ## One piece -/

/-- A piece that waits has something to wait for, and any other leaves State as it was. -/
def PieceResolved (d : DomainId) (s : State) (result : PieceOutcome × State) : Prop :=
  (∃ reason, result.1 = .park reason ∧ Waits d s reason result.2) ∨
    ((∀ reason, result.1 ≠ .park reason) ∧ result.2 = s)

theorem pieceResolved_forward (d : DomainId) (s : State) (a : Address) : PieceResolved d s (.forward a, s) :=
  .inr ⟨fun _ h => (nomatch h), rfl⟩

theorem pieceResolved_refuse (d : DomainId) (s : State) (code : FaultCode) : PieceResolved d s (.refuse code, s) :=
  .inr ⟨fun _ h => (nomatch h), rfl⟩

theorem firstWrite_resolved {d : DomainId} {c : CacheEntry} {s : State} (hd : inEpoch d s = true)
    (hc : findChange c.window c.tile s = none) : PieceResolved d s (firstWrite d c s) := by
  unfold firstWrite
  split
  · exact pieceResolved_refuse ..
  split
  · exact pieceResolved_refuse ..
  split
  · exact pieceResolved_refuse ..
  rename_i hquota hroom _ f fs hf
  split
  · exact .inl ⟨_, rfl, .slot ‹_›⟩
  · rename_i k hk
    exact .inl ⟨_, rfl, .created c f k hd hc (by simpa using hquota) (by omega) (by rw [hf]; rfl) hk⟩

theorem closedWrite_resolved (d : DomainId) (p : Piece) (c : CacheEntry) (s : State) :
    PieceResolved d s (closedWrite d p c s) := by
  unfold closedWrite
  split
  · exact pieceResolved_forward ..
  · exact pieceResolved_refuse ..

theorem findCache_key {w : WindowId} {tile : Nat} {s : State} {c : CacheEntry} (h : findCache w tile s = some c) :
    c.window = w ∧ c.tile = tile := by
  simpa [cacheKey] using List.find?_some h

theorem routeChanged_resolved {d : DomainId} {e : ChangeEntry} {s : State} (he : e ∈ s.changes) (kind : Kind)
    (p : Piece) : PieceResolved d s (routeChanged kind p e, s) := by
  unfold routeChanged
  split
  · exact pieceResolved_forward ..
  · rename_i hstate
    exact .inl ⟨_, rfl, .copying e he (by simp only [isCopying, hstate])⟩
  all_goals exact pieceResolved_forward ..

theorem lookup_resolved {d : DomainId} {kind : Kind} {w : WindowId} {p : Piece}
    {onWrite : CacheEntry → State → PieceOutcome × State} {s : State}
    (h : ∀ c, findChange c.window c.tile s = none → PieceResolved d s (onWrite c s)) :
    PieceResolved d s (lookup kind w p onWrite s) := by
  unfold lookup
  split
  · exact routeChanged_resolved (findChange_mem ‹_›).1 kind p
  rename_i hnone
  split
  · exact .inl ⟨_, rfl, .walk w p.tile⟩
  rename_i c hcache
  obtain ⟨rfl, htile⟩ := findCache_key hcache
  split
  · exact pieceResolved_forward ..
  split
  · exact h c (htile ▸ hnone)
  · exact pieceResolved_refuse ..

theorem translatePiece_resolved (kind : Kind) (w : WindowId) (d : DomainId) (p : Piece) (s : State) :
    PieceResolved d s (translatePiece kind w d p s) := by
  unfold translatePiece
  split
  · exact lookup_resolved fun c _ => closedWrite_resolved d p c s
  · rename_i hd
    exact lookup_resolved fun c hc => firstWrite_resolved (by simp only [inEpoch, hd]) hc
  · rename_i hd
    exact lookup_resolved fun c hc => firstWrite_resolved (by simp only [inEpoch, hd]) hc
  · exact lookup_resolved fun c _ => .inl ⟨_, rfl, .domain (.inl ⟨_, ‹_›⟩)⟩
  · exact .inl ⟨_, rfl, .domain (.inl ⟨_, ‹_›⟩)⟩
  · exact .inl ⟨_, rfl, .domain (.inr ‹_›)⟩
  · exact pieceResolved_refuse ..

/-! ## A request -/

/-- A request that waits has something to wait for; any other leaves State as it was, and one that is forwarded has a
target for each of its pieces. -/
def VerdictResolved (d : DomainId) (pieces : List Piece) (s : State) (result : Verdict × State) : Prop :=
  (∃ reason, result.1 = .park reason ∧ Waits d s reason result.2) ∨
    (result.2 = s ∧ ((∃ code, result.1 = .refuse code) ∨
      ∃ targets, result.1 = .forward targets ∧ targets.length = pieces.length))

theorem translatePieces_resolved (kind : Kind) (w : WindowId) (d : DomainId) (ps : List Piece) (s : State) :
    VerdictResolved d ps s (translatePieces kind w d ps s) := by
  induction ps with
  | nil => exact .inr ⟨rfl, .inr ⟨[], rfl, rfl⟩⟩
  | cons p ps ih =>
    have piece := translatePiece_resolved kind w d p s
    unfold translatePieces
    rcases hp : translatePiece kind w d p s with ⟨outcome, s₁⟩
    rw [hp] at piece
    obtain ⟨reason, hpark, hwaits⟩ | ⟨hnot, hsame⟩ := piece
    · dsimp only at hpark hwaits
      subst hpark
      exact .inl ⟨reason, rfl, hwaits⟩
    dsimp only at hnot hsame
    subst hsame
    cases outcome with
    | park reason => exact absurd rfl (hnot reason)
    | refuse code => exact .inr ⟨rfl, .inl ⟨code, rfl⟩⟩
    | forward a =>
      dsimp only
      rcases hps : translatePieces kind w d ps s₁ with ⟨verdict, s₂⟩
      rw [hps] at ih
      obtain ⟨reason, rfl, hwaits⟩ | ⟨rfl, ⟨code, rfl⟩ | ⟨targets, rfl, hlen⟩⟩ := ih
      · exact .inl ⟨reason, rfl, hwaits⟩
      · exact .inr ⟨rfl, .inl ⟨code, rfl⟩⟩
      · exact .inr ⟨rfl, .inr ⟨_, rfl, by rw [List.length_cons, List.length_cons, hlen]⟩⟩

/-- What becomes of a request at its evaluation (R19, R146): it is issued, refused, or it waits for a transit entry or
for what the translation of a piece waits for. -/
inductive Settled (r : Request) (dec : Decoded) (s : State) : Option WaitReason × State → Prop
  | issued (targets : List (Piece × Address)) : targets.length = dec.pieces.length →
      s.transit.length + targets.length ≤ Config.transitEntries →
      Settled r dec s (none, claimEntries r dec.region targets s)
  | refused (code : FaultCode) : Settled r dec s (none, refuseTranslated r dec.region code s)
  | noRoom : Config.transitEntries < s.transit.length + dec.pieces.length → Settled r dec s (some .transit, s)
  | waits (d : DomainId) (reason : WaitReason) (t : State) : regionDomain dec.region = some d → Waits d s reason t →
      Settled r dec s (some reason, t)

theorem settled_of_forward {r : Request} {dec : Decoded} {targets : List (Piece × Address)} {s : State}
    (hlen : targets.length = dec.pieces.length) :
    Settled r dec s (if s.transit.length + targets.length ≤ Config.transitEntries then
      (none, claimEntries r dec.region targets s) else (some .transit, s)) := by
  split
  · exact .issued targets hlen ‹_›
  · exact .noRoom (by omega)

theorem evaluate_journaled {r : Request} {dec : Decoded} {w : WindowId} {d : DomainId}
    (h : dec.region = .journaled w d) (s : State) : evaluate r dec s = translatePieces r.kind w d dec.pieces s := by
  simp only [evaluate, h]

theorem evaluate_untranslated {r : Request} {dec : Decoded} (h : regionDomain dec.region = none) (s : State) :
    evaluate r dec s = (.forward (dec.pieces.map fun p => (p, p.address)), s) := by
  unfold evaluate
  split
  · rename_i hregion
    rw [hregion] at h
    exact nomatch h
  all_goals rfl

theorem regionDomain_eq_some {region : Region} {d : DomainId} (h : regionDomain region = some d) :
    ∃ w, region = .journaled w d := by
  cases region with
  | journaled w e => cases h; exact ⟨w, rfl⟩
  | outside => exact nomatch h
  | pass w => exact nomatch h
  | guarded w => exact nomatch h

theorem settle_settled (r : Request) (dec : Decoded) (s : State) : Settled r dec s (settle r dec s) := by
  unfold settle
  cases hd : regionDomain dec.region with
  | none =>
    rw [evaluate_untranslated hd]
    exact settled_of_forward (List.length_map ..)
  | some d =>
    obtain ⟨w, hregion⟩ := regionDomain_eq_some hd
    rw [evaluate_journaled hregion]
    have verdict := translatePieces_resolved r.kind w d dec.pieces s
    rcases hv : translatePieces r.kind w d dec.pieces s with ⟨v, s₁⟩
    rw [hv] at verdict
    obtain ⟨reason, rfl, hwaits⟩ | ⟨rfl, ⟨code, rfl⟩ | ⟨targets, rfl, hlen⟩⟩ := verdict
    · exact .waits d reason s₁ hd hwaits
    · exact .refused code
    · exact settled_of_forward hlen

end Sys2Proof.Machine
end

