-- ==== Sys2Proof/Proofs/Events.lean ====
section
/-! SUPPORT. The events of the part, by what they reach. A move may stand in the middle of an event; here an event is
whole: a domain that starts its commit or rollback has its DRAIN condition tested, and a completion is followed by the
test for the drain's end (`exec_event`, `step_event`). What holds between events is proved over these. -/

namespace Sys2Proof.Machine

/-! ## Control moves -/

/-- What queues, tables and engines hold, and the domains' states, are as they were. -/
structure StillFrame (s t : State) : Prop where
  walkJobs : t.walkJobs = s.walkJobs
  publishWrite : t.publishWrite = s.publishWrite
  states : ∀ d, domainState d t = domainState d s
  changes : t.changes = s.changes
  slots : t.slots = s.slots
  ranks : t.ranks = s.ranks
  transit : t.transit = s.transit
  starvation : t.starvation = s.starvation
  abandoned : t.abandoned = s.abandoned
  draining : t.draining = s.draining

/-- A change that the Epoch Unit completes in its event, or one that the queues, tables and engines do not see. -/
inductive ControlMove : State → State → Prop
  | still {s t : State} : StillFrame s t → ControlMove s t
  | openDomain (d : DomainId) (s : State) : domainState d s = .closed → ControlMove s (enterOpen d s)
  | arm (d : DomainId) (s : State) : domainState d s = .opened → ControlMove s (setDomainState d .marked s)
  | commit (d : DomainId) (s : State) : inEpoch d s = true → ControlMove s (enterCommit d s)
  | republish (d : DomainId) (s : State) : domainState d s = .faulted → ControlMove s (enterPublish d s)
  | rollback (d : DomainId) (s : State) : inEpoch d s = true → ControlMove s (enterRollback d s)

/-- Any number of control moves. -/
abbrev ControlMoves : State → State → Prop := Relation.ReflTransGen ControlMove

theorem ControlMoves.keeps {P : State → Prop} (hP : ∀ s t, ControlMove s t → P s → P t) {s t : State}
    (h : ControlMoves s t) (hs : P s) : P t := by
  induction h with
  | refl => exact hs
  | tail _ m ih => exact hP _ _ m ih

theorem controlMoves_still {s t : State} (h : StillFrame s t) : ControlMoves s t := .single (.still h)

/-- What control moves leave as it was. -/
structure ControlFrame (s t : State) : Prop where
  walkJobs : t.walkJobs = s.walkJobs
  publishWrite : t.publishWrite = s.publishWrite
  slots : t.slots = s.slots
  transit : t.transit = s.transit
  starvation : t.starvation = s.starvation
  abandoned : t.abandoned = s.abandoned
  draining : t.draining = s.draining

theorem ControlFrame.refl (s : State) : ControlFrame s s := ⟨rfl, rfl, rfl, rfl, rfl, rfl, rfl⟩

theorem ControlFrame.trans {s t u : State} (h : ControlFrame s t) (k : ControlFrame t u) : ControlFrame s u :=
  ⟨k.walkJobs.trans h.walkJobs, k.publishWrite.trans h.publishWrite, k.slots.trans h.slots,
    k.transit.trans h.transit, k.starvation.trans h.starvation, k.abandoned.trans h.abandoned,
    k.draining.trans h.draining⟩

theorem EpochFrame.control {s t : State} (h : EpochFrame s t) : ControlFrame s t :=
  ⟨h.walkJobs, h.publishWrite, h.slots, h.transit, h.starvation, h.abandoned, h.draining⟩

theorem ControlMove.frame {s t : State} (m : ControlMove s t) : ControlFrame s t := by
  cases m with
  | still h => exact ⟨h.walkJobs, h.publishWrite, h.slots, h.transit, h.starvation, h.abandoned, h.draining⟩
  | openDomain d s _ => exact (enterOpen_frame d s).control
  | arm d s _ => exact (setDomainState_frame d _ s).control
  | commit d s _ => exact (enterCommit_frame d s).control
  | republish d s _ => exact (enterPublish_frame d s).control
  | rollback d s _ => exact (enterRollback_frame d s).control

theorem ControlMoves.frame {s t : State} (h : ControlMoves s t) : ControlFrame s t := by
  induction h with
  | refl => exact .refl s
  | tail _ m ih => exact ih.trans m.frame

/-! ## Causes of commit and rollback -/

theorem causeCommit_control (d : DomainId) (s : State) : ControlMoves s (causeCommit d s) := by
  unfold causeCommit
  split
  · exact .single (.commit d s ‹_›)
  · exact .refl

theorem causeRollback_control (d : DomainId) (s : State) : ControlMoves s (causeRollback d s) := by
  unfold causeRollback
  split
  · exact .single (.rollback d s ‹_›)
  · exact .refl

theorem reportViolation_control (d : DomainId) (s : State) : ControlMoves s (reportViolation d s) := by
  unfold reportViolation
  split
  · exact causeRollback_control d s
  · exact .refl

theorem reportOverflow_control (d : DomainId) (s : State) : ControlMoves s (reportOverflow d s) := by
  unfold reportOverflow
  split
  · exact causeRollback_control d s
  · exact .refl

/-- A change of registers and outputs alone is seen by no queue, table or engine. -/
theorem stillFrame_of_domains {s t : State} (hd : t.domains = s.domains) (h₁ : t.walkJobs = s.walkJobs)
    (h₂ : t.publishWrite = s.publishWrite) (h₃ : t.changes = s.changes) (h₄ : t.slots = s.slots)
    (h₅ : t.ranks = s.ranks) (h₆ : t.transit = s.transit) (h₇ : t.starvation = s.starvation)
    (h₈ : t.abandoned = s.abandoned) (h₉ : t.draining = s.draining) : StillFrame s t :=
  ⟨h₁, h₂, fun _ => domainState_congr hd, h₃, h₄, h₅, h₆, h₇, h₈, h₉⟩

theorem reportFault_still (f : FaultReport) (s : State) : StillFrame s (reportFault f s) := by
  apply stillFrame_of_domains <;> simp

theorem sendResponse_still (a : Response) (s : State) : StillFrame s (sendResponse a s) := by
  apply stillFrame_of_domains <;> simp

theorem applyPolicy_still (i : InitiatorId) (s : State) : StillFrame s (applyPolicy i s) := by
  apply stillFrame_of_domains <;> simp

theorem setResult_still (result : ResultCode) (code : Byte) (s : State) : StillFrame s (setResult result code s) := by
  apply stillFrame_of_domains <;> simp

theorem setLastWrite_still (status : WriteStatus) (s : State) : StillFrame s (setLastWrite status s) := by
  apply stillFrame_of_domains <;> simp

theorem dropCache_still (p : CacheEntry → Bool) (s : State) : StillFrame s (dropCache p s) := by
  apply stillFrame_of_domains <;> simp

/-! ## Refusals -/

theorem takeViolation_control (r : Request) (region : Region) (s : State) :
    ControlMoves s (takeViolation r region s) := by
  have policy := controlMoves_still (applyPolicy_still r.initiator s)
  unfold takeViolation
  dsimp only
  split
  · exact policy.trans (reportViolation_control _ _)
  all_goals exact policy

theorem violation_control (r : Request) (region : Region) (code : FaultCode) (s : State) :
    ControlMoves s (if isViolation code then takeViolation r region s else s) := by
  split
  · exact takeViolation_control r region s
  · exact .refl

theorem refuseTranslated_control (r : Request) (region : Region) (code : FaultCode) (s : State) :
    ControlMoves s (refuseTranslated r region code s) := by
  unfold refuseTranslated
  dsimp only
  have reported := (controlMoves_still (sendResponse_still (plainResponse r .refused false) s)).trans
    (controlMoves_still (reportFault_still (requestFault code r (regionWindow region) (regionDomain region)
      (sendResponse (plainResponse r .refused false) s)) _))
  have violated := reported.trans (violation_control r region code _)
  split
  · split
    · exact violated.trans (reportOverflow_control _ _)
    · exact violated
  · exact violated

theorem refuseIntake_control (r : Request) (f : IntakeRefusal) (s : State) :
    ControlMoves s (refuseIntake r f s) := by
  unfold refuseIntake
  dsimp only
  exact ((controlMoves_still (sendResponse_still _ s)).trans (controlMoves_still (reportFault_still _ _))).trans
    (violation_control r _ f.code _)

theorem snoopInvalidate_still (r : Request) (s : State) : StillFrame s (snoopInvalidate r s) := by
  unfold snoopInvalidate
  split
  · apply stillFrame_of_domains <;> rfl
  · exact dropCache_still _ s

/-! ## Timers -/

theorem foldl_control (f : State → DomainId → State) (h : ∀ s d, ControlMoves s (f s d)) (ds : List DomainId)
    (s : State) : ControlMoves s (ds.foldl f s) := by
  induction ds generalizing s with
  | nil => exact .refl
  | cons d ds ih => exact (h s d).trans (ih _)

theorem setDeadline_still (d : DomainId) (c : DeadlineCounter) (s : State) : StillFrame s (setDeadline d c s) := by
  apply stillFrame_of_domains <;> simp

theorem expire_control (d : DomainId) (s : State) : ControlMoves s (expire d s) := by
  have stopped : ControlMoves s (setLatch (.deadline d) (setDeadline d { value := 0, running := false } s)) :=
    controlMoves_still (by apply stillFrame_of_domains <;> simp)
  unfold expire
  dsimp only
  split
  · exact stopped
  · exact stopped.trans (causeCommit_control _ _)
  · exact stopped.trans (causeRollback_control _ _)

theorem tickCounter_control (d : DomainId) (s : State) : ControlMoves s (tickCounter d s) := by
  unfold tickCounter
  dsimp only
  split
  · split
    · exact expire_control d s
    · exact controlMoves_still (setDeadline_still ..)
  · exact .refl

theorem takeTick_control (order : List DomainId) (s : State) : ControlMoves s (takeTick order s) :=
  (controlMoves_still (by apply stillFrame_of_domains <;> rfl)).trans
    (foldl_control _ (fun s d => tickCounter_control d s) _ _)

theorem deliverMark_control (d : DomainId) (s : State) : ControlMoves s (deliverMark d s) := by
  unfold deliverMark
  split
  · exact .single (.commit d s (by simp only [inEpoch, *]))
  · split
    · exact .single (.commit d s (by simp only [inEpoch, *]))
    · exact .refl
  all_goals exact .refl

theorem takeMark_control (order : List DomainId) (s : State) : ControlMoves s (takeMark order s) :=
  (controlMoves_still (by apply stillFrame_of_domains <;> rfl)).trans
    (foldl_control _ (fun s d => deliverMark_control d s) _ _)

theorem refclkPeriod_control (s : State) : ControlMoves s (refclkPeriod s) := by
  unfold refclkPeriod
  split
  · exact controlMoves_still (by apply stillFrame_of_domains <;> rfl)
  · exact takeTick_control [] s

/-! ## Commands -/

theorem takeCommand_control (code : Byte) {f : State → ResultCode × State} {s : State}
    (h : ControlMoves s (f s).2) : ControlMoves s (takeCommand code f s) := by
  unfold takeCommand
  split
  · exact controlMoves_still (setResult_still ..)
  · exact h.trans (controlMoves_still (setResult_still ..))

theorem decideOpen_control (d : DomainId) (s : State) : ControlMoves s (decideOpen d s).2 := by
  unfold decideOpen
  split
  · exact .single (.openDomain d s ‹_›)
  all_goals exact .refl

theorem decideCommit_control (d : DomainId) (s : State) : ControlMoves s (decideCommit d s).2 := by
  unfold decideCommit
  split
  · exact .single (.commit d s (by simp only [inEpoch, *]))
  · exact .single (.commit d s (by simp only [inEpoch, *]))
  · exact .single (.republish d s ‹_›)
  all_goals exact .refl

theorem decideCommitAtMark_control (d : DomainId) (s : State) : ControlMoves s (decideCommitAtMark d s).2 := by
  unfold decideCommitAtMark
  split
  · exact .single (.arm d s ‹_›)
  all_goals exact .refl

theorem decideRollback_control (d : DomainId) (s : State) : ControlMoves s (decideRollback d s).2 := by
  unfold decideRollback
  split
  · exact .single (.rollback d s (by simp only [inEpoch, *]))
  · exact .single (.rollback d s (by simp only [inEpoch, *]))
  all_goals exact .refl

theorem decidePoolLoad_control (s : State) : ControlMoves s (decidePoolLoad s).2 := by
  unfold decidePoolLoad
  split
  · exact .refl
  split
  · exact .refl
  · exact controlMoves_still (by apply stillFrame_of_domains <;> rfl)

/-! ## Setting writes -/

theorem refuseWrite_control (s : State) : ControlMoves s (refuseWrite s) :=
  controlMoves_still (setLastWrite_still .refused s)

theorem writeWindow_control (w : WindowId) (word : WindowWord) (data : Word) (s : State) :
    ControlMoves s (writeWindow w word data s) := by
  unfold writeWindow
  split
  · exact refuseWrite_control s
  split
  · exact controlMoves_still (by apply stillFrame_of_domains <;> simp)
  · exact refuseWrite_control s

theorem writeDomainSetting_control (d : DomainId) (word : DomainWord) (data : Word) (s : State) :
    ControlMoves s (writeDomainSetting d word data s) := by
  unfold writeDomainSetting
  split
  · exact refuseWrite_control s
  split
  · refine controlMoves_still ⟨by simp, by simp, fun e => ?_, by simp, by simp, by simp, by simp, by simp, by simp,
      by simp⟩
    simp only [domainState, setLastWrite_domains, modifyDomain_domains, vector_set_get]
    split
    · rename_i hde; subst hde; rfl
    · rfl
  · exact refuseWrite_control s

theorem writeInitiator_control (i : InitiatorId) (word : InitiatorWord) (data : Word) (s : State) :
    ControlMoves s (writeInitiator i word data s) := by
  unfold writeInitiator
  split
  · exact refuseWrite_control s
  split
  · exact refuseWrite_control s
  · exact controlMoves_still (by apply stillFrame_of_domains <;> rfl)

/-- A write of a register that is accepted under a condition and else refused. -/
theorem registerWrite_control {p : Prop} [Decidable p] {s t : State} (h : StillFrame s t) :
    ControlMoves s (if p then t else refuseWrite s) := by
  split
  · exact controlMoves_still h
  · exact refuseWrite_control s

theorem writePoolThreshold_control (data : Word) (s : State) : ControlMoves s (writePoolThreshold data s) :=
  registerWrite_control (by apply stillFrame_of_domains <;> rfl)

theorem writeTimebase_control (data : Word) (s : State) : ControlMoves s (writeTimebase data s) :=
  registerWrite_control (by apply stillFrame_of_domains <;> rfl)

theorem writeLatches_control (data : Word) (s : State) : ControlMoves s (writeLatches data s) :=
  registerWrite_control (by apply stillFrame_of_domains <;> rfl)

theorem writeEnables_control (data : Word) (s : State) : ControlMoves s (writeEnables data s) :=
  registerWrite_control (by apply stillFrame_of_domains <;> rfl)

theorem writeArgument1_control (data : Word) (s : State) : ControlMoves s (writeArgument1 data s) :=
  registerWrite_control (by apply stillFrame_of_domains <;> rfl)

theorem writeArgument0_control (data : Word) (s : State) : ControlMoves s (writeArgument0 data s) := by
  unfold writeArgument0
  split
  · exact refuseWrite_control s
  · exact controlMoves_still (by apply stillFrame_of_domains <;> rfl)

theorem writeWord_control (offset : Offset) (data : Word) (s : State) : ControlMoves s (writeWord offset data s) := by
  unfold writeWord
  split
  · exact writeArgument0_control data s
  · exact writeArgument1_control data s
  · exact writeLatches_control data s
  · exact writeEnables_control data s
  · exact writePoolThreshold_control data s
  · exact writeTimebase_control data s
  · exact writeDomainSetting_control _ _ data s
  · exact writeWindow_control _ _ data s
  · exact writeInitiator_control _ _ data s
  all_goals exact refuseWrite_control s

/-! ## Every event -/

/-- What an event does, by the block that it reaches. -/
inductive Event (s : State) : State → Prop
  | control {t : State} : ControlMoves s t → Event s t
  | hardReset (cause : ResetCause) (line : Level) : Event s (hardReset cause line s)
  | arrival (r : Request) : accepting s = true → Event s (arrive r s)
  | leave (n : Nat) (k : Rank) : s.ranks[n]? = some k → k.state = .eligible → Event s (leaveRank n k s)
  | grant (tag : LinkTag) (q : Requester) : arbitrate s = some q → Event s (grant tag s q)
  | abandonedReturns (tag : LinkTag) : Event s (dropAbandoned tag s)
  | walk (tag : LinkTag) (j : WalkJob) (status : Completion) (entry : Beat) :
      s.walkJobs.find? (fun j => walkTag j == some tag) = some j →
      Event s (endDrainIfDone (completeWalk j status entry s))
  | publishWrite (p : PublishWrite) (status : Completion) : s.publishWrite = some p →
      Event s (endDrainIfDone (continuePass p.domain (publishOutcome p status { s with publishWrite := none })))
  | chunk (tag : LinkTag) (k : SlotId) (c : CopyJob) (x : ChunkInProgress) (status : Completion) (data : Chunk) :
      findChunk tag s = some (k, c, x) →
      Event s (endDrainIfDone (settleStarvation s (completeChunk k c tag x status data s)))
  | forwarded (tag : LinkTag) (e : TransitEntry) (status : Completion) (beats : List Beat) :
      s.transit.find? (sentUnder tag) = some e →
      Event s (endDrainIfDone (completeTransit e tag status beats s))
  | resetAll : s.draining = false → Event s (endDrainIfDone (setResult .done 0x1F (beginDrain s)))
  | drainEnd : Event s (endDrainIfDone s)

theorem resetAll_event {s t : State} (h : exec .resetAll s = .next t) : Event s t := by
  cases hd : s.draining with
  | true =>
    cases (exec_resetAll_draining hd).symm.trans h
    exact .control (controlMoves_still (setResult_still ..))
  | false =>
    cases (exec_resetAll_decided hd).symm.trans h
    exact .resetAll hd

theorem takeCommandWord_event {word : Word} {s t : State} (h : takeCommandWord word s = .next t) : Event s t := by
  unfold takeCommandWord at h
  split at h
  · cases h; exact .control (takeCommand_control _ (decideOpen_control _ s))
  · cases h; exact .control (takeCommand_control _ (decideCommit_control _ s))
  · cases h; exact .control (takeCommand_control _ (decideCommitAtMark_control _ s))
  · cases h; exact .control (takeCommand_control _ (decideRollback_control _ s))
  · cases h; exact .control (takeCommand_control _ (decidePoolLoad_control s))
  · cases h
    exact .control (takeCommand_control _ (controlMoves_still (by apply stillFrame_of_domains <;> rfl)))
  · cases h
    exact .control (takeCommand_control _ (controlMoves_still (by apply stillFrame_of_domains <;> rfl)))
  · exact resetAll_event h
  · cases h; exact .control (controlMoves_still (setResult_still ..))

/-- What a command does is one event. -/
theorem exec_event {c : Instr} {s t : State} (h : exec c s = .next t) : Event s t := by
  cases c with
  | powerOnReset line => cases h; exact .hardReset .power line
  | resetNPinReset line => cases h; exact .hardReset .pin line
  | upstreamRequest r =>
    cases h
    split
    · rename_i hc
      rw [Bool.and_eq_true] at hc
      exact .arrival r hc.1
    · exact .control .refl
  | rankLeave n =>
    simp only [exec, execRankLeave] at h
    split at h
    · cases h; exact .control .refl
    split at h
    · cases h; exact .leave n _ ‹_› ‹_›
    · cases h; exact .control .refl
  | memoryPortGrant tag =>
    simp only [exec, execMemoryPortGrant] at h
    split at h
    · cases h; exact .control .refl
    split at h
    · cases h; exact .control .refl
    · cases h; exact .grant tag _ ‹_›
  | walkCompletion tag status entry =>
    simp only [exec, execWalkCompletion] at h
    split at h
    · cases h; exact .abandonedReturns tag
    split at h
    · cases h; exact .control .refl
    · cases h; exact .walk tag _ status entry ‹_›
  | publishWriteCompletion tag status =>
    simp only [exec, execPublishWriteCompletion] at h
    split at h
    · cases h; exact .abandonedReturns tag
    split at h
    · cases h; exact .control .refl
    split at h
    · cases h; exact .publishWrite _ status ‹_›
    · cases h; exact .control .refl
  | chunkCompletion tag status data =>
    simp only [exec, execChunkCompletion] at h
    split at h
    · cases h; exact .abandonedReturns tag
    split at h
    · cases h; exact .control .refl
    · cases h; exact .chunk tag _ _ _ status data ‹_›
  | transitCompletion tag status beats =>
    simp only [exec, execTransitCompletion] at h
    split at h
    · cases h; exact .abandonedReturns tag
    split at h
    · cases h; exact .control .refl
    · cases h; exact .forwarded tag _ status beats ‹_›
  | tick order => cases h; exact .control (takeTick_control order s)
  | deadlineExpiry d =>
    cases h
    split
    · exact .control (expire_control d s)
    · exact .control .refl
  | markEvent order =>
    cases h
    split
    · exact .control (takeMark_control order s)
    · exact .control .refl
  | openDomain d => cases h; exact .control (takeCommand_control _ (decideOpen_control d s))
  | commit d => cases h; exact .control (takeCommand_control _ (decideCommit_control d s))
  | commitAtMark d => cases h; exact .control (takeCommand_control _ (decideCommitAtMark_control d s))
  | rollback d => cases h; exact .control (takeCommand_control _ (decideRollback_control d s))
  | poolLoad => cases h; exact .control (takeCommand_control _ (decidePoolLoad_control s))
  | flushCache =>
    cases h
    exact .control (takeCommand_control _ (controlMoves_still (by apply stillFrame_of_domains <;> rfl)))
  | clearFault =>
    cases h
    exact .control (takeCommand_control _ (controlMoves_still (by apply stillFrame_of_domains <;> rfl)))
  | resetAll => exact resetAll_event h
  | unknownCommand word => exact takeCommandWord_event h
  | windowSettingWrite w word data => cases h; exact .control (writeWindow_control w word data s)
  | domainSettingWrite d word data => cases h; exact .control (writeDomainSetting_control d word data s)
  | initiatorSettingWrite i word data => cases h; exact .control (writeInitiator_control i word data s)
  | poolThresholdWrite data => cases h; exact .control (writePoolThreshold_control data s)
  | timebaseAndEdgeWrite data => cases h; exact .control (writeTimebase_control data s)
  | alertLatchesWrite data => cases h; exact .control (writeLatches_control data s)
  | alertEnablesWrite data => cases h; exact .control (writeEnables_control data s)
  | settingWrite offset data =>
    simp only [exec, execSettingWrite] at h
    split at h
    · exact takeCommandWord_event h
    · cases h; exact .control (writeWord_control offset data s)
  | softResetDrainEnd => cases h; exact .drainEnd
  | epochLineInactiveChange => cases h; exact .control (controlMoves_still (by apply stillFrame_of_domains <;> rfl))

/-- What a step does, once the front command has left the queue, is one event. -/
theorem step_event {s t : State} (h : step s = .next t) : Event { s with pending := s.pending.tail } t := by
  unfold step at h
  split at h
  · rename_i hp
    cases h
    have same : ({ s with pending := s.pending.tail } : State) = s := by rw [hp, List.tail_nil, ← hp]
    rw [same]
    exact .control (refclkPeriod_control s)
  · rename_i hp
    rw [hp]
    exact exec_event h

/-- A property that every event keeps, and that does not look at the waiting commands, is kept by every step. -/
theorem step_keeps_event {P : State → Prop} (hpending : ∀ s cs, P s → P { s with pending := cs })
    (hP : ∀ s t, Event s t → P s → P t) {s t : State} (h : step s = .next t) (hs : P s) : P t :=
  hP _ _ (step_event h) (hpending s _ hs)

end Sys2Proof.Machine
end

