-- ==== Sys2Proof/Proofs/Starvation.lean ====
section
/-! SUPPORT. The starvation counter stays within its limit, and above 0 only while the Copy Engine waits (R157): of all
events, only a grant and the end of a copy's chunk move what it looks at. -/

namespace Sys2Proof.Machine

/-- The copy slots and the starvation counter are as they were. -/
structure CopyKept (s t : State) : Prop where
  slots : t.slots = s.slots
  starvation : t.starvation = s.starvation

theorem CopyKept.trans {s t u : State} (h : CopyKept s t) (k : CopyKept t u) : CopyKept s u :=
  ⟨k.slots.trans h.slots, k.starvation.trans h.starvation⟩

theorem EpochFrame.copyKept {s t : State} (h : EpochFrame s t) : CopyKept s t := ⟨h.slots, h.starvation⟩

theorem ControlFrame.copyKept {s t : State} (h : ControlFrame s t) : CopyKept s t := ⟨h.slots, h.starvation⟩

theorem StillFrame.copyKept {s t : State} (h : StillFrame s t) : CopyKept s t := ⟨h.slots, h.starvation⟩

theorem copyWaits_of_slots {s t : State} (h : t.slots = s.slots) : copyWaits t = copyWaits s := by
  unfold copyWaits slotWaits
  rw [h]

theorem CopyKept.starvationFits {s t : State} (h : CopyKept s t) (hs : StarvationFits s) : StarvationFits t := by
  unfold StarvationFits
  rw [copyWaits_of_slots h.slots, h.starvation]
  exact hs

theorem starvationFits_of_zero {s : State} (h : s.starvation = 0) : StarvationFits s := by
  unfold StarvationFits
  rw [h]
  exact ⟨Nat.zero_le _, fun h => absurd h (Nat.lt_irrefl 0)⟩

/-! ## Requests -/

theorem readyOperation_newCopy (w : WindowId) (tile : Nat) (source destination : Frame) :
    readyOperation (newCopy w tile source destination) = some (.readChunk 0) := rfl

theorem slotWaits_createEntry (d : DomainId) (c : CacheEntry) (f : Frame) (k : SlotId) (s : State) :
    slotWaits k (createEntry d c f k s) = true := by
  unfold slotWaits
  rw [createEntry_slots, vector_set_get, if_pos rfl, Option.bind_some, readyOperation_newCopy]
  rfl

theorem copyWaits_iff (s : State) : copyWaits s = true ↔ ∃ k : SlotId, slotWaits k s = true := by
  rw [copyWaits, Bool.or_eq_true]
  exact ⟨fun h => h.elim (fun h => ⟨0, h⟩) fun h => ⟨1, h⟩, fun ⟨k, h⟩ => by
    fin_cases k
    · exact .inl h
    · exact .inr h⟩

theorem createEntry_starvationFits (d : DomainId) (c : CacheEntry) (f : Frame) (k : SlotId) {s : State}
    (h : StarvationFits s) : StarvationFits (createEntry d c f k s) :=
  ⟨by rw [createEntry_starvation]; exact h.1, fun _ => (copyWaits_iff _).mpr ⟨k, slotWaits_createEntry ..⟩⟩

theorem settle_starvationFits (r : Request) (dec : Decoded) {s : State} (h : StarvationFits s) :
    StarvationFits (settle r dec s).2 := by
  have settled := settle_settled r dec s
  rcases hs : settle r dec s with ⟨result, u⟩
  rw [hs] at settled
  cases settled with
  | issued targets _ _ => exact CopyKept.starvationFits (s := s) ⟨by simp, by simp⟩ h
  | refused code => exact (refuseTranslated_control r dec.region code s).frame.copyKept.starvationFits h
  | noRoom _ => exact h
  | waits d reason t _ hw =>
    cases hw with
    | walk w tile => exact CopyKept.starvationFits (s := s) ⟨by simp, by simp⟩ h
    | created c f k _ _ _ _ _ _ => exact createEntry_starvationFits d c f k h
    | _ => exact h

theorem leaveRank_starvationFits (n : Nat) (k : Rank) {s : State} (h : StarvationFits s) :
    StarvationFits (leaveRank n k s) := by
  have settled := settle_starvationFits k.request k.decoded h
  unfold leaveRank
  split
  · rename_i hs
    rw [hs] at settled
    exact CopyKept.starvationFits ⟨by simp, by simp⟩ settled
  · rename_i hs
    rw [hs] at settled
    exact CopyKept.starvationFits ⟨by simp, by simp⟩ settled

theorem takeIn_starvationFits (r : Request) (dec : Decoded) {s : State} (h : StarvationFits s) :
    StarvationFits (takeIn r dec s) := by
  have settled := settle_starvationFits r dec h
  unfold takeIn
  split
  · exact CopyKept.starvationFits ⟨by simp, by simp⟩ h
  split
  · rename_i hs
    rw [hs] at settled
    exact settled
  · rename_i hs
    rw [hs] at settled
    exact CopyKept.starvationFits ⟨by simp, by simp⟩ settled

theorem arrive_starvationFits (r : Request) {s : State} (h : StarvationFits s) : StarvationFits (arrive r s) := by
  unfold arrive
  split
  · exact (refuseIntake_control r _ s).frame.copyKept.starvationFits h
  · exact takeIn_starvationFits r _ ((snoopInvalidate_still r s).copyKept.starvationFits h)
  · exact h

/-! ## Grants -/

theorem grantWalker_copyKept (tag : LinkTag) (s : State) : CopyKept s (grantWalker tag s) := by
  unfold grantWalker
  split
  · exact ⟨rfl, rfl⟩
  split
  · exact ⟨rfl, rfl⟩
  · exact ⟨rfl, rfl⟩

theorem grantForwarded_starvationFits (tag : LinkTag) {s : State}
    (hlimit : ¬(s.starvation = Config.starvationLimit ∧ copyWaits s = true)) (h : StarvationFits s) :
    StarvationFits (grantForwarded tag s) := by
  unfold grantForwarded
  split
  · exact h
  · obtain ⟨hle, hpos⟩ := h
    unfold StarvationFits
    rw [copyWaits_of_slots rfl]
    by_cases hc : copyWaits s = true
    · have : s.starvation ≠ Config.starvationLimit := fun he => hlimit ⟨he, hc⟩
      simp only [sendOperation_starvation, if_pos hc]
      exact ⟨by omega, fun _ => hc⟩
    · simp only [sendOperation_starvation, if_neg hc]
      exact ⟨hle, hpos⟩

theorem grantSlot_starvationFits (k : SlotId) (tag : LinkTag) {s : State} (h : StarvationFits s) :
    StarvationFits (grantSlot k tag s) := by
  unfold grantSlot
  split
  · exact h
  split
  · exact h
  · exact starvationFits_of_zero rfl

theorem arbitrate_forwarded {s : State} (h : arbitrate s = some .forwarded) :
    ¬(s.starvation = Config.starvationLimit ∧ copyWaits s = true) ∧ walkerWaits s = false ∧ forwardedWaits s = true := by
  unfold arbitrate at h
  split at h
  · cases h
  split at h
  · cases h
  split at h
  · rename_i hlimit hwalker hforwarded
    exact ⟨hlimit, Bool.eq_false_iff.mpr hwalker, hforwarded⟩
  · split at h <;> cases h

theorem grant_starvationFits {tag : LinkTag} {q : Requester} {s : State} (hq : arbitrate s = some q)
    (h : StarvationFits s) : StarvationFits (grant tag s q) := by
  cases q with
  | mapWalker => exact (grantWalker_copyKept tag s).starvationFits h
  | forwarded => exact grantForwarded_starvationFits tag (arbitrate_forwarded hq).1 h
  | copySlot k => exact grantSlot_starvationFits k tag h

/-! ## Completions -/

theorem endDrainIfDone_starvationFits {s : State} (h : StarvationFits s) : StarvationFits (endDrainIfDone s) := by
  unfold endDrainIfDone
  split
  · exact starvationFits_of_zero rfl
  · exact h

theorem reportFaults_still (fs : List FaultReport) (s : State) : StillFrame s (reportFaults fs s) := by
  induction fs generalizing s with
  | nil => apply stillFrame_of_domains <;> rfl
  | cons f fs ih =>
    have first := reportFault_still f s
    have rest := ih (reportFault f s)
    exact ⟨rest.walkJobs.trans first.walkJobs, rest.publishWrite.trans first.publishWrite,
      fun d => (rest.states d).trans (first.states d), rest.changes.trans first.changes, rest.slots.trans first.slots,
      rest.ranks.trans first.ranks, rest.transit.trans first.transit, rest.starvation.trans first.starvation,
      rest.abandoned.trans first.abandoned, rest.draining.trans first.draining⟩

theorem completeWalk_copyKept (j : WalkJob) (status : Completion) (entry : Beat) (s : State) :
    CopyKept s (completeWalk j status entry s) := by
  unfold completeWalk
  dsimp only
  split
  · split
    · exact ⟨by simp [walkFill], by simp [walkFill]⟩
    · exact CopyKept.trans ⟨by simp, by simp⟩ (reportFaults_still _ _).copyKept
  · exact ⟨by simp [walkFailed], by simp [walkFailed]⟩

theorem publishOutcome_copyKept (p : PublishWrite) (status : Completion) (s : State) :
    CopyKept s (publishOutcome p status s) := by
  unfold publishOutcome
  split
  · split
    · exact ⟨by simp, by simp⟩
    · exact ⟨rfl, rfl⟩
  · exact (reportFault_still _ s).copyKept

theorem continuePass_copyKept (d : DomainId) (s : State) : CopyKept s (continuePass d s) := by
  unfold continuePass
  split
  · exact ⟨rfl, rfl⟩
  · exact CopyKept.trans (t := { s with publication := s.publication.filter fun p => !decide (p.domain = d) })
      ⟨rfl, rfl⟩ (endPass_frame d _).copyKept

theorem answerPiece_copyKept (e : TransitEntry) (status : Completion) (beats : List Beat) (s : State) :
    CopyKept s (answerPiece e status beats s) := by
  unfold answerPiece
  split
  · exact ⟨rfl, rfl⟩
  · exact ⟨rfl, rfl⟩

theorem reportMemory_still (e : TransitEntry) (status : Completion) (s : State) :
    StillFrame s (reportMemory e status s) := by
  unfold reportMemory
  split
  · apply stillFrame_of_domains <;> rfl
  · exact reportFault_still ..

theorem completeTransit_copyKept (e : TransitEntry) (tag : LinkTag) (status : Completion) (beats : List Beat)
    (s : State) : CopyKept s (completeTransit e tag status beats s) := by
  have freed : CopyKept s { s with transit := s.transit.eraseP (sentUnder tag) } := ⟨rfl, rfl⟩
  exact (((freed.trans (reportMemory_still e status _).copyKept).trans (answerPiece_copyKept e status beats _)).trans
    (endWaits_frame _ _).copyKept).trans (tellFreed_frame e _).copyKept

theorem stopCopy_starvation (k : SlotId) (c : CopyJob) (s : State) : (stopCopy k c s).starvation = s.starvation := by
  unfold stopCopy
  split
  · unfold failCopy
    split
    · dsimp only
      rw [(testDrain_frame _ _).starvation]
      simp
    · simp
  · simp

theorem completeCopy_starvation (k : SlotId) (c : CopyJob) (s : State) :
    (completeCopy k c s).starvation = s.starvation := by
  unfold completeCopy
  dsimp only
  split
  · rw [(testDrain_frame _ _).starvation]
    simp
  · simp

theorem completeChunk_starvation (k : SlotId) (c : CopyJob) (tag : LinkTag) (x : ChunkInProgress) (status : Completion)
    (data : Chunk) (s : State) : (completeChunk k c tag x status data s).starvation = s.starvation := by
  unfold completeChunk
  split
  · exact stopCopy_starvation ..
  split
  · exact stopCopy_starvation ..
  split
  · rfl
  · dsimp only
    split
    · exact completeCopy_starvation ..
    · rfl
  all_goals rfl

/-- Where the Copy Engine stops waiting, the counter returns to 0 in the same event. -/
theorem settleStarvation_fits {s t : State} (ht : t.starvation = s.starvation) (h : StarvationFits s) :
    StarvationFits (settleStarvation s t) := by
  obtain ⟨hle, hpos⟩ := h
  unfold StarvationFits
  rw [copyWaits_of_slots (settleStarvation_slots ..)]
  cases hs : copyWaits s <;> cases hc : copyWaits t <;> simp_all [settleStarvation]

/-! ## Every event -/

theorem event_keeps_starvationFits (s t : State) (e : Event s t) (h : StarvationFits s) : StarvationFits t := by
  cases e with
  | control hc => exact hc.frame.copyKept.starvationFits h
  | hardReset cause line => exact starvationFits_of_zero rfl
  | arrival r _ => exact arrive_starvationFits r h
  | leave n k _ _ => exact leaveRank_starvationFits n k h
  | grant tag q hq => exact grant_starvationFits hq h
  | abandonedReturns tag => exact CopyKept.starvationFits (s := s) ⟨rfl, rfl⟩ h
  | walk tag j status entry _ =>
    exact endDrainIfDone_starvationFits ((completeWalk_copyKept j status entry s).starvationFits h)
  | publishWrite p status _ =>
    refine endDrainIfDone_starvationFits (CopyKept.starvationFits (s := s) ?_ h)
    have cleared : CopyKept s { s with publishWrite := none } := ⟨rfl, rfl⟩
    exact (cleared.trans (publishOutcome_copyKept p status _)).trans (continuePass_copyKept ..)
  | chunk tag k c x status data _ =>
    exact endDrainIfDone_starvationFits (settleStarvation_fits (completeChunk_starvation ..) h)
  | forwarded tag e status beats _ =>
    exact endDrainIfDone_starvationFits ((completeTransit_copyKept e tag status beats s).starvationFits h)
  | resetAll _ => exact endDrainIfDone_starvationFits (CopyKept.starvationFits (s := s) ⟨by simp, by simp⟩ h)
  | drainEnd => exact endDrainIfDone_starvationFits h

/-- Settles O56: each part is kept by itself, the starvation counter over whole events and the rest over the moves that
an event makes. -/
theorem enginesKept : Obligations.EnginesKept := by
  intro s t ⟨hwalker, hjobs, hchunks, hstarvation, habandoned⟩ hstep
  exact ⟨step_keeps move_keeps_walkerSingle hstep hwalker, step_keeps move_keeps_jobsUnique hstep hjobs,
    step_keeps move_keeps_chunksBounded hstep hchunks,
    step_keeps_event (fun _ _ h => h) event_keeps_starvationFits hstep hstarvation,
    step_keeps move_keeps_abandonedApart hstep habandoned⟩

end Sys2Proof.Machine
end

