-- ==== Sys2Proof/Proofs/EpochUnit.lean ====
section
/-! SUPPORT. The agreement of the Epoch Unit, the Change Table, the copy slots, the publication order and the deadline
counters (R32, R46, R47, R69, R72, R90, R108, R164). All of it but the DRAIN conditions is kept by every move of the part;
that a domain waits in DRAIN only while its condition does not hold is kept by whole events, which test it. -/

namespace Sys2Proof.Machine

/-! ## The parts of the agreement -/

/-- What the state of its domain says of a change entry (R47, R72, R81, R89). -/
structure EntryFits (st : DomainState) (e : ChangeEntry) : Prop where
  notClosed : st ≠ .closed
  copying : isCopying e = true → st ≠ .committing .publish ∧ st ≠ .faulted
  published : e.state = .published → st = .committing .publish ∨ st = .faulted

/-- What holds of one domain's deadline counter (R164, R165). -/
def DeadlineFits (d : DomainId) (s : State) : Prop :=
  s.deadlines[d].running = true → inEpoch d s = true ∧ 0 < s.deadlines[d].value

/-- The agreement without the DRAIN conditions. -/
structure EpochCore (s : State) : Prop where
  keys : KeysUnique s
  entries : ∀ e ∈ s.changes, EntryFits (domainState e.domain s) e
  slots : SlotsMatch s
  publication : PublicationFits s
  write : PublishMatches s
  deadlines : ∀ d, DeadlineFits d s

theorem epochSound_iff (s : State) : EpochSound s ↔ EpochCore s ∧ DrainsHeld s := by
  constructor
  · rintro ⟨hkeys, hclosed, hslots, hentries, hdrains, hpub, hwrite, hdeadlines⟩
    exact ⟨⟨hkeys, fun e he => ⟨hclosed e he, (hentries e he).1, (hentries e he).2⟩, hslots, hpub, hwrite, hdeadlines⟩,
      hdrains⟩
  · rintro ⟨h, hdrains⟩
    exact ⟨h.keys, fun e he => (h.entries e he).notClosed, h.slots,
      fun e he => ⟨(h.entries e he).copying, (h.entries e he).published⟩, hdrains, h.publication, h.write, h.deadlines⟩

/-- The entry of the outstanding publish write, and the state of its domain. -/
theorem EpochCore.publishEntry {s : State} (h : EpochCore s) {p : PublishWrite} (hp : s.publishWrite = some p) :
    domainState p.domain s = .committing .publish ∧
      ∃ e ∈ s.changes, e.window = p.window ∧ e.tile = p.tile ∧ e.domain = p.domain ∧ e.state = .live :=
  ⟨h.publication.2.2 p hp, h.write p hp⟩

theorem entry_eq_of_tile {s : State} (h : KeysUnique s) {a b : ChangeEntry} (ha : a ∈ s.changes) (hb : b ∈ s.changes)
    (hw : a.window = b.window) (ht : a.tile = b.tile) : a = b :=
  List.inj_on_of_nodup_map h ha hb (by rw [hw, ht])

theorem changeKey_iff {w : WindowId} {tile : Nat} {e : ChangeEntry} :
    changeKey w tile e = true ↔ e.window = w ∧ e.tile = tile := by
  simp [changeKey]

theorem inEpoch_congr {d : DomainId} {s t : State} (h : domainState d t = domainState d s) :
    inEpoch d t = inEpoch d s := by
  simp only [inEpoch, h]

theorem deadlineFits_congr {d : DomainId} {s t : State} (hd : domainState d t = domainState d s)
    (hc : t.deadlines[d] = s.deadlines[d]) (h : DeadlineFits d s) : DeadlineFits d t := by
  unfold DeadlineFits
  rw [hc, inEpoch_congr hd]
  exact h

theorem deadlineFits_stopped {d : DomainId} {s : State} (h : s.deadlines[d].running = false) : DeadlineFits d s :=
  fun hr => nomatch h.symm.trans hr

theorem DeadlineFits.stopped {d : DomainId} {s : State} (h : DeadlineFits d s) (hd : inEpoch d s = false) :
    s.deadlines[d].running = false := by
  cases hr : s.deadlines[d].running with
  | false => rfl
  | true => exact absurd (h hr).1 (by rw [hd]; exact Bool.false_ne_true)

/-! ## Changes that the agreement does not see -/

/-- What the agreement looks at is as it was. -/
structure EpochSame (s t : State) : Prop where
  states : ∀ d, domainState d t = domainState d s
  changes : t.changes = s.changes
  slots : t.slots = s.slots
  publication : t.publication = s.publication
  publishWrite : t.publishWrite = s.publishWrite
  deadlines : t.deadlines = s.deadlines

theorem EpochSame.core {s t : State} (k : EpochSame s t) (h : EpochCore s) : EpochCore t where
  keys := by unfold KeysUnique; rw [k.changes]; exact h.keys
  entries := fun e he => by rw [k.states]; exact h.entries e (k.changes ▸ he)
  slots := by unfold SlotsMatch; rw [k.changes, k.slots]; exact h.slots
  publication := by
    unfold PublicationFits
    simp only [k.states, k.publication, k.publishWrite]
    exact h.publication
  write := by unfold PublishMatches; rw [k.changes, k.publishWrite]; exact h.write
  deadlines := fun d => deadlineFits_congr (k.states d) (by rw [k.deadlines]) (h.deadlines d)

theorem epochSame_of_domains {s t : State} (h₁ : t.domains = s.domains) (h₂ : t.changes = s.changes)
    (h₃ : t.slots = s.slots) (h₄ : t.publication = s.publication) (h₅ : t.publishWrite = s.publishWrite)
    (h₆ : t.deadlines = s.deadlines) : EpochSame s t :=
  ⟨fun _ => domainState_congr h₁, h₂, h₃, h₄, h₅, h₆⟩

/-! ## A domain moves -/

/-- The other domains' states and counters, the copy slots and the publish write are as they were. -/
structure OthersKept (d : DomainId) (s t : State) : Prop where
  states : ∀ e, e ≠ d → domainState e t = domainState e s
  deadlines : ∀ e : DomainId, e ≠ d → t.deadlines[e] = s.deadlines[e]
  slots : t.slots = s.slots
  publishWrite : t.publishWrite = s.publishWrite

theorem OthersKept.trans {d : DomainId} {s t u : State} (h : OthersKept d s t) (k : OthersKept d t u) :
    OthersKept d s u :=
  ⟨fun e he => (k.states e he).trans (h.states e he), fun e he => (k.deadlines e he).trans (h.deadlines e he),
    k.slots.trans h.slots, k.publishWrite.trans h.publishWrite⟩

theorem othersKept_of_kept {d : DomainId} {s t : State} (hr : ∀ e : DomainId, d ≠ e → DomainKept e s t)
    (hc : ∀ e : DomainId, e ≠ d → t.deadlines[e] = s.deadlines[e]) (hf : EpochFrame s t) : OthersKept d s t :=
  ⟨fun e he => congrArg DomainRecord.state (hr e he.symm).record, hc, hf.slots, hf.publishWrite⟩

theorem deadlines_set_other {d e : DomainId} (h : e ≠ d) (v : Vector DeadlineCounter 4) (c : DeadlineCounter) :
    (v.set d c)[e] = v[e] := by
  rw [vector_set_get, if_neg h.symm]

theorem setDomainState_others (d : DomainId) (st : DomainState) (s : State) : OthersKept d s (setDomainState d st s) :=
  othersKept_of_kept (fun _ he => setDomainState_keeps he s st) (fun _ _ => rfl) (setDomainState_frame d st s)

theorem startPhase_others (d : DomainId) (st : DomainState) (s : State) :
    OthersKept d s (stopDeadline d (setDomainState d st s)) :=
  (setDomainState_others d st s).trans ⟨fun _ _ => domainState_congr (stopDeadline_domains ..),
    fun e he => by rw [stopDeadline_deadlines]; exact deadlines_set_other he _ _, rfl, rfl⟩

theorem settingsOf_congr {d : DomainId} {s t : State} (h : t.domains = s.domains) : settingsOf d t = settingsOf d s := by
  simp only [settingsOf, h]

/-- A change of a Domain Record's other fields leaves every domain's settings. -/
theorem settingsOf_modifyDomain {f : DomainRecord → DomainRecord} (hf : ∀ r, (f r).settings = r.settings)
    (d e : DomainId) (s : State) : settingsOf e (modifyDomain d f s) = settingsOf e s := by
  rw [settingsOf, modifyDomain_domains, vector_set_get]
  split
  · rename_i hde
    rw [hf, hde, settingsOf]
  · rfl

theorem enterOpen_deadlines (d : DomainId) (s : State) : (enterOpen d s).deadlines = s.deadlines.set d
    { value := (settingsOf d s).deadlineReload.toNat, running := decide ((settingsOf d s).deadlineReload ≠ 0#16) } := by
  rw [enterOpen, loadDeadline_deadlines, settingsOf_modifyDomain, modifyDomain_deadlines]
  exact fun _ => rfl

theorem settingsOf_freeEntries (d e : DomainId) (s : State) : settingsOf e (freeEntries d s) = settingsOf e s :=
  settingsOf_modifyDomain (f := fun r => { r with entryCount := 0 }) (fun _ => rfl) d e _

theorem enterOpen_others (d : DomainId) (s : State) : OthersKept d s (enterOpen d s) :=
  othersKept_of_kept (fun _ he => enterOpen_keeps he s)
    (fun e he => by rw [enterOpen_deadlines]; exact deadlines_set_other he _ _) (enterOpen_frame d s)

theorem releaseDomain_deadlines (d : DomainId) (s : State) : (releaseDomain d s).deadlines =
    if (settingsOf d s).autoReopen then s.deadlines.set d
      { value := (settingsOf d s).deadlineReload.toNat, running := decide ((settingsOf d s).deadlineReload ≠ 0#16) }
    else s.deadlines := by
  unfold releaseDomain
  rw [endDomainWaits_deadlines]
  split
  · have settings : settingsOf d (setLatch (.commitDone d) (freeEntries d (appendFrames (releasedFrames d s) s))) =
        settingsOf d s :=
      (settingsOf_congr (setLatch_domains ..)).trans
        ((settingsOf_freeEntries d d _).trans (settingsOf_congr (appendFrames_domains ..)))
    rw [enterOpen_deadlines, settings]
    simp
  · simp

theorem releaseDomain_others (d : DomainId) (s : State) : OthersKept d s (releaseDomain d s) := by
  refine othersKept_of_kept (fun _ he => releaseDomain_keeps he s) (fun e he => ?_) (releaseDomain_frame d s)
  rw [releaseDomain_deadlines]
  split
  · exact deadlines_set_other he _ _
  · rfl

theorem discardDomain_deadlines (d : DomainId) (s : State) : (discardDomain d s).deadlines = s.deadlines := by
  simp [discardDomain]

theorem discardDomain_others (d : DomainId) (s : State) : OthersKept d s (discardDomain d s) :=
  othersKept_of_kept (fun _ he => discardDomain_keeps he s) (fun e _ => by rw [discardDomain_deadlines])
    (discardDomain_frame d s)

theorem enterFaulted_others (d : DomainId) (s : State) : OthersKept d s (enterFaulted d s) :=
  othersKept_of_kept (fun _ he => enterFaulted_keeps he s) (fun e _ => by rw [enterFaulted_deadlines])
    (enterFaulted_frame d s)

/-- The deadline counters that fit after a domain has moved: its own by hypothesis, the others as before. -/
theorem OthersKept.deadlinesFit {d : DomainId} {s t : State} (k : OthersKept d s t) (h : ∀ e, DeadlineFits e s)
    (hd : DeadlineFits d t) (e : DomainId) : DeadlineFits e t := by
  by_cases he : e = d
  · rw [he]; exact hd
  · exact deadlineFits_congr (k.states e he) (k.deadlines e he) (h e)

/-- A publish write of another domain is of a domain that has not moved. -/
theorem OthersKept.publishes {d : DomainId} {s t : State} (k : OthersKept d s t) (h : EpochCore s)
    (hw : ∀ p, s.publishWrite = some p → p.domain ≠ d) (p : PublishWrite) (hp : t.publishWrite = some p) :
    domainState p.domain t = .committing .publish := by
  rw [k.publishWrite] at hp
  rw [k.states _ (hw p hp)]
  exact (h.publishEntry hp).1

theorem EpochCore.not_publishing {d : DomainId} {s : State} (h : EpochCore s)
    (hd : domainState d s ≠ .committing .publish) (p : PublishWrite) (hp : s.publishWrite = some p) : p.domain ≠ d :=
  fun he => hd (he ▸ (h.publishEntry hp).1)

/-- A state that no entry and no publication looks at: OPEN, MARKED and the two DRAINs. -/
def isJournaling : DomainState → Bool
  | .opened | .marked | .committing .drain | .rollingBack => true
  | .closed | .committing .publish | .faulted => false

theorem isJournaling_iff (st : DomainState) :
    isJournaling st = true ↔ st ≠ .closed ∧ st ≠ .committing .publish ∧ st ≠ .faulted := by
  cases st with
  | committing phase => cases phase <;> simp [isJournaling]
  | _ => simp [isJournaling]

theorem entryFits_journaling {st : DomainState} {e : ChangeEntry} (h : isJournaling st = true)
    (he : e.state ≠ .published) : EntryFits st e := by
  obtain ⟨hc, hp, hf⟩ := (isJournaling_iff st).mp h
  exact ⟨hc, fun _ => ⟨hp, hf⟩, fun h => absurd h he⟩

/-- A domain outside PUBLISH and FAULTED goes to one of the states in which its epoch is journaled or drained. -/
theorem EpochCore.restate {d : DomainId} {s t : State} (h : EpochCore s) (k : OthersKept d s t)
    (hc : t.changes = s.changes) (hp : t.publication = s.publication) (hnew : isJournaling (domainState d t) = true)
    (hold : domainState d s ≠ .committing .publish ∧ domainState d s ≠ .faulted) (hd : DeadlineFits d t) :
    EpochCore t where
  keys := by unfold KeysUnique; rw [hc]; exact h.keys
  entries := fun e he => by
    rw [hc] at he
    by_cases hde : e.domain = d
    · rw [hde]
      have old := h.entries e he
      rw [hde] at old
      exact entryFits_journaling hnew fun hpub => (old.published hpub).elim hold.1 hold.2
    · rw [k.states _ hde]
      exact h.entries e he
  slots := by unfold SlotsMatch; rw [hc, k.slots]; exact h.slots
  publication := by
    obtain ⟨hnodup, hiff, -⟩ := h.publication
    refine ⟨by rw [hp]; exact hnodup, fun e => ?_, k.publishes h (h.not_publishing hold.1)⟩
    rw [hp, hiff]
    by_cases he : e = d
    · rw [he]
      exact iff_of_false hold.1 ((isJournaling_iff _).mp hnew).2.1
    · rw [k.states e he]
  write := by unfold PublishMatches; rw [hc, k.publishWrite]; exact h.write
  deadlines := k.deadlinesFit h.deadlines hd

/-- A drained or FAULTED domain joins the publication order (R72, R81). -/
theorem EpochCore.publish {d : DomainId} {s t : State} (h : EpochCore s) (k : OthersKept d s t)
    (hc : t.changes = s.changes) (hp : t.publication = s.publication ++ [{ domain := d, cursor := none }])
    (hnew : domainState d t = .committing .publish) (hold : domainState d s ≠ .committing .publish)
    (hcopy : ∀ e ∈ s.changes, e.domain = d → isCopying e = false) (hd : DeadlineFits d t) : EpochCore t where
  keys := by unfold KeysUnique; rw [hc]; exact h.keys
  entries := fun e he => by
    rw [hc] at he
    by_cases hde : e.domain = d
    · rw [hde, hnew]
      exact ⟨by simp, fun hcopying => (nomatch (hcopy e he hde).symm.trans hcopying), fun _ => .inl rfl⟩
    · rw [k.states _ hde]
      exact h.entries e he
  slots := by unfold SlotsMatch; rw [hc, k.slots]; exact h.slots
  publication := by
    obtain ⟨hnodup, hiff, -⟩ := h.publication
    have absent : ¬ ∃ p ∈ s.publication, p.domain = d := fun hd => hold ((hiff d).mp hd)
    refine ⟨?_, fun e => ?_, k.publishes h (h.not_publishing hold)⟩
    · rw [hp, List.map_append, List.map_singleton]
      refine List.nodup_append.mpr ⟨hnodup, List.nodup_singleton _, fun a ha b hb hab => absent ?_⟩
      rw [hab, List.mem_singleton.mp hb] at ha
      exact List.mem_map.mp ha
    · by_cases he : e = d
      · rw [he, hp]
        exact iff_of_true ⟨_, List.mem_append_right _ List.mem_cons_self, rfl⟩ hnew
      · rw [k.states e he, ← hiff, hp]
        simp only [List.mem_append, List.mem_singleton, or_and_right, exists_or, exists_eq_left]
        exact or_iff_left fun hde => he hde.symm
  write := by unfold PublishMatches; rw [hc, k.publishWrite]; exact h.write
  deadlines := k.deadlinesFit h.deadlines hd

/-- A domain that gives up its place in the publication order is not in the order, and the others' places are theirs. -/
theorem publicationFits_without {d : DomainId} {s t : State} (h : EpochCore s) (k : OthersKept d s t)
    (hp : t.publication = s.publication.filter fun p => !decide (p.domain = d))
    (hnew : domainState d t ≠ .committing .publish) (hw : ∀ p, s.publishWrite = some p → p.domain ≠ d) :
    PublicationFits t := by
  obtain ⟨hnodup, hiff, -⟩ := h.publication
  refine ⟨by rw [hp]; exact (List.filter_sublist.map _).nodup hnodup, fun e => ?_, k.publishes h hw⟩
  rw [hp]
  by_cases he : e = d
  · rw [he]
    refine iff_of_false ?_ hnew
    rintro ⟨p, hmem, hpd⟩
    simp [hpd] at hmem
  · rw [k.states e he, ← hiff]
    refine exists_congr fun p => and_congr_left fun hpe => ?_
    rw [List.mem_filter]
    exact and_iff_left (by simp [hpe, he])

/-- A pass that ends with an entry LIVE leaves the domain FAULTED (R76, R79). -/
theorem EpochCore.fault {d : DomainId} {s t : State} (h : EpochCore s) (k : OthersKept d s t)
    (hc : t.changes = s.changes) (hp : t.publication = s.publication.filter fun p => !decide (p.domain = d))
    (hnew : domainState d t = .faulted) (hw : ∀ p, s.publishWrite = some p → p.domain ≠ d)
    (hcopy : ∀ e ∈ s.changes, e.domain = d → isCopying e = false) (hd : DeadlineFits d t) : EpochCore t where
  keys := by unfold KeysUnique; rw [hc]; exact h.keys
  entries := fun e he => by
    rw [hc] at he
    by_cases hde : e.domain = d
    · rw [hde, hnew]
      exact ⟨by simp, fun hcopying => (nomatch (hcopy e he hde).symm.trans hcopying), fun _ => .inr rfl⟩
    · rw [k.states _ hde]
      exact h.entries e he
  slots := by unfold SlotsMatch; rw [hc, k.slots]; exact h.slots
  publication := publicationFits_without h k hp (by rw [hnew]; simp) hw
  write := by unfold PublishMatches; rw [hc, k.publishWrite]; exact h.write
  deadlines := k.deadlinesFit h.deadlines hd

/-- A domain with no copy running gives up its entries: RELEASE and DISCARD (R77, R78, R94). -/
theorem EpochCore.retire {d : DomainId} {s t : State} (h : EpochCore s) (k : OthersKept d s t)
    (hc : t.changes = s.changes.filter fun e => !decide (e.domain = d))
    (hp : t.publication = s.publication.filter fun p => !decide (p.domain = d))
    (hnew : domainState d t ≠ .committing .publish) (hw : ∀ p, s.publishWrite = some p → p.domain ≠ d)
    (hcopy : ∀ e ∈ s.changes, e.domain = d → isCopying e = false) (hd : DeadlineFits d t) : EpochCore t := by
  have mem : ∀ e, e ∈ t.changes ↔ e ∈ s.changes ∧ e.domain ≠ d := fun e => by
    rw [hc, List.mem_filter]
    simp
  exact {
    keys := by unfold KeysUnique; rw [hc]; exact (List.filter_sublist.map _).nodup h.keys
    entries := fun e he => by
      obtain ⟨hmem, hde⟩ := (mem e).mp he
      rw [k.states _ hde]
      exact h.entries e hmem
    slots := by
      refine ⟨fun e he j hj => ?_, fun j c hjc => ?_⟩
      · rw [k.slots]
        exact h.slots.1 e ((mem e).mp he).1 j hj
      · rw [k.slots] at hjc
        obtain ⟨e, he, hstate, htile⟩ := h.slots.2 j c hjc
        refine ⟨e, (mem e).mpr ⟨he, fun hde => ?_⟩, hstate, htile⟩
        have := hcopy e he hde
        simp [isCopying, hstate] at this
    publication := publicationFits_without h k hp hnew hw
    write := fun p hpw => by
      rw [k.publishWrite] at hpw
      obtain ⟨e, he, hew, het, hed, hlive⟩ := h.write p hpw
      exact ⟨e, (mem e).mpr ⟨he, hed ▸ hw p hpw⟩, hew, het, hed, hlive⟩
    deadlines := k.deadlinesFit h.deadlines hd }

/-! ## The Epoch Unit's transitions -/

theorem inEpoch_eq_false {d : DomainId} {s : State} {st : DomainState} (h : domainState d s = st)
    (ho : st ≠ .opened) (hm : st ≠ .marked) : inEpoch d s = false := by
  unfold inEpoch
  rw [h]
  cases st <;> simp_all

theorem inEpoch_journaling {d : DomainId} {s : State} (h : inEpoch d s = true) :
    domainState d s ≠ .committing .publish ∧ domainState d s ≠ .faulted := by
  unfold inEpoch at h
  constructor <;> intro he <;> simp [he] at h

theorem deadlineFits_enterOpen {d : DomainId} {s t : State} (hd : inEpoch d t = true)
    (hc : t.deadlines[d] = { value := (settingsOf d s).deadlineReload.toNat,
                             running := decide ((settingsOf d s).deadlineReload ≠ 0#16) }) : DeadlineFits d t := by
  intro hr
  rw [hc] at hr ⊢
  simp only [decide_eq_true_eq] at hr
  exact ⟨hd, Nat.pos_of_ne_zero fun h0 => hr (BitVec.eq_of_toNat_eq h0)⟩

theorem enterOpen_core {d : DomainId} {s : State} (hd : domainState d s = .closed) (h : EpochCore s) :
    EpochCore (enterOpen d s) := by
  refine h.restate (enterOpen_others d s) (enterOpen_changes d s) (by simp [enterOpen])
    (by rw [domainState_enterOpen]; rfl) (by rw [hd]; simp) (deadlineFits_enterOpen (s := s) ?_ ?_)
  · simp only [inEpoch, domainState_enterOpen]
  · rw [enterOpen_deadlines, vector_set_get, if_pos rfl]

theorem startPhase_stopped (d : DomainId) (st : DomainState) (s : State) :
    (stopDeadline d (setDomainState d st s)).deadlines[d].running = false := by
  rw [stopDeadline_deadlines, vector_set_get, if_pos rfl]

theorem startPhase_core {d : DomainId} {st : DomainState} {s : State} (hd : inEpoch d s = true)
    (hst : isJournaling st = true) (h : EpochCore s) : EpochCore (stopDeadline d (setDomainState d st s)) :=
  h.restate (startPhase_others d st s) (by simp) (by simp) (by rw [domainState_startPhase]; exact hst)
    (inEpoch_journaling hd) (deadlineFits_stopped (startPhase_stopped ..))

theorem arm_core {d : DomainId} {s : State} (hd : domainState d s = .opened) (h : EpochCore s) :
    EpochCore (setDomainState d .marked s) := by
  refine h.restate (setDomainState_others d .marked s) (by simp) (by simp) (by rw [setDomainState_same]; rfl)
    (by rw [hd]; simp) fun hr => ⟨by simp only [inEpoch, setDomainState_same], (h.deadlines d hr).2⟩

theorem entriesOf_copying_false {d : DomainId} {s : State} (h : (entriesOf d s).any isCopying = false) :
    ∀ e ∈ s.changes, e.domain = d → isCopying e = false := by
  intro e he hde
  rw [List.any_eq_false] at h
  exact Bool.eq_false_iff.mpr (h e (mem_entriesOf.mpr ⟨he, hde⟩))

theorem commitDrained_copying {d : DomainId} {s : State} (h : commitDrained d s = true) :
    ∀ e ∈ s.changes, e.domain = d → isCopying e = false := by
  simp only [commitDrained, Bool.and_eq_true, Bool.not_eq_true'] at h
  exact entriesOf_copying_false h.1

theorem rollbackDrained_copying {d : DomainId} {s : State} (h : rollbackDrained d s = true) :
    ∀ e ∈ s.changes, e.domain = d → isCopying e = false := by
  simp only [rollbackDrained, Bool.and_eq_true, Bool.not_eq_true'] at h
  exact entriesOf_copying_false h.1

/-- A domain in PUBLISH or FAULTED has no copy running (R72, R81). -/
theorem EpochCore.no_copying {d : DomainId} {s : State} (h : EpochCore s)
    (hd : domainState d s = .committing .publish ∨ domainState d s = .faulted) :
    ∀ e ∈ s.changes, e.domain = d → isCopying e = false := by
  intro e he hde
  have fits := h.entries e he
  rw [hde] at fits
  refine Bool.eq_false_iff.mpr fun hc => ?_
  exact hd.elim (fits.copying hc).1 (fits.copying hc).2

theorem domainState_releaseDomain (d : DomainId) (s : State) :
    domainState d (releaseDomain d s) = if (settingsOf d s).autoReopen then .opened else .closed := by
  have reopen : (settingsOf d s).autoReopen = s.domains[d].settings.autoReopen := rfl
  rw [domainState, releaseDomain_get, reopen]
  split <;> rfl

theorem domainState_discardDomain (d : DomainId) (s : State) : domainState d (discardDomain d s) = .closed := by
  rw [domainState, discardDomain_get]

theorem filter_publication_absent {d : DomainId} {s : State} (h : EpochCore s)
    (hd : domainState d s ≠ .committing .publish) :
    s.publication = s.publication.filter fun p => !decide (p.domain = d) := by
  refine (List.filter_eq_self.mpr fun p hp => ?_).symm
  have : p.domain ≠ d := fun he => hd (((h.publication.2.1 d).mp ⟨p, hp, he⟩))
  simp [this]

theorem releaseDomain_publication (d : DomainId) (s : State) : (releaseDomain d s).publication = s.publication := by
  unfold releaseDomain
  simp only [endDomainWaits_publication]
  split
  · simp [enterOpen]
  · simp

/-- A counter that is stopped, or that RELEASE reloads, fits after RELEASE. -/
theorem deadlineFits_releaseDomain {d : DomainId} {s : State} (h : s.deadlines[d].running = false) :
    DeadlineFits d (releaseDomain d s) := by
  have hdl := releaseDomain_deadlines d s
  have hst := domainState_releaseDomain d s
  split at hdl
  · rename_i hreopen
    rw [if_pos hreopen] at hst
    refine deadlineFits_enterOpen (s := s) (by simp only [inEpoch, hst]) ?_
    rw [hdl, vector_set_get, if_pos rfl]
  · exact deadlineFits_stopped (by rw [hdl]; exact h)

theorem discardDomain_core {d : DomainId} {s : State} (hd : domainState d s = .rollingBack)
    (hdrained : rollbackDrained d s = true) (h : EpochCore s) : EpochCore (discardDomain d s) := by
  have outside : domainState d s ≠ .committing .publish := by rw [hd]; simp
  refine h.retire (discardDomain_others d s) (discardDomain_changes d s) ?_ ?_ (h.not_publishing outside)
    (rollbackDrained_copying hdrained) (deadlineFits_stopped ?_)
  · rw [show (discardDomain d s).publication = s.publication by simp [discardDomain]]
    exact filter_publication_absent h outside
  · rw [domainState_discardDomain]; simp
  · rw [discardDomain_deadlines]
    exact (h.deadlines d).stopped (inEpoch_eq_false hd (by simp) (by simp))

/-- The end of a pass, for a domain whose place in the publication order is given up in `s₁`: `s` is the state before. -/
theorem endPass_core {d : DomainId} {s s₁ : State} (h : EpochCore s) (k : OthersKept d s s₁)
    (hc : s₁.changes = s.changes) (hp : s₁.publication = s.publication.filter fun p => !decide (p.domain = d))
    (hw : ∀ p, s.publishWrite = some p → p.domain ≠ d)
    (hcopy : ∀ e ∈ s.changes, e.domain = d → isCopying e = false) (hstop : s₁.deadlines[d].running = false) :
    EpochCore (endPass d s₁) := by
  unfold endPass
  split
  · exact h.fault (k.trans (enterFaulted_others d s₁)) (by simp [hc]) (by simp [hp]) (domainState_enterFaulted d s₁) hw
      hcopy (deadlineFits_stopped (by rw [enterFaulted_deadlines]; exact hstop))
  · refine h.retire (k.trans (releaseDomain_others d s₁)) ((releaseDomain_changes d s₁).trans (by rw [hc]))
      ((releaseDomain_publication d s₁).trans hp) ?_ hw hcopy (deadlineFits_releaseDomain hstop)
    rw [domainState_releaseDomain]
    split <;> simp

theorem enterPublish_core {d : DomainId} {s : State}
    (hd : (domainState d s = .committing .drain ∧ commitDrained d s = true) ∨ domainState d s = .faulted)
    (h : EpochCore s) : EpochCore (enterPublish d s) := by
  have outside : domainState d s ≠ .committing .publish := by
    obtain ⟨hd, -⟩ | hd := hd <;> rw [hd] <;> simp
  have uncopied : ∀ e ∈ s.changes, e.domain = d → isCopying e = false :=
    hd.elim (fun hd => commitDrained_copying hd.2) fun hd => h.no_copying (.inr hd)
  have started := startPhase_others d (.committing .publish) s
  unfold enterPublish
  dsimp only
  split
  · exact h.publish (started.trans ⟨fun _ _ => rfl, fun _ _ => rfl, rfl, rfl⟩) (by simp) (by simp)
      (domainState_startPhase ..) outside uncopied (deadlineFits_stopped (startPhase_stopped ..))
  · refine endPass_core h started (by simp) ?_ (h.not_publishing outside) uncopied (startPhase_stopped ..)
    rw [show (stopDeadline d (setDomainState d (.committing .publish) s)).publication = s.publication by simp]
    exact filter_publication_absent h outside

theorem continuePass_core {d : DomainId} {s : State} (hd : domainState d s = .committing .publish)
    (hw : s.publishWrite = none) (h : EpochCore s) : EpochCore (continuePass d s) := by
  unfold continuePass
  split
  · exact h
  · refine endPass_core h ⟨fun _ _ => rfl, fun _ _ => rfl, rfl, rfl⟩ rfl rfl (fun p hp => ?_) (h.no_copying (.inl hd)) ?_
    · rw [hw] at hp
      exact nomatch hp
    · exact (h.deadlines d).stopped (inEpoch_eq_false hd (by simp) (by simp))

end Sys2Proof.Machine
end

