-- ==== Sys2Proof/Proofs/Agreement.lean ====
section
/-! SUPPORT. The changes of the Change Table and the copy slots that keep the agreement of the Epoch Unit (R46, R58, R73,
R111, R113), and the DRAIN conditions over whole events (R69, R90). -/

namespace Sys2Proof.Machine

/-! ## Entries and copies -/

theorem mem_setEntryState {w : WindowId} {tile : Nat} {st : EntryState} {s : State} {a : ChangeEntry} :
    a ∈ (setEntryState w tile st s).changes ↔ (a ∈ s.changes ∧ changeKey w tile a = false) ∨
      ∃ e ∈ s.changes, changeKey w tile e = true ∧ a = { e with state := st } := by
  rw [setEntryState_changes, List.mem_map]
  constructor
  · rintro ⟨e, he, rfl⟩
    split
    · exact .inr ⟨e, he, ‹_›, rfl⟩
    · exact .inl ⟨he, Bool.eq_false_iff.mpr ‹_›⟩
  · rintro (⟨ha, hkey⟩ | ⟨e, he, hkey, rfl⟩)
    · exact ⟨a, ha, if_neg (by rw [hkey]; exact Bool.false_ne_true)⟩
    · exact ⟨e, he, if_pos hkey⟩

theorem keysUnique_of_tilesWithin {s t : State} (k : TilesWithin s t) (h : KeysUnique s) : KeysUnique t :=
  List.Sublist.nodup k h

/-- The entry of a slot's copy. -/
theorem EpochCore.slotEntry {k : SlotId} {c : CopyJob} {s : State} (h : EpochCore s) (hc : s.slots[k] = some c) :
    ∃ e ∈ s.changes, e.state = .copying k ∧ changeKey c.window c.tile e = true := by
  obtain ⟨e, he, hstate, htile⟩ := h.slots.2 k c hc
  exact ⟨e, he, hstate, changeKey_iff.mpr htile⟩

theorem EpochCore.entry_unique {w : WindowId} {tile : Nat} {s : State} (h : EpochCore s) {a b : ChangeEntry}
    (ha : a ∈ s.changes) (hb : b ∈ s.changes) (hka : changeKey w tile a = true) (hkb : changeKey w tile b = true) :
    a = b := by
  obtain ⟨haw, hat⟩ := changeKey_iff.mp hka
  obtain ⟨hbw, hbt⟩ := changeKey_iff.mp hkb
  exact entry_eq_of_tile h.keys ha hb (haw.trans hbw.symm) (hat.trans hbt.symm)

theorem isCopying_of_state {e : ChangeEntry} {k : SlotId} (h : e.state = .copying k) : isCopying e = true := by
  simp only [isCopying, h]

/-- A completed publish write makes its entry PUBLISHED (R73). -/
theorem publishEntry_core {p : PublishWrite} {s : State} (hp : s.publishWrite = some p) (h : EpochCore s) :
    EpochCore (setEntryState p.window p.tile .published { s with publishWrite := none }) := by
  obtain ⟨hstate, x, hx, hxw, hxt, hxd, hlive⟩ := h.publishEntry hp
  have hxkey : changeKey p.window p.tile x = true := changeKey_iff.mpr ⟨hxw, hxt⟩
  have only : ∀ e ∈ s.changes, changeKey p.window p.tile e = true → e = x := fun e he hk =>
    h.entry_unique he hx hk hxkey
  have states : ∀ d, domainState d (setEntryState p.window p.tile .published { s with publishWrite := none }) =
      domainState d s := fun _ => domainState_congr (by simp)
  exact {
    keys := keysUnique_of_tilesWithin (setEntryState_tilesWithin ..) h.keys
    entries := fun a ha => by
      rw [states]
      obtain ⟨hmem, -⟩ | ⟨e, he, hk, rfl⟩ := mem_setEntryState.mp ha
      · exact h.entries a hmem
      · rw [only e he hk, show ({ x with state := .published } : ChangeEntry).domain = x.domain from rfl, hxd, hstate]
        exact ⟨by simp, fun hc => (nomatch hc), fun _ => .inl rfl⟩
    slots := by
      refine ⟨fun a ha k hak => ?_, fun k c hc => ?_⟩
      · obtain ⟨hmem, -⟩ | ⟨e, he, hk, rfl⟩ := mem_setEntryState.mp ha
        · exact h.slots.1 a hmem k hak
        · exact nomatch hak
      · obtain ⟨e, he, hek, htile⟩ := h.slots.2 k c hc
        refine ⟨e, mem_setEntryState.mpr (.inl ⟨he, Bool.eq_false_iff.mpr fun hkey => ?_⟩), hek, htile⟩
        rw [only e he hkey, hlive] at hek
        exact nomatch hek
    publication := by
      obtain ⟨hnodup, hiff, -⟩ := h.publication
      exact ⟨hnodup, fun d => by rw [states]; exact hiff d, fun _ hq => nomatch hq⟩
    write := fun _ hq => nomatch hq
    deadlines := fun d => deadlineFits_congr (states d) rfl (h.deadlines d) }

/-- The publish write that is outstanding is given up. -/
theorem clearWrite_core {s : State} (h : EpochCore s) : EpochCore { s with publishWrite := none } where
  keys := h.keys
  entries := h.entries
  slots := h.slots
  publication := ⟨h.publication.1, h.publication.2.1, fun _ hq => nomatch hq⟩
  write := fun _ hq => nomatch hq
  deadlines := h.deadlines

/-- The Map Walker sends a publish write of a LIVE entry of a domain in PUBLISH (R32). -/
theorem publishGrant_core {tag : LinkTag} {p : Publication} {e : ChangeEntry} {a : Address} {s : State}
    (hturn : publishTurn s = some (p, e)) (h : EpochCore s) :
    EpochCore { s with
      publication := s.publication.map (advanceCursor p e.sequence)
      publishWrite := some { tag := tag, domain := p.domain, window := e.window, tile := e.tile, mapAddress := a } } := by
  obtain ⟨q, hq, hnext⟩ := List.exists_of_findSome?_eq_some hturn
  obtain ⟨e', hnext, heq⟩ := Option.map_eq_some_iff.mp hnext
  cases heq
  have hlive : e ∈ s.changes ∧ e.domain = p.domain ∧ e.state = .live := by
    have mem := (bySequence_perm _).mem_iff.mp (List.mem_of_head? hnext)
    simp only [List.mem_filter, Bool.and_eq_true, mem_entriesOf, isLive, decide_eq_true_eq] at mem
    exact ⟨mem.1.1, mem.1.2, mem.2.1⟩
  have domains : (s.publication.map (advanceCursor p e.sequence)).map (·.domain) = s.publication.map (·.domain) := by
    rw [List.map_map]
    refine List.map_congr_left fun x _ => ?_
    simp only [Function.comp, advanceCursor]
    split <;> rfl
  have order : ∀ d, (∃ x ∈ s.publication.map (advanceCursor p e.sequence), x.domain = d) ↔
      ∃ x ∈ s.publication, x.domain = d := fun d => by
    rw [← List.mem_map, domains, List.mem_map]
  obtain ⟨hnodup, hiff, -⟩ := h.publication
  exact {
    keys := h.keys
    entries := h.entries
    slots := h.slots
    publication := ⟨by rw [domains]; exact hnodup, fun d => (order d).trans (hiff d),
      fun x hx => by cases hx; exact (hiff p.domain).mp ⟨p, hq, rfl⟩⟩
    write := fun x hx => by cases hx; exact ⟨e, hlive.1, rfl, rfl, hlive.2.1, hlive.2.2⟩
    deadlines := h.deadlines }

theorem freeSlot_isNone {k : SlotId} {s : State} (h : freeSlot s = some k) : s.slots[k] = none := by
  unfold freeSlot at h
  split at h
  · cases h; exact Option.isNone_iff_eq_none.mp ‹_›
  split at h
  · cases h; exact Option.isNone_iff_eq_none.mp ‹_›
  · cases h

/-- The first write of a tile creates an entry whose copy a free slot runs (R58). -/
theorem createEntry_core {d : DomainId} {c : CacheEntry} {f : Frame} {k : SlotId} {s : State}
    (hd : inEpoch d s = true) (hk : freeSlot s = some k)
    (hkeys : KeysUnique (createEntry d c f k s)) (h : EpochCore s) : EpochCore (createEntry d c f k s) := by
  have states : ∀ e, domainState e (createEntry d c f k s) = domainState e s := fun e => by
    simp only [domainState, createEntry_domains, vector_set_get]
    split
    · rename_i hde; subst hde; rfl
    · rfl
  have hfree := freeSlot_isNone hk
  obtain ⟨hnodup, hiff, hwrite⟩ := h.publication
  refine ⟨hkeys, fun e he => ?_, ⟨fun e he j hj => ?_, fun j c' hj => ?_⟩, ⟨?_, fun e => ?_, fun p hp => ?_⟩,
    fun p hp => ?_, fun e => deadlineFits_congr (states e) (by simp) (h.deadlines e)⟩
  · rw [states]
    rw [createEntry_changes] at he
    obtain he | he := List.mem_append.mp he
    · exact h.entries e he
    · rw [List.mem_singleton.mp he]
      refine entryFits_journaling ?_ (by simp)
      obtain ho | hm := (inEpoch_iff d s).mp hd
      · rw [domainState, ho]; rfl
      · rw [domainState, hm]; rfl
  · rw [createEntry_changes] at he
    rw [createEntry_slots, vector_set_get]
    obtain he | he := List.mem_append.mp he
    · obtain ⟨c', hc', hfit⟩ := h.slots.1 e he j hj
      rw [if_neg fun hkj => by rw [← hkj, hfree] at hc'; exact nomatch hc']
      exact ⟨c', hc', hfit⟩
    · rw [List.mem_singleton.mp he] at hj ⊢
      cases hj
      exact ⟨_, if_pos rfl, rfl, rfl, rfl, rfl⟩
  · rw [createEntry_slots, vector_set_get] at hj
    rw [createEntry_changes]
    split at hj
    · rename_i hkj
      cases hj
      exact ⟨_, List.mem_append_right _ List.mem_cons_self, by rw [hkj], rfl, rfl⟩
    · obtain ⟨e, he, hfit⟩ := h.slots.2 j c' hj
      exact ⟨e, List.mem_append_left _ he, hfit⟩
  · rw [createEntry_publication]
    exact hnodup
  · rw [createEntry_publication, states]
    exact hiff e
  · rw [createEntry_publishWrite] at hp
    rw [states]
    exact hwrite p hp
  · rw [createEntry_publishWrite] at hp
    obtain ⟨e, he, hfit⟩ := h.write p hp
    exact ⟨e, by rw [createEntry_changes]; exact List.mem_append_left _ he, hfit⟩

/-- A slot's copy goes on with the same entry. -/
theorem copyGoesOn_core {k : SlotId} {c c' : CopyJob} {s : State} (hc : s.slots[k] = some c) (hsame : sameCopy c c')
    (h : EpochCore s) : EpochCore (setSlot k (some c') s) where
  keys := h.keys
  entries := h.entries
  slots := by
    obtain ⟨hw, ht, hsrc, hdst⟩ := hsame
    refine ⟨fun e he j hj => ?_, fun j x hx => ?_⟩
    · obtain ⟨y, hy, hyw, hyt, hys, hyd⟩ := h.slots.1 e he j hj
      rw [setSlot_slots, vector_set_get]
      split
      · rename_i hkj
        rw [← hkj, hc] at hy
        cases hy
        exact ⟨c', rfl, hw.trans hyw, ht.trans hyt, hsrc.trans hys, hdst.trans hyd⟩
      · exact ⟨y, hy, hyw, hyt, hys, hyd⟩
    · rw [setSlot_slots, vector_set_get] at hx
      split at hx
      · rename_i hkj
        cases hx
        obtain ⟨e, he, hek, hew, het⟩ := h.slots.2 k c hc
        exact ⟨e, he, hkj ▸ hek, hew.trans hw.symm, het.trans ht.symm⟩
      · exact h.slots.2 j x hx
  publication := h.publication
  write := h.write
  deadlines := h.deadlines

/-- The slots match after one is freed whose entry alone has left COPYING. -/
theorem slotsMatch_freed {k : SlotId} {c : CopyJob} {s t : State} (h : EpochCore s) (hc : s.slots[k] = some c)
    (hslots : t.slots = s.slots.set k none)
    (hin : ∀ e ∈ t.changes, isCopying e = true → e ∈ s.changes ∧ changeKey c.window c.tile e = false)
    (hout : ∀ e ∈ s.changes, changeKey c.window c.tile e = false → e ∈ t.changes) : SlotsMatch t := by
  obtain ⟨x, hx, hxk, hxkey⟩ := h.slotEntry hc
  refine ⟨fun e he j hj => ?_, fun j y hy => ?_⟩
  · obtain ⟨hmem, hkey⟩ := hin e he (isCopying_of_state hj)
    obtain ⟨y, hy, hyw, hyt, hrest⟩ := h.slots.1 e hmem j hj
    rw [hslots, vector_set_get, if_neg fun hkj => ?_]
    · exact ⟨y, hy, hyw, hyt, hrest⟩
    · rw [← hkj, hc] at hy
      cases hy
      exact Bool.false_ne_true (hkey.symm.trans (changeKey_iff.mpr ⟨hyw.symm, hyt.symm⟩))
  · rw [hslots, vector_set_get] at hy
    split at hy
    · exact nomatch hy
    · rename_i hkj
      obtain ⟨e, he, hej, htile⟩ := h.slots.2 j y hy
      refine ⟨e, hout e he (Bool.eq_false_iff.mpr fun hkey => hkj ?_), hej, htile⟩
      rw [h.entry_unique he hx hkey hxkey, hxk] at hej
      exact EntryState.copying.inj hej

theorem mem_eraseP_of_unique {w : WindowId} {tile : Nat} {s : State} (h : KeysUnique s) (e : ChangeEntry) :
    e ∈ s.changes.eraseP (changeKey w tile) ↔ e ∈ s.changes ∧ changeKey w tile e = false := by
  constructor
  · intro he
    refine ⟨List.mem_of_mem_eraseP he, Bool.eq_false_iff.mpr fun hkey => ?_⟩
    obtain ⟨x, before, after, hbefore, hx, hsplit, herase⟩ := List.exists_of_eraseP (List.mem_of_mem_eraseP he) hkey
    rw [herase] at he
    have unique : (s.changes.map tileOf).Nodup := h
    rw [hsplit, List.map_append, List.map_cons, List.nodup_middle, List.nodup_cons, ← List.map_append] at unique
    refine unique.1 (List.mem_map.mpr ⟨e, he, ?_⟩)
    obtain ⟨hew, het⟩ := changeKey_iff.mp hkey
    obtain ⟨hxw, hxt⟩ := changeKey_iff.mp hx
    rw [tileOf, tileOf, hew, het, hxw, hxt]
  · rintro ⟨he, hkey⟩
    exact (List.mem_eraseP_of_neg (by rw [hkey]; exact Bool.false_ne_true)).mpr he

/-- A completed copy's entry is LIVE and its slot free (R111). -/
theorem copyDone_core {k : SlotId} {c : CopyJob} {s : State} (hc : s.slots[k] = some c) (h : EpochCore s) :
    EpochCore (setSlot k none (setEntryState c.window c.tile .live s)) := by
  obtain ⟨x, hx, hxk, hxkey⟩ := h.slotEntry hc
  exact {
    keys := keysUnique_of_tilesWithin (setEntryState_tilesWithin ..) h.keys
    entries := fun a ha => by
      obtain ⟨hmem, -⟩ | ⟨e, he, hk, rfl⟩ := mem_setEntryState.mp ha
      · exact h.entries a hmem
      · exact ⟨(h.entries e he).notClosed, fun hc => (nomatch hc), fun hp => (nomatch hp)⟩
    slots := by
      refine slotsMatch_freed h hc rfl (fun a ha hcopy => ?_) fun e he hkey => mem_setEntryState.mpr (.inl ⟨he, hkey⟩)
      obtain hkept | ⟨e, -, -, rfl⟩ := mem_setEntryState.mp ha
      · exact hkept
      · exact nomatch hcopy
    publication := h.publication
    write := fun p hp => by
      obtain ⟨e, he, hew, het, hed, hlive⟩ := h.write p hp
      cases hkey : changeKey c.window c.tile e with
      | false => exact ⟨e, mem_setEntryState.mpr (.inl ⟨he, hkey⟩), hew, het, hed, hlive⟩
      | true => exact ⟨{ e with state := .live }, mem_setEntryState.mpr (.inr ⟨e, he, hkey, rfl⟩), hew, het, hed, rfl⟩
    deadlines := h.deadlines }

/-- A failed copy's entry is removed and its slot free (R113). -/
theorem copyFailed_core {k : SlotId} {c : CopyJob} {s t : State} (hc : s.slots[k] = some c)
    (hchanges : t.changes = s.changes.eraseP (changeKey c.window c.tile)) (hslots : t.slots = s.slots.set k none)
    (hstates : ∀ d, domainState d t = domainState d s) (hpub : t.publication = s.publication)
    (hwrite : t.publishWrite = s.publishWrite) (hdeadlines : t.deadlines = s.deadlines) (h : EpochCore s) :
    EpochCore t := by
  obtain ⟨x, hx, hxk, hxkey⟩ := h.slotEntry hc
  have mem : ∀ e, e ∈ t.changes ↔ e ∈ s.changes ∧ changeKey c.window c.tile e = false := fun e => by
    rw [hchanges]
    exact mem_eraseP_of_unique h.keys e
  exact {
    keys := keysUnique_of_tilesWithin (tilesWithin_of_sublist (hchanges ▸ List.eraseP_sublist)) h.keys
    entries := fun e he => by rw [hstates]; exact h.entries e ((mem e).mp he).1
    slots := slotsMatch_freed h hc hslots (fun e he _ => (mem e).mp he) fun e he hkey => (mem e).mpr ⟨he, hkey⟩
    publication := by
      unfold PublicationFits
      simp only [hpub, hwrite, hstates]
      exact h.publication
    write := fun p hp => by
      rw [hwrite] at hp
      obtain ⟨e, he, hew, het, hed, hlive⟩ := h.write p hp
      refine ⟨e, (mem e).mpr ⟨he, Bool.eq_false_iff.mpr fun hkey => ?_⟩, hew, het, hed, hlive⟩
      rw [h.entry_unique he hx hkey hxkey, hxk] at hlive
      exact nomatch hlive
    deadlines := fun d => deadlineFits_congr (hstates d) (by rw [hdeadlines]) (h.deadlines d) }

theorem core_of_nothing {t : State} (hc : t.changes = []) (hs : t.slots = Vector.replicate 2 none)
    (hp : t.publication = []) (hw : t.publishWrite = none) (hd : t.domains = Vector.replicate 4 .reset)
    (hdl : t.deadlines = Vector.replicate 4 .reset) : EpochCore t where
  keys := by unfold KeysUnique; rw [hc]; exact List.nodup_nil
  entries := fun e he => by rw [hc] at he; exact absurd he List.not_mem_nil
  slots := by
    refine ⟨fun e he => ?_, fun k c hk => ?_⟩
    · rw [hc] at he; exact absurd he List.not_mem_nil
    · rw [hs, vector_replicate_get] at hk
      exact nomatch hk
  publication := by
    refine ⟨by rw [hp]; exact List.nodup_nil, fun d => ?_, fun p hpw => ?_⟩
    · rw [hp, domainState, hd, vector_replicate_get]
      simp [DomainRecord.reset]
    · rw [hw] at hpw
      exact nomatch hpw
  write := fun p hpw => by rw [hw] at hpw; exact nomatch hpw
  deadlines := fun d => deadlineFits_stopped (by rw [hdl, vector_replicate_get]; rfl)

/-! ## Every move -/

theorem modifyDomain_states {f : DomainRecord → DomainRecord} (hf : ∀ r, (f r).state = r.state) (d e : DomainId)
    (s : State) : domainState e (modifyDomain d f s) = domainState e s := by
  rw [domainState, modifyDomain_domains, vector_set_get]
  split
  · rename_i hde; subst hde; rw [hf]; rfl
  · rfl

theorem setDeadline_core {d : DomainId} {c : DeadlineCounter} {s : State}
    (hc : c.running = true → inEpoch d s = true ∧ 0 < c.value) (h : EpochCore s) : EpochCore (setDeadline d c s) where
  keys := h.keys
  entries := h.entries
  slots := h.slots
  publication := h.publication
  write := h.write
  deadlines := fun e => by
    by_cases he : e = d
    · subst he
      unfold DeadlineFits
      rw [setDeadline_deadlines, vector_set_get, if_pos rfl]
      exact hc
    · exact deadlineFits_congr (s := s) rfl (by rw [setDeadline_deadlines]; exact deadlines_set_other he _ _)
        (h.deadlines e)

theorem move_keeps_core (s t : State) (m : Move s t) (h : EpochCore s) : EpochCore t := by
  cases m with
  | settings d word data new s _ _ =>
    exact EpochSame.core (s := s) ⟨fun e => modifyDomain_states (f := fun r => { r with settings := new })
      (fun _ => rfl) d e s, by simp, by simp, by simp, by simp,
      by simp⟩ h
  | publishGrant tag p e a s _ _ hturn _ => exact publishGrant_core hturn h
  | publishOk p s hp =>
    refine continuePass_core ?_ rfl (publishEntry_core hp h)
    exact (domainState_congr (by simp)).trans (h.publishEntry hp).1
  | publishEnd p s hp => exact continuePass_core (h.publishEntry hp).1 rfl (clearWrite_core h)
  | openDomain d s hd => exact enterOpen_core hd h
  | arm d s hd => exact arm_core hd h
  | startCommit d s hd => exact startPhase_core hd rfl h
  | startRollback d s hd => exact startPhase_core hd rfl h
  | publish d s hd => exact enterPublish_core hd h
  | discard d s hd hdrained => exact discardDomain_core hd hdrained h
  | lowerDeadline d s hv =>
    exact setDeadline_core (fun hr => ⟨(h.deadlines d hr).1, Nat.sub_pos_of_lt hv⟩) h
  | stopAtZero d s => exact setDeadline_core (fun hr => (nomatch hr)) h
  | createEntry d c f k s hd hfind hq hlen hf hk hev =>
    exact createEntry_core hd hk
      (move_keeps_keysUnique _ _ (.createEntry d c f k s hd hfind hq hlen hf hk hev) h.keys) h
  | copyDone k c c' s hc hsame =>
    obtain ⟨hw, ht, -, -⟩ := hsame
    rw [hw, ht]
    exact EpochSame.core (s := setSlot k none (setEntryState c.window c.tile .live s))
      (by apply epochSame_of_domains <;> simp) (copyDone_core hc h)
  | copyFailed k c c' e s hc hsame he =>
    obtain ⟨hw, ht, -, -⟩ := hsame
    rw [hw, ht] at he
    obtain ⟨-, hew, het⟩ := findChange_mem he
    refine copyFailed_core hc ?_ (by simp) (fun d => ?_) (by simp) (by simp) (by simp) h
    · simp [hew, het]
    · exact (domainState_congr (by simp)).trans
        (modifyDomain_states (f := fun r => { r with entryCount := r.entryCount - 1 }) (fun _ => rfl) e.domain d s)
  | copyLost k c c' s hc hsame he =>
    obtain ⟨hw, ht, -, -⟩ := hsame
    obtain ⟨e, hmem, -, hkey⟩ := h.slotEntry hc
    rw [hw, ht, findChange] at he
    exact absurd hkey (List.find?_eq_none.mp he e hmem)
  | copyGoesOn k c c' s hc hsame _ _ => exact copyGoesOn_core hc hsame h
  | endDrain s _ _ => exact core_of_nothing rfl rfl rfl rfl rfl rfl
  | hardReset cause line s => exact core_of_nothing rfl rfl rfl rfl rfl rfl
  | outside hf =>
    exact (epochSame_of_domains hf.domains hf.changes hf.slots hf.publication hf.publishWrite hf.deadlines).core h
  | _ => exact EpochSame.core (epochSame_of_domains (by simp) (by simp) (by simp) (by simp) (by simp) (by simp)) h

end Sys2Proof.Machine
end

