-- ==== Sys2Proof/Proofs/DrainConditions.lean ====
section
/-! SUPPORT. A domain waits in DRAIN only while its DRAIN condition does not hold (R69, R90): every event that can make a
condition hold tests it. -/

namespace Sys2Proof.Machine

/-! ## One domain's DRAIN condition -/

/-- What holds of one domain that waits in DRAIN (R69, R90). -/
structure DrainHeld (d : DomainId) (s : State) : Prop where
  commit : domainState d s = .committing .drain → commitDrained d s = false
  rollback : domainState d s = .rollingBack → rollbackDrained d s = false

theorem drainsHeld_iff (s : State) : DrainsHeld s ↔ ∀ d, DrainHeld d s :=
  forall_congr' fun _ => ⟨fun h => ⟨h.1, h.2⟩, fun h => ⟨h.commit, h.rollback⟩⟩

theorem drainHeld_of_state {d : DomainId} {s : State} (hc : domainState d s ≠ .committing .drain)
    (hr : domainState d s ≠ .rollingBack) : DrainHeld d s :=
  ⟨fun h => absurd h hc, fun h => absurd h hr⟩

/-- The domain's state is as it was, and its DRAIN conditions hold only if they held before. -/
structure DrainView (d : DomainId) (s t : State) : Prop where
  state : domainState d t = domainState d s
  commit : commitDrained d t = true → commitDrained d s = true
  rollback : rollbackDrained d t = true → rollbackDrained d s = true

theorem DrainView.trans {d : DomainId} {s t u : State} (h : DrainView d s t) (k : DrainView d t u) : DrainView d s u :=
  ⟨k.state.trans h.state, fun hc => h.commit (k.commit hc), fun hr => h.rollback (k.rollback hr)⟩

theorem DrainView.held {d : DomainId} {s t : State} (k : DrainView d s t) (h : DrainHeld d s) : DrainHeld d t := by
  refine ⟨fun hc => Bool.eq_false_iff.mpr fun ht => ?_, fun hr => Bool.eq_false_iff.mpr fun ht => ?_⟩
  · exact Bool.false_ne_true ((h.commit (k.state ▸ hc)).symm.trans (k.commit ht))
  · exact Bool.false_ne_true ((h.rollback (k.state ▸ hr)).symm.trans (k.rollback ht))

theorem rollbackDrained_congr {d : DomainId} {s t : State} (he : entriesOf d t = entriesOf d s)
    (ht : t.transit = s.transit) : rollbackDrained d t = rollbackDrained d s := by
  simp only [rollbackDrained, he, ht]

theorem drainView_of_entries {d : DomainId} {s t : State} (hd : domainState d t = domainState d s)
    (he : entriesOf d t = entriesOf d s) (ht : t.transit = s.transit) : DrainView d s t :=
  ⟨hd, fun h => commitDrained_congr he ht ▸ h, fun h => rollbackDrained_congr he ht ▸ h⟩

theorem drainView_of_eq {s t : State} (hd : t.domains = s.domains) (hc : t.changes = s.changes)
    (ht : t.transit = s.transit) (d : DomainId) : DrainView d s t :=
  drainView_of_entries (domainState_congr hd) (entriesOf_congr d hc) ht

theorem DomainKept.drainView {d : DomainId} {s t : State} (h : DomainKept d s t) (ht : t.transit = s.transit) :
    DrainView d s t :=
  drainView_of_entries (congrArg DomainRecord.state h.record) h.entries ht

theorem StillFrame.drainView {s t : State} (h : StillFrame s t) (d : DomainId) : DrainView d s t :=
  drainView_of_entries (h.states d) (entriesOf_congr d h.changes) h.transit

theorem commitDrained_iff (d : DomainId) (s : State) : commitDrained d s = true ↔
    (∀ e ∈ s.changes, e.domain = d → isCopying e = false) ∧
      ∀ e ∈ s.transit, e.kind = .write → e.domain ≠ some d := by
  simp [commitDrained, mem_entriesOf]

theorem rollbackDrained_iff (d : DomainId) (s : State) : rollbackDrained d s = true ↔
    (∀ e ∈ s.changes, e.domain = d → isCopying e = false) ∧ ∀ e ∈ s.transit, e.domain ≠ some d := by
  simp [rollbackDrained, mem_entriesOf]

/-- Entries that have come in to the Change Table or the Transit Table make no DRAIN condition hold. -/
theorem drainView_of_more {s t : State} (hd : ∀ d, domainState d t = domainState d s)
    (hc : ∀ e ∈ s.changes, e ∈ t.changes) (ht : ∀ e ∈ s.transit, e ∈ t.transit) (d : DomainId) : DrainView d s t := by
  refine ⟨hd d, fun h => ?_, fun h => ?_⟩
  · obtain ⟨hcopy, hwrite⟩ := (commitDrained_iff d t).mp h
    exact (commitDrained_iff d s).mpr ⟨fun e he => hcopy e (hc e he), fun e he => hwrite e (ht e he)⟩
  · obtain ⟨hcopy, hwrite⟩ := (rollbackDrained_iff d t).mp h
    exact (rollbackDrained_iff d s).mpr ⟨fun e he => hcopy e (hc e he), fun e he => hwrite e (ht e he)⟩

/-! ## The tests -/

theorem endPass_held (d : DomainId) (s : State) : DrainHeld d (endPass d s) := by
  unfold endPass
  split
  · exact drainHeld_of_state (by rw [domainState_enterFaulted]; simp) (by rw [domainState_enterFaulted]; simp)
  · have state := domainState_releaseDomain d s
    exact drainHeld_of_state (by rw [state]; split <;> simp) (by rw [state]; split <;> simp)

theorem enterPublish_held (d : DomainId) (s : State) : DrainHeld d (enterPublish d s) := by
  unfold enterPublish
  split
  · have state := domainState_startPhase d (.committing .publish) s
    exact drainHeld_of_state (fun h => nomatch state.symm.trans h) fun h => nomatch state.symm.trans h
  · exact endPass_held d _

theorem discardDomain_held (d : DomainId) (s : State) : DrainHeld d (discardDomain d s) :=
  drainHeld_of_state (by rw [domainState_discardDomain]; simp) (by rw [domainState_discardDomain]; simp)

theorem testCommitDrain_held {d : DomainId} {s : State} (h : domainState d s = .committing .drain) :
    DrainHeld d (testCommitDrain d s) := by
  unfold testCommitDrain
  split
  · exact enterPublish_held d _
  · rename_i hnot
    exact ⟨fun _ => Bool.eq_false_iff.mpr fun hdrained => hnot ⟨h, hdrained⟩, fun hr => (nomatch h.symm.trans hr)⟩

theorem testRollbackDrain_held {d : DomainId} {s : State} (h : domainState d s = .rollingBack) :
    DrainHeld d (testRollbackDrain d s) := by
  unfold testRollbackDrain
  split
  · exact discardDomain_held d _
  · rename_i hnot
    exact ⟨fun hc => (nomatch h.symm.trans hc), fun _ => Bool.eq_false_iff.mpr fun hdrained => hnot ⟨h, hdrained⟩⟩

/-- After a test of a domain's DRAIN condition the domain does not wait for a condition that holds. -/
theorem testDrain_held (d : DomainId) (s : State) : DrainHeld d (testDrain d s) := by
  unfold testDrain
  split
  · exact testCommitDrain_held ‹_›
  · exact testRollbackDrain_held ‹_›
  all_goals rename_i h; exact drainHeld_of_state (by rw [h]; simp) (by rw [h]; simp)

theorem testRollbackDrain_keeps {d e : DomainId} (h : e ≠ d) (s : State) : DomainKept d s (testRollbackDrain e s) := by
  unfold testRollbackDrain
  split
  · exact discardDomain_keeps h s
  · exact .refl d s

theorem testDrain_keeps {d e : DomainId} (h : e ≠ d) (s : State) : DomainKept d s (testDrain e s) := by
  unfold testDrain
  split
  · exact testCommitDrain_keeps h s
  · exact testRollbackDrain_keeps h s
  all_goals exact .refl d s

/-! ## Control moves and requests -/

/-- A change of one domain: the others keep their DRAIN conditions. -/
theorem drainHeld_of_reached (d : DomainId) {s t : State} (hother : ∀ e : DomainId, d ≠ e → DomainKept e s t)
    (ht : t.transit = s.transit) (hd : DrainHeld d t) (h : ∀ e, DrainHeld e s) (e : DomainId) : DrainHeld e t := by
  by_cases hde : d = e
  · exact hde ▸ hd
  · exact ((hother e hde).drainView ht).held (h e)

theorem controlMove_keeps_drains (s t : State) (m : ControlMove s t) (h : ∀ d, DrainHeld d s) (d : DomainId) :
    DrainHeld d t := by
  have transit := m.frame.transit
  cases m with
  | still hf => exact (hf.drainView d).held (h d)
  | openDomain e s _ =>
    refine drainHeld_of_reached e (fun _ hne => enterOpen_keeps hne s) transit (drainHeld_of_state ?_ ?_) h d
    · rw [domainState_enterOpen]; simp
    · rw [domainState_enterOpen]; simp
  | arm e s _ =>
    refine drainHeld_of_reached e (fun _ hne => setDomainState_keeps hne s _) transit (drainHeld_of_state ?_ ?_) h d
    · rw [setDomainState_same]; simp
    · rw [setDomainState_same]; simp
  | commit e s _ =>
    exact drainHeld_of_reached e (fun _ hne => enterCommit_keeps hne s) transit
      (testCommitDrain_held (domainState_startPhase ..)) h d
  | republish e s _ =>
    exact drainHeld_of_reached e (fun _ hne => enterPublish_keeps hne s) transit (enterPublish_held e s) h d
  | rollback e s _ =>
    exact drainHeld_of_reached e (fun _ hne => (startPhase_keeps hne s .rollingBack).trans
      (testRollbackDrain_keeps hne _)) transit (testRollbackDrain_held (domainState_startPhase ..)) h d

theorem controlMoves_keep_drains {s t : State} (m : ControlMoves s t) (h : ∀ d, DrainHeld d s) (d : DomainId) :
    DrainHeld d t :=
  ControlMoves.keeps (P := fun s => ∀ d, DrainHeld d s) controlMove_keeps_drains m h d

theorem createEntry_states (d e : DomainId) (c : CacheEntry) (f : Frame) (k : SlotId) (s : State) :
    domainState e (createEntry d c f k s) = domainState e s := by
  rw [domainState, createEntry_domains, vector_set_get]
  split
  · rename_i hde; subst hde; rfl
  · rfl

theorem settle_keeps_drains (r : Request) (dec : Decoded) {s : State} (h : ∀ d, DrainHeld d s) (d : DomainId) :
    DrainHeld d (settle r dec s).2 := by
  have settled := settle_settled r dec s
  rcases hs : settle r dec s with ⟨result, u⟩
  rw [hs] at settled
  cases settled with
  | issued targets _ _ =>
    refine (drainView_of_more (s := s) (t := claimEntries r dec.region targets s) (fun _ => rfl) (fun _ he => he)
      (fun e he => ?_) d).held (h d)
    rw [claimEntries_transit]
    exact List.mem_append_left _ he
  | refused code => exact controlMoves_keep_drains (refuseTranslated_control r dec.region code s) h d
  | noRoom _ => exact h d
  | waits e reason t _ hw =>
    cases hw with
    | walk w tile => exact (drainView_of_eq (by simp) (by simp) (by simp) d).held (h d)
    | created c f k _ _ _ _ _ _ =>
      refine (drainView_of_more (createEntry_states e · c f k s) (fun x hx => ?_) (fun x hx => ?_) d).held (h d)
      · rw [createEntry_changes]
        exact List.mem_append_left _ hx
      · rw [createEntry_transit]
        exact hx
    | _ => exact h d

theorem leaveRank_keeps_drains (n : Nat) (k : Rank) {s : State} (h : ∀ d, DrainHeld d s) (d : DomainId) :
    DrainHeld d (leaveRank n k s) := by
  have settled := settle_keeps_drains k.request k.decoded h d
  unfold leaveRank
  split
  · rename_i hs
    rw [hs] at settled
    exact (drainView_of_eq (freeRank_domains ..) (freeRank_changes ..) (freeRank_transit ..) d).held settled
  · rename_i hs
    rw [hs] at settled
    exact (drainView_of_eq (parkAgain_domains ..) (parkAgain_changes ..) (parkAgain_transit ..) d).held settled

theorem addRank_drainView (k : Rank) (s : State) (d : DomainId) : DrainView d s (addRank k s) :=
  drainView_of_eq (addRank_domains ..) (addRank_changes ..) (addRank_transit ..) d

theorem takeIn_keeps_drains (r : Request) (dec : Decoded) {s : State} (h : ∀ d, DrainHeld d s) (d : DomainId) :
    DrainHeld d (takeIn r dec s) := by
  have settled := settle_keeps_drains r dec h d
  unfold takeIn
  split
  · exact (addRank_drainView _ s d).held (h d)
  split
  · rename_i hs
    rw [hs] at settled
    exact settled
  · rename_i hs
    rw [hs] at settled
    exact (addRank_drainView _ _ d).held settled

theorem arrive_keeps_drains (r : Request) {s : State} (h : ∀ d, DrainHeld d s) (d : DomainId) :
    DrainHeld d (arrive r s) := by
  unfold arrive
  split
  · exact controlMoves_keep_drains (refuseIntake_control r _ s) h d
  · exact takeIn_keeps_drains r _ (fun e => ((snoopInvalidate_still r s).drainView e).held (h e)) d
  · exact h d

/-! ## Grants -/

theorem sendOldest_same (tag : LinkTag) (f : TransitEntry → Bool)
    (hf : ∀ e : TransitEntry, ∀ st, f { e with state := st } = f e) (es : List TransitEntry) :
    (sendOldest tag es).any f = es.any f := by
  induction es with
  | nil => rfl
  | cons e es ih =>
    rw [sendOldest]
    split
    · rw [List.any_cons, List.any_cons, hf]
    · rw [List.any_cons, List.any_cons, ih]

theorem grant_drainView (tag : LinkTag) (q : Requester) (s : State) (d : DomainId) : DrainView d s (grant tag s q) := by
  have same : ∀ {t : State}, t.domains = s.domains → t.changes = s.changes → t.transit = s.transit → DrainView d s t :=
    fun hd hc ht => drainView_of_eq hd hc ht d
  cases q with
  | mapWalker =>
    simp only [grant, grantWalker]
    split
    · exact same rfl rfl rfl
    split
    · exact same rfl rfl rfl
    · exact same rfl rfl rfl
  | forwarded =>
    simp only [grant, grantForwarded]
    split
    · exact same rfl rfl rfl
    · refine ⟨rfl, fun h => ?_, fun h => ?_⟩
      · rw [← h]
        simp only [commitDrained, sendOperation_transit]
        rw [sendOldest_same tag _ fun _ _ => rfl]
        rfl
      · rw [← h]
        simp only [rollbackDrained, sendOperation_transit]
        rw [sendOldest_same tag _ fun _ _ => rfl]
        rfl
  | copySlot k =>
    simp only [grant, grantSlot]
    split
    · exact same rfl rfl rfl
    split
    · exact same rfl rfl rfl
    · exact same rfl rfl rfl

/-! ## Completions -/

theorem drainHeld_of_reset {t : State} (h : t.domains = Vector.replicate 4 .reset) (d : DomainId) : DrainHeld d t := by
  have closed : domainState d t = .closed := by rw [domainState, h, vector_replicate_get]; rfl
  exact drainHeld_of_state (by rw [closed]; simp) (by rw [closed]; simp)

theorem endDrainIfDone_held {d : DomainId} {s : State} (h : DrainHeld d s) : DrainHeld d (endDrainIfDone s) := by
  unfold endDrainIfDone
  split
  · exact drainHeld_of_reset rfl d
  · exact h

theorem completeWalk_drainView (j : WalkJob) (status : Completion) (entry : Beat) (s : State) (d : DomainId) :
    DrainView d s (completeWalk j status entry s) := by
  unfold completeWalk
  dsimp only
  split
  · split
    · exact drainView_of_eq (by simp [walkFill]) (by simp [walkFill]) (by simp [walkFill]) d
    · exact DrainView.trans (t := answerRanks (parkedOn (.walk j.window j.tile)) .refused _)
        (drainView_of_eq (by simp) (by simp) (by simp) d) ((reportFaults_still _ _).drainView d)
  · exact drainView_of_eq (by simp [walkFailed]) (by simp [walkFailed]) (by simp [walkFailed]) d

/-- The entries of a domain are as they were when the state of an entry of another domain is set. -/
theorem entriesOf_setEntryState_other {d : DomainId} {w : WindowId} {tile : Nat} {st : EntryState} {s : State}
    (h : ∀ e ∈ s.changes, changeKey w tile e = true → e.domain ≠ d) :
    entriesOf d (setEntryState w tile st s) = entriesOf d s := by
  rw [entriesOf_setEntryState]
  refine (List.map_congr_left fun e he => if_neg fun hkey => ?_).trans (List.map_id _)
  obtain ⟨hmem, hd⟩ := mem_entriesOf.mp he
  exact h e hmem hkey hd

theorem publishOutcome_drainView {p : PublishWrite} (status : Completion) {s : State} {d : DomainId}
    (h : ∀ e ∈ s.changes, changeKey p.window p.tile e = true → e.domain ≠ d) :
    DrainView d s (publishOutcome p status s) := by
  unfold publishOutcome
  split
  · split
    · exact drainView_of_entries (domainState_congr (by simp))
        ((entriesOf_congr d (publishToCache_changes ..)).trans (entriesOf_setEntryState_other h)) (by simp)
    · exact drainView_of_eq rfl rfl rfl d
  · exact (reportFault_still _ s).drainView d

theorem continuePass_keeps {d e : DomainId} (h : e ≠ d) (s : State) : DomainKept d s (continuePass e s) := by
  unfold continuePass
  split
  · exact .refl d s
  · exact DomainKept.trans (t := { s with publication := s.publication.filter fun p => !decide (p.domain = e) })
      ⟨rfl, rfl⟩ (endPass_keeps h _)

theorem publishOutcome_domains (p : PublishWrite) (status : Completion) (s : State) :
    (publishOutcome p status s).domains = s.domains := by
  unfold publishOutcome
  split
  · split <;> simp
  · simp

theorem continuePass_held {d : DomainId} {s : State} (h : domainState d s = .committing .publish) :
    DrainHeld d (continuePass d s) := by
  unfold continuePass
  split
  · exact drainHeld_of_state (by rw [h]; simp) (by rw [h]; simp)
  · exact endPass_held d _

theorem publishWrite_keeps_drains {p : PublishWrite} (status : Completion) {s : State} (core : EpochCore s)
    (hp : s.publishWrite = some p) (h : ∀ d, DrainHeld d s) (d : DomainId) :
    DrainHeld d (continuePass p.domain (publishOutcome p status { s with publishWrite := none })) := by
  obtain ⟨hstate, x, hx, hxw, hxt, hxd, -⟩ := core.publishEntry hp
  by_cases hd : p.domain = d
  · subst hd
    exact continuePass_held ((domainState_congr (publishOutcome_domains ..)).trans hstate)
  · have outcome := publishOutcome_drainView (p := p) (d := d) (s := { s with publishWrite := none }) status
      fun e he hkey => by
        rw [core.entry_unique he hx hkey (changeKey_iff.mpr ⟨hxw, hxt⟩), hxd]
        exact hd
    have cleared : DrainView d s { s with publishWrite := none } :=
      drainView_of_eq (s := s) (t := { s with publishWrite := none }) rfl rfl rfl d
    refine ((cleared.trans outcome).trans ((continuePass_keeps hd _).drainView ?_)).held (h d)
    exact (continuePass_portKept ..).transit

/-- The entries of a tile belong to the domain of the entry found. -/
theorem domain_of_findChange {w : WindowId} {tile : Nat} {s : State} {e : ChangeEntry} (core : EpochCore s)
    (h : findChange w tile s = some e) {x : ChangeEntry} (hx : x ∈ s.changes) (hkey : changeKey w tile x = true) :
    x.domain = e.domain := by
  obtain ⟨hmem, htile⟩ := findChange_mem h
  rw [core.entry_unique hx hmem hkey (changeKey_iff.mpr htile)]

theorem completeCopy_keeps_drains (k : SlotId) (c : CopyJob) {s : State} (core : EpochCore s)
    (h : ∀ d, DrainHeld d s) (d : DomainId) : DrainHeld d (completeCopy k c s) := by
  have entries : (∀ x ∈ s.changes, changeKey c.window c.tile x = true → x.domain ≠ d) →
      DrainView d s (endWaits (parkedOn .slot) (endWaits (parkedOn (.copy c.window c.tile))
        (setSlot k none (setEntryState c.window c.tile .live s)))) := fun hx =>
    drainView_of_entries (domainState_congr (by simp))
      ((entriesOf_congr d ((endWaits_changes ..).trans ((endWaits_changes ..).trans (setSlot_changes ..)))).trans
        (entriesOf_setEntryState_other hx)) (by simp)
  unfold completeCopy
  dsimp only
  split
  · rename_i e he
    by_cases hd : e.domain = d
    · rw [hd]
      exact testDrain_held d _
    · refine ((entries fun x hx hkey => ?_).trans ((testDrain_keeps hd _).drainView (testDrain_frame ..).transit)).held
        (h d)
      rw [domain_of_findChange core he hx hkey]
      exact hd
  · rename_i hnone
    exact (entries fun x hx hkey => absurd hkey (List.find?_eq_none.mp hnone x hx)).held (h d)

theorem removeEntry_keeps {d : DomainId} {e : ChangeEntry} {s : State} (core : EpochCore s) (he : e ∈ s.changes)
    (hd : e.domain ≠ d) : DomainKept d s (removeEntry e s) := by
  refine ⟨by rw [removeEntry_domains, vector_set_get, if_neg hd], ?_⟩
  rw [entriesOf, removeEntry_changes, entriesOf]
  obtain ⟨before, x, after, hx, hsplit, herase⟩ : ∃ before x after, changeKey e.window e.tile x = true ∧
      s.changes = before ++ x :: after ∧ s.changes.eraseP (changeKey e.window e.tile) = before ++ after := by
    obtain ⟨x, before, after, -, hx, hsplit, herase⟩ :=
      List.exists_of_eraseP he (changeKey_iff.mpr ⟨rfl, rfl⟩ : changeKey e.window e.tile e = true)
    exact ⟨before, x, after, hx, hsplit, herase⟩
  have same : x = e := core.entry_unique (by rw [hsplit]; simp) he hx (changeKey_iff.mpr ⟨rfl, rfl⟩)
  rw [herase, hsplit, List.filter_append, List.filter_append, List.filter_cons_of_neg]
  rw [same]
  simpa using hd

theorem failCopy_keeps_drains (k : SlotId) (c : CopyJob) {s : State} (core : EpochCore s)
    (h : ∀ d, DrainHeld d s) (d : DomainId) : DrainHeld d (failCopy k c s) := by
  unfold failCopy
  split
  · rename_i e he
    dsimp only
    by_cases hd : e.domain = d
    · rw [hd]
      exact testDrain_held d _
    · refine DrainView.held (s := s) ?_ (h d)
      have removed := (removeEntry_keeps core (findChange_mem he).1 hd).drainView (removeEntry_transit s e)
      exact (removed.trans (drainView_of_eq (by simp) (by simp) (by simp) d)).trans
        ((testDrain_keeps hd _).drainView (testDrain_frame ..).transit)
  · exact (drainView_of_eq (by simp) (by simp) (by simp) d).held (h d)

theorem stopCopy_keeps_drains (k : SlotId) (c : CopyJob) {s : State} (core : EpochCore s)
    (h : ∀ d, DrainHeld d s) (d : DomainId) : DrainHeld d (stopCopy k c s) := by
  unfold stopCopy
  split
  · exact failCopy_keeps_drains k c core h d
  · exact (drainView_of_eq (by simp) (by simp) (by simp) d).held (h d)

theorem completeChunk_keeps_drains (k : SlotId) (c : CopyJob) (tag : LinkTag) (x : ChunkInProgress)
    (status : Completion) (data : Chunk) {s : State} (core : EpochCore s) (h : ∀ d, DrainHeld d s) (d : DomainId) :
    DrainHeld d (completeChunk k c tag x status data s) := by
  have set : ∀ o, DrainHeld d (setSlot k o s) := fun o =>
    (drainView_of_eq (by simp) (by simp) (by simp) d).held (h d)
  unfold completeChunk
  split
  · exact stopCopy_keeps_drains k _ core h d
  split
  · exact stopCopy_keeps_drains k _ core h d
  split
  · exact set _
  · dsimp only
    split
    · exact completeCopy_keeps_drains k _ core h d
    · exact set _
  all_goals exact h d

theorem any_eraseP_of_find {α : Type} {p q : α → Bool} {l : List α} {a : α} (h : l.find? p = some a) (hq : q a = false) :
    (l.eraseP p).any q = l.any q := by
  obtain ⟨hp, before, after, rfl, hbefore⟩ := List.find?_eq_some_iff_append.mp h
  rw [List.eraseP_append_right _ fun x hx => by simpa using hbefore x hx, List.eraseP_cons_of_pos hp]
  simp [hq]

/-- The state of a forwarded operation's completion before the Epoch Unit is told. -/
def transitAnswered (e : TransitEntry) (tag : LinkTag) (status : Completion) (beats : List Beat) (s : State) : State :=
  endWaits (parkedOn .transit)
    (answerPiece e status beats (reportMemory e status { s with transit := s.transit.eraseP (sentUnder tag) }))

theorem completeTransit_eq (e : TransitEntry) (tag : LinkTag) (status : Completion) (beats : List Beat) (s : State) :
    completeTransit e tag status beats s = tellFreed e (transitAnswered e tag status beats s) := rfl

theorem answerPiece_still (e : TransitEntry) (status : Completion) (beats : List Beat) (s : State) :
    StillFrame s (answerPiece e status beats s) := by
  unfold answerPiece
  split
  · apply stillFrame_of_domains <;> rfl
  · apply stillFrame_of_domains <;> rfl

theorem transitAnswered_kept (e : TransitEntry) (tag : LinkTag) (status : Completion) (beats : List Beat) (s : State) :
    (∀ d, domainState d (transitAnswered e tag status beats s) = domainState d s) ∧
      (transitAnswered e tag status beats s).changes = s.changes ∧
      (transitAnswered e tag status beats s).transit = s.transit.eraseP (sentUnder tag) := by
  have reported := reportMemory_still e status { s with transit := s.transit.eraseP (sentUnder tag) }
  have answered := answerPiece_still e status beats (reportMemory e status
    { s with transit := s.transit.eraseP (sentUnder tag) })
  refine ⟨fun d => ?_, ?_, ?_⟩
  · exact (domainState_congr (endWaits_domains ..)).trans ((answered.states d).trans (reported.states d))
  · exact (endWaits_changes ..).trans (answered.changes.trans reported.changes)
  · exact (endWaits_transit ..).trans (answered.transit.trans reported.transit)

/-- What the Epoch Unit is told of a freed transit entry reaches no other domain. -/
theorem tellFreed_keeps {d : DomainId} {e : TransitEntry} (h : e.domain ≠ some d) (s : State) :
    DomainKept d s (tellFreed e s) := by
  unfold tellFreed
  split
  · exact .refl d s
  · rename_i d' hd'
    have hne : d' ≠ d := fun he => h (by rw [hd', he])
    split
    · exact testDrain_keeps hne s
    · exact testRollbackDrain_keeps hne s

theorem completeTransit_keeps_drains {e : TransitEntry} {tag : LinkTag} (status : Completion) (beats : List Beat)
    {s : State} (he : s.transit.find? (sentUnder tag) = some e) (h : ∀ d, DrainHeld d s) (d : DomainId) :
    DrainHeld d (completeTransit e tag status beats s) := by
  obtain ⟨hstates, hchanges, htransit⟩ := transitAnswered_kept e tag status beats s
  rw [completeTransit_eq]
  have entries := entriesOf_congr d hchanges
  have commit : (e.kind = .read ∨ e.domain ≠ some d) →
      commitDrained d (transitAnswered e tag status beats s) = commitDrained d s := fun hq => by
    simp only [commitDrained, entries, htransit]
    rw [any_eraseP_of_find he]
    obtain hr | hd := hq
    · simp [hr]
    · simp [hd]
  by_cases hd : e.domain = some d
  · unfold tellFreed
    rw [hd]
    dsimp only
    split
    · exact testDrain_held d _
    · rename_i hread
      by_cases hroll : domainState d (transitAnswered e tag status beats s) = .rollingBack
      · exact testRollbackDrain_held hroll
      · rw [testRollbackDrain, if_neg fun hc => hroll hc.1]
        exact ⟨fun hc => (commit (.inl hread)).trans ((h d).commit (hstates d ▸ hc)), fun hr => absurd hr hroll⟩
  · have answered : DrainView d s (transitAnswered e tag status beats s) := by
      refine ⟨hstates d, fun hc => commit (.inr hd) ▸ hc, fun hr => ?_⟩
      rw [← hr]
      simp only [rollbackDrained, entries, htransit]
      rw [any_eraseP_of_find he]
      simp [hd]
    exact (answered.trans ((tellFreed_keeps hd _).drainView (tellFreed_frame e _).transit)).held (h d)

/-! ## Every event -/

theorem event_keeps_drains (s t : State) (e : Event s t) (core : EpochCore s) (h : ∀ d, DrainHeld d s) (d : DomainId) :
    DrainHeld d t := by
  cases e with
  | control hc => exact controlMoves_keep_drains hc h d
  | hardReset cause line => exact drainHeld_of_reset rfl d
  | arrival r _ => exact arrive_keeps_drains r h d
  | leave n k _ _ => exact leaveRank_keeps_drains n k h d
  | grant tag q _ => exact (grant_drainView tag q s d).held (h d)
  | abandonedReturns tag => exact (drainView_of_eq (s := s) (t := dropAbandoned tag s) rfl rfl rfl d).held (h d)
  | walk tag j status entry _ => exact endDrainIfDone_held ((completeWalk_drainView j status entry s d).held (h d))
  | publishWrite p status hp => exact endDrainIfDone_held (publishWrite_keeps_drains status core hp h d)
  | chunk tag k c x status data _ =>
    refine endDrainIfDone_held (DrainView.held ?_ (completeChunk_keeps_drains k c tag x status data core h d))
    exact drainView_of_eq (settleStarvation_domains ..) (settleStarvation_changes ..) (settleStarvation_transit ..) d
  | forwarded tag e status beats he =>
    exact endDrainIfDone_held (completeTransit_keeps_drains status beats he h d)
  | resetAll _ =>
    exact endDrainIfDone_held ((drainView_of_eq (by simp) (by simp) (by simp) d).held (h d))
  | drainEnd => exact endDrainIfDone_held (h d)

theorem epochCore_pending {s : State} (cs : List Instr) (h : EpochCore s) : EpochCore { s with pending := cs } :=
  EpochSame.core (s := s) ⟨fun _ => rfl, rfl, rfl, rfl, rfl, rfl⟩ h

theorem step_keeps_core {s t : State} (h : step s = .next t) (hs : EpochCore s) : EpochCore t :=
  step_keeps move_keeps_core h hs

theorem step_keeps_epochSound {s t : State} (h : step s = .next t) (hs : EpochSound s) : EpochSound t := by
  rw [epochSound_iff, drainsHeld_iff] at hs ⊢
  obtain ⟨core, drains⟩ := hs
  refine ⟨step_keeps_core h core, fun d => event_keeps_drains _ t (step_event h) (epochCore_pending _ core)
    (fun e => (drainView_of_eq (s := s) (t := { s with pending := s.pending.tail }) rfl rfl rfl e).held (drains e)) d⟩

/-- Settles O57: the agreement is kept by every move, and the DRAIN conditions by every event. -/
theorem epochUnitKept : Obligations.EpochUnitKept := fun _ _ hs h => step_keeps_epochSound h hs

end Sys2Proof.Machine
end

