-- ==== Sys2Proof/Proofs/WaitsBacked.lean ====
section
/-! SUPPORT. What a parked request waits for stays in being (Table 7-2, R121, R122): an event that takes it away ends the
wait. -/

namespace Sys2Proof.Machine

/-! ## What a wait rests on -/

/-- What a wait with a reason, of a request in a region, rests on. A wait with ORDER rests on the queue's order. -/
def ReasonHolds (s : State) (region : Region) : WaitReason → Prop
  | .walk w tile => ∃ j ∈ s.walkJobs, j.window = w ∧ j.tile = tile
  | .copy w tile => ∃ e ∈ s.changes, e.window = w ∧ e.tile = tile ∧ isCopying e = true
  | .slot => ∀ k : SlotId, s.slots[k].isSome = true
  | .domain => ∃ d, regionDomain region = some d ∧
      ((∃ phase, domainState d s = .committing phase) ∨ domainState d s = .rollingBack)
  | .transit => s.transit ≠ []
  | .order => True

/-- What a rank waits for, but for ORDER, is in being. -/
def RankHolds (s : State) (k : Rank) : Prop := ∀ reason, k.state = .parked reason → ReasonHolds s k.decoded.region reason

/-- A rank parked with ORDER stands behind the oldest of its initiator (R120). -/
theorem order_backed {s : State} (h : RanksFit s) {k : Rank} (hk : k ∈ s.ranks) :
    ∃ j ∈ s.ranks, j.request.initiator = k.request.initiator ∧ parkedOn .order j = false := by
  have inOrder := h.inOrder k.request.initiator
  have mem : k ∈ queueOf k.request.initiator s.ranks := mem_queueOf.mpr ⟨hk, rfl⟩
  cases hq : queueOf k.request.initiator s.ranks with
  | nil => rw [hq] at mem; exact absurd mem List.not_mem_nil
  | cons j js =>
    rw [hq] at inOrder
    obtain ⟨hj, hinit⟩ := mem_queueOf.mp (hq ▸ List.mem_cons_self : j ∈ queueOf k.request.initiator s.ranks)
    exact ⟨j, hj, hinit, inOrder.1⟩

theorem waitBacked_iff {s : State} (h : RanksFit s) {k : Rank} (hk : k ∈ s.ranks) :
    waitBacked s k ↔ RankHolds s k := by
  unfold waitBacked RankHolds
  cases hstate : k.state with
  | eligible => exact iff_of_true trivial fun _ hr => nomatch hr
  | parked reason =>
    have at_reason : (∀ r, RankState.parked reason = .parked r → ReasonHolds s k.decoded.region r) ↔
        ReasonHolds s k.decoded.region reason := ⟨fun hr => hr reason rfl, fun hr r heq => by cases heq; exact hr⟩
    rw [at_reason]
    cases reason with
    | order => exact iff_of_true (order_backed h hk) trivial
    | _ => exact Iff.rfl

theorem waitsBacked_iff {s : State} (h : RanksFit s) : WaitsBacked s ↔ ∀ k ∈ s.ranks, RankHolds s k :=
  forall₂_congr fun _ hk => waitBacked_iff h hk

/-! ## Waits over a change -/

/-- A rank after a change is one from before, ELIGIBLE or with its wait as it was and still in being. -/
structure RankKept (s t : State) (k k' : Rank) : Prop where
  request : k'.request = k.request
  decoded : k'.decoded = k.decoded
  state : k'.state = .eligible ∨ (k'.state = k.state ∧ (RankHolds s k → RankHolds t k'))

/-- Every rank after a change is one from before, ELIGIBLE or with its wait still in being. -/
def WaitsKept (s t : State) : Prop := ∀ k' ∈ t.ranks, ∃ k ∈ s.ranks, RankKept s t k k'

theorem rankHolds_of_eligible {s : State} {k : Rank} (h : k.state = .eligible) : RankHolds s k :=
  fun _ hr => nomatch h.symm.trans hr

theorem RankKept.holds {s t : State} {k k' : Rank} (h : RankKept s t k k') (hk : RankHolds s k) : RankHolds t k' := by
  obtain he | ⟨-, hkept⟩ := h.state
  · exact rankHolds_of_eligible he
  · exact hkept hk

theorem WaitsKept.trans {s t u : State} (h : WaitsKept s t) (k : WaitsKept t u) : WaitsKept s u := by
  intro c hc
  obtain ⟨b, hb, hbc⟩ := k c hc
  obtain ⟨a, ha, hab⟩ := h b hb
  refine ⟨a, ha, hbc.request.trans hab.request, hbc.decoded.trans hab.decoded, ?_⟩
  obtain he | ⟨hsame, hkept⟩ := hbc.state
  · exact .inl he
  · obtain hbe | ⟨hab', hbkept⟩ := hab.state
    · exact .inl (hsame.trans hbe)
    · exact .inr ⟨hsame.trans hab', fun ha => hkept (hbkept ha)⟩

/-- A queue that is as it was, with every reason that held still holding. -/
theorem waitsKept_of_reasons {s t : State} (hr : t.ranks = s.ranks)
    (h : ∀ region reason, ReasonHolds s region reason → ReasonHolds t region reason) : WaitsKept s t := by
  intro k hk
  exact ⟨k, hr ▸ hk, rfl, rfl, .inr ⟨rfl, fun hold reason hstate => h _ _ (hold reason hstate)⟩⟩

/-- A queue in which the ranks that `p` selects become ELIGIBLE, with every other reason still holding. -/
theorem waitsKept_of_wake {p : Rank → Bool} {s t : State} (hr : t.ranks = s.ranks.map (wake p))
    (h : ∀ k, p k = false → RankHolds s k → RankHolds t k) : WaitsKept s t := by
  intro k' hk'
  rw [hr] at hk'
  obtain ⟨k, hk, rfl⟩ := List.mem_map.mp hk'
  refine ⟨k, hk, ?_⟩
  unfold wake
  split
  · exact ⟨rfl, rfl, .inl rfl⟩
  · rename_i hp
    exact ⟨rfl, rfl, .inr ⟨rfl, h k (Bool.eq_false_iff.mpr hp)⟩⟩

theorem waitsKept_of_none {s t : State} (h : t.ranks = []) : WaitsKept s t := by
  intro k hk
  rw [h] at hk
  exact absurd hk List.not_mem_nil

/-- Whatever the reasons look at is as it was, or more of it. -/
structure ReasonsGrow (s t : State) : Prop where
  walks : ∀ j ∈ s.walkJobs, ∃ i ∈ t.walkJobs, i.window = j.window ∧ i.tile = j.tile
  copies : ∀ e ∈ s.changes, isCopying e = true → ∃ x ∈ t.changes, x.window = e.window ∧ x.tile = e.tile ∧ isCopying x = true
  slots : ∀ k : SlotId, s.slots[k].isSome = true → t.slots[k].isSome = true
  states : ∀ d, domainState d t = domainState d s
  transit : s.transit ≠ [] → t.transit ≠ []

theorem ReasonsGrow.reason {s t : State} (h : ReasonsGrow s t) (region : Region) (reason : WaitReason)
    (hr : ReasonHolds s region reason) : ReasonHolds t region reason := by
  cases reason with
  | walk w tile =>
    obtain ⟨j, hj, rfl, rfl⟩ := hr
    exact h.walks j hj
  | copy w tile =>
    obtain ⟨e, he, rfl, rfl, hc⟩ := hr
    exact h.copies e he hc
  | slot => exact fun k => h.slots k (hr k)
  | domain =>
    obtain ⟨d, hd, hstate⟩ := hr
    exact ⟨d, hd, by rw [h.states]; exact hstate⟩
  | transit => exact h.transit hr
  | order => trivial

theorem reasonsGrow_of_eq {s t : State} (h₁ : t.walkJobs = s.walkJobs) (h₂ : t.changes = s.changes)
    (h₃ : t.slots = s.slots) (h₄ : ∀ d, domainState d t = domainState d s) (h₅ : t.transit = s.transit) :
    ReasonsGrow s t where
  walks := fun j hj => ⟨j, h₁ ▸ hj, rfl, rfl⟩
  copies := fun e he hc => ⟨e, h₂ ▸ he, rfl, rfl, hc⟩
  slots := fun _ hk => h₃ ▸ hk
  states := h₄
  transit := fun ht => h₅ ▸ ht

theorem ReasonsGrow.kept {s t : State} (h : ReasonsGrow s t) (hr : t.ranks = s.ranks) : WaitsKept s t :=
  waitsKept_of_reasons hr h.reason

theorem StillFrame.waitsKept {s t : State} (h : StillFrame s t) : WaitsKept s t :=
  (reasonsGrow_of_eq h.walkJobs h.changes h.slots h.states h.transit).kept h.ranks

/-- Nothing but registers, outputs, counters and the cache has changed. -/
theorem waitsKept_of_eq {s t : State} (hr : t.ranks = s.ranks) (h₁ : t.walkJobs = s.walkJobs)
    (h₂ : t.changes = s.changes) (h₃ : t.slots = s.slots) (h₄ : t.domains = s.domains) (h₅ : t.transit = s.transit) :
    WaitsKept s t :=
  (reasonsGrow_of_eq h₁ h₂ h₃ (fun _ => domainState_congr h₄) h₅).kept hr

theorem endWaits_waitsKept (p : Rank → Bool) (s : State) : WaitsKept s (endWaits p s) :=
  waitsKept_of_wake (endWaits_ranks ..) fun _ _ hold reason hstate =>
    (reasonsGrow_of_eq (endWaits_walkJobs ..) (endWaits_changes ..) (endWaits_slots ..)
      (fun _ => domainState_congr (endWaits_domains ..)) (endWaits_transit ..)).reason _ _ (hold reason hstate)

/-! ## The Epoch Unit's transitions -/

/-- A domain's state is set: the reasons of a wait for that domain are left to the caller. -/
structure DomainGrow (d : DomainId) (s t : State) : Prop where
  walkJobs : t.walkJobs = s.walkJobs
  copies : ∀ e ∈ s.changes, isCopying e = true → e ∈ t.changes
  slots : t.slots = s.slots
  states : ∀ e, e ≠ d → domainState e t = domainState e s
  transit : t.transit = s.transit

theorem DomainGrow.reason {d : DomainId} {s t : State} (h : DomainGrow d s t) {region : Region} {reason : WaitReason}
    (hd : reason = .domain → regionDomain region = some d → ReasonHolds t region reason)
    (hr : ReasonHolds s region reason) : ReasonHolds t region reason := by
  cases reason with
  | walk w tile =>
    obtain ⟨j, hj, htile⟩ := hr
    exact ⟨j, h.walkJobs ▸ hj, htile⟩
  | copy w tile =>
    obtain ⟨e, he, hw, ht, hc⟩ := hr
    exact ⟨e, h.copies e he hc, hw, ht, hc⟩
  | slot => exact fun k => by rw [h.slots]; exact hr k
  | domain =>
    obtain ⟨e, he, hstate⟩ := hr
    by_cases hed : e = d
    · exact hd rfl (hed ▸ he)
    · exact ⟨e, he, by rw [h.states e hed]; exact hstate⟩
  | transit =>
    unfold ReasonHolds at *
    rw [h.transit]
    exact hr
  | order => trivial

theorem EpochFrame.domainGrow {d : DomainId} {s t : State} (h : EpochFrame s t)
    (hc : ∀ e ∈ s.changes, isCopying e = true → e ∈ t.changes)
    (hs : ∀ e, d ≠ e → DomainKept e s t) : DomainGrow d s t :=
  ⟨h.walkJobs, hc, h.slots, fun e he => congrArg DomainRecord.state (hs e he.symm).record, h.transit⟩

/-- The domain commits or rolls back after the change. -/
theorem waitsKept_of_entered {d : DomainId} {s t : State} (h : DomainGrow d s t) (hr : t.ranks = s.ranks)
    (hd : (∃ phase, domainState d t = .committing phase) ∨ domainState d t = .rollingBack) : WaitsKept s t :=
  waitsKept_of_reasons hr fun _ _ hold => h.reason (fun hreason hregion => by subst hreason; exact ⟨d, hregion, hd⟩) hold

/-- The domain neither committed nor rolled back before the change, so that no wait for it was in being. -/
theorem waitsKept_of_idle {d : DomainId} {s t : State} (h : DomainGrow d s t) (hr : t.ranks = s.ranks)
    (hc : ∀ phase, domainState d s ≠ .committing phase) (hroll : domainState d s ≠ .rollingBack) : WaitsKept s t :=
  waitsKept_of_reasons hr fun region reason hold => h.reason (fun hreason hregion => by
    subst hreason
    obtain ⟨e, he, hstate⟩ := hold
    rw [hregion] at he
    cases he
    exact hstate.elim (fun ⟨phase, hp⟩ => absurd hp (hc phase)) fun hp => absurd hp hroll) hold

/-- The waits for the domain end with the change. -/
theorem waitsKept_of_woken {d : DomainId} {s t : State} (h : DomainGrow d s t)
    (hr : t.ranks = s.ranks.map (wake (parkedOnDomain d))) : WaitsKept s t :=
  waitsKept_of_wake hr fun k hp hold reason hstate => h.reason (fun hreason hregion => by
    subst hreason
    simp [parkedOnDomain, parkedOn, hstate, hregion] at hp) (hold reason hstate)

theorem startPhase_waitsKept {st : DomainState} (d : DomainId) (s : State)
    (hst : (∃ phase, st = .committing phase) ∨ st = .rollingBack) :
    WaitsKept s (stopDeadline d (setDomainState d st s)) := by
  refine waitsKept_of_entered (d := d) ?_ (by simp) (by rw [domainState_startPhase]; exact hst)
  exact ((setDomainState_frame d st s).trans (stopDeadline_frame d _)).domainGrow (fun e he _ => by simpa using he)
    fun e he => startPhase_keeps he s st

theorem mem_without_domain {d : DomainId} {es : List ChangeEntry} {e : ChangeEntry} (he : e ∈ es) (hd : e.domain ≠ d) :
    e ∈ es.filter fun x => !decide (x.domain = d) :=
  List.mem_filter.mpr ⟨he, by simpa using hd⟩

theorem releaseDomain_ranks (d : DomainId) (s : State) :
    (releaseDomain d s).ranks = s.ranks.map (wake (parkedOnDomain d)) := by
  unfold releaseDomain
  rw [endDomainWaits_ranks]
  split
  · simp [enterOpen]
  · simp

theorem discardDomain_ranks (d : DomainId) (s : State) :
    (discardDomain d s).ranks = s.ranks.map (wake (parkedOnDomain d)) := by
  simp [discardDomain]

/-- RELEASE and DISCARD of a domain with no copy running end its waits, and take no copy away. -/
theorem releaseDomain_waitsKept {d : DomainId} {s : State}
    (hcopy : ∀ e ∈ s.changes, e.domain = d → isCopying e = false) : WaitsKept s (releaseDomain d s) := by
  refine waitsKept_of_woken ((releaseDomain_frame d s).domainGrow (fun e he hc => ?_) fun e he =>
    releaseDomain_keeps he s) (releaseDomain_ranks d s)
  rw [releaseDomain_changes]
  exact mem_without_domain he fun hd => nomatch (hcopy e he hd).symm.trans hc

theorem discardDomain_waitsKept {d : DomainId} {s : State}
    (hcopy : ∀ e ∈ s.changes, e.domain = d → isCopying e = false) : WaitsKept s (discardDomain d s) := by
  refine waitsKept_of_woken ((discardDomain_frame d s).domainGrow (fun e he hc => ?_) fun e he =>
    discardDomain_keeps he s) (discardDomain_ranks d s)
  rw [discardDomain_changes]
  exact mem_without_domain he fun hd => nomatch (hcopy e he hd).symm.trans hc

theorem enterFaulted_waitsKept (d : DomainId) (s : State) : WaitsKept s (enterFaulted d s) :=
  waitsKept_of_woken ((enterFaulted_frame d s).domainGrow (fun e he _ => by simpa using he) fun _ he =>
    enterFaulted_keeps he s) (enterFaulted_ranks ..)

theorem endPass_waitsKept {d : DomainId} {s : State} (hcopy : ∀ e ∈ s.changes, e.domain = d → isCopying e = false) :
    WaitsKept s (endPass d s) := by
  unfold endPass
  split
  · exact enterFaulted_waitsKept d s
  · exact releaseDomain_waitsKept hcopy

theorem enterPublish_waitsKept {d : DomainId} {s : State}
    (hcopy : ∀ e ∈ s.changes, e.domain = d → isCopying e = false) : WaitsKept s (enterPublish d s) := by
  have started : WaitsKept s (stopDeadline d (setDomainState d (.committing .publish) s)) :=
    startPhase_waitsKept d s (.inl ⟨_, rfl⟩)
  unfold enterPublish
  dsimp only
  split
  · exact started.trans (waitsKept_of_eq rfl rfl rfl rfl rfl rfl)
  · exact started.trans (endPass_waitsKept fun e he => hcopy e (by simpa using he))

theorem testCommitDrain_waitsKept (d : DomainId) (s : State) : WaitsKept s (testCommitDrain d s) := by
  unfold testCommitDrain
  split
  · rename_i h
    refine (endWaits_waitsKept _ s).trans (enterPublish_waitsKept fun e he => ?_)
    exact commitDrained_copying h.2 e (by simpa using he)
  · exact waitsKept_of_eq rfl rfl rfl rfl rfl rfl

theorem testRollbackDrain_waitsKept (d : DomainId) (s : State) : WaitsKept s (testRollbackDrain d s) := by
  unfold testRollbackDrain
  split
  · rename_i h
    exact discardDomain_waitsKept (rollbackDrained_copying h.2)
  · exact waitsKept_of_eq rfl rfl rfl rfl rfl rfl

theorem testDrain_waitsKept (d : DomainId) (s : State) : WaitsKept s (testDrain d s) := by
  unfold testDrain
  split
  · exact testCommitDrain_waitsKept d s
  · exact testRollbackDrain_waitsKept d s
  all_goals exact waitsKept_of_eq rfl rfl rfl rfl rfl rfl

/-! ## Control moves -/

/-- A domain in FAULTED has no copy running (R81). -/
def FaultedIdle (s : State) : Prop := ∀ d e, e ∈ s.changes → e.domain = d → domainState d s = .faulted → isCopying e = false

theorem EpochCore.faultedIdle {s : State} (h : EpochCore s) : FaultedIdle s :=
  fun d e he hd hf => h.no_copying (d := d) (.inr hf) e he hd

/-- Entries that were there keep FAULTED domains idle when no other domain enters FAULTED than one without copies. -/
theorem faultedIdle_of_reached {d : DomainId} {s t : State} (h : FaultedIdle s) (k : ∀ e, d ≠ e → DomainKept e s t)
    (hd : ∀ e ∈ t.changes, e.domain = d → domainState d t = .faulted → isCopying e = false) : FaultedIdle t := by
  intro e x hx hxe hf
  by_cases hde : d = e
  · subst hde
    exact hd x hx hxe hf
  · have mem : x ∈ entriesOf e s := (k e hde).entries ▸ mem_entriesOf.mpr ⟨hx, hxe⟩
    refine h e x (mem_entriesOf.mp mem).1 hxe ?_
    rw [← hf]
    exact (congrArg DomainRecord.state (k e hde).record).symm

theorem enterPublish_changes_of_live {d : DomainId} {s : State} {e : ChangeEntry} (he : e ∈ (enterPublish d s).changes) :
    e ∈ s.changes := by
  unfold enterPublish endPass at he
  dsimp only at he
  split at he
  · simpa using he
  split at he
  · simpa using he
  · rw [releaseDomain_changes] at he
    simpa using (List.mem_filter.mp he).1

theorem controlMove_waits {s t : State} (m : ControlMove s t) (h : FaultedIdle s) : WaitsKept s t ∧ FaultedIdle t := by
  cases m with
  | still hf =>
    exact ⟨hf.waitsKept, fun d e he hd hfault => h d e (hf.changes ▸ he) hd (hf.states d ▸ hfault)⟩
  | openDomain d s hclosed =>
    refine ⟨waitsKept_of_idle ((enterOpen_frame d s).domainGrow (fun e he _ => by simpa [enterOpen] using he)
      fun e he => enterOpen_keeps he s) (by simp [enterOpen]) (by rw [hclosed]; simp) (by rw [hclosed]; simp),
      faultedIdle_of_reached h (fun e he => enterOpen_keeps he s) fun _ _ _ hf => ?_⟩
    rw [domainState_enterOpen] at hf
    exact nomatch hf
  | arm d s hopen =>
    refine ⟨waitsKept_of_idle ((setDomainState_frame d _ s).domainGrow (fun e he _ => by simpa using he)
      fun e he => setDomainState_keeps he s _) (by simp) (by rw [hopen]; simp) (by rw [hopen]; simp),
      faultedIdle_of_reached h (fun e he => setDomainState_keeps he s _) fun _ _ _ hf => ?_⟩
    rw [setDomainState_same] at hf
    exact nomatch hf
  | commit d s _ =>
    refine ⟨(startPhase_waitsKept d s (.inl ⟨_, rfl⟩)).trans (testCommitDrain_waitsKept d _),
      faultedIdle_of_reached h (fun e he => enterCommit_keeps he s) fun e he hd hf => ?_⟩
    unfold enterCommit testCommitDrain at he hf
    split at he
    · rename_i hdrained
      refine commitDrained_copying hdrained.2 e ?_ hd
      simpa using enterPublish_changes_of_live he
    · rename_i hnot
      rw [if_neg hnot, domainState_startPhase] at hf
      exact nomatch hf
  | republish d s hfault =>
    refine ⟨enterPublish_waitsKept fun e he hd => h d e he hd hfault,
      faultedIdle_of_reached h (fun e he => enterPublish_keeps he s) fun e he hd _ =>
        h d e (enterPublish_changes_of_live he) hd hfault⟩
  | rollback d s _ =>
    refine ⟨(startPhase_waitsKept d s (.inr rfl)).trans (testRollbackDrain_waitsKept d _),
      faultedIdle_of_reached h (fun e he => (startPhase_keeps he s .rollingBack).trans
        (testRollbackDrain_keeps he _)) fun e he hd hf => ?_⟩
    have state : domainState d (enterRollback d s) ≠ .faulted := by
      unfold enterRollback testRollbackDrain
      split
      · rw [domainState_discardDomain]; simp
      · rw [domainState_startPhase]; simp
    exact absurd hf state

theorem controlMoves_waits {s t : State} (m : ControlMoves s t) (h : FaultedIdle s) : WaitsKept s t ∧ FaultedIdle t := by
  induction m with
  | refl => exact ⟨waitsKept_of_eq rfl rfl rfl rfl rfl rfl, h⟩
  | tail _ m ih =>
    obtain ⟨kept, idle⟩ := ih
    obtain ⟨kept', idle'⟩ := controlMove_waits m idle
    exact ⟨kept.trans kept', idle'⟩

end Sys2Proof.Machine
end

