-- ==== Sys2Proof/Proofs/WaitsKept.lean ====
section
/-! SUPPORT. Over whole events: what each parked request waits for stays in being, and a request that parks has something
to wait for (Table 7-2, R118, R121, R122). -/

namespace Sys2Proof.Machine

/-! ## Grants -/

theorem issueOldest_tile_mem {tag : LinkTag} {js : List WalkJob} {j : WalkJob} (h : j ∈ js) :
    ∃ i ∈ issueOldest tag js, i.window = j.window ∧ i.tile = j.tile := by
  have mem : jobTile j ∈ (issueOldest tag js).map jobTile := by
    rw [issueOldest_tiles]
    exact List.mem_map_of_mem h
  obtain ⟨i, hi, htile⟩ := List.mem_map.mp mem
  exact ⟨i, hi, Prod.mk.inj htile⟩

theorem sendOldest_ne_nil {tag : LinkTag} {es : List TransitEntry} (h : es ≠ []) : sendOldest tag es ≠ [] := by
  cases es with
  | nil => exact absurd rfl h
  | cons e es =>
    rw [sendOldest]
    split <;> simp

theorem slots_set_some {k : SlotId} {c : CopyJob} {s t : State} (h : t.slots = s.slots.set k (some c)) (i : SlotId)
    (hi : s.slots[i].isSome = true) : t.slots[i].isSome = true := by
  rw [h, vector_set_get]
  split
  · rfl
  · exact hi

theorem setSlot_some_waitsKept (k : SlotId) (c : CopyJob) (s : State) : WaitsKept s (setSlot k (some c) s) :=
  ReasonsGrow.kept
    ⟨fun j hj => ⟨j, hj, rfl, rfl⟩, fun e he hc => ⟨e, he, rfl, rfl, hc⟩, slots_set_some (setSlot_slots ..),
      fun _ => rfl, fun ht => ht⟩ rfl

theorem waitsKept_refl (s : State) : WaitsKept s s := waitsKept_of_eq rfl rfl rfl rfl rfl rfl

theorem grant_waitsKept (tag : LinkTag) (q : Requester) (s : State) : WaitsKept s (grant tag s q) := by
  cases q with
  | mapWalker =>
    simp only [grant, grantWalker]
    split
    · exact ReasonsGrow.kept ⟨fun j hj => issueOldest_tile_mem hj, fun e he hc => ⟨e, he, rfl, rfl, hc⟩,
        fun _ hk => hk, fun _ => rfl, fun ht => ht⟩ rfl
    split
    · exact waitsKept_refl s
    · exact waitsKept_of_eq rfl rfl rfl rfl rfl rfl
  | forwarded =>
    simp only [grant, grantForwarded]
    split
    · exact waitsKept_refl s
    · exact ReasonsGrow.kept ⟨fun j hj => ⟨j, hj, rfl, rfl⟩, fun e he hc => ⟨e, he, rfl, rfl, hc⟩,
        fun _ hk => hk, fun _ => rfl, sendOldest_ne_nil⟩ rfl
  | copySlot k =>
    simp only [grant, grantSlot]
    split
    · exact waitsKept_refl s
    split
    · exact waitsKept_refl s
    · rename_i c _ _ action _
      exact (setSlot_some_waitsKept k (afterSend tag c action) s).trans
        (waitsKept_of_eq rfl rfl rfl rfl rfl rfl)

/-! ## Walks -/

/-- A rank after some are answered: one from before that was not answered, ELIGIBLE or with its state as it was. -/
theorem endOrder_mem {i : InitiatorId} {ks : List Rank} {k' : Rank} (h : k' ∈ endOrder i ks) :
    ∃ k ∈ ks, k'.request = k.request ∧ k'.decoded = k.decoded ∧ (k'.state = .eligible ∨ k' = k) := by
  induction ks with
  | nil => exact absurd h List.not_mem_nil
  | cons k ks ih =>
    rw [endOrder] at h
    split at h
    · obtain rfl | h := List.mem_cons.mp h
      · refine ⟨k, List.mem_cons_self, ?_⟩
        unfold wake
        split
        · exact ⟨rfl, rfl, .inl rfl⟩
        · exact ⟨rfl, rfl, .inr rfl⟩
      · exact ⟨k', List.mem_cons_of_mem _ h, rfl, rfl, .inr rfl⟩
    · obtain rfl | h := List.mem_cons.mp h
      · exact ⟨k', List.mem_cons_self, rfl, rfl, .inr rfl⟩
      · obtain ⟨x, hx, hrest⟩ := ih h
        exact ⟨x, List.mem_cons_of_mem _ hx, hrest⟩

theorem foldl_endOrder_mem {is : List InitiatorId} {ks : List Rank} {k' : Rank}
    (h : k' ∈ is.foldl (fun ks i => endOrder i ks) ks) :
    ∃ k ∈ ks, k'.request = k.request ∧ k'.decoded = k.decoded ∧ (k'.state = .eligible ∨ k' = k) := by
  induction is generalizing ks with
  | nil => exact ⟨k', h, rfl, rfl, .inr rfl⟩
  | cons i is ih =>
    obtain ⟨b, hb, hreq, hdec, hstate⟩ := ih h
    obtain ⟨a, ha, hreq', hdec', hstate'⟩ := endOrder_mem hb
    refine ⟨a, ha, hreq.trans hreq', hdec.trans hdec', ?_⟩
    obtain he | rfl := hstate
    · exact .inl he
    · exact hstate'

/-- A queue in which the ranks that `p` selects were answered, with every other reason still holding. -/
theorem waitsKept_of_answered {p : Rank → Bool} {status : ResponseStatus} {s t : State}
    (hr : t.ranks = (answerRanks p status s).ranks) (h : ∀ k, p k = false → RankHolds s k → RankHolds t k) :
    WaitsKept s t := by
  intro k' hk'
  rw [hr, answerRanks_ranks] at hk'
  obtain ⟨k, hk, hreq, hdec, hstate⟩ := foldl_endOrder_mem hk'
  obtain ⟨hmem, hp⟩ := List.mem_filter.mp hk
  refine ⟨k, hmem, hreq, hdec, ?_⟩
  obtain he | rfl := hstate
  · exact .inl he
  · exact .inr ⟨rfl, h k' (by simpa using hp)⟩

theorem jobKey_iff {w : WindowId} {tile : Nat} {j : WalkJob} : jobKey w tile j = true ↔ j.window = w ∧ j.tile = tile := by
  simp [jobKey]

/-- The job of a tile leaves the walk list: only the waits for that tile's walk rest on it. -/
theorem rankHolds_without_job {w : WindowId} {tile : Nat} {s t : State}
    (hj : t.walkJobs = s.walkJobs.eraseP (jobKey w tile)) (h₂ : t.changes = s.changes) (h₃ : t.slots = s.slots)
    (h₄ : t.domains = s.domains) (h₅ : t.transit = s.transit) (k : Rank) (hp : parkedOn (.walk w tile) k = false)
    (hk : RankHolds s k) : RankHolds t k := by
  intro reason hstate
  have holds := hk reason hstate
  have rest : ReasonsGrow { s with walkJobs := t.walkJobs } t :=
    reasonsGrow_of_eq rfl h₂ h₃ (fun _ => domainState_congr h₄) h₅
  refine rest.reason _ _ ?_
  cases reason with
  | walk v x =>
    obtain ⟨j, hmem, hw, hx⟩ := holds
    refine ⟨j, ?_, hw, hx⟩
    rw [hj]
    refine (List.mem_eraseP_of_neg fun hkey => ?_).mpr hmem
    obtain ⟨rfl, rfl⟩ := jobKey_iff.mp hkey
    rw [← hw, ← hx] at hstate
    simp [parkedOn, hstate] at hp
  | _ => exact holds

theorem completeWalk_waitsKept (j : WalkJob) (status : Completion) (entry : Beat) (s : State) :
    WaitsKept s (completeWalk j status entry s) := by
  unfold completeWalk
  dsimp only
  split
  · split
    · exact waitsKept_of_wake (p := parkedOn (.walk j.window j.tile)) (by simp [walkFill])
        (rankHolds_without_job (by simp [walkFill]) (by simp [walkFill]) (by simp [walkFill]) (by simp [walkFill])
          (by simp [walkFill]))
    · refine WaitsKept.trans (t := answerRanks (parkedOn (.walk j.window j.tile)) .refused
        { s with walkJobs := s.walkJobs.eraseP (jobKey j.window j.tile) }) ?_ (reportFaults_still _ _).waitsKept
      exact waitsKept_of_answered (p := parkedOn (.walk j.window j.tile)) (status := .refused) rfl
        (rankHolds_without_job rfl rfl rfl rfl rfl)
  · exact waitsKept_of_answered (p := parkedOn (.walk j.window j.tile)) (status := .failed) rfl
      (rankHolds_without_job (by simp [walkFailed]) (by simp [walkFailed]) (by simp [walkFailed])
        (by simp [walkFailed]) (by simp [walkFailed]))

/-! ## Publish writes -/

theorem publishOutcome_waitsKept {p : PublishWrite} (status : Completion) {s : State}
    (h : ∀ e ∈ s.changes, changeKey p.window p.tile e = true → isCopying e = false) :
    WaitsKept s (publishOutcome p status s) := by
  unfold publishOutcome
  split
  · split
    · refine ReasonsGrow.kept ⟨fun j hj => ⟨j, by simpa using hj, rfl, rfl⟩, fun e he hc => ⟨e, ?_, rfl, rfl, hc⟩,
        fun k hk => by simpa using hk, fun d => domainState_congr (by simp), fun ht => by simpa using ht⟩ (by simp)
      rw [publishToCache_changes]
      exact mem_setEntryState.mpr (.inl ⟨he, Bool.eq_false_iff.mpr fun hkey => nomatch (h e he hkey).symm.trans hc⟩)
    · exact waitsKept_refl s
  · exact (reportFault_still _ s).waitsKept

theorem publishOutcome_copying {p : PublishWrite} (status : Completion) {d : DomainId} {s : State}
    (h : ∀ e ∈ s.changes, e.domain = d → isCopying e = false) :
    ∀ e ∈ (publishOutcome p status s).changes, e.domain = d → isCopying e = false := by
  unfold publishOutcome
  split
  · split
    · intro e he hd
      rw [publishToCache_changes] at he
      obtain ⟨hmem, -⟩ | ⟨x, -, -, rfl⟩ := mem_setEntryState.mp he
      · exact h e hmem hd
      · rfl
    · exact h
  · exact fun e he => h e (by simpa using he)

theorem continuePass_waitsKept {d : DomainId} {s : State} (h : ∀ e ∈ s.changes, e.domain = d → isCopying e = false) :
    WaitsKept s (continuePass d s) := by
  unfold continuePass
  split
  · exact waitsKept_refl s
  · exact WaitsKept.trans (t := { s with publication := s.publication.filter fun p => !decide (p.domain = d) })
      (waitsKept_of_eq rfl rfl rfl rfl rfl rfl) (endPass_waitsKept h)

theorem publishWrite_waitsKept {p : PublishWrite} (status : Completion) {s : State} (core : EpochCore s)
    (hp : s.publishWrite = some p) :
    WaitsKept s (continuePass p.domain (publishOutcome p status { s with publishWrite := none })) := by
  obtain ⟨hstate, x, hx, hxw, hxt, -, hlive⟩ := core.publishEntry hp
  have cleared : WaitsKept s { s with publishWrite := none } := waitsKept_of_eq rfl rfl rfl rfl rfl rfl
  have outcome := publishOutcome_waitsKept (p := p) (s := { s with publishWrite := none }) status fun e he hkey => by
    rw [core.entry_unique he hx hkey (changeKey_iff.mpr ⟨hxw, hxt⟩)]
    simp [isCopying, hlive]
  exact (cleared.trans outcome).trans (continuePass_waitsKept
    (publishOutcome_copying (p := p) (s := { s with publishWrite := none }) status (core.no_copying (.inl hstate))))

/-! ## Copies -/

/-- The end of a copy ends the waits for that copy and every wait for a slot; the rest stands. -/
theorem rankHolds_without_copy {w : WindowId} {tile : Nat} {s t : State}
    (hc : ∀ e ∈ s.changes, changeKey w tile e = false → e ∈ t.changes) (h₁ : t.walkJobs = s.walkJobs)
    (hd : ∀ d, domainState d t = domainState d s) (ht : t.transit = s.transit) (k : Rank)
    (hp : parkedOn (.copy w tile) k = false) (hslot : parkedOn .slot k = false) (hk : RankHolds s k) :
    RankHolds t k := by
  intro reason hstate
  have holds := hk reason hstate
  cases reason with
  | walk v x =>
    obtain ⟨j, hj, htile⟩ := holds
    exact ⟨j, h₁ ▸ hj, htile⟩
  | copy v x =>
    obtain ⟨e, he, hew, het, hcopy⟩ := holds
    refine ⟨e, hc e he (Bool.eq_false_iff.mpr fun hkey => ?_), hew, het, hcopy⟩
    obtain ⟨rfl, rfl⟩ := changeKey_iff.mp hkey
    rw [← hew, ← het] at hstate
    simp [parkedOn, hstate] at hp
  | slot => simp [parkedOn, hstate] at hslot
  | domain =>
    obtain ⟨d, hregion, hst⟩ := holds
    exact ⟨d, hregion, by rw [hd]; exact hst⟩
  | transit =>
    unfold ReasonHolds at *
    rw [ht]
    exact holds
  | order => trivial

theorem wake_or (p q : Rank → Bool) (hq : ∀ k : Rank, q { k with state := .eligible } = false) (k : Rank) :
    wake q (wake p k) = wake (fun k => p k || q k) k := by
  unfold wake
  cases hp : p k <;> cases hqk : q k <;> simp [hp, hqk, hq]

theorem parkedOn_eligible (reason : WaitReason) (k : Rank) : parkedOn reason { k with state := .eligible } = false :=
  parkedOn_of_eligible rfl reason

theorem completeCopy_waitsKept (k : SlotId) (c : CopyJob) (s : State) : WaitsKept s (completeCopy k c s) := by
  have done : WaitsKept s (endWaits (parkedOn .slot) (endWaits (parkedOn (.copy c.window c.tile))
      (setSlot k none (setEntryState c.window c.tile .live s)))) := by
    refine waitsKept_of_wake (p := fun k => parkedOn (.copy c.window c.tile) k || parkedOn .slot k) ?_
      fun x hp hx => ?_
    · rw [endWaits_ranks, endWaits_ranks, setSlot_ranks, setEntryState_ranks, List.map_map]
      exact List.map_congr_left fun x _ => wake_or _ _ (parkedOn_eligible .slot) x
    · rw [Bool.or_eq_false_iff] at hp
      refine rankHolds_without_copy (fun e he hkey => ?_) (by simp) (fun _ => domainState_congr (by simp)) (by simp)
        x hp.1 hp.2 hx
      rw [endWaits_changes, endWaits_changes, setSlot_changes]
      exact mem_setEntryState.mpr (.inl ⟨he, hkey⟩)
  unfold completeCopy
  dsimp only
  split
  · exact done.trans (testDrain_waitsKept _ _)
  · exact done

/-- The state of a failed copy's end before the DRAIN test (R113). -/
def copyGivenUp (k : SlotId) (c : CopyJob) (e : ChangeEntry) (f : FaultReport) (s : State) : State :=
  endWaits (parkedOn .slot) (setSlot k none
    (reportFault f (answerRanks (parkedOn (.copy c.window c.tile)) .failed (removeEntry e s))))

theorem copyGivenUp_waitsKept (k : SlotId) {c : CopyJob} {e : ChangeEntry} (f : FaultReport) {s : State}
    (he : e.window = c.window ∧ e.tile = c.tile) : WaitsKept s (copyGivenUp k c e f s) := by
  have holds : ∀ x, parkedOn (.copy c.window c.tile) x = false → parkedOn .slot x = false → RankHolds s x →
      RankHolds (copyGivenUp k c e f s) x := fun x hp hslot hx => by
    refine rankHolds_without_copy (fun a ha hkey => ?_) (by simp [copyGivenUp]) (fun d => ?_) (by simp [copyGivenUp])
      x hp hslot hx
    · simp only [copyGivenUp, endWaits_changes, setSlot_changes, reportFault_changes, answerRanks_changes,
        removeEntry_changes, he.1, he.2]
      exact (List.mem_eraseP_of_neg (by rw [hkey]; exact Bool.false_ne_true)).mpr ha
    · exact (domainState_congr (by simp [copyGivenUp])).trans
        (modifyDomain_states (f := fun r => { r with entryCount := r.entryCount - 1 }) (fun _ => rfl) e.domain d s)
  intro k' hk'
  rw [copyGivenUp, endWaits_ranks] at hk'
  obtain ⟨b, hb, rfl⟩ := List.mem_map.mp hk'
  rw [setSlot_ranks, reportFault_ranks, answerRanks_ranks] at hb
  obtain ⟨a, ha, hreq, hdec, hstate⟩ := foldl_endOrder_mem hb
  obtain ⟨hmem, hp⟩ := List.mem_filter.mp ha
  refine ⟨a, by simpa using hmem, ?_⟩
  unfold wake
  split
  · exact ⟨hreq, hdec, .inl rfl⟩
  · rename_i hslot
    refine ⟨hreq, hdec, ?_⟩
    obtain he | rfl := hstate
    · exact .inl he
    · exact .inr ⟨rfl, holds b (by simpa using hp) (Bool.eq_false_iff.mpr hslot)⟩

theorem failCopy_waitsKept (k : SlotId) (c : CopyJob) (s : State) : WaitsKept s (failCopy k c s) := by
  unfold failCopy
  split
  · rename_i e he
    exact (copyGivenUp_waitsKept k _ (findChange_mem he).2).trans (testDrain_waitsKept _ _)
  · refine waitsKept_of_wake (endWaits_ranks ..) fun x hp hx reason hstate => ?_
    have holds := hx reason hstate
    cases reason with
    | slot => simp [parkedOn, hstate] at hp
    | _ => exact holds

theorem stopCopy_waitsKept (k : SlotId) (c : CopyJob) (s : State) : WaitsKept s (stopCopy k c s) := by
  unfold stopCopy
  split
  · exact failCopy_waitsKept k c s
  · exact setSlot_some_waitsKept k c s

theorem completeChunk_waitsKept (k : SlotId) (c : CopyJob) (tag : LinkTag) (x : ChunkInProgress) (status : Completion)
    (data : Chunk) (s : State) : WaitsKept s (completeChunk k c tag x status data s) := by
  unfold completeChunk
  split
  · exact stopCopy_waitsKept k _ s
  split
  · exact stopCopy_waitsKept k _ s
  split
  · exact setSlot_some_waitsKept k _ s
  · dsimp only
    split
    · exact completeCopy_waitsKept k _ s
    · exact setSlot_some_waitsKept k _ s
  all_goals exact waitsKept_refl s

/-! ## Forwarded operations -/

theorem transitAnswered_waitsKept (e : TransitEntry) (tag : LinkTag) (status : Completion) (beats : List Beat)
    (s : State) : WaitsKept s (transitAnswered e tag status beats s) := by
  have reported := reportMemory_still e status { s with transit := s.transit.eraseP (sentUnder tag) }
  have answered := answerPiece_still e status beats (reportMemory e status
    { s with transit := s.transit.eraseP (sentUnder tag) })
  have ranks := answered.ranks.trans reported.ranks
  refine waitsKept_of_wake ((endWaits_ranks ..).trans (by rw [ranks])) fun k hp hk reason hstate => ?_
  have rest : ReasonsGrow { s with transit := (transitAnswered e tag status beats s).transit }
      (transitAnswered e tag status beats s) := by
    refine reasonsGrow_of_eq ?_ (transitAnswered_kept ..).2.1 ?_ (transitAnswered_kept ..).1 rfl
    · exact (endWaits_walkJobs ..).trans (answered.walkJobs.trans reported.walkJobs)
    · exact (endWaits_slots ..).trans (answered.slots.trans reported.slots)
  refine rest.reason _ _ ?_
  have holds := hk reason hstate
  cases reason with
  | transit => simp [parkedOn, hstate] at hp
  | _ => exact holds

theorem tellFreed_waitsKept (e : TransitEntry) (s : State) : WaitsKept s (tellFreed e s) := by
  unfold tellFreed
  split
  · exact waitsKept_refl s
  split
  · exact testDrain_waitsKept _ s
  · exact testRollbackDrain_waitsKept _ s

/-! ## Requests -/

/-- A rank has one piece or two, and something to wait for. -/
structure RankFits (s : State) (k : Rank) : Prop where
  pieces : 1 ≤ k.decoded.pieces.length ∧ k.decoded.pieces.length ≤ 2
  holds : RankHolds s k

/-- Every rank fits. -/
def RanksHold (s : State) : Prop := ∀ k ∈ s.ranks, RankFits s k

theorem WaitsKept.ranksHold {s t : State} (h : WaitsKept s t) (hs : RanksHold s) : RanksHold t := by
  intro k' hk'
  obtain ⟨k, hk, kept⟩ := h k' hk'
  have fits := hs k hk
  exact ⟨by rw [kept.decoded]; exact fits.pieces, kept.holds fits.holds⟩

theorem addRank_ranksHold {k : Rank} {s : State} (hk : RankFits s k) (h : RanksHold s) : RanksHold (addRank k s) := by
  have same : ∀ x, RankFits s x → RankFits (addRank k s) x := fun x hx => ⟨hx.pieces, hx.holds⟩
  intro x hx
  rw [addRank_ranks] at hx
  obtain hx | hx := List.mem_append.mp hx
  · exact same x (h x hx)
  · rw [List.mem_singleton.mp hx]
    exact same k hk

theorem decodeRequest_pieces {ws : Vector Window 8} {r : Request} {dec : Decoded} (h : decodeRequest ws r = some dec) :
    1 ≤ dec.pieces.length ∧ dec.pieces.length ≤ 2 := by
  unfold decodeRequest at h
  dsimp only at h
  split at h
  · cases h
    unfold cutPieces
    split
    · dsimp only
      split <;> simp
    all_goals simp
  · exact nomatch h

theorem postWalk_waitsKept (w : WindowId) (tile : Nat) (s : State) : WaitsKept s (postWalk w tile s) := by
  refine ReasonsGrow.kept ⟨fun j hj => ⟨j, ?_, rfl, rfl⟩, fun e he hc => ⟨e, he, rfl, rfl, hc⟩, fun _ hk => hk,
    fun _ => rfl, fun ht => ht⟩ rfl
  obtain same | ⟨-, i, -, -, heq⟩ := postWalk_cases w tile s
  · rw [same]; exact hj
  · rw [heq]; exact List.mem_append_left _ hj

theorem postWalk_has_job (w : WindowId) (tile : Nat) (s : State) :
    ∃ j ∈ (postWalk w tile s).walkJobs, j.window = w ∧ j.tile = tile := by
  rw [postWalk_walkJobs]
  split
  · rename_i h
    obtain ⟨j, hj, hkey⟩ := List.any_eq_true.mp h
    exact ⟨j, hj, jobKey_iff.mp hkey⟩
  · exact ⟨_, List.mem_append_right _ List.mem_cons_self, rfl, rfl⟩

theorem createEntry_waitsKept (d : DomainId) (c : CacheEntry) (f : Frame) (k : SlotId) (s : State) :
    WaitsKept s (createEntry d c f k s) := by
  refine ReasonsGrow.kept ⟨fun j hj => ⟨j, by simpa using hj, rfl, rfl⟩, fun e he hc => ⟨e, ?_, rfl, rfl, hc⟩,
    slots_set_some (createEntry_slots ..), fun e => createEntry_states d e c f k s, fun ht => by simpa using ht⟩ (by simp)
  rw [createEntry_changes]
  exact List.mem_append_left _ he

/-- What the translation of a piece waits for is in being. -/
theorem Waits.holds {d : DomainId} {s t : State} {reason : WaitReason} {region : Region} (h : Waits d s reason t)
    (hd : regionDomain region = some d) : WaitsKept s t ∧ ReasonHolds t region reason := by
  cases h with
  | walk w tile => exact ⟨postWalk_waitsKept w tile s, postWalk_has_job w tile s⟩
  | copying e he hc => exact ⟨waitsKept_refl s, e, he, rfl, rfl, hc⟩
  | slot hfree =>
    refine ⟨waitsKept_refl s, fun k => ?_⟩
    unfold freeSlot at hfree
    split at hfree
    · exact nomatch hfree
    split at hfree
    · exact nomatch hfree
    · rename_i h0 h1
      fin_cases k
      · exact Option.isSome_iff_ne_none.mpr fun h => h0 (Option.isNone_iff_eq_none.mpr h)
      · exact Option.isSome_iff_ne_none.mpr fun h => h1 (Option.isNone_iff_eq_none.mpr h)
  | domain hstate => exact ⟨waitsKept_refl s, d, hd, hstate⟩
  | created c f k _ _ _ _ _ _ =>
    refine ⟨createEntry_waitsKept d c f k s, ?_⟩
    refine ⟨_, by rw [createEntry_changes]; exact List.mem_append_right _ List.mem_cons_self, rfl, rfl, rfl⟩

/-- A request that waits has something to wait for; any other leaves the waits of the ranks in being. -/
theorem settle_waits {r : Request} {dec : Decoded} {s : State} (hp : dec.pieces.length ≤ 2) (hf : FaultedIdle s) :
    WaitsKept s (settle r dec s).2 ∧
      ∀ reason, (settle r dec s).1 = some reason → ReasonHolds (settle r dec s).2 dec.region reason := by
  have settled := settle_settled r dec s
  rcases hs : settle r dec s with ⟨result, u⟩
  rw [hs] at settled
  cases settled with
  | issued targets _ _ =>
    refine ⟨ReasonsGrow.kept ⟨fun j hj => ⟨j, hj, rfl, rfl⟩, fun e he hc => ⟨e, he, rfl, rfl, hc⟩, fun _ hk => hk,
      fun _ => rfl, fun ht hnil => ht ?_⟩ rfl, fun _ h => nomatch h⟩
    rw [claimEntries_transit] at hnil
    exact (List.append_eq_nil_iff.mp hnil).1
  | refused code => exact ⟨(controlMoves_waits (refuseTranslated_control r dec.region code s) hf).1, fun _ h => nomatch h⟩
  | noRoom hroom =>
    refine ⟨waitsKept_refl s, fun reason h => ?_⟩
    cases h
    intro hnil
    rw [hnil, List.length_nil, Config.transitEntries] at hroom
    omega
  | waits d reason u hd hw =>
    obtain ⟨kept, holds⟩ := hw.holds hd
    exact ⟨kept, fun _ h => by cases h; exact holds⟩

theorem freeRank_ranksHold {n : Nat} {i : InitiatorId} {s : State} (h : RanksHold s) : RanksHold (freeRank n i s) := by
  intro k' hk'
  rw [freeRank_ranks] at hk'
  obtain ⟨k, hk, -, hdec, hstate⟩ := endOrder_mem hk'
  have fits := h k ((List.eraseIdx_sublist _ _).subset hk)
  refine ⟨by rw [hdec]; exact fits.pieces, ?_⟩
  obtain he | rfl := hstate
  · exact rankHolds_of_eligible he
  · exact fits.holds

theorem parkAgain_ranksHold {n : Nat} {k : Rank} {reason : WaitReason} {s : State} (hk : s.ranks[n]? = some k)
    (hr : ReasonHolds s k.decoded.region reason) (h : RanksHold s) : RanksHold (parkAgain n reason s) := by
  intro x hx
  rw [parkAgain_ranks] at hx
  obtain ⟨m, hm⟩ := List.mem_iff_getElem?.mp hx
  rw [List.getElem?_modify] at hm
  obtain ⟨y, hy, heq⟩ := Option.map_eq_some_iff.mp hm
  have fits := h y (List.mem_iff_getElem?.mpr ⟨m, hy⟩)
  split at heq
  · rename_i hnm
    subst hnm
    rw [hk] at hy
    cases hy
    rw [← heq]
    exact ⟨fits.pieces, fun reason' hstate => by cases hstate; exact hr⟩
  · rw [← heq]
    exact ⟨fits.pieces, fits.holds⟩

theorem settle_ranks_eligible {n : Nat} {k : Rank} {s : State} {dec : Decoded} {r : Request} {reason : WaitReason}
    {t : State} (h : settle r dec s = (some reason, t)) (hk : s.ranks[n]? = some k) : t.ranks[n]? = some k := by
  have settled := settle_settled r dec s
  rw [h] at settled
  cases settled with
  | noRoom _ => exact hk
  | waits d reason t _ hw =>
    cases hw with
    | walk w tile => exact hk
    | created c f k _ _ _ _ _ _ => rw [createEntry_ranks]; exact hk
    | _ => exact hk

theorem leaveRank_ranksHold {n : Nat} {k : Rank} {s : State} (hk : s.ranks[n]? = some k) (hf : FaultedIdle s)
    (h : RanksHold s) : RanksHold (leaveRank n k s) := by
  have fits := h k (List.mem_of_getElem? hk)
  obtain ⟨kept, holds⟩ := settle_waits (r := k.request) fits.pieces.2 hf
  unfold leaveRank
  split
  · rename_i hs
    rw [hs] at kept
    exact freeRank_ranksHold (kept.ranksHold h)
  · rename_i reason t hs
    rw [hs] at kept holds
    exact parkAgain_ranksHold (settle_ranks_eligible hs hk) (holds reason rfl) (kept.ranksHold h)

theorem takeIn_ranksHold {r : Request} {dec : Decoded} {s : State}
    (hp : 1 ≤ dec.pieces.length ∧ dec.pieces.length ≤ 2) (hf : FaultedIdle s) (h : RanksHold s) :
    RanksHold (takeIn r dec s) := by
  obtain ⟨kept, holds⟩ := settle_waits (r := r) hp.2 hf
  unfold takeIn
  split
  · exact addRank_ranksHold ⟨hp, fun reason hstate => by cases hstate; trivial⟩ h
  split
  · rename_i hs
    rw [hs] at kept
    exact kept.ranksHold h
  · rename_i reason t hs
    rw [hs] at kept holds
    exact addRank_ranksHold ⟨hp, fun reason' hstate => by cases hstate; exact holds reason rfl⟩ (kept.ranksHold h)

theorem arrive_ranksHold (r : Request) {s : State} (hf : FaultedIdle s) (h : RanksHold s) : RanksHold (arrive r s) := by
  unfold arrive
  split
  · exact (controlMoves_waits (refuseIntake_control r _ s) hf).1.ranksHold h
  · rename_i dec _ hdec
    have snooped := snoopInvalidate_still r s
    exact takeIn_ranksHold (decodeRequest_pieces hdec)
      (fun d e he hd hfault => hf d e (snooped.changes ▸ he) hd (snooped.states d ▸ hfault)) (snooped.waitsKept.ranksHold h)
  · exact h

/-! ## Every event -/

theorem endDrainIfDone_waitsKept (s : State) : WaitsKept s (endDrainIfDone s) := by
  unfold endDrainIfDone
  split
  · exact waitsKept_of_none rfl
  · exact waitsKept_refl s

theorem event_keeps_ranksHold {s t : State} (e : Event s t) (core : EpochCore s) (h : RanksHold s) : RanksHold t := by
  cases e with
  | control hc => exact (controlMoves_waits hc core.faultedIdle).1.ranksHold h
  | hardReset cause line => exact WaitsKept.ranksHold (waitsKept_of_none rfl) h
  | arrival r _ => exact arrive_ranksHold r core.faultedIdle h
  | leave n k hk _ => exact leaveRank_ranksHold hk core.faultedIdle h
  | grant tag q _ => exact (grant_waitsKept tag q s).ranksHold h
  | abandonedReturns tag => exact WaitsKept.ranksHold (s := s) (waitsKept_of_eq rfl rfl rfl rfl rfl rfl) h
  | walk tag j status entry _ =>
    exact ((completeWalk_waitsKept j status entry s).trans (endDrainIfDone_waitsKept _)).ranksHold h
  | publishWrite p status hp =>
    exact ((publishWrite_waitsKept status core hp).trans (endDrainIfDone_waitsKept _)).ranksHold h
  | chunk tag k c x status data _ =>
    have settled : ∀ u, WaitsKept u (settleStarvation s u) := fun u => waitsKept_of_eq rfl rfl rfl rfl rfl rfl
    exact (((completeChunk_waitsKept k c tag x status data s).trans (settled _)).trans
      (endDrainIfDone_waitsKept _)).ranksHold h
  | forwarded tag e status beats _ =>
    exact (((transitAnswered_waitsKept e tag status beats s).trans (tellFreed_waitsKept e _)).trans
      (endDrainIfDone_waitsKept _)).ranksHold h
  | resetAll _ =>
    have begun : WaitsKept s (setResult .done 0x1F (beginDrain s)) := waitsKept_of_none (answerRanks_all .failed s)
    exact (begun.trans (endDrainIfDone_waitsKept _)).ranksHold h
  | drainEnd => exact (endDrainIfDone_waitsKept s).ranksHold h

theorem ranksHold_iff {s : State} (h : RanksFit s) : RanksHold s ↔ PiecesFit s ∧ WaitsBacked s := by
  rw [waitsBacked_iff h]
  exact ⟨fun hs => ⟨fun k hk => (hs k hk).pieces, fun k hk => (hs k hk).holds⟩,
    fun ⟨hp, hw⟩ k hk => ⟨hp k hk, hw k hk⟩⟩

/-- Settles O58: a wait with ORDER is backed by the queue's order, every other by the events that can end it. -/
theorem waitsStayBacked : Obligations.WaitsStayBacked := by
  rintro s t ⟨hsound, hbounded, horder, hpieces, hwaits⟩ hstep
  have fit : RanksFit s := (ranksFit_iff s).mpr ⟨hbounded, horder⟩
  have fit' : RanksFit t := step_keeps move_keeps_ranksFit hstep fit
  have core : EpochCore s := ((epochSound_iff s).mp hsound).1
  have holds : RanksHold { s with pending := s.pending.tail } := fun k hk =>
    ⟨((ranksHold_iff fit).mpr ⟨hpieces, hwaits⟩ k hk).pieces, ((ranksHold_iff fit).mpr ⟨hpieces, hwaits⟩ k hk).holds⟩
  obtain ⟨hpieces', hwaits'⟩ :=
    (ranksHold_iff fit').mp (event_keeps_ranksHold (step_event hstep) (epochCore_pending _ core) holds)
  obtain ⟨hbounded', horder'⟩ := (ranksFit_iff t).mp fit'
  exact ⟨step_keeps_epochSound hstep hsound, hbounded', horder', hpieces', hwaits'⟩

end Sys2Proof.Machine
end

