-- ==== Sys2Proof/Proofs/Drain.lean ====
section
/-! SUPPORT. The discipline of a soft reset drain (R37, R129, R178): no rank and no PENDING walk comes back during it,
which every move keeps, and the event that leaves nothing outstanding ends it. -/

namespace Sys2Proof.Machine

/-! ## Ranks and walks -/

/-- While a soft reset drains the Hold Queue is empty and no walk is PENDING. -/
def DrainQuiet (s : State) : Prop := s.draining = true → s.ranks = [] ∧ ∀ j ∈ s.walkJobs, j.status ≠ .pending

theorem not_evaluates {s : State} (hd : s.draining = true) (hr : s.ranks = []) : ¬ evaluates s := by
  rintro (h | h)
  · exact nomatch hd.symm.trans h
  · exact h hr

theorem queueKept_nil {s t : State} (h : QueueKept s t) (hs : s.ranks = []) : t.ranks = [] := by
  have keys := h.ranks
  rw [hs] at keys
  exact List.map_eq_nil_iff.mp keys

/-- No rank comes to an empty queue during a drain. -/
theorem queueMove_nil {s t : State} (m : QueueMove s t) (hd : s.draining = true) (hs : s.ranks = []) : t.ranks = [] := by
  cases m with
  | kept hk => exact queueKept_nil hk hs
  | answered reason status _ hk =>
    refine queueKept_nil hk ?_
    rw [answerRanks_ranks, hs]
    rfl
  | parked r dec reason ha _ _ _ => simp [accepting, hd] at ha
  | issued r region targets _ _ ht => rw [ht]; exact hs
  | left n k targets hk _ _ _ _ => rw [hs] at hk; exact nomatch hk
  | emptied ht _ => exact ht

theorem drainQuiet_of_fewer {s t : State} (hm : Move s t) (hd : t.draining = s.draining)
    (hj : ∀ j ∈ t.walkJobs, j ∈ s.walkJobs) (h : DrainQuiet s) : DrainQuiet t := by
  intro ht
  obtain ⟨hr, hjobs⟩ := h (hd ▸ ht)
  exact ⟨queueMove_nil (move_queue hm) (hd ▸ ht) hr, fun j hmem => hjobs j (hj j hmem)⟩

theorem drainQuiet_of_not_draining {s : State} (h : s.draining = false) : DrainQuiet s :=
  fun hd => nomatch h.symm.trans hd

theorem walkTag_isSome_iff (j : WalkJob) : (walkTag j).isSome = true ↔ j.status ≠ .pending := by
  unfold walkTag
  split <;> simp_all

theorem move_keeps_drainQuiet (s t : State) (m : Move s t) (h : DrainQuiet s) : DrainQuiet t := by
  have same : t.draining = s.draining → t.walkJobs = s.walkJobs → DrainQuiet t := fun hd hj =>
    drainQuiet_of_fewer m hd (fun j hmem => hj ▸ hmem) h
  cases m with
  | postWalk w tile s he =>
    intro hd
    exact absurd he (not_evaluates hd (h hd).1)
  | issueWalk tag s _ hd _ => exact drainQuiet_of_not_draining hd
  | wakeWalk w tile s => exact drainQuiet_of_fewer (.wakeWalk w tile s) rfl (fun _ => List.mem_of_mem_eraseP) h
  | answerWalk w tile status s =>
    exact drainQuiet_of_fewer (.answerWalk w tile status s) rfl (fun _ => List.mem_of_mem_eraseP) h
  | publishOk p s _ =>
    exact same (continuePass_frame ..).draining (continuePass_portKept ..).walkJobs
  | publishEnd p s _ =>
    exact same (continuePass_frame ..).draining (continuePass_portKept ..).walkJobs
  | publish d s _ => exact same (enterPublish_frame d s).draining (enterPublish_frame d s).walkJobs
  | discard d s _ _ => exact same (discardDomain_frame d s).draining (discardDomain_frame d s).walkJobs
  | beginDrain s _ =>
    exact fun _ => ⟨answerRanks_all .failed s, fun j hj => (walkTag_isSome_iff j).mp (List.mem_filter.mp hj).2⟩
  | endDrain s _ _ => exact drainQuiet_of_not_draining rfl
  | hardReset cause line s => exact drainQuiet_of_not_draining rfl
  | outside hf => exact same hf.draining hf.walkJobs
  | _ => exact same (by simp [enterOpen]) (by simp [enterOpen])

/-! ## The end of the drain -/

/-- While a soft reset drains something is outstanding. -/
def DrainBusy (s : State) : Prop := s.draining = true → quiescent s = false

theorem drainFits_iff (s : State) : DrainFits s ↔ DrainQuiet s ∧ DrainBusy s := by
  constructor
  · exact fun h => ⟨fun hd => ⟨(h hd).1, (h hd).2.1⟩, fun hd => (h hd).2.2⟩
  · exact fun ⟨hq, hb⟩ hd => ⟨(hq hd).1, (hq hd).2, hb hd⟩

theorem drainBusy_of_not_draining {s : State} (h : s.draining = false) : DrainBusy s :=
  fun hd => nomatch h.symm.trans hd

/-- What the drain's end looks at is as it was. -/
theorem drainBusy_of_eq {s t : State} (hd : t.draining = s.draining) (h₁ : t.walkJobs = s.walkJobs)
    (h₂ : t.publishWrite = s.publishWrite) (h₃ : t.slots = s.slots) (h₄ : t.transit = s.transit) (h : DrainBusy s) :
    DrainBusy t := by
  unfold DrainBusy quiescent walkerBusy
  rw [hd, h₁, h₂, h₃, h₄]
  exact h

/-- An event that tests for the drain's end leaves no drain with nothing outstanding. -/
theorem endDrainIfDone_busy (s : State) : DrainBusy (endDrainIfDone s) := by
  unfold endDrainIfDone
  split
  · exact drainBusy_of_not_draining rfl
  · rename_i h
    intro hd
    rw [hd, Bool.true_and] at h
    exact Bool.eq_false_iff.mpr h

theorem quiescent_iff (s : State) : quiescent s = true ↔
    s.transit = [] ∧ (∀ k : SlotId, s.slots[k] = none) ∧ walkerBusy s = false := by
  simp only [quiescent, Bool.and_eq_true, List.isEmpty_iff, Option.isNone_iff_eq_none, Bool.not_eq_true']
  constructor
  · rintro ⟨⟨⟨ht, h0⟩, h1⟩, hw⟩
    refine ⟨ht, fun k => ?_, hw⟩
    fin_cases k
    · exact h0
    · exact h1
  · exact fun ⟨ht, hk, hw⟩ => ⟨⟨⟨ht, hk 0⟩, hk 1⟩, hw⟩

theorem arbitrate_mapWalker {s : State} (h : arbitrate s = some .mapWalker) : walkerWaits s = true := by
  unfold arbitrate at h
  split at h
  · cases h
  split at h
  · assumption
  split at h
  · cases h
  · split at h <;> cases h

/-- During a drain a grant sends what is outstanding, and takes nothing away. -/
theorem grant_keeps_drainBusy {tag : LinkTag} {q : Requester} {s : State} (hq : arbitrate s = some q)
    (h : DrainBusy s) : DrainBusy (grant tag s q) := by
  cases q with
  | mapWalker =>
    have waits := arbitrate_mapWalker hq
    simp only [walkerWaits, Bool.and_eq_true, Bool.not_eq_true'] at waits
    refine drainBusy_of_not_draining ?_
    rw [← waits.1.2]
    simp only [grant, grantWalker]
    split
    · rfl
    · split <;> rfl
  | forwarded =>
    simp only [grant, grantForwarded]
    split
    · exact h
    · intro hd
      refine Bool.eq_false_iff.mpr fun ht => ?_
      obtain ⟨htransit, hslots, hwalker⟩ := (quiescent_iff _).mp ht
      have none : s.transit = [] := by
        by_contra hne
        exact sendOldest_ne_nil hne htransit
      exact Bool.false_ne_true ((h hd).symm.trans ((quiescent_iff s).mpr ⟨none, hslots, hwalker⟩))
  | copySlot k =>
    simp only [grant, grantSlot]
    split
    · exact h
    split
    · exact h
    · intro _
      refine Bool.eq_false_iff.mpr fun ht => ?_
      have slot := ((quiescent_iff _).mp ht).2.1 k
      simp only [sendOperation_slots, setSlot_slots] at slot
      rw [vector_set_get, if_pos rfl] at slot
      exact nomatch slot

theorem event_keeps_drainBusy {s t : State} (e : Event s t) (quiet : DrainQuiet s) (h : DrainBusy s) : DrainBusy t := by
  cases e with
  | control hc =>
    exact drainBusy_of_eq hc.frame.draining hc.frame.walkJobs hc.frame.publishWrite hc.frame.slots hc.frame.transit h
  | hardReset cause line => exact drainBusy_of_not_draining rfl
  | arrival r ha =>
    simp only [accepting, Bool.and_eq_true, Bool.not_eq_true'] at ha
    exact drainBusy_of_not_draining ((arrive_frame r s).draining.trans ha.2)
  | leave n k hk _ =>
    refine drainBusy_of_not_draining ((leaveRank_frame n k s).draining.trans (Bool.eq_false_iff.mpr fun hd => ?_))
    rw [(quiet hd).1] at hk
    exact nomatch hk
  | grant tag q hq => exact grant_keeps_drainBusy hq h
  | abandonedReturns tag => exact drainBusy_of_eq (s := s) rfl rfl rfl rfl rfl h
  | walk tag j status entry _ => exact endDrainIfDone_busy _
  | publishWrite p status _ => exact endDrainIfDone_busy _
  | chunk tag k c x status data _ => exact endDrainIfDone_busy _
  | forwarded tag e status beats _ => exact endDrainIfDone_busy _
  | resetAll _ => exact endDrainIfDone_busy _
  | drainEnd => exact endDrainIfDone_busy _

/-- Settles O59: every move keeps the queue and the walks quiet, and every event tests for the drain's end or leaves
what is outstanding outstanding. -/
theorem drainKept : Obligations.DrainKept := by
  intro s t hs hstep
  rw [drainFits_iff] at hs ⊢
  obtain ⟨quiet, busy⟩ := hs
  exact ⟨step_keeps move_keeps_drainQuiet hstep quiet,
    event_keeps_drainBusy (step_event hstep) (fun hd => quiet hd) (fun hd => busy hd)⟩

end Sys2Proof.Machine
end

