-- ==== Sys2Proof/Proofs/Resets.lean ====
section
/-! SUPPORT. The step, the resets and the soft reset drain's beginning and end (R161, R178). -/

namespace Sys2Proof.Machine

/-! ## The step -/

theorem step_cons {c : Instr} {rest : List Instr} {s : State} (h : s.pending = c :: rest) :
    step s = exec c { s with pending := rest } := by
  simp only [step, h]

theorem step_nil {s : State} (h : s.pending = []) : step s = .next (refclkPeriod s) := by
  simp only [step, h]

/-- Settles O1. -/
theorem stepRunsFrontCommand : Obligations.StepRunsFrontCommand := fun _ _ _ h => step_cons h

/-- Settles O2: a REFCLK period counts the divider, and its last is a tick in the ascending order of the domains. -/
theorem emptyQueueIsOneRefclkPeriod : Obligations.EmptyQueueIsOneRefclkPeriod := by
  intro s h
  rw [step_nil h, refclkPeriod]
  split
  · rfl
  · rfl

/-! ## Reset values -/

/-- Settles O3: the reset values one by one. -/
theorem hardResetsTakeResetValues : Obligations.HardResetsTakeResetValues := by
  refine ⟨fun line s => ⟨rfl, rfl⟩, fun w => vector_replicate_get .., fun i => vector_replicate_get ..,
    fun e => vector_replicate_get .., rfl, rfl, rfl, rfl, fun d => vector_replicate_get .., rfl, rfl, rfl, rfl,
    fun k => vector_replicate_get .., rfl, rfl, rfl, rfl, fun d => vector_replicate_get .., ?_⟩
  exact ⟨rfl, rfl, rfl, rfl, rfl, rfl, rfl, rfl, rfl, rfl, rfl, rfl, rfl, rfl, rfl⟩

theorem reset_core : EpochCore State.reset := core_of_nothing rfl rfl rfl rfl rfl rfl

theorem reset_epochSound : EpochSound State.reset :=
  (epochSound_iff _).mpr ⟨reset_core, (drainsHeld_iff _).mpr fun d => drainHeld_of_reset rfl d⟩

/-- Settles O60: each invariant of a machine whose tables, queues and slots are empty. -/
theorem resetHasEveryInvariant : Obligations.ResetHasEveryInvariant := by
  obtain ⟨hcounted, -, hquota, hsequences⟩ := (journalFits_iff _).mp (journalFits_of_reset (t := State.reset) rfl rfl)
  have noSlot : ∀ k : SlotId, State.reset.slots[k] = none := fun k => vector_replicate_get ..
  have noCache : ∀ i : Fin 32, State.reset.cache[i] = none := fun i => vector_replicate_get ..
  refine ⟨rfl, hcounted, hquota, hsequences, Nat.zero_le _, fun i j a b ha => ?_, fun w => ?_, Nat.two_pow_pos _,
    fun h => (nomatch h), Nat.zero_le _, rfl, Nat.zero_le _, ⟨List.nodup_nil, fun k hk => absurd hk List.not_mem_nil⟩,
    Nat.zero_le _, List.nodup_nil, fun k c hc => ?_, starvationFits_of_zero rfl, reset_epochSound,
    fun k hk => absurd hk List.not_mem_nil, fun k hk => absurd hk List.not_mem_nil, fun h => (nomatch h),
    fun tag htag => absurd htag List.not_mem_nil⟩
  · rw [noCache] at ha
    exact nomatch ha
  · rw [show State.reset.windows[w] = Window.reset from vector_replicate_get ..]
    decide
  · rw [noSlot] at hc
    exact nomatch hc

/-! ## RESET_ALL -/

/-- The response to a request that a soft reset answers (R129). -/
def failedResponse (k : Rank) : Response :=
  { initiator := k.request.initiator, tag := k.request.tag, status := .failed, dup := false, beats := [] }

theorem answerAll_responses (s : State) :
    (answerRanks (fun _ => true) .failed s).responses = s.responses ++ s.ranks.map failedResponse := by
  rw [answerRanks_responses, List.filter_eq_self.mpr fun _ _ => rfl]
  rfl

theorem filter_issued (js : List WalkJob) :
    (js.filter fun j => (walkTag j).isSome) = js.filter fun j => decide (j.status ≠ .pending) := by
  refine List.filter_congr fun j _ => ?_
  rw [Bool.eq_iff_iff, walkTag_isSome_iff, decide_eq_true_iff]

/-- The state in which a drain begins (R178, R129, R37). -/
theorem beginDrain_eq (s : State) : beginDrain s = { s with
    draining := true
    ranks := []
    responses := s.responses ++ s.ranks.map failedResponse
    walkJobs := s.walkJobs.filter fun j => decide (j.status ≠ .pending) } := by
  have fields : beginDrain s = { s with
      draining := true, ranks := (answerRanks (fun _ => true) .failed s).ranks
      responses := (answerRanks (fun _ => true) .failed s).responses
      walkJobs := s.walkJobs.filter fun j => (walkTag j).isSome } := rfl
  rw [fields, answerRanks_all, answerAll_responses, filter_issued]

/-- A walk that is PENDING is no outstanding operation, so that the drain's beginning leaves what is outstanding. -/
theorem quiescent_beginDrain (s : State) : quiescent (setResult .done 0x1F (beginDrain s)) = quiescent s := by
  have busy : walkerBusy (setResult .done 0x1F (beginDrain s)) = walkerBusy s := by
    simp [walkerBusy, List.any_filter]
  unfold quiescent
  rw [busy]
  rfl

theorem endDrainIfDone_of_quiescent {s : State} (hd : s.draining = true) (h : quiescent s = true) :
    endDrainIfDone s = endDrain s := by
  rw [endDrainIfDone, if_pos (by rw [hd, h]; rfl)]

theorem endDrainIfDone_of_not_quiescent {s : State} (h : quiescent s = false) : endDrainIfDone s = s := by
  rw [endDrainIfDone, if_neg (by simp [h])]

/-- Settles O4: the drain that begins does not end in its own event. -/
theorem resetAllBeginsDrain : Obligations.ResetAllBeginsDrain := by
  intro s hdrain hbusy
  rw [exec_resetAll_decided hdrain, endDrainIfDone_of_not_quiescent ((quiescent_beginDrain s).trans hbusy), beginDrain_eq]
  rfl

/-! ## Completions in a drain -/

/-- What becomes of a completion that leaves `t` outside a drain, when a drain goes on in `s`. -/
def drainOutcome (s t : State) : State :=
  if quiescent t = true then
    { State.reset with
      fault := t.fault, lost := t.lost, lineLevel := s.lineLevel, resetCause := .soft, abandoned := t.abandoned
      responses := t.responses, portOperations := s.portOperations, pending := s.pending }
  else { t with draining := true }

theorem draining_same {s : State} (h : s.draining = true) : { s with draining := true } = s := by
  rw [← h]

/-- A completion that is not acted on leaves the drain as it is. -/
theorem drainOutcome_of_busy {s t : State} (ht : t.draining = true) (h : quiescent t = false) :
    drainOutcome s { t with draining := false } = t := by
  have busy : quiescent { t with draining := false } = false := h
  rw [drainOutcome, busy]
  exact draining_same ht

/-- A completion whose work `f` neither looks at the drain nor ends it does the same in a drain, which then ends when
nothing is outstanding. -/
theorem drain_completion {f : State → State} (hf : KeepsDraining f) {s : State} (hframe : CompletionFrame s (f s))
    (hd : s.draining = true) :
    endDrainIfDone (f { s with draining := false }) = { f s with draining := false } ∧
      endDrainIfDone (f s) = drainOutcome s { f s with draining := false } := by
  have hfd : (f s).draining = true := hframe.draining.trans hd
  refine ⟨by rw [hf false s]; exact endDrainIfDone_of_not_draining rfl, ?_⟩
  cases hq : quiescent (f s) with
  | false => rw [endDrainIfDone_of_not_quiescent hq, drainOutcome_of_busy hfd hq]
  | true =>
    have quiet : quiescent { f s with draining := false } = true := hq
    rw [endDrainIfDone_of_quiescent hfd hq, drainOutcome, quiet, endDrain, hframe.lineLevel, hframe.portOperations,
      hframe.pending]
    rfl

theorem publishCompletion_keepsDraining (p : PublishWrite) (status : Completion) :
    KeepsDraining fun s => continuePass p.domain (publishOutcome p status { s with publishWrite := none }) := by
  intro b s
  dsimp only
  rw [← continuePass_keepsDraining p.domain b, ← publishOutcome_keepsDraining p status b]

theorem publishCompletion_frame (p : PublishWrite) (status : Completion) (s : State) :
    CompletionFrame s (continuePass p.domain (publishOutcome p status { s with publishWrite := none })) := by
  have cleared : CompletionFrame s { s with publishWrite := none } := by constructor <;> rfl
  exact (cleared.trans (publishOutcome_frame ..)).trans (continuePass_frame ..)

theorem chunkCompletion_keepsDraining (k : SlotId) (c : CopyJob) (tag : LinkTag) (x : ChunkInProgress)
    (status : Completion) (data : Chunk) :
    KeepsDraining fun s => settleStarvation s (completeChunk k c tag x status data s) := by
  intro b s
  dsimp only
  rw [completeChunk_keepsDraining k c tag x status data b s]
  rfl

theorem chunkCompletion_frame (k : SlotId) (c : CopyJob) (tag : LinkTag) (x : ChunkInProgress) (status : Completion)
    (data : Chunk) (s : State) :
    CompletionFrame s (settleStarvation s (completeChunk k c tag x status data s)) :=
  (completeChunk_frame ..).trans (settleStarvation_frame ..)

/-! ### The dispatch of a completion by its link tag (R154, R161) -/

section Dispatch

variable {tag : LinkTag} {s : State}

theorem exec_walkCompletion_abandoned (h : tag ∈ s.abandoned) (status : Completion) (entry : Beat) :
    exec (.walkCompletion tag status entry) s = .next (dropAbandoned tag s) := by
  simp [exec, execWalkCompletion, h]

theorem exec_publishWriteCompletion_abandoned (h : tag ∈ s.abandoned) (status : Completion) :
    exec (.publishWriteCompletion tag status) s = .next (dropAbandoned tag s) := by
  simp [exec, execPublishWriteCompletion, h]

theorem exec_chunkCompletion_abandoned (h : tag ∈ s.abandoned) (status : Completion) (data : Chunk) :
    exec (.chunkCompletion tag status data) s = .next (dropAbandoned tag s) := by
  simp [exec, execChunkCompletion, h]

theorem exec_transitCompletion_abandoned (h : tag ∈ s.abandoned) (status : Completion) (beats : List Beat) :
    exec (.transitCompletion tag status beats) s = .next (dropAbandoned tag s) := by
  simp [exec, execTransitCompletion, h]

theorem exec_walkCompletion_unmatched (h : tag ∉ s.abandoned)
    (hj : s.walkJobs.find? (fun k => walkTag k == some tag) = none) (status : Completion) (entry : Beat) :
    exec (.walkCompletion tag status entry) s = .next s := by
  simp only [exec, execWalkCompletion, List.contains_iff_mem, h, if_false, hj]

theorem exec_publishWriteCompletion_unmatched (h : tag ∉ s.abandoned)
    (hp : ∀ p, s.publishWrite = some p → p.tag ≠ tag) (status : Completion) :
    exec (.publishWriteCompletion tag status) s = .next s := by
  simp only [exec, execPublishWriteCompletion, List.contains_iff_mem, h, if_false]
  split
  · rfl
  · rw [if_neg (hp _ ‹_›)]

theorem exec_publishWriteCompletion_matched {p : PublishWrite} (h : tag ∉ s.abandoned) (hp : s.publishWrite = some p)
    (htag : p.tag = tag) (status : Completion) : exec (.publishWriteCompletion tag status) s =
      .next (endDrainIfDone (continuePass p.domain (publishOutcome p status { s with publishWrite := none }))) := by
  simp [exec, execPublishWriteCompletion, h, hp, htag]

theorem exec_chunkCompletion_unmatched (h : tag ∉ s.abandoned) (hc : findChunk tag s = none) (status : Completion)
    (data : Chunk) : exec (.chunkCompletion tag status data) s = .next s := by
  simp only [exec, execChunkCompletion, List.contains_iff_mem, h, if_false, hc]

theorem exec_chunkCompletion_matched {k : SlotId} {c : CopyJob} {x : ChunkInProgress} (h : tag ∉ s.abandoned)
    (hc : findChunk tag s = some (k, c, x)) (status : Completion) (data : Chunk) :
    exec (.chunkCompletion tag status data) s =
      .next (endDrainIfDone (settleStarvation s (completeChunk k c tag x status data s))) := by
  simp only [exec, execChunkCompletion, List.contains_iff_mem, h, if_false, hc]

theorem exec_transitCompletion_unmatched (h : tag ∉ s.abandoned) (he : s.transit.find? (sentUnder tag) = none)
    (status : Completion) (beats : List Beat) : exec (.transitCompletion tag status beats) s = .next s := by
  simp only [exec, execTransitCompletion, List.contains_iff_mem, h, if_false, he]

theorem exec_transitCompletion_matched {e : TransitEntry} (h : tag ∉ s.abandoned)
    (he : s.transit.find? (sentUnder tag) = some e) (status : Completion) (beats : List Beat) :
    exec (.transitCompletion tag status beats) s = .next (endDrainIfDone (completeTransit e tag status beats s)) := by
  simp only [exec, execTransitCompletion, List.contains_iff_mem, h, if_false, he]

end Dispatch

/-- What the completion `c` does, whether a drain goes on or not: it is not acted on, or work that does not look at the
drain is followed by the test for the drain's end. -/
inductive CompletionWork (c : Instr) (s : State) : Prop
  | ignored (f : State → State) : KeepsDraining f → (f s).draining = s.draining → quiescent (f s) = quiescent s →
      (∀ b, exec c { s with draining := b } = .next (f { s with draining := b })) → CompletionWork c s
  | taken (f : State → State) : KeepsDraining f → CompletionFrame s (f s) →
      (∀ b, exec c { s with draining := b } = .next (endDrainIfDone (f { s with draining := b }))) →
      CompletionWork c s

theorem completionWork_unmatched {c : Instr} {s : State}
    (h : ∀ b, exec c { s with draining := b } = .next { s with draining := b }) : CompletionWork c s :=
  .ignored (fun s => s) (fun _ _ => rfl) rfl rfl h

theorem completionWork_abandoned {c : Instr} {tag : LinkTag} {s : State}
    (h : ∀ b, exec c { s with draining := b } = .next (dropAbandoned tag { s with draining := b })) :
    CompletionWork c s :=
  .ignored (dropAbandoned tag) (fun _ _ => rfl) rfl rfl h

theorem completionWork {c : Instr} (hc : IsCompletion c) (s : State) : CompletionWork c s := by
  obtain ⟨tag, status, entry, rfl⟩ | ⟨tag, status, rfl⟩ | ⟨tag, status, data, rfl⟩ | ⟨tag, status, beats, rfl⟩ := hc
  · by_cases ha : tag ∈ s.abandoned
    · exact completionWork_abandoned fun b =>
        exec_walkCompletion_abandoned (s := { s with draining := b }) ha ..
    cases hj : s.walkJobs.find? (fun k => walkTag k == some tag) with
    | none => exact completionWork_unmatched fun b =>
        exec_walkCompletion_unmatched (s := { s with draining := b }) ha hj ..
    | some j =>
      exact .taken _ (completeWalk_keepsDraining j status entry) (completeWalk_frame ..) fun b =>
        exec_walkCompletion_issued (s := { s with draining := b }) ha hj ..
  · by_cases ha : tag ∈ s.abandoned
    · exact completionWork_abandoned fun b =>
        exec_publishWriteCompletion_abandoned (s := { s with draining := b }) ha ..
    by_cases hp : ∃ p, s.publishWrite = some p ∧ p.tag = tag
    · obtain ⟨p, hp, htag⟩ := hp
      exact .taken _ (publishCompletion_keepsDraining p status) (publishCompletion_frame p status s) fun b =>
        exec_publishWriteCompletion_matched (s := { s with draining := b }) ha hp htag ..
    · exact completionWork_unmatched fun b =>
        exec_publishWriteCompletion_unmatched (s := { s with draining := b }) ha
        (fun p h htag => hp ⟨p, h, htag⟩) ..
  · by_cases ha : tag ∈ s.abandoned
    · exact completionWork_abandoned fun b =>
        exec_chunkCompletion_abandoned (s := { s with draining := b }) ha ..
    cases hx : findChunk tag s with
    | none => exact completionWork_unmatched fun b =>
        exec_chunkCompletion_unmatched (s := { s with draining := b }) ha hx ..
    | some found =>
      obtain ⟨k, c, x⟩ := found
      exact .taken _ (chunkCompletion_keepsDraining k c tag x status data)
        (chunkCompletion_frame k c tag x status data s) fun b =>
          exec_chunkCompletion_matched (s := { s with draining := b }) ha hx ..
  · by_cases ha : tag ∈ s.abandoned
    · exact completionWork_abandoned fun b =>
        exec_transitCompletion_abandoned (s := { s with draining := b }) ha ..
    cases he : s.transit.find? (sentUnder tag) with
    | none => exact completionWork_unmatched fun b =>
        exec_transitCompletion_unmatched (s := { s with draining := b }) ha he ..
    | some e =>
      exact .taken _ (completeTransit_keepsDraining e tag status beats) (completeTransit_frame ..) fun b =>
        exec_transitCompletion_matched (s := { s with draining := b }) ha he ..

/-- In a drain with something outstanding a completion does what it does outside one, and may end the drain. -/
theorem completion_in_drain {c : Instr} (hc : IsCompletion c) {s : State} (hd : s.draining = true)
    (hbusy : quiescent s = false) :
    ∃ t, exec c { s with draining := false } = .next t ∧ exec c s = .next (drainOutcome s t) := by
  have here : ∀ t, exec c { s with draining := true } = .next t → exec c s = .next t := fun t h => by
    rwa [draining_same hd] at h
  cases completionWork hc s with
  | ignored f hf hkeep hquiet hexec =>
    refine ⟨{ f s with draining := false }, (hexec false).trans (by rw [hf false s]), here _ ((hexec true).trans ?_)⟩
    rw [drainOutcome_of_busy (hkeep.trans hd) (hquiet.trans hbusy), draining_same hd]
  | taken f hf hframe hexec =>
    obtain ⟨outside, inside⟩ := drain_completion hf hframe hd
    refine ⟨{ f s with draining := false }, (hexec false).trans (by rw [outside]), here _ ((hexec true).trans ?_)⟩
    rw [draining_same hd, inside]

/-- Settles O5: the drain's end by itself, at RESET_ALL, and at a completion. -/
theorem drainEnds : Obligations.DrainEnds := by
  refine ⟨fun s hd hq => ?_, fun s _ hq => ?_, fun s hd hq => ?_, fun c s hc hd hq => completion_in_drain hc hd hq⟩
  · exact congrArg Host.Outcome.next (endDrainIfDone_of_quiescent hd hq)
  · exact congrArg Host.Outcome.next (endDrainIfDone_of_not_quiescent hq)
  · rw [exec_resetAll_decided hd, endDrainIfDone_of_quiescent rfl ((quiescent_beginDrain s).trans hq), beginDrain_eq]
    rfl

end Sys2Proof.Machine
end

