-- ==== Sys2Proof/Proofs/Transitions.lean ====
section
/-! SUPPORT. What the Epoch Unit's transitions leave, whole: the releases and discards, the entry into PUBLISH, and the
two tests of a DRAIN condition (R69, R72, R77, R78, R90, R94). -/

namespace Sys2Proof.Machine

/-! ## Release and discard -/

theorem vector_set_twice {α : Type} {n : Nat} (v : Vector α n) (i : Fin n) (x y : α) :
    (v.set i x).set i y = v.set i y := Vector.set_set ..

theorem vector_set_get_self {α : Type} {n : Nat} (v : Vector α n) (i : Fin n) (x : α) : (v.set i x)[i] = x := by
  rw [vector_set_get, if_pos rfl]

/-- A domain's record as it enters OPEN (R43, R44). -/
def reopened (r : DomainRecord) : DomainRecord :=
  { r with state := .opened, epoch := r.epoch + 1, nextSequence := 0, sequenceSpent := false }

/-- A deadline counter that has taken a domain's reload (R163). -/
def reloaded (r : DomainRecord) : DeadlineCounter :=
  { value := r.settings.deadlineReload.toNat, running := decide (r.settings.deadlineReload ≠ 0) }

theorem enterOpen_eq (d : DomainId) (s : State) :
    enterOpen d s = { s with
      domains := s.domains.set d (reopened s.domains[d])
      deadlines := s.deadlines.set d (reloaded s.domains[d]) } := by
  simp only [enterOpen, loadDeadline, settingsOf, modifyDomain, vector_set_get_self]
  rfl

/-- A domain's record after RELEASE (R77, R78). -/
def releasedRecord (r : DomainRecord) : DomainRecord :=
  if r.settings.autoReopen then
    { r with state := .opened, epoch := r.epoch + 1, entryCount := 0, nextSequence := 0, sequenceSpent := false }
  else { r with state := .closed, entryCount := 0 }

/-- The deadline counters after RELEASE (R78, R163). -/
def releasedDeadlines (d : DomainId) (s : State) : Vector DeadlineCounter 4 :=
  if s.domains[d].settings.autoReopen then s.deadlines.set d (reloaded s.domains[d]) else s.deadlines

theorem releaseDomain_eq (d : DomainId) (s : State) :
    releaseDomain d s = { s with
      domains := s.domains.set d (releasedRecord s.domains[d])
      deadlines := releasedDeadlines d s
      changes := s.changes.filter fun e => !decide (e.domain = d)
      freeFrames := s.freeFrames ++ releasedFrames d s
      latches := s.latches ||| 1#18 <<< (6 + d.val)
      ranks := s.ranks.map (wake (parkedOnDomain d)) } := by
  unfold releaseDomain releasedRecord releasedDeadlines
  by_cases reopens : s.domains[d].settings.autoReopen
  · simp only [settingsOf, reopens, if_true, enterOpen_eq, setLatch, freeEntries, modifyDomain, appendFrames,
      vector_set_get_self, vector_set_twice]
    rfl
  · simp only [settingsOf, reopens, if_false, setDomainState, setLatch, freeEntries, modifyDomain, appendFrames,
      vector_set_get_self, vector_set_twice, Bool.false_eq_true]
    rfl

theorem discardDomain_eq (d : DomainId) (s : State) :
    discardDomain d s = { s with
      domains := s.domains.set d { s.domains[d] with state := .closed, entryCount := 0 }
      changes := s.changes.filter fun e => !decide (e.domain = d)
      freeFrames := s.freeFrames ++ discardedFrames d s
      latches := s.latches ||| 1#18 <<< (10 + d.val)
      ranks := s.ranks.map (wake (parkedOnDomain d)) } := by
  simp only [discardDomain, setDomainState, setLatch, freeEntries, modifyDomain, appendFrames, vector_set_get_self,
    vector_set_twice]
  rfl

theorem releasedFrames_eq {d : DomainId} {es : List ChangeEntry} {s : State} (hperm : es.Perm (entriesOf d s))
    (hsorted : es.Pairwise fun a b => a.sequence < b.sequence) : releasedFrames d s = es.map (·.oldFrame) := by
  rw [releasedFrames, bySequence_eq hperm hsorted]

theorem discardedFrames_eq {d : DomainId} {es : List ChangeEntry} {s : State} (hperm : es.Perm (entriesOf d s))
    (hsorted : es.Pairwise fun a b => b.sequence < a.sequence) : discardedFrames d s = es.map (·.newFrame) := by
  rw [discardedFrames, bySequence_eq ((List.reverse_perm es).trans hperm) (List.pairwise_reverse.mpr hsorted),
    List.reverse_reverse]

theorem filter_of_entriesOf_nil {d : DomainId} {s : State} (h : entriesOf d s = []) :
    (s.changes.filter fun e => !decide (e.domain = d)) = s.changes := by
  rw [List.filter_eq_self]
  intro e he
  have other := List.filter_eq_nil_iff.mp h e he
  simpa using other

/-! ## The tests of a DRAIN condition -/

/-- A domain that reaches PUBLISH with a LIVE entry, its counter already stopped (R72). -/
def published (d : DomainId) (s : State) : State :=
  { s with
    domains := s.domains.set d { s.domains[d] with state := .committing .publish }
    deadlines := s.deadlines.set d { s.deadlines[d] with running := false }
    publication := s.publication ++ [{ domain := d, cursor := none }] }

theorem enterPublish_of_live {d : DomainId} {s : State} (h : (entriesOf d s).any isLive = true) :
    enterPublish d s = published d s := by
  simp only [enterPublish, h, if_true]
  rfl

/-- What RELEASE leaves of a domain that comes from DRAIN: `es` are its entries in ascending sequence number. -/
def released (d : DomainId) (es : List ChangeEntry) (s : State) : State :=
  { s with
    domains := s.domains.set d (releasedRecord s.domains[d])
    deadlines := s.deadlines.set d
      (if s.domains[d].settings.autoReopen then reloaded s.domains[d] else { s.deadlines[d] with running := false })
    changes := s.changes.filter fun e => !decide (e.domain = d)
    freeFrames := s.freeFrames ++ es.map (·.oldFrame)
    latches := s.latches ||| 1#18 <<< (6 + d.val)
    ranks := s.ranks.map (wake (parkedOnDomain d)) }

theorem releasedRecord_state (r : DomainRecord) (st : DomainState) :
    releasedRecord { r with state := st } = releasedRecord r := rfl

/-- A pass that begins with nothing LIVE ends at once (R72, R76). -/
theorem enterPublish_of_nothing {d : DomainId} {es : List ChangeEntry} {s : State}
    (hnone : (entriesOf d s).any isLive = false) (hperm : es.Perm (entriesOf d s))
    (hsorted : es.Pairwise fun a b => a.sequence < b.sequence) : enterPublish d s = released d es s := by
  have frames : releasedFrames d (stopDeadline d (setDomainState d (.committing .publish) s)) = es.map (·.oldFrame) :=
    releasedFrames_eq hperm hsorted
  have kept : (entriesOf d (stopDeadline d (setDomainState d (.committing .publish) s))).any isLive = false := hnone
  rw [enterPublish, hnone, if_neg Bool.false_ne_true, endPass, kept, if_neg Bool.false_ne_true, releaseDomain_eq, frames]
  simp only [released, releasedDeadlines, stopDeadline, setDomainState, modifyDomain, vector_set_get_self,
    vector_set_twice, releasedRecord_state]
  by_cases reopens : s.domains[d].settings.autoReopen
  · simp only [reopens, if_true]
    rfl
  · simp only [reopens, if_false, Bool.false_eq_true]

/-- Waits that end before a release end no more in it (R53). -/
theorem released_endDomainWaits (d : DomainId) (es : List ChangeEntry) (s : State) :
    released d es (endDomainWaits d s) = released d es s := by
  unfold released endDomainWaits endWaits
  rw [map_wake_twice (parkedOnDomain_eligible d)]

/-- What DISCARD leaves of a domain: `es` are its entries in descending sequence number (R94). -/
def discarded (d : DomainId) (es : List ChangeEntry) (s : State) : State :=
  { s with
    domains := s.domains.set d { s.domains[d] with state := .closed, entryCount := 0 }
    changes := s.changes.filter fun e => !decide (e.domain = d)
    freeFrames := s.freeFrames ++ es.map (·.newFrame)
    latches := s.latches ||| 1#18 <<< (10 + d.val)
    ranks := s.ranks.map (wake (parkedOnDomain d)) }

section Tests

variable {d : DomainId} {s : State}

theorem testCommitDrain_of_live (hstate : domainState d s = .committing .drain) (hdrained : commitDrained d s = true)
    (hlive : (entriesOf d s).any isLive = true) : testCommitDrain d s = published d (endDomainWaits d s) := by
  have kept : (entriesOf d (endDomainWaits d s)).any isLive = true := hlive
  rw [testCommitDrain, if_pos ⟨hstate, hdrained⟩, enterPublish_of_live kept]

theorem testCommitDrain_of_nothing {es : List ChangeEntry} (hstate : domainState d s = .committing .drain)
    (hdrained : commitDrained d s = true) (hnone : (entriesOf d s).any isLive = false) (hperm : es.Perm (entriesOf d s))
    (hsorted : es.Pairwise fun a b => a.sequence < b.sequence) : testCommitDrain d s = released d es s := by
  have kept : (entriesOf d (endDomainWaits d s)).any isLive = false := hnone
  have keptPerm : es.Perm (entriesOf d (endDomainWaits d s)) := hperm
  rw [testCommitDrain, if_pos ⟨hstate, hdrained⟩, enterPublish_of_nothing kept keptPerm hsorted,
    released_endDomainWaits]

theorem testCommitDrain_of_not_drained (h : domainState d s = .committing .drain → commitDrained d s = false) :
    testCommitDrain d s = s := by
  refine if_neg fun ⟨hstate, hdrained⟩ => ?_
  rw [h hstate] at hdrained
  exact nomatch hdrained

theorem testRollbackDrain_of_drained {es : List ChangeEntry} (hstate : domainState d s = .rollingBack)
    (hdrained : rollbackDrained d s = true) (hperm : es.Perm (entriesOf d s))
    (hsorted : es.Pairwise fun a b => b.sequence < a.sequence) : testRollbackDrain d s = discarded d es s := by
  rw [testRollbackDrain, if_pos ⟨hstate, hdrained⟩, discardDomain_eq, discardedFrames_eq hperm hsorted]
  rfl

theorem testRollbackDrain_of_not_drained (h : domainState d s = .rollingBack → rollbackDrained d s = false) :
    testRollbackDrain d s = s := by
  refine if_neg fun ⟨hstate, hdrained⟩ => ?_
  rw [h hstate] at hdrained
  exact nomatch hdrained

theorem testDrain_of_committing (h : domainState d s = .committing .drain) : testDrain d s = testCommitDrain d s := by
  simp only [testDrain, h]

theorem testDrain_of_rollingBack (h : domainState d s = .rollingBack) : testDrain d s = testRollbackDrain d s := by
  simp only [testDrain, h]

/-- A test moves no domain whose DRAIN condition does not hold, and none outside DRAIN. -/
theorem testDrain_of_not_drained (hc : domainState d s = .committing .drain → commitDrained d s = false)
    (hr : domainState d s = .rollingBack → rollbackDrained d s = false) : testDrain d s = s := by
  unfold testDrain
  split
  · exact testCommitDrain_of_not_drained hc
  · exact testRollbackDrain_of_not_drained hr
  all_goals rfl

end Tests

/-- Settles O49: the test that belongs to the domain's state, by its outcome. -/
theorem drainTestMovesDomain : Obligations.DrainTestMovesDomain := by
  intro d es s
  refine ⟨fun hstate hdrained hlive => ?_, fun hstate hdrained hnone hperm hsorted => ?_,
    fun hstate hdrained hperm hsorted => ?_, fun hc hr => testDrain_of_not_drained hc hr⟩
  · rw [testDrain_of_committing hstate, testCommitDrain_of_live hstate hdrained hlive]
    rfl
  · rw [testDrain_of_committing hstate, testCommitDrain_of_nothing hstate hdrained hnone hperm hsorted]
    rfl
  · rw [testDrain_of_rollingBack hstate, testRollbackDrain_of_drained hstate hdrained hperm hsorted]
    rfl

/-! ## The entry into DRAIN -/

/-- A domain in a phase of its commit or rollback, its deadline counter stopped with its value kept (R68, R89, R164). -/
def stopped (d : DomainId) (st : DomainState) (s : State) : State :=
  { s with
    domains := s.domains.set d { s.domains[d] with state := st }
    deadlines := s.deadlines.set d { s.deadlines[d] with running := false } }

theorem startPhase_eq (d : DomainId) (st : DomainState) (s : State) :
    stopDeadline d (setDomainState d st s) = stopped d st s := rfl

theorem domainState_stopped (d : DomainId) (st : DomainState) (s : State) : domainState d (stopped d st s) = st :=
  domainState_startPhase d st s

section Entry

variable {d : DomainId} {s : State}

theorem enterCommit_of_not_drained (h : commitDrained d s = false) :
    enterCommit d s = stopped d (.committing .drain) s := by
  have kept : commitDrained d (stopped d (.committing .drain) s) = false := h
  rw [enterCommit, startPhase_eq, testCommitDrain_of_not_drained fun _ => kept]

theorem published_stopped (d : DomainId) (st : DomainState) (s : State) :
    published d (stopped d st s) = published d s := by
  simp only [published, stopped, vector_set_get_self, vector_set_twice]

theorem published_wake_stopped (d : DomainId) (st : DomainState) (s : State) :
    published d (endDomainWaits d (stopped d st s)) = published d (endDomainWaits d s) :=
  published_stopped d st (endDomainWaits d s)

theorem enterCommit_of_live (hdrained : commitDrained d s = true) (hlive : (entriesOf d s).any isLive = true) :
    enterCommit d s = published d (endDomainWaits d s) := by
  have kept : commitDrained d (stopped d (.committing .drain) s) = true := hdrained
  have keptLive : (entriesOf d (stopped d (.committing .drain) s)).any isLive = true := hlive
  rw [enterCommit, startPhase_eq, testCommitDrain_of_live (domainState_stopped ..) kept keptLive, published_wake_stopped]

theorem released_stopped (d : DomainId) (st : DomainState) (es : List ChangeEntry) (s : State) :
    released d es (stopped d st s) = released d es s := by
  simp only [released, stopped, vector_set_get_self, vector_set_twice, releasedRecord_state]
  rfl

theorem enterCommit_of_nothing {es : List ChangeEntry} (hdrained : commitDrained d s = true)
    (hnone : (entriesOf d s).any isLive = false) (hperm : es.Perm (entriesOf d s))
    (hsorted : es.Pairwise fun a b => a.sequence < b.sequence) : enterCommit d s = released d es s := by
  have kept : commitDrained d (stopped d (.committing .drain) s) = true := hdrained
  have keptNone : (entriesOf d (stopped d (.committing .drain) s)).any isLive = false := hnone
  have keptPerm : es.Perm (entriesOf d (stopped d (.committing .drain) s)) := hperm
  rw [enterCommit, startPhase_eq, testCommitDrain_of_nothing (domainState_stopped ..) kept keptNone keptPerm hsorted,
    released_stopped]

/-- A commit of an epoch that journaled nothing (R72, R77). -/
theorem enterCommit_of_empty (hdrained : commitDrained d s = true) (hempty : entriesOf d s = []) :
    enterCommit d s = { released d [] s with changes := s.changes, freeFrames := s.freeFrames } := by
  rw [enterCommit_of_nothing (es := []) hdrained (by rw [hempty]; rfl) (by rw [hempty]) .nil]
  simp only [released, filter_of_entriesOf_nil hempty, List.map_nil, List.append_nil]

theorem enterRollback_of_not_drained (h : rollbackDrained d s = false) :
    enterRollback d s = stopped d .rollingBack s := by
  have kept : rollbackDrained d (stopped d .rollingBack s) = false := h
  rw [enterRollback, startPhase_eq, testRollbackDrain_of_not_drained fun _ => kept]

/-- A rollback whose DRAIN condition holds as it starts: discarded, its counter stopped (R89, R94). -/
theorem enterRollback_of_drained {es : List ChangeEntry} (hdrained : rollbackDrained d s = true)
    (hperm : es.Perm (entriesOf d s)) (hsorted : es.Pairwise fun a b => b.sequence < a.sequence) :
    enterRollback d s =
      { discarded d es s with deadlines := s.deadlines.set d { s.deadlines[d] with running := false } } := by
  have kept : rollbackDrained d (stopped d .rollingBack s) = true := hdrained
  have keptPerm : es.Perm (entriesOf d (stopped d .rollingBack s)) := hperm
  rw [enterRollback, startPhase_eq, testRollbackDrain_of_drained (domainState_stopped ..) kept keptPerm hsorted]
  simp only [discarded, stopped, vector_set_get_self, vector_set_twice]

end Entry

end Sys2Proof.Machine
end

