-- ==== Sys2Proof/Proofs/Offsets.lean ====
section
/-! SUPPORT. The offsets of the management port: the word that an offset names, and back (Table 12-5). -/

namespace Sys2Proof

theorem wordAt_offsetOf (word : RegisterWord) : wordAt (offsetOf word) = some word := by
  cases word with
  | faultRecord k => revert k; decide
  | domainStatus d => revert d; decide
  | domainEpoch d => revert d; decide
  | domainSettings d word => revert d; cases word <;> decide
  | window w word => revert w; cases word <;> decide
  | initiator i word => revert i; cases word <;> decide
  | _ => rfl

theorem toNat_extract (offset : Offset) (low n : Nat) :
    (offset.extractLsb' low n).toNat = offset.toNat / 2 ^ low % 2 ^ n := by
  rw [BitVec.extractLsb'_toNat, Nat.shiftRight_eq_div_pow]

/-- A field that reaches to the top of the offset. -/
theorem toNat_extract_high (offset : Offset) {low n : Nat} (h : low + n = 16) :
    (offset.extractLsb' low n).toNat = offset.toNat / 2 ^ low := by
  rw [toNat_extract, Nat.mod_eq_of_lt]
  refine Nat.div_lt_of_lt_mul ?_
  rw [← Nat.pow_add, h]
  exact offset.isLt

theorem getLsbD_two (offset : Offset) : offset.getLsbD 2 = decide (offset.toNat / 4 % 2 = 1) := by
  rw [BitVec.getLsbD, Nat.testBit_eq_decide_div_mod_eq]

/-- The number of a word's offset (Table 12-5). -/
def offsetNumber : RegisterWord → Nat
  | .command => 0x0000
  | .argument0 => 0x0004
  | .argument1 => 0x0008
  | .commandResult => 0x000C
  | .lastWriteStatus => 0x0010
  | .resetCause => 0x0014
  | .faultRecord k => 0x0020 + 4 * k.val
  | .alertLatches => 0x0030
  | .alertEnables => 0x0034
  | .poolThreshold => 0x0038
  | .timebaseAndEdge => 0x003C
  | .poolStatus => 0x0040
  | .markAndOccupancy => 0x0044
  | .domainStatus d => 0x0100 + 8 * d.val
  | .domainEpoch d => 0x0104 + 8 * d.val
  | .domainSettings d .settings0 => 0x0140 + 8 * d.val
  | .domainSettings d .settings1 => 0x0144 + 8 * d.val
  | .window w .control => 0x0200 + 16 * w.val
  | .window w .base => 0x0204 + 16 * w.val
  | .window w .high => 0x0208 + 16 * w.val
  | .window w .mapBase => 0x020C + 16 * w.val
  | .initiator i .control => 0x0300 + 16 * i.val
  | .initiator i .lowBound => 0x0304 + 16 * i.val
  | .initiator i .highBound => 0x0308 + 16 * i.val

theorem offsetOf_toNat (word : RegisterWord) : (offsetOf word).toNat = offsetNumber word := by
  cases word with
  | faultRecord k => revert k; decide
  | domainStatus d => revert d; decide
  | domainEpoch d => revert d; decide
  | domainSettings d word => revert d; cases word <;> decide
  | window w word => revert w; cases word <;> decide
  | initiator i word => revert i; cases word <;> decide
  | _ => rfl

theorem offsetOf_of_wordAt {offset : Offset} {word : RegisterWord} (h : wordAt offset = some word) :
    offsetOf word = offset := by
  have bound := offset.isLt
  have high5 := toNat_extract_high offset (low := 5) (n := 11) rfl
  have high7 := toNat_extract_high offset (low := 7) (n := 9) rfl
  have high8 := toNat_extract_high offset (low := 8) (n := 8) rfl
  apply BitVec.eq_of_toNat_eq
  rw [offsetOf_toNat]
  simp only [wordAt, ne_eq, BitVec.toNat_eq, high5, high7, high8, getLsbD_two, BitVec.toNat_ofNat,
    decide_eq_true_iff] at h
  simp only [toNat_extract] at h
  split at h
  · exact nomatch h
  split at h
  · split at h
    all_goals cases h
    all_goals simp only [offsetNumber, Fin.isValue, Fin.val_zero, Fin.val_one]
    all_goals omega
  split at h
  · split at h
    all_goals cases h
    all_goals simp only [offsetNumber, BitVec.val_toFin, toNat_extract]
    all_goals omega
  split at h
  · cases h
    split
    all_goals simp only [offsetNumber, BitVec.val_toFin, toNat_extract]
    all_goals omega
  split at h
  · split at h
    all_goals cases h
    all_goals simp only [offsetNumber, BitVec.val_toFin, toNat_extract]
    case h_4 h0 h1 h2 =>
      rw [imp_false] at h0 h1 h2
      omega
    all_goals omega
  split at h
  · split at h
    all_goals cases h
    all_goals simp only [offsetNumber, BitVec.val_toFin, toNat_extract]
    all_goals omega
  · exact nomatch h

end Sys2Proof
end

