-- ==== Sys2Proof/Proofs/Commands.lean ====
section
/-! SUPPORT. The commands of the management port (R41, R65, R68, R81, R85, R103, R171, R176): each by its decision, and
what a soft reset drain answers (R178). -/

namespace Sys2Proof.Machine

/-! ## A soft reset drain -/

section Draining

variable {s : State} (h : s.draining = true)
include h

theorem writeWindow_draining (w : WindowId) (word : WindowWord) (data : Word) :
    writeWindow w word data s = refuseWrite s := by
  unfold writeWindow
  split
  · rfl
  · exact if_neg (by simp [windowWriteHolds, h])

theorem writeDomainSetting_draining (d : DomainId) (word : DomainWord) (data : Word) :
    writeDomainSetting d word data s = refuseWrite s := by
  unfold writeDomainSetting
  split
  · rfl
  · exact if_neg (by simp [h])

theorem writeInitiator_draining (i : InitiatorId) (word : InitiatorWord) (data : Word) :
    writeInitiator i word data s = refuseWrite s := by
  unfold writeInitiator
  split
  · rfl
  · exact if_pos h

theorem writePoolThreshold_draining (data : Word) : writePoolThreshold data s = refuseWrite s := if_neg (by simp [h])

theorem writeTimebase_draining (data : Word) : writeTimebase data s = refuseWrite s := if_neg (by simp [h])

theorem writeEnables_draining (data : Word) : writeEnables data s = refuseWrite s := if_neg (by simp [h])

theorem writeArgument0_draining (data : Word) : writeArgument0 data s = refuseWrite s := if_pos h

theorem writeArgument1_draining (data : Word) : writeArgument1 data s = refuseWrite s := if_neg (by simp [h])

/-- Of the setting words only the alert latches are written in a drain (R172, R178). -/
theorem writeWord_draining {offset : Offset} (hoffset : offset ≠ 0x0030#16) (data : Word) :
    writeWord offset data s = refuseWrite s := by
  unfold writeWord
  split
  · exact writeArgument0_draining h data
  · exact writeArgument1_draining h data
  · exact absurd (offsetOf_of_wordAt ‹_›).symm hoffset
  · exact writeEnables_draining h data
  · exact writePoolThreshold_draining h data
  · exact writeTimebase_draining h data
  · exact writeDomainSetting_draining h _ _ data
  · exact writeWindow_draining h _ _ data
  · exact writeInitiator_draining h _ _ data
  all_goals rfl

theorem execUpstreamRequest_draining (r : Request) : exec (.upstreamRequest r) s = .next s :=
  congrArg Host.Outcome.next (if_neg (by simp [accepting, h]))

end Draining

/-- Settles O6: every command's decision and every setting write's acceptance looks at the drain. -/
theorem drainAnswersBusyAndRefuses : Obligations.DrainAnswersBusyAndRefuses := by
  refine ⟨fun d s h => ?_, fun s h => ?_⟩
  · have busy (code : Byte) (decision : State → ResultCode × State) :
        Host.Outcome.next (takeCommand code decision s) = (.next (setResult .busy code s) : Host.Outcome State Fault Refusal) :=
      congrArg Host.Outcome.next (takeCommand_draining h)
    exact ⟨busy .., busy .., busy .., busy .., busy .., busy .., busy .., exec_resetAll_draining h⟩
  · refine ⟨fun w word data => congrArg Host.Outcome.next (writeWindow_draining h w word data),
      fun d word data => congrArg Host.Outcome.next (writeDomainSetting_draining h d word data),
      fun i word data => congrArg Host.Outcome.next (writeInitiator_draining h i word data),
      fun data => congrArg Host.Outcome.next (writePoolThreshold_draining h data),
      fun data => congrArg Host.Outcome.next (writeTimebase_draining h data),
      fun data => congrArg Host.Outcome.next (writeEnables_draining h data), fun offset data hcommand hlatches => ?_,
      fun r => execUpstreamRequest_draining h r⟩
    exact (if_neg hcommand).trans (congrArg Host.Outcome.next (writeWord_draining h hlatches data))

/-! ## OPEN, COMMIT and ROLLBACK -/

section Decisions

variable {d : DomainId} {s : State}

theorem exec_openDomain_decided (h : s.draining = false) :
    exec (.openDomain d) s = .next (setResult (decideOpen d s).1 0x01 (decideOpen d s).2) :=
  congrArg Host.Outcome.next (takeCommand_decided h)

theorem exec_commit_decided (h : s.draining = false) :
    exec (.commit d) s = .next (setResult (decideCommit d s).1 0x02 (decideCommit d s).2) :=
  congrArg Host.Outcome.next (takeCommand_decided h)

theorem exec_rollback_decided (h : s.draining = false) :
    exec (.rollback d) s = .next (setResult (decideRollback d s).1 0x04 (decideRollback d s).2) :=
  congrArg Host.Outcome.next (takeCommand_decided h)

theorem decideOpen_of_closed (h : s.domains[d].state = .closed) : decideOpen d s = (.done, enterOpen d s) := by
  simp only [decideOpen, domainState, h]

theorem decideOpen_otherwise (h : s.domains[d].state ≠ .closed) : decideOpen d s = (.state, s) := by
  simp only [decideOpen, domainState]
  split
  · exact absurd ‹_› h
  all_goals rfl

theorem decideCommit_of_epoch (h : s.domains[d].state = .opened ∨ s.domains[d].state = .marked) :
    decideCommit d s = (.done, enterCommit d s) := by
  obtain h | h := h <;> simp only [decideCommit, domainState, h]

theorem decideCommit_of_faulted (h : s.domains[d].state = .faulted) : decideCommit d s = (.done, enterPublish d s) := by
  simp only [decideCommit, domainState, h]

theorem decideCommit_otherwise (ho : s.domains[d].state ≠ .opened) (hm : s.domains[d].state ≠ .marked)
    (hf : s.domains[d].state ≠ .faulted) : decideCommit d s = (.state, s) := by
  simp only [decideCommit, domainState]
  split
  · exact absurd ‹_› ho
  · exact absurd ‹_› hm
  · exact absurd ‹_› hf
  all_goals rfl

theorem decideRollback_of_epoch (h : s.domains[d].state = .opened ∨ s.domains[d].state = .marked) :
    decideRollback d s = (.done, enterRollback d s) := by
  obtain h | h := h <;> simp only [decideRollback, domainState, h]

theorem decideRollback_otherwise (ho : s.domains[d].state ≠ .opened) (hm : s.domains[d].state ≠ .marked) :
    decideRollback d s = (.state, s) := by
  simp only [decideRollback, domainState]
  split
  · exact absurd ‹_› ho
  · exact absurd ‹_› hm
  all_goals rfl

theorem exec_commit_of_epoch (hs : s.draining = false)
    (h : s.domains[d].state = .opened ∨ s.domains[d].state = .marked) :
    exec (.commit d) s = .next (setResult .done 0x02 (enterCommit d s)) := by
  rw [exec_commit_decided hs, decideCommit_of_epoch h]

theorem exec_rollback_of_epoch (hs : s.draining = false)
    (h : s.domains[d].state = .opened ∨ s.domains[d].state = .marked) :
    exec (.rollback d) s = .next (setResult .done 0x04 (enterRollback d s)) := by
  rw [exec_rollback_decided hs, decideRollback_of_epoch h]

end Decisions

/-- Settles O7: OPEN's decision in CLOSED, and each domain command's decision where Table 3-3 gives it no row. -/
theorem openEntersOpen : Obligations.OpenEntersOpen := by
  refine ⟨fun d s hs hclosed => ?_, fun d s hs => ⟨fun hc => ?_, fun ho hm hf => ?_, fun ho hm => ?_⟩⟩
  · rw [exec_openDomain_decided hs, decideOpen_of_closed hclosed, enterOpen_eq]
    rfl
  · rw [exec_openDomain_decided hs, decideOpen_otherwise hc]
    rfl
  · rw [exec_commit_decided hs, decideCommit_otherwise ho hm hf]
    rfl
  · rw [exec_rollback_decided hs, decideRollback_otherwise ho hm]
    rfl

/-- Settles O8. -/
theorem commitAndRollbackEnterDrain : Obligations.CommitAndRollbackEnterDrain := by
  intro d s hs hepoch
  refine ⟨fun hdrain => ?_, fun hdrain => ?_⟩
  · rw [exec_commit_of_epoch hs hepoch, enterCommit_of_not_drained hdrain]
    rfl
  · rw [exec_rollback_of_epoch hs hepoch, enterRollback_of_not_drained hdrain]
    rfl

/-- Settles O9: the commit of a drained domain by what it has journaled. -/
theorem commitReachesPublishOrReleases : Obligations.CommitReachesPublishOrReleases := by
  refine ⟨fun d s hs hlive => ⟨fun hepoch hdrained => ?_, fun hfaulted => ?_⟩, fun d s hs hepoch hempty hdrained => ?_⟩
  · rw [exec_commit_of_epoch hs hepoch, enterCommit_of_live hdrained hlive]
    rfl
  · rw [exec_commit_decided hs, decideCommit_of_faulted hfaulted, enterPublish_of_live hlive]
    rfl
  · rw [exec_commit_of_epoch hs hepoch, enterCommit_of_empty hdrained hempty]
    rfl

/-- Settles O11. -/
theorem rollbackDiscards : Obligations.RollbackDiscards := by
  intro d s es hs hepoch hdrained hperm hsorted
  rw [exec_rollback_of_epoch hs hepoch, enterRollback_of_drained hdrained hperm hsorted]
  rfl

/-! ## POOL_LOAD -/

theorem poolBase_toNat (s : State) :
    (poolBase s).toNat = (s.argument1.extractLsb' 0 8).toNat * 2 ^ 32 + s.argument0.toNat := by
  rw [poolBase, BitVec.toNat_append, ← Nat.shiftLeft_add_eq_or_of_lt s.argument0.isLt, Nat.shiftLeft_eq]

theorem poolIdle_iff (s : State) :
    poolIdle s = true ↔ (∀ d : DomainId, s.domains[d].state = .closed) ∧ s.changes = [] := by
  simp only [poolIdle, Bool.and_eq_true, List.all_eq_true, List.mem_finRange, true_implies, decide_eq_true_iff,
    List.isEmpty_iff]
  rfl

/-- The frame at an aligned byte address is the address in pages of 4096 bytes (R104). -/
theorem poolFrames_eq (base : Address) (count : Nat) :
    poolFrames base count = (List.range count).map fun k => BitVec.ofNat 28 (base.toNat / 4096 + k) := by
  refine List.map_congr_left fun k _ => ?_
  rw [BitVec.ofNat_add, BitVec.extractLsb', Nat.shiftRight_eq_div_pow]

theorem poolArgumentsHold_iff (base : Address) (count : Nat) :
    poolArgumentsHold base count = true ↔
      1 ≤ count ∧ count ≤ 4096 ∧ base.toNat % 4096 = 0 ∧ base.toNat + 4096 * count ≤ 2 ^ 40 := by
  have aligned : base.extractLsb' 0 12 = 0#12 ↔ base.toNat % 4096 = 0 := by
    rw [BitVec.toNat_eq, BitVec.extractLsb'_toNat]
    rfl
  simp only [poolArgumentsHold, Bool.and_eq_true, decide_eq_true_iff, aligned, and_assoc]

/-- Settles O12: the argument check, the check of the domains and the Change Table, and the frames loaded. -/
theorem poolLoadDecides : Obligations.PoolLoadDecides := by
  intro base count s hs hbase hcount
  have sum : (poolBase s).toNat = base := (poolBase_toNat s).trans hbase.symm
  have number : poolCount s = count := hcount.symm
  have arguments := poolArgumentsHold_iff (poolBase s) (poolCount s)
  rw [sum, number] at arguments
  refine (congrArg Host.Outcome.next (takeCommand_decided hs)).trans (congrArg Host.Outcome.next ?_)
  rw [decidePoolLoad, number]
  by_cases hold : poolArgumentsHold (poolBase s) count = true
  · rw [if_pos (arguments.mp hold), hold]
    by_cases idle : poolIdle s = true
    · rw [if_pos ((poolIdle_iff s).mp idle), idle, poolFrames_eq, sum]
      rfl
    · rw [if_neg (mt (poolIdle_iff s).mpr idle), Bool.not_eq_true _ |>.mp idle]
      rfl
  · rw [if_neg (mt arguments.mpr hold), Bool.not_eq_true _ |>.mp hold]
    rfl

/-! ## CLEAR_FAULT and the words that name no command -/

/-- Settles O14. -/
theorem clearFaultEmptiesRecord : Obligations.ClearFaultEmptiesRecord := by
  intro s
  refine ⟨fun h => congrArg Host.Outcome.next (takeCommand_draining h), fun h => ⟨?_, fun f => ⟨?_, ?_, ?_⟩⟩⟩
  · exact congrArg Host.Outcome.next (takeCommand_decided h)
  · exact congrArg Host.Outcome.next (takeCommand_decided (s := reportFault f s) h)
  · rfl
  · rfl

/-- A word outside Table 12-6 names no command. -/
theorem commandOf_unknown {word : Word}
    (h : word.extractLsb' 10 22 ≠ 0 ∨ word.extractLsb' 0 8 ∉ ([1, 2, 3, 4, 0x10, 0x11, 0x12, 0x1F] : List Byte)) :
    commandOf word = .unknownCommand word := by
  unfold commandOf
  split
  · rfl
  · rename_i high
    have unlisted : (word.extractLsb' 0 8).toNat ∉ ([1, 2, 3, 4, 0x10, 0x11, 0x12, 0x1F] : List Byte).map BitVec.toNat :=
      mt (List.mem_map_of_injective fun _ _ => BitVec.eq_of_toNat_eq).mp (h.resolve_left high)
    split
    case h_9 => rfl
    all_goals
      rename_i code
      rw [code] at unlisted
      exact absurd (by decide) unlisted

/-- Settles O15. -/
theorem unknownCommandAnswersArg : Obligations.UnknownCommandAnswersArg := by
  intro word s h
  have unknown := commandOf_unknown h
  simp only [exec, execUnknownCommand, takeCommandWord, unknown]
  rfl

end Sys2Proof.Machine
end

