-- ==== Sys2Proof/Proofs/Settings.lean ====
section
/-! SUPPORT. The setting writes of the management port: which values a word takes and what they set (R15, R39, R132,
R175, Table 12-5), and the dispatch of an offset to its row. -/

namespace Sys2Proof.Machine

/-! ## Codes and masks -/

theorem kindOfCode_eq_some_iff {c : BitVec 2} {kind : WindowKind} :
    kindOfCode c = some kind ↔
      c ≠ 3 ∧ kind = if c = 0 then .pass else if c = 1 then .guarded else .journaled := by
  revert c
  cases kind <;> decide

theorem actionOfCode_eq_some_iff {c : BitVec 2} {action : DeadlineAction} :
    actionOfCode c = some action ↔
      c ≠ 3 ∧ action = if c = 0 then .alert else if c = 1 then .commit else .rollback := by
  revert c
  cases action <;> decide

/-- A word that carries no one above bit `n` is a number below `2 ^ n`. -/
theorem high_bits_clear_iff {mask : Word} {n : Nat} (hmask : ∀ i : Fin 32, mask.getLsbD i = decide (n ≤ i.val))
    (data : Word) : data &&& mask = 0 ↔ data.toNat < 2 ^ n := by
  constructor
  · intro clear
    refine Nat.lt_pow_two_of_testBit _ fun i hi => ?_
    by_cases hw : i < 32
    · have bit := congrArg (·.getLsbD i) clear
      rw [BitVec.getLsbD_and, hmask ⟨i, hw⟩, decide_eq_true hi, Bool.and_true] at bit
      exact bit.trans BitVec.getLsbD_zero
    · exact BitVec.getLsbD_of_ge data i (not_lt.mp hw)
  · intro small
    refine BitVec.eq_of_getLsbD_eq fun i hw => ?_
    have bit := hmask ⟨i, hw⟩
    by_cases hi : n ≤ i
    · have off : data.getLsbD i = false :=
        Nat.testBit_lt_two_pow (small.trans_le (Nat.pow_le_pow_right (by decide) hi))
      simp [off]
    · simp [bit, hi]

/-! ## Windows -/

section Windows

variable {old new : Window} {data : Word}

theorem windowWith_control_iff :
    windowWith old .control data = some new ↔
      data &&& 0xFFFCC0F8 = 0 ∧ data.extractLsb' 1 2 ≠ 3 ∧ 16 ≤ (data.extractLsb' 8 6).toNat ∧
        (data.extractLsb' 8 6).toNat ≤ 36 ∧
        new = { old with
          enable := data.getLsbD 0
          kind := if data.extractLsb' 1 2 = 0 then .pass else if data.extractLsb' 1 2 = 1 then .guarded else .journaled
          sizeExp := (data.extractLsb' 8 6).toNat
          domain := (data.extractLsb' 16 2).toFin } := by
  have mask : ~~~windowWordMask .control = 0xFFFCC0F8 := rfl
  simp only [windowWith, mask, Option.ite_none_left_eq_some, not_not]
  refine and_congr_right fun _ => ?_
  split
  · rename_i kind hkind
    obtain ⟨hcode, rfl⟩ := kindOfCode_eq_some_iff.mp hkind
    simp only [Option.ite_none_right_eq_some, Option.some.injEq, ne_eq, hcode, not_false_eq_true, true_and, and_assoc,
      @eq_comm _ new]
  · rename_i hkind
    have code : data.extractLsb' 1 2 = 3 := by
      by_contra hcode
      exact nomatch hkind.symm.trans (kindOfCode_eq_some_iff.mpr ⟨hcode, rfl⟩)
    simp only [code, ne_eq, not_true_eq_false, false_and, reduceCtorEq]

theorem windowWith_base_iff :
    windowWith old .base data = some new ↔
      data &&& 0x0000FFFF = 0 ∧
        new = { old with baseHigh := old.baseHigh.extractLsb' 16 8 ++ data.extractLsb' 16 16 } := by
  have mask : ~~~windowWordMask .base = 0x0000FFFF := rfl
  simp only [windowWith, mask, Option.ite_none_left_eq_some, not_not, Option.some.injEq, @eq_comm _ new]
  rfl

theorem windowWith_high_iff :
    windowWith old .high data = some new ↔
      data &&& 0xFF00FF00 = 0 ∧
        new = { old with baseHigh := data.extractLsb' 0 8 ++ old.baseHigh.extractLsb' 0 16
                         mapPage := data.extractLsb' 16 8 ++ old.mapPage.extractLsb' 0 20 } := by
  have mask : ~~~windowWordMask .high = 0xFF00FF00 := rfl
  simp only [windowWith, mask, Option.ite_none_left_eq_some, not_not, Option.some.injEq, @eq_comm _ new]
  rfl

theorem windowWith_mapBase_iff :
    windowWith old .mapBase data = some new ↔
      data &&& 0x00000FFF = 0 ∧
        new = { old with mapPage := old.mapPage.extractLsb' 20 8 ++ data.extractLsb' 12 20 } := by
  have mask : ~~~windowWordMask .mapBase = 0x00000FFF := rfl
  simp only [windowWith, mask, Option.ite_none_left_eq_some, not_not, Option.some.injEq, @eq_comm _ new]
  rfl

end Windows

theorem windowInUse_iff (w : WindowId) (s : State) :
    windowInUse w s = true ↔
      (∃ k ∈ s.ranks, regionWindow k.decoded.region = some w) ∨ ∃ e ∈ s.transit, e.window = some w := by
  simp only [windowInUse, Bool.or_eq_true, List.any_eq_true, decide_eq_true_iff]

theorem windowHeld_iff (w : Window) (s : State) :
    windowHeld w s = true ↔ w.kind = .journaled ∧ s.domains[w.domain].state ≠ .closed := by
  simp only [windowHeld, Bool.and_eq_true, decide_eq_true_iff]
  rfl

/-- What makes R15 refuse a window setting write whose value names a setting. -/
theorem windowWriteHolds_eq_false_iff {w : WindowId} {new : Window} {s : State} (hs : s.draining = false) :
    ¬ windowWriteHolds w new s = true ↔
      (s.windows[w].kind = .journaled ∧
        (s.domains[s.windows[w].domain].state ≠ .closed ∨
          (∃ k ∈ s.ranks, regionWindow k.decoded.region = some w) ∨ ∃ e ∈ s.transit, e.window = some w)) ∨
      (new.kind = .journaled ∧ s.domains[new.domain].state ≠ .closed) := by
  rw [← windowInUse_iff, ← windowHeld_iff new]
  have held := windowHeld_iff s.windows[w] s
  simp only [windowWriteHolds, hs, Bool.not_false, Bool.true_and, Bool.and_eq_true, Bool.not_eq_true', not_and_or,
    Bool.not_eq_false, decide_eq_true_iff, held, and_or_left]

/-- Settles O16: acceptance by R15, and each word's value by the fields that Table 12-5 gives it. -/
theorem windowSettingWriteDecides : Obligations.WindowSettingWriteDecides := by
  refine ⟨fun w word data s hs => congrArg Host.Outcome.next ?_, fun old data =>
    ⟨fun new => windowWith_control_iff, fun new => windowWith_base_iff, fun new => windowWith_high_iff,
      fun new => windowWith_mapBase_iff⟩⟩
  unfold writeWindow
  cases windowWith s.windows[w] word data with
  | none => rfl
  | some new =>
    have decided := windowWriteHolds_eq_false_iff (w := w) (new := new) hs
    dsimp only
    by_cases hold : windowWriteHolds w new s = true
    · rw [if_pos hold, if_neg (mt decided.mpr (not_not.mpr hold))]
      simp only [setLastWrite, dropCache, ne_eq, decide_not]
    · rw [if_neg hold, if_pos (decided.mp hold)]
      rfl

/-! ## Domain settings -/

theorem settingsWith_settings0 {t : DomainSettings} {data : Word} :
    settingsWith t .settings0 data =
      if data &&& 0xFFFE0E00 = 0 ∧ 1 ≤ (data.extractLsb' 0 9).toNat ∧ (data.extractLsb' 0 9).toNat ≤ 256 then
        some { t with
          quota := (data.extractLsb' 0 9).toNat
          overflow := if data.getLsbD 12 then .rollback else .refuse
          closedWrite := if data.getLsbD 13 then .refuse else .allow
          violationAbort := data.getLsbD 14
          autoMark := data.getLsbD 15
          autoReopen := data.getLsbD 16 }
      else none := by
  have mask : ~~~domainWordMask .settings0 = 0xFFFE0E00 := rfl
  simp only [settingsWith, mask, ite_not, ite_and]
  rfl

theorem settingsWith_settings1 {t : DomainSettings} {data : Word} :
    settingsWith t .settings1 data =
      if data &&& 0xFFFC0000 = 0 ∧ data.extractLsb' 16 2 ≠ 3 then
        some { t with
          deadlineReload := data.extractLsb' 0 16
          deadlineAction := if data.extractLsb' 16 2 = 0 then .alert
            else if data.extractLsb' 16 2 = 1 then .commit else .rollback }
      else none := by
  have mask : ~~~domainWordMask .settings1 = 0xFFFC0000 := rfl
  simp only [settingsWith, mask, ite_not]
  rw [ite_and]
  refine if_congr .rfl ?_ rfl
  by_cases code : data.extractLsb' 16 2 = 3
  · rw [if_neg (not_not.mpr code), code]
    rfl
  · rw [if_pos code, actionOfCode_eq_some_iff.mpr ⟨code, rfl⟩, Option.map_some]

/-- Settles O17: the domain's state and the word's value. -/
theorem domainSettingWriteDecides : Obligations.DomainSettingWriteDecides := by
  intro d data s hs
  have written (word : DomainWord) (p : Prop) [Decidable p] (new : DomainSettings)
      (h : settingsWith s.domains[d].settings word data = if p then some new else none) :
      writeDomainSetting d word data s =
        if s.domains[d].state = .closed ∧ p then
          { s with
            domains := s.domains.set d { s.domains[d] with settings := new }
            lastWrite := .accepted }
        else { s with lastWrite := .refused } := by
    rw [writeDomainSetting, settingsOf, h]
    by_cases named : p
    · rw [if_pos named]
      exact if_congr (by simp only [domainState, hs, named]) rfl rfl
    · simp only [named, if_false, and_false]
      rfl
  exact ⟨congrArg Host.Outcome.next (written _ _ _ settingsWith_settings0),
    congrArg Host.Outcome.next (written _ _ _ settingsWith_settings1)⟩

/-! ## Initiators -/

section Initiators

variable {e : InitiatorEntry} {data : Word}

theorem initiatorWith_control :
    initiatorWith e .control data =
      if data &&& 0xFFFFFF0C = 0 then
        some { e with
          state := if data.getLsbD 0 then .blocked else .enabled
          policy := if data.getLsbD 1 then .block else .refuse
          mask := data.extractLsb' 4 4 }
      else none := by
  have mask : ~~~initiatorWordMask .control = 0xFFFFFF0C := rfl
  simp only [initiatorWith, mask, ite_not]
  rfl

theorem initiatorWith_lowBound :
    initiatorWith e .lowBound data =
      if data &&& 0xF0000000 = 0 then some { e with lowPage := data.extractLsb' 0 28 } else none := by
  have mask : ~~~initiatorWordMask .lowBound = 0xF0000000 := rfl
  simp only [initiatorWith, mask, ite_not]
  rfl

/-- A high bound of at most 2^40 has no one above bit 28. -/
theorem initiatorWith_highBound :
    initiatorWith e .highBound data =
      if data.toNat ≤ 2 ^ 28 then some { e with highPage := data.extractLsb' 0 29 } else none := by
  have mask : ~~~initiatorWordMask .highBound = 0xE0000000 := rfl
  have clear := high_bits_clear_iff (mask := 0xE0000000) (n := 29) (by decide) data
  simp only [initiatorWith, mask, ite_not]
  rw [← ite_and]
  refine if_congr ?_ rfl rfl
  rw [show (0#32 : Word) = 0 from rfl, clear, BitVec.extractLsb'_toNat]
  constructor
  · rintro ⟨small, low⟩
    rwa [Nat.shiftRight_zero, Nat.mod_eq_of_lt small] at low
  · intro low
    have small : data.toNat < 2 ^ 29 := by omega
    rw [Nat.shiftRight_zero, Nat.mod_eq_of_lt small]
    exact ⟨small, low⟩

end Initiators

/-! ## The other words -/

/-- A write that clears latches clears those at a one of its data, and leaves the others (R172). -/
theorem cleared_getLsbD {latches : BitVec 18} {data : Word} {n : Nat} (h : n < 18) :
    (latches &&& ~~~(data.extractLsb' 0 18)).getLsbD n = (latches.getLsbD n && !data.getLsbD n) := by
  simp [h]

theorem writeInitiator_eq {i : InitiatorId} {word : InitiatorWord} {data : Word} {s : State} (p : Prop) [Decidable p]
    {new : InitiatorEntry} (hs : s.draining = false)
    (h : initiatorWith s.initiators[i] word data = if p then some new else none) :
    writeInitiator i word data s =
      if p then { s with initiators := s.initiators.set i new, lastWrite := .accepted }
      else { s with lastWrite := .refused } := by
  rw [writeInitiator, h]
  by_cases named : p
  · rw [if_pos named, if_pos named]
    exact if_neg (by simp [hs])
  · rw [if_neg named, if_neg named]
    rfl

/-- Settles O18: each word's own condition. -/
theorem otherSettingWritesDecide : Obligations.OtherSettingWritesDecide := by
  refine ⟨fun i data s hs => ⟨?_, ?_, ?_⟩, fun data s hs => ⟨?_, ?_, ?_, ?_, ?_⟩, fun data s => ⟨fun h => ?_, fun h => ?_⟩⟩
  · exact congrArg Host.Outcome.next (writeInitiator_eq _ hs initiatorWith_control)
  · exact congrArg Host.Outcome.next (writeInitiator_eq _ hs initiatorWith_lowBound)
  · exact congrArg Host.Outcome.next (writeInitiator_eq _ hs initiatorWith_highBound)
  · exact congrArg Host.Outcome.next (if_congr (and_iff_right hs) rfl rfl)
  · exact congrArg Host.Outcome.next (if_congr (and_iff_right hs) rfl rfl)
  · exact congrArg Host.Outcome.next (if_congr (and_iff_right hs) rfl rfl)
  · exact congrArg Host.Outcome.next (if_neg (by simp [hs]))
  · exact congrArg Host.Outcome.next (if_congr (and_iff_right hs) rfl rfl)
  · exact ⟨_, congrArg Host.Outcome.next (if_pos h), fun n hn => cleared_getLsbD hn⟩
  · exact congrArg Host.Outcome.next (if_neg h)

/-! ## The dispatch of a setting write -/

theorem exec_settingWrite {offset : Offset} (h : offset ≠ 0) (data : Word) (s : State) :
    exec (.settingWrite offset data) s = .next (writeWord offset data s) := if_neg h

theorem exec_settingWrite_command (data : Word) (s : State) :
    exec (.settingWrite 0 data) s = takeCommandWord data s := rfl

/-- The commands of Table 12-6. -/
inductive NamedCommand : Instr → Prop
  | openDomain (d : DomainId) : NamedCommand (.openDomain d)
  | commit (d : DomainId) : NamedCommand (.commit d)
  | commitAtMark (d : DomainId) : NamedCommand (.commitAtMark d)
  | rollback (d : DomainId) : NamedCommand (.rollback d)
  | poolLoad : NamedCommand .poolLoad
  | flushCache : NamedCommand .flushCache
  | clearFault : NamedCommand .clearFault
  | resetAll : NamedCommand .resetAll

theorem commandOf_named_or_unknown (word : Word) :
    NamedCommand (commandOf word) ∨ commandOf word = .unknownCommand word := by
  unfold commandOf
  split
  · exact .inr rfl
  split
  case h_9 => exact .inr rfl
  all_goals exact .inl (by constructor)

/-- A word written at the command offset is its command (R176). -/
theorem exec_commandOf (word : Word) (s : State) : exec (commandOf word) s = takeCommandWord word s := by
  obtain named | unknown := commandOf_named_or_unknown word
  · generalize hcommand : commandOf word = c at named
    cases named
    all_goals
      simp only [takeCommandWord, hcommand]
      rfl
  · simp only [unknown, exec, execUnknownCommand]

theorem toNat_of_wordAt {offset : Offset} {word : RegisterWord} (h : wordAt offset = some word) :
    offset.toNat = offsetNumber word := by
  rw [← offsetOf_of_wordAt h, offsetOf_toNat]

theorem wordAt_zero : wordAt 0 = some .command := wordAt_offsetOf .command

/-- Settles O19: an offset that names a word is that word's, and the ranges hold no offset of a setting word. -/
theorem settingWriteDispatches : Obligations.SettingWriteDispatches := by
  refine ⟨fun offset data s hrange => ?_, fun offset data s => ?_⟩
  · have nonzero : offset ≠ 0 := by
      rintro rfl
      exact absurd hrange (by decide)
    refine (exec_settingWrite nonzero data s).trans (congrArg Host.Outcome.next ?_)
    cases hword : wordAt offset with
    | none =>
      simp only [writeWord, hword]
      rfl
    | some word =>
      rw [toNat_of_wordAt hword] at hrange
      simp only [writeWord, hword]
      cases word with
      | argument0 | argument1 | alertLatches | alertEnables | poolThreshold | timebaseAndEdge =>
        exact absurd hrange (by decide)
      | domainSettings d word =>
        cases word <;> simp only [offsetNumber] at hrange <;> omega
      | window w word =>
        cases word <;> simp only [offsetNumber] at hrange <;> omega
      | initiator i word =>
        cases word <;> simp only [offsetNumber] at hrange <;> omega
      | _ => rfl
  · cases hword : wordAt offset with
    | none => simp only [writeRow, hword]
    | some word =>
      by_cases command : offset = 0
      · subst command
        simp only [writeRow, wordAt_zero, exec_commandOf, exec_settingWrite_command]
      · rw [exec_settingWrite command]
        simp only [writeRow, writeWord, hword]
        cases word with
        | command => exact absurd (offsetOf_of_wordAt hword).symm command
        | argument0 | argument1 | commandResult | lastWriteStatus | resetCause | faultRecord | poolStatus
          | markAndOccupancy | domainStatus | domainEpoch =>
          rw [exec_settingWrite command]
          simp only [writeWord, hword]
        | _ => rfl

end Sys2Proof.Machine
end

