-- ==== Sys2Proof/Proofs/ReadBack.lean ====
section
/-! SUPPORT. An accepted setting write reads back bit for bit (R17, R40, R131, R174). -/

namespace Sys2Proof.Machine

/-! ## The bits of a word's fields -/

theorem fieldAt_getLsbD {n : Nat} (low : Nat) (x : BitVec n) {i : Nat} (hi : i < 32) :
    (fieldAt low x).getLsbD i = (decide (low ≤ i) && x.getLsbD (i - low)) := by
  simp only [fieldAt, BitVec.getLsbD_shiftLeft, BitVec.getLsbD_setWidth, hi, decide_true, Bool.true_and]
  by_cases h : low ≤ i
  · simp [h, show i - low < 32 by omega]
  · simp [h, not_le.mp h]

/-- A field that holds its own bits of a word. -/
theorem fieldAt_extract_getLsbD (low n : Nat) (data : Word) {i : Nat} (hi : i < 32) :
    (fieldAt low (data.extractLsb' low n)).getLsbD i = (decide (low ≤ i ∧ i < low + n) && data.getLsbD i) := by
  rw [fieldAt_getLsbD low _ hi, BitVec.getLsbD_extractLsb']
  by_cases h : low ≤ i
  · simp [h, Nat.add_sub_cancel' h, show i - low < n ↔ i < low + n by omega]
  · simp [h]

theorem flagAt_getLsbD (low : Nat) (data : Word) {i : Nat} (hi : i < 32) :
    (flagAt low (data.getLsbD low)).getLsbD i = (decide (low = i) && data.getLsbD i) := by
  rw [flagAt, fieldAt_getLsbD low _ hi, BitVec.getLsbD_ofBool]
  by_cases h : low = i
  · simp [h]
  · by_cases hle : low ≤ i
    · simp [h, show ¬ i - low = 0 by omega]
    · simp [h, hle]

/-- A value that holds a word's bits wherever the word's mask has a one is the word, when the word has no other ones. -/
theorem reads_back {value data mask : Word} (hclear : data &&& ~~~mask = 0)
    (hbits : ∀ i < 32, value.getLsbD i = (mask.getLsbD i && data.getLsbD i)) : value = data := by
  refine BitVec.eq_of_getLsbD_eq fun i hi => ?_
  have clear := congrArg (·.getLsbD i) hclear
  simp only [BitVec.getLsbD_and, BitVec.getLsbD_not, hi, decide_true, Bool.true_and] at clear
  rw [hbits i hi]
  cases hm : mask.getLsbD i with
  | true => rfl
  | false =>
    rw [hm, Bool.not_false, Bool.and_true] at clear
    rw [clear]
    exact BitVec.getLsbD_zero.symm ▸ rfl

theorem kindCode_of_code {c : BitVec 2} (h : c ≠ 3) :
    kindCode (if c = 0 then .pass else if c = 1 then .guarded else .journaled) = c := by
  revert c
  decide

theorem actionCode_of_code {c : BitVec 2} (h : c ≠ 3) :
    actionCode (if c = 0 then .alert else if c = 1 then .commit else .rollback) = c := by
  revert c
  decide

/-! ## The words of the tables -/

section Tables

variable {data : Word}

theorem windowWordValue_control {old new : Window} (h : windowWith old .control data = some new) :
    windowWordValue new .control = data := by
  obtain ⟨clear, code, -, -, rfl⟩ := windowWith_control_iff.mp h
  refine reads_back (mask := windowWordMask .control) clear fun i hi => ?_
  simp only [windowWordValue, kindCode_of_code code, BitVec.ofNat_toNat, BitVec.setWidth_eq, BitVec.ofFin_toFin,
    BitVec.getLsbD_or, flagAt_getLsbD _ _ hi, fieldAt_extract_getLsbD _ _ _ hi, ← Bool.and_or_distrib_right]
  congr 1
  revert i
  decide

theorem windowWordValue_base {old new : Window} (h : windowWith old .base data = some new) :
    windowWordValue new .base = data := by
  obtain ⟨clear, rfl⟩ := windowWith_base_iff.mp h
  refine reads_back (mask := windowWordMask .base) clear fun i hi => ?_
  simp only [windowWordValue, BitVec.extractLsb'_append_eq_right, fieldAt_extract_getLsbD _ _ _ hi]
  congr 1
  revert i
  decide

theorem windowWordValue_high {old new : Window} (h : windowWith old .high data = some new) :
    windowWordValue new .high = data := by
  obtain ⟨clear, rfl⟩ := windowWith_high_iff.mp h
  refine reads_back (mask := windowWordMask .high) clear fun i hi => ?_
  simp only [windowWordValue, BitVec.extractLsb'_append_eq_left, BitVec.getLsbD_or, fieldAt_extract_getLsbD _ _ _ hi,
    ← Bool.and_or_distrib_right]
  congr 1
  revert i
  decide

theorem windowWordValue_mapBase {old new : Window} (h : windowWith old .mapBase data = some new) :
    windowWordValue new .mapBase = data := by
  obtain ⟨clear, rfl⟩ := windowWith_mapBase_iff.mp h
  refine reads_back (mask := windowWordMask .mapBase) clear fun i hi => ?_
  simp only [windowWordValue, BitVec.extractLsb'_append_eq_right, fieldAt_extract_getLsbD _ _ _ hi]
  congr 1
  revert i
  decide

theorem windowWordValue_windowWith {old new : Window} {word : WindowWord} (h : windowWith old word data = some new) :
    windowWordValue new word = data := by
  cases word with
  | control => exact windowWordValue_control h
  | base => exact windowWordValue_base h
  | high => exact windowWordValue_high h
  | mapBase => exact windowWordValue_mapBase h

theorem domainWordValue_settings0 {old new : DomainSettings} (h : settingsWith old .settings0 data = some new) :
    domainWordValue new .settings0 = data := by
  rw [settingsWith_settings0, Option.ite_none_right_eq_some] at h
  obtain ⟨⟨clear, -, -⟩, hnew⟩ := h
  cases hnew
  have overflow : decide ((if data.getLsbD 12 = true then OverflowPolicy.rollback else .refuse) = .rollback) =
      data.getLsbD 12 := by cases data.getLsbD 12 <;> rfl
  have closedWrite : decide ((if data.getLsbD 13 = true then ClosedWrite.refuse else .allow) = .refuse) =
      data.getLsbD 13 := by cases data.getLsbD 13 <;> rfl
  refine reads_back (mask := domainWordMask .settings0) clear fun i hi => ?_
  simp only [domainWordValue, overflow, closedWrite, BitVec.ofNat_toNat, BitVec.setWidth_eq, BitVec.getLsbD_or,
    flagAt_getLsbD _ _ hi, fieldAt_extract_getLsbD _ _ _ hi, ← Bool.and_or_distrib_right]
  congr 1
  revert i
  decide

theorem domainWordValue_settings1 {old new : DomainSettings} (h : settingsWith old .settings1 data = some new) :
    domainWordValue new .settings1 = data := by
  rw [settingsWith_settings1, Option.ite_none_right_eq_some] at h
  obtain ⟨⟨clear, code⟩, hnew⟩ := h
  cases hnew
  refine reads_back (mask := domainWordMask .settings1) clear fun i hi => ?_
  simp only [domainWordValue, actionCode_of_code code, BitVec.getLsbD_or, fieldAt_extract_getLsbD _ _ _ hi,
    ← Bool.and_or_distrib_right]
  congr 1
  revert i
  decide

theorem domainWordValue_settingsWith {old new : DomainSettings} {word : DomainWord}
    (h : settingsWith old word data = some new) : domainWordValue new word = data := by
  cases word with
  | settings0 => exact domainWordValue_settings0 h
  | settings1 => exact domainWordValue_settings1 h

theorem initiatorWordValue_control {old new : InitiatorEntry} (h : initiatorWith old .control data = some new) :
    initiatorWordValue new .control = data := by
  rw [initiatorWith_control, Option.ite_none_right_eq_some] at h
  obtain ⟨clear, hnew⟩ := h
  cases hnew
  have blocked : decide ((if data.getLsbD 0 = true then InitiatorState.blocked else .enabled) = .blocked) =
      data.getLsbD 0 := by cases data.getLsbD 0 <;> rfl
  have policy : decide ((if data.getLsbD 1 = true then ViolationPolicy.block else .refuse) = .block) =
      data.getLsbD 1 := by cases data.getLsbD 1 <;> rfl
  refine reads_back (mask := initiatorWordMask .control) clear fun i hi => ?_
  simp only [initiatorWordValue, blocked, policy, BitVec.getLsbD_or, flagAt_getLsbD _ _ hi,
    fieldAt_extract_getLsbD _ _ _ hi, ← Bool.and_or_distrib_right]
  congr 1
  revert i
  decide

theorem initiatorWordValue_lowBound {old new : InitiatorEntry} (h : initiatorWith old .lowBound data = some new) :
    initiatorWordValue new .lowBound = data := by
  rw [initiatorWith_lowBound, Option.ite_none_right_eq_some] at h
  obtain ⟨clear, hnew⟩ := h
  cases hnew
  refine reads_back (mask := initiatorWordMask .lowBound) clear fun i hi => ?_
  simp only [initiatorWordValue, fieldAt_extract_getLsbD _ _ _ hi]
  congr 1
  revert i
  decide

theorem initiatorWordValue_highBound {old new : InitiatorEntry} (h : initiatorWith old .highBound data = some new) :
    initiatorWordValue new .highBound = data := by
  rw [initiatorWith_highBound, Option.ite_none_right_eq_some] at h
  obtain ⟨low, hnew⟩ := h
  cases hnew
  have clear := (high_bits_clear_iff (mask := 0xE0000000) (n := 29) (by decide) data).mpr (by omega)
  refine reads_back (mask := initiatorWordMask .highBound) clear fun i hi => ?_
  simp only [initiatorWordValue, fieldAt_extract_getLsbD _ _ _ hi]
  congr 1
  revert i
  decide

theorem initiatorWordValue_initiatorWith {old new : InitiatorEntry} {word : InitiatorWord}
    (h : initiatorWith old word data = some new) : initiatorWordValue new word = data := by
  cases word with
  | control => exact initiatorWordValue_control h
  | lowBound => exact initiatorWordValue_lowBound h
  | highBound => exact initiatorWordValue_highBound h

end Tables

/-! ## The words by themselves -/

/-- A field at the bottom of a word that holds the whole of its number. -/
theorem fieldAt_zero_of_lt {n : Nat} {data : Word} (h : data.toNat < 2 ^ n) :
    fieldAt 0 (BitVec.ofNat n data.toNat) = data := by
  refine BitVec.eq_of_toNat_eq ?_
  simp only [fieldAt, BitVec.shiftLeft_zero, BitVec.toNat_setWidth, BitVec.toNat_ofNat]
  rw [Nat.mod_eq_of_lt h, Nat.mod_eq_of_lt data.isLt]

theorem timebase_reads_back {data : Word} (clear : data &&& ~~~0x10F#32 = 0#32) :
    (fieldAt 0 (data.extractLsb' 0 4) ||| flagAt 8 (edgeBit (edgeOfBit (data.getLsbD 8)))) = data := by
  have edge : edgeBit (edgeOfBit (data.getLsbD 8)) = data.getLsbD 8 := by cases data.getLsbD 8 <;> rfl
  refine reads_back (mask := 0x10F) clear fun i hi => ?_
  simp only [edge, BitVec.getLsbD_or, flagAt_getLsbD _ _ hi, fieldAt_extract_getLsbD _ _ _ hi,
    ← Bool.and_or_distrib_right]
  congr 1
  revert i
  decide

theorem enables_read_back {data : Word} (clear : data &&& ~~~0x3FFFF#32 = 0#32) :
    fieldAt 0 (data.extractLsb' 0 18) = data := by
  refine reads_back (mask := 0x3FFFF) clear fun i hi => ?_
  simp only [fieldAt_extract_getLsbD _ _ _ hi]
  congr 1
  revert i
  decide

/-! ## The writes -/

section Accepted

variable {data : Word} {s : State}

theorem writeWindow_accepted {w : WindowId} {word : WindowWord}
    (h : (writeWindow w word data s).lastWrite = .accepted) :
    ∃ new, windowWith s.windows[w] word data = some new ∧
      (writeWindow w word data s).windows = s.windows.set w new := by
  unfold writeWindow at h ⊢
  cases hnew : windowWith s.windows[w] word data with
  | none =>
    rw [hnew] at h
    exact nomatch h
  | some new =>
    rw [hnew] at h
    dsimp only at h ⊢
    split at h
    · exact ⟨new, rfl, by rw [if_pos ‹_›]; simp⟩
    · exact nomatch h

theorem writeDomainSetting_accepted {d : DomainId} {word : DomainWord}
    (h : (writeDomainSetting d word data s).lastWrite = .accepted) :
    ∃ new, settingsWith s.domains[d].settings word data = some new ∧
      (writeDomainSetting d word data s).domains = s.domains.set d { s.domains[d] with settings := new } := by
  unfold writeDomainSetting settingsOf at h ⊢
  cases hnew : settingsWith s.domains[d].settings word data with
  | none =>
    rw [hnew] at h
    exact nomatch h
  | some new =>
    rw [hnew] at h
    dsimp only at h ⊢
    split at h
    · exact ⟨new, rfl, by rw [if_pos ‹_›]; rfl⟩
    · exact nomatch h

theorem writeInitiator_accepted {i : InitiatorId} {word : InitiatorWord}
    (h : (writeInitiator i word data s).lastWrite = .accepted) :
    ∃ new, initiatorWith s.initiators[i] word data = some new ∧
      (writeInitiator i word data s).initiators = s.initiators.set i new := by
  unfold writeInitiator at h ⊢
  cases hnew : initiatorWith s.initiators[i] word data with
  | none =>
    rw [hnew] at h
    exact nomatch h
  | some new =>
    rw [hnew] at h
    dsimp only at h ⊢
    split at h
    · exact nomatch h
    · exact ⟨new, rfl, by rw [if_neg ‹_›]; rfl⟩

end Accepted

/-- A write that is one of an acceptance and a refusal, and that says it was accepted, is the acceptance. -/
theorem accepted_of_ite {p : Prop} [Decidable p] {s t : State}
    (h : (if p then setLastWrite .accepted t else refuseWrite s).lastWrite = .accepted) :
    p ∧ (if p then setLastWrite .accepted t else refuseWrite s) = setLastWrite .accepted t := by
  split at h
  · exact ⟨‹_›, if_pos ‹_›⟩
  · exact nomatch h

theorem writeArgument0_accepted {data : Word} {s : State} (h : (writeArgument0 data s).lastWrite = .accepted) :
    (writeArgument0 data s).argument0 = data := by
  unfold writeArgument0 at h ⊢
  split at h
  · exact nomatch h
  · rw [if_neg ‹_›]
    rfl

/-- Settles O20: what each accepted write sets, and the bits of the word that it sets. -/
theorem settingsReadBack : Obligations.SettingsReadBack := by
  intro s t data haccepted
  refine ⟨fun w word hexec => ?_, fun d word hexec => ?_, fun i word hexec => ?_, fun hexec => ?_, fun hexec => ?_,
    fun hexec => ?_, fun hexec => ?_, fun hexec => ?_⟩
  · cases hexec
    obtain ⟨new, hnew, hset⟩ := writeWindow_accepted haccepted
    rw [registerValue, hset, vector_set_get_self]
    exact windowWordValue_windowWith hnew
  · cases hexec
    obtain ⟨new, hnew, hset⟩ := writeDomainSetting_accepted haccepted
    rw [registerValue, hset, vector_set_get_self]
    exact domainWordValue_settingsWith hnew
  · cases hexec
    obtain ⟨new, hnew, hset⟩ := writeInitiator_accepted haccepted
    rw [registerValue, hset, vector_set_get_self]
    exact initiatorWordValue_initiatorWith hnew
  · cases hexec
    obtain ⟨⟨-, low⟩, hset⟩ := accepted_of_ite haccepted
    rw [writePoolThreshold, hset]
    exact fieldAt_zero_of_lt (n := 13) (low.trans_lt (by decide))
  · cases hexec
    obtain ⟨⟨-, clear⟩, hset⟩ := accepted_of_ite haccepted
    rw [writeTimebase, hset]
    exact timebase_reads_back clear
  · cases hexec
    obtain ⟨⟨-, clear⟩, hset⟩ := accepted_of_ite haccepted
    rw [writeEnables, hset]
    exact enables_read_back clear
  · cases hexec
    exact writeArgument0_accepted haccepted
  · cases hexec
    obtain ⟨-, hset⟩ := accepted_of_ite haccepted
    exact congrArg State.argument1 hset

end Sys2Proof.Machine
end

