-- ==== Sys2Proof/Proofs/ManagementFrame.lean ====
section
/-! SUPPORT. The frames of the management port: their round trip, the commands that they carry, and what a READ returns
(R174, Tables 12-4 to 12-6). -/

namespace Sys2Proof.Machine

/-! ## Bytes -/

/-- Two fields that stand one above the other are one field. -/
theorem append_extract {w : Nat} (x : BitVec w) {high low n m : Nat} (h : high = low + m) :
    x.extractLsb' high n ++ x.extractLsb' low m = x.extractLsb' low (n + m) := by
  subst h
  refine BitVec.eq_of_getLsbD_eq fun i hi => ?_
  simp only [BitVec.getLsbD_append, BitVec.getLsbD_extractLsb', hi, decide_true, Bool.true_and]
  by_cases hm : i < m
  · simp [hm]
  · simp [hm, show i - m < n by omega, show low + m + (i - m) = low + i by omega]

theorem offset_of_bytes (offset : Offset) : offset.extractLsb' 8 8 ++ offset.extractLsb' 0 8 = offset :=
  (append_extract offset (n := 8) rfl).trans BitVec.extractLsb'_eq_self

theorem word_of_bytes (data : Word) :
    data.extractLsb' 24 8 ++ data.extractLsb' 16 8 ++ data.extractLsb' 8 8 ++ data.extractLsb' 0 8 = data := by
  rw [append_extract data (high := 24) (low := 16) (n := 8) (m := 8) rfl,
    append_extract data (high := 16) (low := 8) (n := 16) (m := 8) rfl]
  exact (append_extract data (high := 8) (low := 0) (n := 24) (m := 8) rfl).trans BitVec.extractLsb'_eq_self

/-! ## The round trip -/

theorem commandOf_commandWord (d : DomainId) :
    commandOf (commandWord 0x01 d) = .openDomain d ∧ commandOf (commandWord 0x02 d) = .commit d ∧
      commandOf (commandWord 0x03 d) = .commitAtMark d ∧ commandOf (commandWord 0x04 d) = .rollback d := by
  revert d
  decide

theorem writeRow_command (data : Word) : writeRow (offsetOf .command) data = commandOf data := by
  rw [writeRow, wordAt_offsetOf]

/-- The WRITE that carries a well-formed command falls under that command's row. -/
theorem writeRow_managementWrite {c : Instr} {offset : Offset} {data : Word} (hwf : c.wellFormed = true)
    (h : managementWrite c = some (offset, data)) : writeRow offset data = c := by
  cases c with
  | openDomain d =>
    cases h
    rw [writeRow_command, (commandOf_commandWord d).1]
  | commit d =>
    cases h
    rw [writeRow_command, (commandOf_commandWord d).2.1]
  | commitAtMark d =>
    cases h
    rw [writeRow_command, (commandOf_commandWord d).2.2.1]
  | rollback d =>
    cases h
    rw [writeRow_command, (commandOf_commandWord d).2.2.2]
  | poolLoad | flushCache | clearFault | resetAll =>
    cases h
    rfl
  | unknownCommand word =>
    cases h
    rw [writeRow_command]
    exact eq_of_beq hwf
  | settingWrite offset data =>
    cases h
    exact eq_of_beq hwf
  | windowSettingWrite w word data =>
    cases h
    rw [writeRow, wordAt_offsetOf]
  | domainSettingWrite d word data =>
    cases h
    rw [writeRow, wordAt_offsetOf]
  | initiatorSettingWrite i word data =>
    cases h
    rw [writeRow, wordAt_offsetOf]
  | poolThresholdWrite data | timebaseAndEdgeWrite data | alertLatchesWrite data | alertEnablesWrite data =>
    cases h
    rfl
  | _ => exact nomatch h

/-- Settles O50: the bytes of a frame are its offset and its data, and the row of both is the command. -/
theorem frameRoundTrip : Obligations.FrameRoundTrip := by
  intro c bytes rest hwf h
  obtain ⟨⟨offset, data⟩, hwrite, hbytes⟩ := Option.map_eq_some_iff.mp h
  cases hbytes
  simp only [List.cons_append, decodeFrame, if_true, offset_of_bytes, word_of_bytes,
    writeRow_managementWrite hwf hwrite]

/-! ## What frames carry -/

theorem commandOf_wellFormed (word : Word) : (commandOf word).wellFormed = true := by
  obtain named | unknown := commandOf_named_or_unknown word
  · generalize commandOf word = c at named
    cases named <;> rfl
  · rw [unknown]
    exact beq_iff_eq.mpr unknown

theorem writeRow_wellFormed (offset : Offset) (data : Word) : (writeRow offset data).wellFormed = true := by
  have other (h : writeRow offset data = .settingWrite offset data) : (writeRow offset data).wellFormed = true := by
    rw [h]
    exact beq_iff_eq.mpr h
  cases hword : wordAt offset with
  | none => exact other (by simp only [writeRow, hword])
  | some word =>
    cases word with
    | command =>
      simp only [writeRow, hword]
      exact commandOf_wellFormed data
    | window | domainSettings | initiator | poolThreshold | timebaseAndEdge | alertLatches | alertEnables =>
      simp only [writeRow, hword]
      rfl
    | _ => exact other (by simp only [writeRow, hword])

theorem decodeFrame_eq_some_iff {frame : List Byte} {c : Instr} :
    decodeFrame frame = some c ↔
      ∃ o1 o0 d3 d2 d1 d0 rest, frame = 0x02 :: o1 :: o0 :: d3 :: d2 :: d1 :: d0 :: rest ∧
        c = writeRow (o1 ++ o0) (d3 ++ d2 ++ d1 ++ d0) := by
  constructor
  · intro h
    unfold decodeFrame at h
    split at h
    · rename_i operation o1 o0 d3 d2 d1 d0 rest
      rw [Option.ite_none_right_eq_some] at h
      obtain ⟨rfl, hc⟩ := h
      exact ⟨o1, o0, d3, d2, d1, d0, rest, rfl, (Option.some.inj hc).symm⟩
    · exact nomatch h
  · rintro ⟨o1, o0, d3, d2, d1, d0, rest, rfl, rfl⟩
    rfl

theorem readWord_offsetOf (s : State) (word : RegisterWord) : readWord s (offsetOf word) = registerValue s word := by
  rw [readWord, wordAt_offsetOf]
  rfl

/-- Settles O51: the frames that carry a command are the WRITEs of at least seven bytes, and a READ goes by its offset. -/
theorem framesCarryCommandsAndReads : Obligations.FramesCarryCommandsAndReads := by
  refine ⟨fun frame h => ?_, fun frame c h => ?_, fun s word x y z u rest => ?_, fun s offset h => ?_⟩
  · refine Option.eq_none_iff_forall_not_mem.mpr fun c hc => ?_
    obtain ⟨o1, o0, d3, d2, d1, d0, rest, rfl, -⟩ := decodeFrame_eq_some_iff.mp hc
    obtain short | head := h
    · simp only [List.length_cons] at short
      omega
    · exact head rfl
  · obtain ⟨o1, o0, d3, d2, d1, d0, rest, -, rfl⟩ := decodeFrame_eq_some_iff.mp h
    exact writeRow_wellFormed _ _
  · have reading : readWord s ((offsetOf word).extractLsb' 8 8 ++ (offsetOf word).extractLsb' 0 8) =
        registerValue s word := by rw [offset_of_bytes, readWord_offsetOf]
    simp only [frameReply, readOperation, if_true, reading]
  · cases hword : wordAt offset with
    | none => simp only [readWord, hword, Option.map_none, Option.getD_none]
    | some word => exact absurd (offsetOf_of_wordAt hword) (h word)

end Sys2Proof.Machine
end

