-- ==== Sys2Proof/Proofs/FaultRecord.lean ====
section
/-! SUPPORT. A fault report at an empty and at a full record (R170). -/

namespace Sys2Proof.Machine

theorem reportFault_of_empty {s : State} (h : s.fault = none) (f : FaultReport) :
    reportFault f s = { s with fault := some f, latches := s.latches ||| 1#18 } := by
  have mask : alertMask .fault = 1#18 := rfl
  simp only [reportFault, h, mask, Option.getD_none, Option.isSome_none, Bool.or_false, Bool.false_eq_true, if_false]

theorem reportFault_of_full {s : State} (h : s.fault ≠ none) (f : FaultReport) :
    reportFault f s = { s with lost := true } := by
  obtain ⟨g, hg⟩ := Option.ne_none_iff_exists'.mp h
  simp only [reportFault, hg, Option.getD_some, Option.isSome_some, Bool.or_true, if_true]

/-- Settles O21. -/
theorem faultReportFillsRecord : Obligations.FaultReportFillsRecord :=
  fun f _ => ⟨fun h => reportFault_of_empty h f, fun h => reportFault_of_full h f⟩

end Sys2Proof.Machine
end

