-- ==== Sys2Proof/Proofs/Expiry.lean ====
section
/-! SUPPORT. The deadline counters: what a tick and an expiry do, and the four counters of one tick (R164, R165). -/

namespace Sys2Proof.Machine

/-! ## One counter -/

/-- The tick that reaches a counter is its expiry (R165). -/
def expiring (c : DeadlineCounter) : Bool := c.running && decide (c.value = 1)

theorem expiring_iff {c : DeadlineCounter} : expiring c = true ↔ c.running = true ∧ c.value = 1 := by
  rw [expiring, Bool.and_eq_true, decide_eq_true_iff]

/-- A counter that a tick has reached (R164). -/
def lowered (c : DeadlineCounter) : DeadlineCounter :=
  if c.running = true ∧ 0 < c.value then { value := c.value - 1, running := decide (c.value ≠ 1) } else c

theorem lowered_of_expiring {c : DeadlineCounter} (h : expiring c = true) :
    lowered c = { value := 0, running := false } := by
  obtain ⟨hrun, hvalue⟩ := expiring_iff.mp h
  simp [lowered, hrun, hvalue]

/-- The expiry of a counter before its action (R165). -/
def expired (d : DomainId) (s : State) : State :=
  { s with
    deadlines := s.deadlines.set d { value := 0, running := false }
    latches := s.latches ||| 1#18 <<< (2 + d.val) }

section OneCounter

variable {d : DomainId} {s : State}

theorem expire_alert (h : s.domains[d].settings.deadlineAction = .alert) : expire d s = expired d s := by
  simp only [expire, settingsOf, h]
  rfl

theorem expire_commit (h : s.domains[d].settings.deadlineAction = .commit) :
    expire d s = causeCommit d (expired d s) := by
  simp only [expire, settingsOf, h]
  rfl

theorem expire_rollback (h : s.domains[d].settings.deadlineAction = .rollback) :
    expire d s = causeRollback d (expired d s) := by
  simp only [expire, settingsOf, h]
  rfl

theorem causeCommit_of_epoch (h : s.domains[d].state = .opened ∨ s.domains[d].state = .marked) :
    causeCommit d s = enterCommit d s := if_pos ((inEpoch_iff d s).mpr h)

theorem causeRollback_of_epoch (h : s.domains[d].state = .opened ∨ s.domains[d].state = .marked) :
    causeRollback d s = enterRollback d s := if_pos ((inEpoch_iff d s).mpr h)

theorem causeCommit_otherwise (ho : s.domains[d].state ≠ .opened) (hm : s.domains[d].state ≠ .marked) :
    causeCommit d s = s := if_neg fun h => ((inEpoch_iff d s).mp h).elim ho hm

theorem causeRollback_otherwise (ho : s.domains[d].state ≠ .opened) (hm : s.domains[d].state ≠ .marked) :
    causeRollback d s = s := if_neg fun h => ((inEpoch_iff d s).mp h).elim ho hm

/-- The expiry of a domain outside its epoch has no action but the latch (R42, R165). -/
theorem expire_otherwise (ho : s.domains[d].state ≠ .opened) (hm : s.domains[d].state ≠ .marked) :
    expire d s = expired d s := by
  cases haction : s.domains[d].settings.deadlineAction with
  | alert => exact expire_alert haction
  | commit => rw [expire_commit haction, causeCommit_otherwise (s := expired d s) ho hm]
  | rollback => rw [expire_rollback haction, causeRollback_otherwise (s := expired d s) ho hm]

theorem expire_commit_of_not_drained (haction : s.domains[d].settings.deadlineAction = .commit)
    (hepoch : s.domains[d].state = .opened ∨ s.domains[d].state = .marked) (hdrain : commitDrained d s = false) :
    expire d s = stopped d (.committing .drain) (expired d s) := by
  rw [expire_commit haction, causeCommit_of_epoch (s := expired d s) hepoch,
    enterCommit_of_not_drained (s := expired d s) hdrain]

theorem expire_rollback_of_not_drained (haction : s.domains[d].settings.deadlineAction = .rollback)
    (hepoch : s.domains[d].state = .opened ∨ s.domains[d].state = .marked) (hdrain : rollbackDrained d s = false) :
    expire d s = stopped d .rollingBack (expired d s) := by
  rw [expire_rollback haction, causeRollback_of_epoch (s := expired d s) hepoch,
    enterRollback_of_not_drained (s := expired d s) hdrain]

theorem tickCounter_expiring (h : expiring s.deadlines[d] = true) : tickCounter d s = expire d s := by
  obtain ⟨hrun, hvalue⟩ := expiring_iff.mp h
  simp only [tickCounter, hrun, hvalue, Nat.lt_add_one, and_self, if_true]

theorem tickCounter_not_expiring (h : expiring s.deadlines[d] = false) :
    tickCounter d s = { s with deadlines := s.deadlines.set d (lowered s.deadlines[d]) } := by
  unfold tickCounter lowered
  by_cases runs : s.deadlines[d].running = true ∧ 0 < s.deadlines[d].value
  · have later : s.deadlines[d].value ≠ 1 := fun hvalue => by
      rw [expiring_iff.mpr ⟨runs.1, hvalue⟩] at h
      exact nomatch h
    simp only [runs, and_self, if_true, if_neg later, decide_eq_true later]
    rw [setDeadline, ← runs.1]
  · simp only [if_neg runs, vector_set_same]

/-- A tick at a counter whose expiry only alerts. -/
theorem tickCounter_alert (h : expiring s.deadlines[d] = true → s.domains[d].settings.deadlineAction = .alert) :
    tickCounter d s = { s with
      deadlines := s.deadlines.set d (lowered s.deadlines[d])
      latches := if expiring s.deadlines[d] then s.latches ||| 1#18 <<< (2 + d.val) else s.latches } := by
  cases hexp : expiring s.deadlines[d] with
  | false =>
    rw [tickCounter_not_expiring hexp]
    rfl
  | true =>
    rw [tickCounter_expiring hexp, expire_alert (h hexp), lowered_of_expiring hexp]
    rfl

end OneCounter

/-! ## The counters of one tick -/

/-- The counters of some domains after a tick has reached them. -/
def loweredAt (ds : List DomainId) (v : Vector DeadlineCounter 4) : Vector DeadlineCounter 4 :=
  Vector.ofFn fun d => if d ∈ ds then lowered v[d] else v[d]

theorem loweredAt_get (ds : List DomainId) (v : Vector DeadlineCounter 4) (d : DomainId) :
    (loweredAt ds v)[d] = if d ∈ ds then lowered v[d] else v[d] := vector_ofFn_get ..

theorem loweredAt_nil (v : Vector DeadlineCounter 4) : loweredAt [] v = v :=
  vector_ext_fin fun d => by rw [loweredAt_get, if_neg List.not_mem_nil]

theorem loweredAt_cons {d : DomainId} {ds : List DomainId} (h : d ∉ ds) (v : Vector DeadlineCounter 4) :
    loweredAt ds (v.set d (lowered v[d])) = loweredAt (d :: ds) v := by
  refine vector_ext_fin fun e => ?_
  rw [loweredAt_get, loweredAt_get, vector_set_get]
  by_cases he : d = e
  · subst he
    rw [if_neg h, if_pos rfl, if_pos List.mem_cons_self]
  · simp only [if_neg he, List.mem_cons, Ne.symm he, false_or]

/-- The latches after the expiries of some domains. -/
def latchedAt (ds : List DomainId) (v : Vector DeadlineCounter 4) (latches : BitVec 18) : BitVec 18 :=
  ds.foldl (fun l d => if expiring v[d] then l ||| 1#18 <<< (2 + d.val) else l) latches

theorem latchedAt_congr {ds : List DomainId} {v u : Vector DeadlineCounter 4} (h : ∀ d ∈ ds, u[d] = v[d])
    (latches : BitVec 18) : latchedAt ds u latches = latchedAt ds v latches := by
  induction ds generalizing latches with
  | nil => rfl
  | cons d ds ih =>
    simp only [latchedAt, List.foldl_cons] at ih ⊢
    rw [h d List.mem_cons_self]
    exact ih (fun e he => h e (List.mem_cons_of_mem d he)) _

/-- A tick over distinct domains whose expiries only alert. -/
theorem foldl_tickCounter {ds : List DomainId} (hnodup : ds.Nodup) {s : State}
    (h : ∀ d ∈ ds, expiring s.deadlines[d] = true → s.domains[d].settings.deadlineAction = .alert) :
    ds.foldl (fun t d => tickCounter d t) s = { s with
      deadlines := loweredAt ds s.deadlines
      latches := latchedAt ds s.deadlines s.latches } := by
  induction ds generalizing s with
  | nil => rw [loweredAt_nil]; rfl
  | cons d ds ih =>
    obtain ⟨hnew, hnodup⟩ := List.nodup_cons.mp hnodup
    have others : ∀ e ∈ ds, (s.deadlines.set d (lowered s.deadlines[d]))[e] = s.deadlines[e] := fun e he => by
      have distinct : d ≠ e := fun hde => hnew (hde ▸ he)
      rw [vector_set_get, if_neg distinct]
    rw [List.foldl_cons, tickCounter_alert (h d List.mem_cons_self), ih hnodup fun e he hexp => ?_]
    · simp only [loweredAt_cons hnew, latchedAt_congr others]
      rfl
    · exact h e (List.mem_cons_of_mem d he) ((others e he) ▸ hexp)

theorem alertBit_eq_deadline_iff {a : Alert} {d : DomainId} : alertBit a = 2 + d.val ↔ a = .deadline d := by
  cases a with
  | fault | poolLow => simp [alertBit]; omega
  | deadline e => simp [alertBit, Fin.ext_iff]
  | commitDone e | rollbackDone e | domainFaulted e => simp [alertBit]; omega

/-- An expiry sets its own latch and leaves the others. -/
theorem expiry_getLsbD (latches : BitVec 18) (d : DomainId) (a : Alert) :
    (latches ||| 1#18 <<< (2 + d.val)).getLsbD (alertBit a) =
      (latches.getLsbD (alertBit a) || decide (a = .deadline d)) := by
  have bit : (1#18 <<< (2 + d.val)).getLsbD (alertBit a) = decide (alertBit a = 2 + d.val) := by
    rw [BitVec.getLsbD_shiftLeft, BitVec.getLsbD_one, Bool.eq_iff_iff]
    simp only [alertBit_lt, decide_true, Bool.true_and, Bool.and_eq_true, Bool.not_eq_true', decide_eq_false_iff_not,
      decide_eq_true_iff]
    omega
  simp only [BitVec.getLsbD_or, bit, alertBit_eq_deadline_iff]

/-- A tick's latches are those that were set and those of the counters that expire in it. -/
theorem latchedAt_getLsbD (ds : List DomainId) (v : Vector DeadlineCounter 4) (latches : BitVec 18) (a : Alert) :
    (latchedAt ds v latches).getLsbD (alertBit a) =
      (latches.getLsbD (alertBit a) || decide (∃ d ∈ ds, a = .deadline d ∧ expiring v[d] = true)) := by
  induction ds generalizing latches with
  | nil => simp [latchedAt]
  | cons d ds ih =>
    simp only [latchedAt, List.foldl_cons] at ih ⊢
    rw [ih]
    cases hexp : expiring v[d] with
    | false =>
      simp only [List.mem_cons, exists_eq_or_imp, hexp, Bool.false_eq_true, if_false, and_false, false_or]
    | true =>
      simp only [List.mem_cons, exists_eq_or_imp, hexp, if_true, and_true, Bool.decide_or, expiry_getLsbD,
        Bool.or_assoc]

theorem takeTick_eq (order : List DomainId) (s : State) :
    takeTick order s = (domainOrder order).foldl (fun t d => tickCounter d t) { s with divider := 0 } := rfl

/-- Settles O23: each counter by itself, and the latches of those that expire. -/
theorem tickExpiryAlerts : Obligations.TickExpiryAlerts := by
  intro order s halert
  refine ⟨latchedAt (domainOrder order) s.deadlines s.latches, congrArg Host.Outcome.next ?_, fun a => ?_⟩
  · rw [takeTick_eq, foldl_tickCounter (s := { s with divider := 0 }) (domainOrder_nodup order) fun d _ hexp =>
      halert d (expiring_iff.mp hexp).1 (expiring_iff.mp hexp).2]
    simp only [loweredAt, mem_domainOrder, if_true, lowered]
  · rw [latchedAt_getLsbD]
    simp only [mem_domainOrder, true_and, expiring_iff]

/-! ## A tick with one expiry -/

theorem latchedAt_of_none {ds : List DomainId} {v : Vector DeadlineCounter 4} (h : ∀ d ∈ ds, expiring v[d] = false)
    (latches : BitVec 18) : latchedAt ds v latches = latches := by
  induction ds generalizing latches with
  | nil => rfl
  | cons d ds ih =>
    simp only [latchedAt, List.foldl_cons, h d List.mem_cons_self] at ih ⊢
    exact ih (fun e he => h e (List.mem_cons_of_mem d he)) _

theorem foldl_tickCounter_of_none {ds : List DomainId} (hnodup : ds.Nodup) {s : State}
    (h : ∀ d ∈ ds, expiring s.deadlines[d] = false) :
    ds.foldl (fun t d => tickCounter d t) s = { s with deadlines := loweredAt ds s.deadlines } := by
  rw [foldl_tickCounter hnodup fun d hd hexp => absurd ((h d hd).symm.trans hexp) Bool.false_ne_true,
    latchedAt_of_none h]

/-- The counters after a tick that is the expiry of one of them. -/
def loweredBut (d : DomainId) (v : Vector DeadlineCounter 4) : Vector DeadlineCounter 4 :=
  Vector.ofFn fun e => if e = d then { value := 0, running := false } else lowered v[e]

/-- The counters that a tick reaches before and after the one that expires. -/
theorem loweredAt_around {d : DomainId} {before after : List DomainId} (hall : ∀ e, e ∈ before ++ d :: after)
    (hnodup : (before ++ d :: after).Nodup) (v : Vector DeadlineCounter 4) :
    loweredAt after ((loweredAt before v).set d { value := 0, running := false }) = loweredBut d v := by
  refine vector_ext_fin fun e => ?_
  have distinct := (List.nodup_middle.mp hnodup).notMem
  have disjoint := List.nodup_append.mp (List.nodup_cons.mp (List.nodup_middle.mp hnodup)).2
  rw [List.mem_append, not_or] at distinct
  obtain ⟨-, hafter⟩ := distinct
  rw [loweredAt_get, vector_set_get, loweredAt_get, loweredBut, vector_ofFn_get]
  by_cases he : d = e
  · subst he
    rw [if_pos rfl, if_pos rfl, if_neg hafter]
  · rw [if_neg he, if_neg (Ne.symm he)]
    have reached := hall e
    rw [List.mem_append, List.mem_cons] at reached
    by_cases hb : e ∈ before
    · have notAfter : e ∉ after := fun ha => disjoint.2.2 e hb e ha rfl
      rw [if_neg notAfter, if_pos hb]
    · have ha : e ∈ after := (reached.resolve_left hb).resolve_left (Ne.symm he)
      rw [if_pos ha, if_neg hb]

/-- A tick in which one counter expires into a phase whose DRAIN condition does not hold: `st` is that phase. -/
theorem takeTick_of_one {d : DomainId} {st : DomainState} {s : State} (order : List DomainId)
    (hd : expiring s.deadlines[d] = true) (hothers : ∀ e, e ≠ d → expiring s.deadlines[e] = false)
    (hexpire : ∀ v, expire d { s with divider := 0, deadlines := v } =
      stopped d st (expired d { s with divider := 0, deadlines := v })) :
    takeTick order s = { s with
      divider := 0
      deadlines := loweredBut d s.deadlines
      latches := s.latches ||| 1#18 <<< (2 + d.val)
      domains := s.domains.set d { s.domains[d] with state := st } } := by
  obtain ⟨before, after, horder⟩ := List.append_of_mem (mem_domainOrder order d)
  have hnodup := domainOrder_nodup order
  have hall := mem_domainOrder order
  rw [horder] at hnodup hall
  have distinct := (List.nodup_middle.mp hnodup).notMem
  rw [List.mem_append, not_or] at distinct
  obtain ⟨hbefore, hafter⟩ := distinct
  have apart : ∀ {ds : List DomainId}, d ∉ ds → ∀ e ∈ ds, e ≠ d := fun hds e he hed => hds (hed ▸ he)
  rw [takeTick_eq, horder, List.foldl_append, List.foldl_cons,
    foldl_tickCounter_of_none (s := { s with divider := 0 }) hnodup.of_append_left
      fun e he => hothers e (apart hbefore e he)]
  have keptD : (loweredAt before s.deadlines)[d] = s.deadlines[d] := by rw [loweredAt_get, if_neg hbefore]
  rw [tickCounter_expiring (s := { s with divider := 0, deadlines := loweredAt before s.deadlines })
    (by rw [keptD]; exact hd), hexpire]
  have final : stopped d st (expired d { s with divider := 0, deadlines := loweredAt before s.deadlines }) = { s with
      divider := 0
      deadlines := (loweredAt before s.deadlines).set d { value := 0, running := false }
      latches := s.latches ||| 1#18 <<< (2 + d.val)
      domains := s.domains.set d { s.domains[d] with state := st } } := by
    simp only [stopped, expired, vector_set_get_self, vector_set_twice]
  obtain ⟨-, hnodupAfter, disjoint⟩ := List.nodup_append.mp hnodup
  rw [final, foldl_tickCounter_of_none (List.nodup_cons.mp hnodupAfter).2 fun e he => ?_]
  · simp only [loweredAt_around hall hnodup]
  · have notBefore : e ∉ before := fun hb => disjoint e hb e (List.mem_cons_of_mem d he) rfl
    have other := apart hafter e he
    rw [vector_set_get, if_neg (Ne.symm other), loweredAt_get, if_neg notBefore]
    exact hothers e other

/-- A command's result taken back leaves what the command did (R165). -/
theorem restore_commandResult {s t : State} (h : t.commandResult = s.commandResult) (result : ResultCode) (code : Byte) :
    { setResult result code t with commandResult := s.commandResult } = t := by
  rw [← h]
  rfl

/-- The counters after the tick, as R164 lowers them. -/
theorem loweredBut_eq {d : DomainId} {v : Vector DeadlineCounter 4}
    (hothers : ∀ e, e ≠ d → expiring v[e] = false) :
    loweredBut d v = Vector.ofFn fun e => if e = d then { value := 0, running := false }
      else if v[e].running = true ∧ 0 < v[e].value then { value := v[e].value - 1, running := true } else v[e] := by
  refine vector_ext_fin fun e => ?_
  rw [loweredBut, vector_ofFn_get, vector_ofFn_get]
  refine if_ctx_congr .rfl (fun _ => rfl) fun he => ?_
  refine if_ctx_congr .rfl (fun runs => ?_) fun _ => rfl
  have later : v[e].value ≠ 1 := fun hvalue =>
    Bool.false_ne_true ((hothers e he).symm.trans (expiring_iff.mpr ⟨runs.1, hvalue⟩))
  rw [decide_eq_true later]

/-- Settles O24: the expiry by the domain's action and state, and the tick around the one counter that expires. -/
theorem expiryDecidesInItsEvent : Obligations.ExpiryDecidesInItsEvent := by
  refine ⟨fun d s hs hrun hvalue => ⟨fun hnothing => ?_, fun haction hepoch => ?_, fun haction hepoch => ?_⟩,
    fun order d s hrun hvalue hothers hepoch => ⟨fun haction hdrain => ?_, fun haction hdrain => ?_⟩⟩
  · refine congrArg Host.Outcome.next ((if_pos ⟨hrun, hvalue⟩).trans ?_)
    obtain haction | ⟨ho, hm⟩ := hnothing
    · exact expire_alert haction
    · exact expire_otherwise ho hm
  · refine ⟨_, exec_commit_of_epoch (s := expired d s) hs hepoch, ?_⟩
    refine congrArg Host.Outcome.next ((if_pos ⟨hrun, hvalue⟩).trans ?_)
    rw [expire_commit haction, causeCommit_of_epoch (s := expired d s) hepoch]
    exact (restore_commandResult (enterCommit_frame d (expired d s)).commandResult _ _).symm
  · refine ⟨_, exec_rollback_of_epoch (s := expired d s) hs hepoch, ?_⟩
    refine congrArg Host.Outcome.next ((if_pos ⟨hrun, hvalue⟩).trans ?_)
    rw [expire_rollback haction, causeRollback_of_epoch (s := expired d s) hepoch]
    exact (restore_commandResult (enterRollback_frame d (expired d s)).commandResult _ _).symm
  · have others : ∀ e, e ≠ d → expiring s.deadlines[e] = false := fun e he =>
      Bool.eq_false_iff.mpr fun hexp => hothers e he (expiring_iff.mp hexp)
    refine congrArg Host.Outcome.next ?_
    rw [takeTick_of_one order (expiring_iff.mpr ⟨hrun, hvalue⟩) others fun v =>
      expire_commit_of_not_drained (s := { s with divider := 0, deadlines := v }) haction hepoch hdrain,
      loweredBut_eq others]
  · have others : ∀ e, e ≠ d → expiring s.deadlines[e] = false := fun e he =>
      Bool.eq_false_iff.mpr fun hexp => hothers e he (expiring_iff.mp hexp)
    refine congrArg Host.Outcome.next ?_
    rw [takeTick_of_one order (expiring_iff.mpr ⟨hrun, hvalue⟩) others fun v =>
      expire_rollback_of_not_drained (s := { s with divider := 0, deadlines := v }) haction hepoch hdrain,
      loweredBut_eq others]

end Sys2Proof.Machine
end

