-- ==== Sys2Proof/Proofs/EpochLine.lean ====
section
/-! SUPPORT. The changes of the EPOCH line: the delivery of a mark event to each domain, and what all its deliveries leave
(R166, R167). -/

namespace Sys2Proof.Machine

/-! ## One delivery -/

/-- A mark event moves the domain: MARKED, or OPEN with auto-mark on (R167). -/
def armed (s : State) (d : DomainId) : Bool :=
  decide (s.domains[d].state = .marked) || (decide (s.domains[d].state = .opened) && s.domains[d].settings.autoMark)

theorem deliverMark_of_armed {d : DomainId} {s : State} (h : armed s d = true) : deliverMark d s = enterCommit d s := by
  simp only [armed, Bool.or_eq_true, Bool.and_eq_true, decide_eq_true_iff] at h
  obtain hmarked | ⟨hopened, hauto⟩ := h
  · simp only [deliverMark, domainState, hmarked]
  · simp only [deliverMark, domainState, hopened, settingsOf, hauto, if_true]

theorem deliverMark_of_unarmed {d : DomainId} {s : State} (h : armed s d = false) : deliverMark d s = s := by
  simp only [armed, Bool.or_eq_false_iff, Bool.and_eq_false_iff, decide_eq_false_iff_not] at h
  obtain ⟨hmarked, hauto⟩ := h
  simp only [deliverMark, domainState]
  split
  · exact absurd ‹_› hmarked
  · have off : s.domains[d].settings.autoMark = false := hauto.resolve_left (not_not.mpr ‹_›)
    simp only [settingsOf, off, Bool.false_eq_true, if_false]
  all_goals rfl

/-! ## All deliveries -/

/-- A file in which the registers of some domains are updated. -/
def updatedAt {α : Type} (a : DomainId → Bool) (f : DomainId → α → α) (ds : List DomainId) (v : Vector α 4) :
    Vector α 4 :=
  Vector.ofFn fun d => if d ∈ ds ∧ a d = true then f d v[d] else v[d]

section Updated

variable {α : Type} {a : DomainId → Bool} (f : DomainId → α → α) {d : DomainId} {ds : List DomainId} (v : Vector α 4)

theorem updatedAt_nil : updatedAt a f [] v = v :=
  vector_ext_fin fun d => by rw [updatedAt, vector_ofFn_get, if_neg fun h => List.not_mem_nil h.1]

theorem updatedAt_cons_of_not (h : a d = false) : updatedAt a f (d :: ds) v = updatedAt a f ds v := by
  refine vector_ext_fin fun e => ?_
  rw [updatedAt, updatedAt, vector_ofFn_get, vector_ofFn_get]
  refine if_congr ⟨fun ⟨he, ha⟩ => ⟨(List.mem_cons.mp he).resolve_left ?_, ha⟩,
    fun ⟨he, ha⟩ => ⟨List.mem_cons_of_mem d he, ha⟩⟩ rfl rfl
  rintro rfl
  exact Bool.false_ne_true (h.symm.trans ha)

theorem updatedAt_cons (hd : d ∉ ds) (h : a d = true) :
    updatedAt a f (d :: ds) v = updatedAt a f ds (v.set d (f d v[d])) := by
  refine vector_ext_fin fun e => ?_
  rw [updatedAt, updatedAt, vector_ofFn_get, vector_ofFn_get, vector_set_get]
  by_cases he : d = e
  · subst he
    rw [if_pos ⟨List.mem_cons_self, h⟩, if_neg fun hmem => hd hmem.1, if_pos rfl]
  · simp only [List.mem_cons, Ne.symm he, false_or, if_neg he]

end Updated

/-- A domain's phase after a mark event moves it (R68, R72). -/
def markedPhase (drained : DomainId → Bool) (d : DomainId) (r : DomainRecord) : DomainRecord :=
  { r with state := if drained d then .committing .publish else .committing .drain }

/-- The ranks once the DOMAIN waits of some domains have ended (R53). -/
def wokenFor (p : DomainId → Bool) (ds : List DomainId) (ks : List Rank) : List Rank :=
  ks.map fun k =>
    if ∃ d ∈ ds, p d = true ∧ regionDomain k.decoded.region = some d ∧ k.state = .parked .domain then
      { k with state := .eligible }
    else k

theorem wokenFor_cons_of_not {p : DomainId → Bool} {d : DomainId} (h : p d = false) (ds : List DomainId)
    (ks : List Rank) : wokenFor p (d :: ds) ks = wokenFor p ds ks := by
  refine List.map_congr_left fun k _ => if_congr ?_ rfl rfl
  simp only [List.mem_cons, exists_eq_or_imp, h, Bool.false_eq_true, false_and, false_or]

theorem parkedOnDomain_iff {d : DomainId} {k : Rank} :
    parkedOnDomain d k = true ↔ regionDomain k.decoded.region = some d ∧ k.state = .parked .domain := by
  simp only [parkedOnDomain, parkedOn, Bool.and_eq_true, decide_eq_true_iff, and_comm]

theorem wokenFor_cons {p : DomainId → Bool} {d : DomainId} (h : p d = true) (ds : List DomainId) (ks : List Rank) :
    wokenFor p (d :: ds) ks = wokenFor p ds (ks.map (wake (parkedOnDomain d))) := by
  rw [wokenFor, wokenFor, List.map_map]
  refine List.map_congr_left fun k _ => ?_
  simp only [Function.comp, List.mem_cons, exists_eq_or_imp, h, true_and, wake, parkedOnDomain_iff]
  by_cases parked : regionDomain k.decoded.region = some d ∧ k.state = .parked .domain
  · rw [if_pos (.inl parked), if_pos parked, if_neg]
    rintro ⟨e, -, -, -, eligible⟩
    exact nomatch eligible
  · simp only [parked, false_or, if_false]

/-- What the deliveries of a mark event to some domains leave: `a` are the domains that it moves and `drained` those of
them that go on to PUBLISH. -/
def delivered (a drained : DomainId → Bool) (ds : List DomainId) (s : State) : State :=
  { s with
    domains := updatedAt a (markedPhase drained) ds s.domains
    deadlines := updatedAt a (fun _ c => { c with running := false }) ds s.deadlines
    publication := s.publication ++ (ds.filter fun d => a d && drained d).map fun d => { domain := d, cursor := none }
    ranks := wokenFor (fun d => a d && drained d) ds s.ranks }

theorem delivered_nil (a drained : DomainId → Bool) (s : State) : delivered a drained [] s = s := by
  have kept : wokenFor (fun d => a d && drained d) [] s.ranks = s.ranks := by
    simp [wokenFor]
  simp only [delivered, updatedAt_nil, kept, List.filter_nil, List.map_nil, List.append_nil]

section Delivered

variable {a drained : DomainId → Bool} {d : DomainId} {ds : List DomainId} (s : State)

theorem delivered_cons_unarmed (h : a d = false) : delivered a drained (d :: ds) s = delivered a drained ds s := by
  have idle : (a d && drained d) = false := by rw [h, Bool.false_and]
  simp only [delivered, updatedAt_cons_of_not _ _ h, wokenFor_cons_of_not (p := fun d => a d && drained d) idle,
    List.filter_cons, idle, Bool.false_eq_true, if_false]

theorem delivered_cons_drain (hd : d ∉ ds) (ha : a d = true) (hdrained : drained d = false) :
    delivered a drained (d :: ds) s = delivered a drained ds (stopped d (.committing .drain) s) := by
  have idle : (a d && drained d) = false := by rw [hdrained, Bool.and_false]
  have phase : markedPhase drained d s.domains[d] = { s.domains[d] with state := .committing .drain } := by
    rw [markedPhase, hdrained, if_neg Bool.false_ne_true]
  simp only [delivered, updatedAt_cons _ _ hd ha, wokenFor_cons_of_not (p := fun d => a d && drained d) idle,
    List.filter_cons, idle, Bool.false_eq_true, if_false, phase, stopped]

theorem delivered_cons_publish (hd : d ∉ ds) (ha : a d = true) (hdrained : drained d = true) :
    delivered a drained (d :: ds) s = delivered a drained ds (published d (endDomainWaits d s)) := by
  have moves : (a d && drained d) = true := by rw [hdrained, ha, Bool.true_and]
  have phase : markedPhase drained d s.domains[d] = { s.domains[d] with state := .committing .publish } := by
    rw [markedPhase, hdrained, if_pos rfl]
  simp only [delivered, updatedAt_cons _ _ hd ha, wokenFor_cons (p := fun d => a d && drained d) moves,
    List.filter_cons, moves, if_true, phase, List.map_cons, published, List.append_assoc, List.singleton_append]
  rfl

end Delivered

/-- What the mark event finds of a domain. -/
structure MarkView (a drained : DomainId → Bool) (d : DomainId) (s : State) : Prop where
  moves : armed s d = a d
  publishes : commitDrained d s = drained d
  live : a d = true → drained d = true → (entriesOf d s).any isLive = true

theorem MarkView.of_kept {a drained : DomainId → Bool} {d : DomainId} {s t : State} (h : MarkView a drained d s)
    (k : DomainKept d s t) (ht : t.transit = s.transit) : MarkView a drained d t where
  moves := by simp only [armed, k.record]; exact h.moves
  publishes := (commitDrained_congr k.entries ht).trans h.publishes
  live := fun ha hd => by rw [k.entries]; exact h.live ha hd

/-- The deliveries of a mark event to distinct domains, each of which publishes with a LIVE entry or stays in DRAIN. -/
theorem foldl_deliverMark {a drained : DomainId → Bool} {ds : List DomainId} (hnodup : ds.Nodup) {s : State}
    (h : ∀ d ∈ ds, MarkView a drained d s) :
    ds.foldl (fun t d => deliverMark d t) s = delivered a drained ds s := by
  induction ds generalizing s with
  | nil => exact (delivered_nil a drained s).symm
  | cons d ds ih =>
    obtain ⟨hnew, hnodup⟩ := List.nodup_cons.mp hnodup
    have view := h d List.mem_cons_self
    have rest : ∀ e ∈ ds, MarkView a drained e (deliverMark d s) := fun e he =>
      (h e (List.mem_cons_of_mem d he)).of_kept (deliverMark_keeps (d := e) (e := d) (fun hde => hnew (hde ▸ he)) s)
        (deliverMark_frame d s).transit
    rw [List.foldl_cons, ih hnodup rest]
    cases ha : a d with
    | false => rw [delivered_cons_unarmed s ha, deliverMark_of_unarmed (view.moves.trans ha)]
    | true =>
      rw [deliverMark_of_armed (view.moves.trans ha)]
      cases hdrained : drained d with
      | false =>
        rw [delivered_cons_drain s hnew ha hdrained, enterCommit_of_not_drained (view.publishes.trans hdrained)]
      | true =>
        rw [delivered_cons_publish s hnew ha hdrained,
          enterCommit_of_live (view.publishes.trans hdrained) (view.live ha hdrained)]

/-! ## The mark event -/

theorem takeMark_eq (order : List DomainId) (s : State) :
    takeMark order s = (domainOrder order).foldl (fun t d => deliverMark d t)
      { s with lineLevel := activeLevel s.edge, markCounter := s.markCounter + 1 } := rfl

theorem foldl_deliverMark_unarmed {ds : List DomainId} {s : State} (h : ∀ d ∈ ds, armed s d = false) :
    ds.foldl (fun t d => deliverMark d t) s = s := by
  induction ds with
  | nil => rfl
  | cons d ds ih =>
    rw [List.foldl_cons, deliverMark_of_unarmed (h d List.mem_cons_self)]
    exact ih fun e he => h e (List.mem_cons_of_mem d he)

/-- A mark event that moves one domain does to it what a commit does. -/
theorem takeMark_of_one {d : DomainId} {s : State} (order : List DomainId) (hd : armed s d = true)
    (hothers : ∀ e, armed s e = true → e = d) :
    takeMark order s =
      enterCommit d { s with lineLevel := activeLevel s.edge, markCounter := s.markCounter + 1 } := by
  obtain ⟨before, after, horder⟩ := List.append_of_mem (mem_domainOrder order d)
  have hnodup := domainOrder_nodup order
  rw [horder] at hnodup
  have distinct := (List.nodup_middle.mp hnodup).notMem
  rw [List.mem_append, not_or] at distinct
  obtain ⟨hbefore, hafter⟩ := distinct
  have unarmed {ds : List DomainId} (hds : d ∉ ds) : ∀ e ∈ ds, armed s e = false := fun e he =>
    Bool.eq_false_iff.mpr fun ha => hds (hothers e ha ▸ he)
  rw [takeMark_eq, horder, List.foldl_append, List.foldl_cons,
    foldl_deliverMark_unarmed (s := { s with lineLevel := activeLevel s.edge, markCounter := s.markCounter + 1 })
      (unarmed hbefore),
    deliverMark_of_armed (s := { s with lineLevel := activeLevel s.edge, markCounter := s.markCounter + 1 }) hd]
  refine foldl_deliverMark_unarmed fun e he => ?_
  have kept := (enterCommit_keeps (d := e) (e := d) (fun hde => hafter (hde ▸ he))
    { s with lineLevel := activeLevel s.edge, markCounter := s.markCounter + 1 }).record
  simp only [armed, kept]
  exact unarmed hafter e he

/-- Settles O25: the deliveries to the four domains, or the one that moves a domain; and the opposite change. -/
theorem epochLineChanges : Obligations.EpochLineChanges := by
  refine ⟨fun order s => ⟨fun hline hlive => ?_, fun d hline hd hothers hempty hdrained => ?_, fun hline => ?_⟩,
    fun s => rfl⟩
  · rw [exec_markEvent_of_inactive order hline, takeMark_eq, foldl_deliverMark (a := armed s)
      (s := { s with lineLevel := activeLevel s.edge, markCounter := s.markCounter + 1 })
      (drained := fun d => commitDrained d s) (domainOrder_nodup order) fun d _ => ⟨rfl, rfl, hlive d⟩]
    refine congrArg Host.Outcome.next ?_
    simp only [delivered, updatedAt, wokenFor, mem_domainOrder, true_and, Bool.and_eq_true, and_assoc, markedPhase]
    rfl
  · rw [exec_markEvent_of_inactive order hline, takeMark_of_one order hd hothers, enterCommit_of_empty
      (s := { s with lineLevel := activeLevel s.edge, markCounter := s.markCounter + 1 }) hdrained hempty]
    rfl
  · exact congrArg Host.Outcome.next (if_neg hline)

end Sys2Proof.Machine
end

