-- ==== Sys2Proof/Proofs/Grants.lean ====
section
/-! SUPPORT. The grants of the memory port: their order, and the operation that each sends (R31, R32, R109, R153 to
R157). -/

namespace Sys2Proof.Machine

/-! ## The order of the grants -/

section Order

variable {tag : LinkTag} {s : State}

theorem exec_grant_held (h : tagHeld tag s = true) : exec (.memoryPortGrant tag) s = .next s := if_pos h

theorem exec_grant_of_requester {q : Requester} (htag : tagHeld tag s = false) (hq : arbitrate s = some q) :
    exec (.memoryPortGrant tag) s = .next (grant tag s q) := by
  simp only [exec, execMemoryPortGrant, htag, Bool.false_eq_true, if_false, hq]

theorem exec_grant_of_none (htag : tagHeld tag s = false) (hq : arbitrate s = none) :
    exec (.memoryPortGrant tag) s = .next s := by
  simp only [exec, execMemoryPortGrant, htag, Bool.false_eq_true, if_false, hq]

theorem arbitrate_starved (hcopy : copyWaits s = true) (hlimit : s.starvation = 8) :
    arbitrate s = some (.copySlot (copyTurn s)) := if_pos ⟨hlimit, hcopy⟩

/-- The starvation guard does not act. -/
theorem arbitrate_unstarved (h : copyWaits s = true → s.starvation ≠ 8) :
    arbitrate s = if walkerWaits s then some .mapWalker else if forwardedWaits s then some .forwarded
      else if copyWaits s then some (.copySlot (copyTurn s)) else none :=
  if_neg fun ⟨hlimit, hcopy⟩ => h hcopy hlimit

theorem forwardedWaits_iff : forwardedWaits s = true ↔ ∃ e ∈ s.transit, e.state = .waiting := by
  simp only [forwardedWaits, List.any_eq_true, isWaiting, decide_eq_true_iff]

theorem forwardedWaits_eq_false (h : ∀ e ∈ s.transit, e.state ≠ .waiting) : forwardedWaits s = false :=
  Bool.eq_false_iff.mpr fun hw => by
    obtain ⟨e, he, hwaiting⟩ := forwardedWaits_iff.mp hw
    exact h e he hwaiting

theorem exec_grant_walker (htag : tagHeld tag s = false) (h : copyWaits s = true → s.starvation ≠ 8)
    (hwalker : walkerWaits s = true) : exec (.memoryPortGrant tag) s = .next (grantWalker tag s) :=
  exec_grant_of_requester htag ((arbitrate_unstarved h).trans (if_pos hwalker))

theorem exec_grant_forwarded (htag : tagHeld tag s = false) (h : copyWaits s = true → s.starvation ≠ 8)
    (hwalker : walkerWaits s = false) (hwaiting : ∃ e ∈ s.transit, e.state = .waiting) :
    exec (.memoryPortGrant tag) s = .next (grantForwarded tag s) := by
  refine exec_grant_of_requester (q := .forwarded) htag ?_
  rw [arbitrate_unstarved h, hwalker, forwardedWaits_iff.mpr hwaiting]
  rfl

/-- The Copy Engine waits, and either its guard acts or nothing before it waits. -/
theorem exec_grant_slot (htag : tagHeld tag s = false) (hcopy : copyWaits s = true)
    (h : s.starvation = 8 ∨ (walkerWaits s = false ∧ ∀ e ∈ s.transit, e.state ≠ .waiting)) :
    exec (.memoryPortGrant tag) s = .next (grantSlot (copyTurn s) tag s) := by
  refine exec_grant_of_requester (q := .copySlot (copyTurn s)) htag ?_
  by_cases hlimit : s.starvation = 8
  · exact arbitrate_starved hcopy hlimit
  · obtain ⟨hwalker, hidle⟩ := h.resolve_left hlimit
    rw [arbitrate_unstarved fun _ => hlimit, hwalker, forwardedWaits_eq_false hidle, hcopy]
    rfl

theorem exec_grant_idle (htag : tagHeld tag s = false) (hcopy : copyWaits s = false) (hwalker : walkerWaits s = false)
    (hidle : ∀ e ∈ s.transit, e.state ≠ .waiting) : exec (.memoryPortGrant tag) s = .next s := by
  refine exec_grant_of_none htag ?_
  rw [arbitrate_unstarved fun h => absurd (hcopy.symm.trans h) Bool.false_ne_true, hwalker,
    forwardedWaits_eq_false hidle, hcopy]
  rfl

end Order

/-- Settles O38: the arbiter's branches one by one. -/
theorem grantOrder : Obligations.GrantOrder := by
  refine fun tag s => ⟨exec_grant_held, fun htag => ⟨fun hcopy hlimit => exec_grant_slot htag hcopy (.inl hlimit),
    fun h => ⟨fun hwalker => exec_grant_walker htag h hwalker, fun hwalker =>
      ⟨fun hwaiting => exec_grant_forwarded htag h hwalker hwaiting, fun hidle =>
        ⟨fun hcopy => exec_grant_slot htag hcopy (.inr ⟨hwalker, hidle⟩), fun hcopy =>
          exec_grant_idle htag hcopy hwalker hidle⟩⟩⟩⟩⟩

/-! ## The Map Walker -/

theorem isPending_iff {j : WalkJob} : isPending j = true ↔ j.status = .pending := by
  rw [isPending, decide_eq_true_iff]

section FirstOf

variable {tag : LinkTag}

theorem find_isPending {before : List WalkJob} {j : WalkJob} (h : ∀ k ∈ before, k.status ≠ .pending)
    (hj : j.status = .pending) (after : List WalkJob) : (before ++ j :: after).find? isPending = some j := by
  rw [List.find?_append, List.find?_eq_none.mpr fun k hk => mt isPending_iff.mp (h k hk), Option.none_or,
    List.find?_cons_of_pos (isPending_iff.mpr hj)]

theorem issueOldest_eq {before : List WalkJob} {j : WalkJob} (h : ∀ k ∈ before, k.status ≠ .pending)
    (hj : j.status = .pending) (after : List WalkJob) :
    issueOldest tag (before ++ j :: after) = before ++ { j with status := .issued tag } :: after := by
  induction before with
  | nil => exact if_pos (isPending_iff.mpr hj)
  | cons k ks ih =>
    rw [List.cons_append, issueOldest, if_neg (mt isPending_iff.mp (h k List.mem_cons_self)),
      ih fun x hx => h x (List.mem_cons_of_mem k hx)]
    rfl

theorem isWaiting_iff {e : TransitEntry} : isWaiting e = true ↔ e.state = .waiting := by
  rw [isWaiting, decide_eq_true_iff]

theorem find_isWaiting {before : List TransitEntry} {e : TransitEntry} (h : ∀ x ∈ before, x.state ≠ .waiting)
    (he : e.state = .waiting) (after : List TransitEntry) : (before ++ e :: after).find? isWaiting = some e := by
  rw [List.find?_append, List.find?_eq_none.mpr fun x hx => mt isWaiting_iff.mp (h x hx), Option.none_or,
    List.find?_cons_of_pos (isWaiting_iff.mpr he)]

theorem sendOldest_eq {before : List TransitEntry} {e : TransitEntry} (h : ∀ x ∈ before, x.state ≠ .waiting)
    (he : e.state = .waiting) (after : List TransitEntry) :
    sendOldest tag (before ++ e :: after) = before ++ { e with state := .sent tag } :: after := by
  induction before with
  | nil => exact if_pos (isWaiting_iff.mpr he)
  | cons x xs ih =>
    rw [List.cons_append, sendOldest, if_neg (mt isWaiting_iff.mp (h x List.mem_cons_self)),
      ih fun y hy => h y (List.mem_cons_of_mem x hy)]
    rfl

end FirstOf

theorem walkerWaits_of {s : State} (hbusy : walkerBusy s = false) (hdrain : s.draining = false)
    (h : s.walkJobs.any isPending = true ∨ (publishTurn s).isSome = true) : walkerWaits s = true := by
  simp only [walkerWaits, hbusy, hdrain, Bool.not_false, Bool.true_and, Bool.or_eq_true]
  exact h

theorem grantWalker_walk {tag : LinkTag} {s : State} {before after : List WalkJob} {j : WalkJob}
    (hjobs : s.walkJobs = before ++ j :: after) (hbefore : ∀ k ∈ before, k.status ≠ .pending)
    (hj : j.status = .pending) :
    grantWalker tag s = { s with
      walkJobs := before ++ { j with status := .issued tag } :: after
      portOperations := s.portOperations ++ [walkOperation tag j] } := by
  have found : s.walkJobs.find? isPending = some j := by rw [hjobs, find_isPending hbefore hj]
  have issued := issueOldest_eq (tag := tag) hbefore hj after
  rw [← hjobs] at issued
  simp only [grantWalker, found, issued]
  rfl

/-! ## The next publish write -/

theorem mem_publishable {p : Publication} {e : ChangeEntry} {s : State} :
    (e ∈ (entriesOf p.domain s).filter fun e => isLive e && aboveCursor p.cursor e) ↔
      e ∈ s.changes ∧ e.domain = p.domain ∧ e.state = .live ∧ aboveCursor p.cursor e = true := by
  simp only [List.mem_filter, mem_entriesOf, isLive, Bool.and_eq_true, decide_eq_true_iff, and_assoc]

theorem nextPublish_eq_none {p : Publication} {s : State}
    (h : ∀ e ∈ s.changes, e.domain = p.domain → e.state = .live → aboveCursor p.cursor e = false) :
    nextPublish p s = none := by
  have nothing : ((entriesOf p.domain s).filter fun e => isLive e && aboveCursor p.cursor e) = [] := by
    refine List.eq_nil_iff_forall_not_mem.mpr fun e he => ?_
    obtain ⟨hmem, hdomain, hlive, habove⟩ := mem_publishable.mp he
    exact Bool.false_ne_true ((h e hmem hdomain hlive).symm.trans habove)
  rw [nextPublish, nothing]
  rfl

/-- The next publish write is of the entry with the smallest sequence number above the cursor (R32). -/
theorem nextPublish_eq_some {p : Publication} {e : ChangeEntry} {s : State} (hmem : e ∈ s.changes)
    (hdomain : e.domain = p.domain) (hlive : e.state = .live) (habove : aboveCursor p.cursor e = true)
    (hleast : ∀ x ∈ s.changes, x.domain = p.domain → x.state = .live → aboveCursor p.cursor x = true →
      x = e ∨ e.sequence < x.sequence) : nextPublish p s = some e := by
  unfold nextPublish
  have member := (bySequence_perm _).mem_iff.mpr (mem_publishable.mpr ⟨hmem, hdomain, hlive, habove⟩)
  have sorted := bySequence_sorted ((entriesOf p.domain s).filter fun e => isLive e && aboveCursor p.cursor e)
  cases hlist : bySequence ((entriesOf p.domain s).filter fun e => isLive e && aboveCursor p.cursor e) with
  | nil =>
    rw [hlist] at member
    exact absurd member List.not_mem_nil
  | cons x xs =>
    rw [hlist] at member sorted
    have first : x ∈ bySequence ((entriesOf p.domain s).filter fun e => isLive e && aboveCursor p.cursor e) := by
      rw [hlist]
      exact List.mem_cons_self
    obtain ⟨hx, hxd, hxl, hxa⟩ := mem_publishable.mp ((bySequence_perm _).mem_iff.mp first)
    obtain rfl | later := hleast x hx hxd hxl hxa
    · rfl
    · obtain rfl | he := List.mem_cons.mp member
      · exact absurd later (lt_irrefl _)
      · exact absurd (List.rel_of_pairwise_cons sorted he) (not_le.mpr later)

theorem publishTurn_eq {s : State} {before after : List Publication} {p : Publication} {e : ChangeEntry}
    (hpub : s.publication = before ++ p :: after) (hbefore : ∀ q ∈ before, nextPublish q s = none)
    (hp : nextPublish p s = some e) : publishTurn s = some (p, e) := by
  have skipped : before.findSome? (fun q => (nextPublish q s).map fun x => (q, x)) = none :=
    List.findSome?_eq_none_iff.mpr fun q hq => by rw [hbefore q hq]; rfl
  rw [publishTurn, hpub, List.findSome?_append, skipped, Option.none_or, List.findSome?_cons, hp]
  rfl

theorem map_advanceCursor {before after : List Publication} {p : Publication} (n : Nat)
    (hnodup : ((before ++ p :: after).map (·.domain)).Nodup) :
    (before ++ p :: after).map (advanceCursor p n) = before ++ { p with cursor := some n } :: after := by
  rw [List.map_append, List.map_cons] at hnodup
  have distinct := (List.nodup_middle.mp hnodup).notMem
  rw [List.mem_append, not_or] at distinct
  obtain ⟨hbefore, hafter⟩ := distinct
  have kept {ps : List Publication} (hps : p.domain ∉ ps.map (·.domain)) : ps.map (advanceCursor p n) = ps := by
    refine (List.map_congr_left fun q hq => ?_).trans (List.map_id ps)
    exact if_neg fun hd : q.domain = p.domain => hps (hd ▸ List.mem_map_of_mem hq)
  rw [List.map_append, List.map_cons, kept hbefore, kept hafter]
  exact congrArg (before ++ · :: after) (if_pos rfl)

theorem find_isPending_none {s : State} (h : ∀ j ∈ s.walkJobs, j.status ≠ .pending) :
    s.walkJobs.find? isPending = none :=
  List.find?_eq_none.mpr fun j hj => mt isPending_iff.mp (h j hj)

theorem grantWalker_publish {tag : LinkTag} {s : State} {before after : List Publication} {p : Publication}
    {e : ChangeEntry} (hjobs : ∀ j ∈ s.walkJobs, j.status ≠ .pending) (hturn : publishTurn s = some (p, e))
    (hpub : s.publication = before ++ p :: after) (hnodup : (s.publication.map (·.domain)).Nodup) :
    grantWalker tag s = { s with
      publication := before ++ { p with cursor := some e.sequence } :: after
      publishWrite := some { tag := tag, domain := p.domain, window := e.window, tile := e.tile,
                             mapAddress := mapEntryAddress s.windows[e.window] e.tile }
      portOperations := s.portOperations ++ [publishOperation tag e s] } := by
  rw [hpub] at hnodup
  have advanced := map_advanceCursor e.sequence hnodup
  rw [← hpub] at advanced
  simp only [grantWalker, find_isPending_none hjobs, hturn, advanced]
  rfl

/-- Settles O39: the oldest pending walk, else the first publication that has a next write. -/
theorem grantSendsWalkOrPublishWrite : Obligations.GrantSendsWalkOrPublishWrite := by
  refine ⟨fun tag s before after j htag hstarve hbusy hdrain hjobs hbefore hj => ?_,
    fun tag s before after p e htag hstarve hbusy hdrain hidle hpub hnodup hbefore hmem hdomain hlive habove hleast => ?_⟩
  · have pending : s.walkJobs.any isPending = true :=
      List.any_eq_true.mpr ⟨j, by simp [hjobs], isPending_iff.mpr hj⟩
    rw [exec_grant_walker htag hstarve (walkerWaits_of hbusy hdrain (.inl pending)), grantWalker_walk hjobs hbefore hj]
    rfl
  · have turn := publishTurn_eq hpub (fun q hq => nextPublish_eq_none (hbefore q hq))
      (nextPublish_eq_some hmem hdomain hlive habove hleast)
    rw [exec_grant_walker htag hstarve (walkerWaits_of hbusy hdrain (.inr (by rw [turn]; rfl))),
      grantWalker_publish hidle turn hpub hnodup]
    rfl

/-! ## Forwarded traffic -/

/-- Settles O40. -/
theorem grantSendsForwarded : Obligations.GrantSendsForwarded := by
  intro tag s before after e htag hstarve hwalker htransit hbefore he
  have found : s.transit.find? isWaiting = some e := by rw [htransit, find_isWaiting hbefore he]
  have sent := sendOldest_eq (tag := tag) hbefore he after
  rw [← htransit] at sent
  rw [exec_grant_forwarded htag hstarve hwalker ⟨e, by simp [htransit], he⟩]
  simp only [grantForwarded, found, sent]
  rfl

/-! ## The Copy Engine -/

theorem lowestHeld_cons_held (n : Nat) (data : Chunk) (cs : List ChunkInProgress) :
    lowestHeld ({ number := n, phase := .held data } :: cs) =
      match lowestHeld cs with
      | some (k, other) => if n ≤ k then some (n, data) else some (k, other)
      | none => some (n, data) := by
  rw [lowestHeld]
  cases lowestHeld cs <;> rfl

theorem lowestHeld_cons_other {c : ChunkInProgress} (h : ∀ data, c.phase ≠ .held data) (cs : List ChunkInProgress) :
    lowestHeld (c :: cs) = lowestHeld cs := by
  rw [lowestHeld]
  cases hphase : c.phase with
  | held data => exact absurd hphase (h data)
  | _ => rfl

theorem lowestHeld_cons_isSome (n : Nat) (data : Chunk) (cs : List ChunkInProgress) :
    lowestHeld ({ number := n, phase := .held data } :: cs) ≠ none := by
  rw [lowestHeld_cons_held]
  cases lowestHeld cs with
  | none => exact Option.some_ne_none _
  | some found =>
    dsimp only
    split <;> exact Option.some_ne_none _

theorem lowestHeld_eq_none_iff {cs : List ChunkInProgress} :
    lowestHeld cs = none ↔ ∀ c ∈ cs, ∀ data, c.phase ≠ .held data := by
  induction cs with
  | nil => exact ⟨fun _ c hc => absurd hc List.not_mem_nil, fun _ => rfl⟩
  | cons c cs ih =>
    rw [List.forall_mem_cons]
    by_cases other : ∀ data, c.phase ≠ .held data
    · rw [lowestHeld_cons_other other, ih]
      exact (and_iff_right other).symm
    · obtain ⟨number, phase⟩ := c
      obtain ⟨data, hdata⟩ : ∃ data, phase = .held data := by simpa using other
      subst hdata
      exact iff_of_false (lowestHeld_cons_isSome number data cs) fun h => h.1 data rfl

/-- What a slot writes next: a held chunk, of the lowest number of those held (R109). -/
structure LeastHeld (cs : List ChunkInProgress) (k : Nat) (data : Chunk) : Prop where
  held : { number := k, phase := .held data } ∈ cs
  least : ∀ c ∈ cs, ∀ other, c.phase = .held other → k ≤ c.number

theorem leastHeld_of_lowestHeld {cs : List ChunkInProgress} {k : Nat} {data : Chunk}
    (h : lowestHeld cs = some (k, data)) : LeastHeld cs k data := by
  induction cs generalizing k data with
  | nil => exact nomatch h
  | cons c cs ih =>
    by_cases hc : ∃ d, c.phase = .held d
    · obtain ⟨number, phase⟩ := c
      obtain ⟨d, hd⟩ : ∃ d, phase = .held d := hc
      subst hd
      rw [lowestHeld_cons_held] at h
      cases hrest : lowestHeld cs with
      | none =>
        rw [hrest] at h
        cases h
        exact ⟨List.mem_cons_self, List.forall_mem_cons.mpr ⟨fun _ _ => le_rfl, fun x hx other hother =>
          absurd hother (lowestHeld_eq_none_iff.mp hrest x hx other)⟩⟩
      | some found =>
        obtain ⟨j, o⟩ := found
        obtain ⟨held, least⟩ := ih hrest
        rw [hrest] at h
        dsimp only at h
        split at h
        · cases h
          exact ⟨List.mem_cons_self, List.forall_mem_cons.mpr ⟨fun _ _ => le_rfl, fun x hx other hother =>
            le_trans ‹_› (least x hx other hother)⟩⟩
        · cases h
          exact ⟨List.mem_cons_of_mem _ held, List.forall_mem_cons.mpr ⟨fun _ _ => (not_le.mp ‹_›).le, least⟩⟩
    · have other : ∀ d, c.phase ≠ .held d := not_exists.mp hc
      rw [lowestHeld_cons_other other] at h
      obtain ⟨held, least⟩ := ih h
      exact ⟨List.mem_cons_of_mem c held, List.forall_mem_cons.mpr ⟨fun d hd => absurd hd (other d), least⟩⟩

theorem lowestHeld_of_least {cs : List ChunkInProgress} {n : Nat} {data : Chunk}
    (hmem : { number := n, phase := .held data } ∈ cs)
    (hleast : ∀ c ∈ cs, ∀ other, c.phase = .held other → c = { number := n, phase := .held data } ∨ n < c.number) :
    lowestHeld cs = some (n, data) := by
  cases hlowest : lowestHeld cs with
  | none => exact absurd rfl (lowestHeld_eq_none_iff.mp hlowest _ hmem data)
  | some found =>
    obtain ⟨k, other⟩ := found
    obtain ⟨held, least⟩ := leastHeld_of_lowestHeld hlowest
    obtain same | later := hleast _ held other rfl
    · cases same
      rfl
    · exact absurd (least _ hmem data rfl) (not_le.mpr later)

/-- The slot whose turn it is waits, and slot 0 does not wait before it (R156). -/
theorem copyTurn_eq {k : SlotId} {s : State} (hwaits : slotWaits k s = true) (hfirst : k = 0 ∨ slotWaits 0 s = false) :
    copyTurn s = k := by
  obtain rfl | hidle := hfirst
  · exact if_pos hwaits
  · have second : k ≠ 0 := by
      rintro rfl
      exact Bool.false_ne_true (hidle.symm.trans hwaits)
    have other : ∀ j : SlotId, j ≠ 0 → 1 = j := by decide
    rw [copyTurn, hidle, if_neg Bool.false_ne_true, other k second]

/-- Settles O41: the ready operation of the slot whose turn it is. -/
theorem grantSendsChunk : Obligations.GrantSendsChunk := by
  intro tag k c s htag hturn hslot hfirst hrunning
  have sends {action : CopyAction} (hready : readyOperation c = some action) :
      exec (.memoryPortGrant tag) s = .next
        (sendOperation (chunkOperation tag c action) { setSlot k (some (afterSend tag c action)) s with starvation := 0 }) := by
    have waits : slotWaits k s = true := by simp only [slotWaits, hslot, Option.bind_some, hready, Option.isSome_some]
    have turn : copyTurn s = k := copyTurn_eq waits hfirst
    rw [exec_grant_slot htag ((copyWaits_iff s).mpr ⟨k, waits⟩) hturn, turn]
    simp only [grantSlot, hslot, hready]
  refine ⟨fun n data hmem hleast => ?_, fun hnone hroom hnext => ?_⟩
  · rw [sends (action := .writeChunk n data) (by
      simp only [readyOperation, hrunning, Bool.false_eq_true, if_false, lowestHeld_of_least hmem hleast])]
    rfl
  · rw [sends (action := .readChunk c.nextRead) (by
      simp only [readyOperation, hrunning, Bool.false_eq_true, if_false, lowestHeld_eq_none_iff.mpr hnone, hroom, hnext,
        and_self, if_true])]
    rfl

end Sys2Proof.Machine
end

