-- ==== Sys2Proof/Proofs/Intake.lean ====
section
/-! SUPPORT. The intake of a request: the checks in their order, and what a refusal at intake leaves (R133 to R141,
R14). -/

namespace Sys2Proof.Machine

/-! ## The arrival of a request that is taken -/

theorem exec_upstreamRequest_taken {r : Request} {s : State} (hport : accepting s = true)
    (hwf : r.wellFormed = true) : exec (.upstreamRequest r) s = .next (arrive r s) :=
  congrArg Host.Outcome.next (if_pos (by rw [hport, hwf]; rfl))

theorem arrive_of_refused {r : Request} {f : IntakeRefusal} {s : State} (h : intakeChecks r s = some f) :
    arrive r s = refuseIntake r f s := by
  simp only [arrive, h]

/-- A request answered REFUSED, with its fault reported (R133). -/
def refusedWith (r : Request) (code : FaultCode) (window : Option WindowId) (domain : Option DomainId) (dup : Bool)
    (s : State) : State :=
  { reportFault (requestFault code r window domain s) s with
    responses := s.responses ++
      [{ initiator := r.initiator, tag := r.tag, status := .refused, dup := dup, beats := [] }] }

theorem refuseIntake_eq (r : Request) (f : IntakeRefusal) (s : State) :
    refuseIntake r f s =
      if isViolation f.code then
        takeViolation r (requestRegion r s)
          (refusedWith r f.code f.window f.domain (decide (f.code = .dupTag)) s)
      else refusedWith r f.code f.window f.domain (decide (f.code = .dupTag)) s := rfl

theorem exec_upstreamRequest_refused {r : Request} {f : IntakeRefusal} {s : State} (hport : accepting s = true)
    (hwf : r.wellFormed = true) (h : intakeChecks r s = some f) (hcode : isViolation f.code = false) :
    exec (.upstreamRequest r) s =
      .next (refusedWith r f.code f.window f.domain (decide (f.code = .dupTag)) s) := by
  rw [exec_upstreamRequest_taken hport hwf, arrive_of_refused h, refuseIntake_eq, hcode, if_neg Bool.false_ne_true]

/-! ## The checks -/

section Checks

variable {r : Request} {s : State}

theorem intakeChecks_of_duplicate (h : pairInUse r.initiator r.tag s = true) :
    intakeChecks r s = some { code := .dupTag, window := none, domain := none } := if_pos h

theorem pairInUse_iff : pairInUse r.initiator r.tag s = true ↔
    (∃ k ∈ s.ranks, k.request.initiator = r.initiator ∧ k.request.tag = r.tag) ∨
      ∃ e ∈ s.transit, e.initiator = r.initiator ∧ e.tag = r.tag := by
  simp only [pairInUse, Bool.or_eq_true, List.any_eq_true, decide_eq_true_iff]

variable (hpair : pairInUse r.initiator r.tag s = false)
include hpair

theorem intakeChecks_of_blocked (h : s.initiators[r.initiator].state = .blocked) :
    intakeChecks r s = some { code := .initiatorBlocked, window := none, domain := none } := by
  rw [intakeChecks, hpair, if_neg Bool.false_ne_true, if_pos h]

variable (henabled : s.initiators[r.initiator].state = .enabled)
include henabled

theorem intakeChecks_of_span (h : selectWindow s.windows (firstByte r) ≠ selectWindow s.windows (lastByte r)) :
    intakeChecks r s = some { code := .span, window := none, domain := none } := by
  have mismatch : decodeRequest s.windows r = none := if_neg h
  simp only [intakeChecks, hpair, Bool.false_eq_true, if_false, henabled, reduceCtorEq, mismatch]

theorem intakeChecks_of_decoded {dec : Decoded} (h : decodeRequest s.windows r = some dec) :
    intakeChecks r s = accessChecks r dec.region s := by
  simp only [intakeChecks, hpair, Bool.false_eq_true, if_false, henabled, reduceCtorEq, h]

end Checks

/-- Settles O27: the first check that fails decides. -/
theorem intakeRefusesBeforeDecode : Obligations.IntakeRefusesBeforeDecode := by
  intro r s hport hwf
  refine ⟨fun hpair => ?_, fun hpair hblocked => ?_, fun hpair henabled hspan => ?_⟩
  · exact exec_upstreamRequest_refused hport hwf (intakeChecks_of_duplicate (pairInUse_iff.mpr hpair)) rfl
  · exact exec_upstreamRequest_refused hport hwf (intakeChecks_of_blocked hpair hblocked) rfl
  · exact exec_upstreamRequest_refused hport hwf (intakeChecks_of_span hpair henabled hspan) rfl

/-! ## Violations -/

theorem afterViolation_eq (e : InitiatorEntry) :
    afterViolation e = if e.policy = .block then { e with state := .blocked } else e := by
  obtain ⟨state, low, high, mask, policy⟩ := e
  cases policy <;> rfl

theorem applyPolicy_eq (i : InitiatorId) (s : State) :
    applyPolicy i s = { s with initiators :=
      if s.initiators[i].policy = .block then s.initiators.set i { s.initiators[i] with state := .blocked }
      else s.initiators } := by
  rw [applyPolicy, afterViolation_eq]
  by_cases hpolicy : s.initiators[i].policy = .block
  · rw [if_pos hpolicy, if_pos hpolicy]
  · rw [if_neg hpolicy, if_neg hpolicy, vector_set_same]

/-- A request refused for a violation, before its hand-off to the Epoch Unit (R139). -/
def violated (r : Request) (code : FaultCode) (region : Region) (s : State) : State :=
  { refusedWith r code (regionWindow region) (regionDomain region) false s with
    initiators := if s.initiators[r.initiator].policy = .block then
      s.initiators.set r.initiator { s.initiators[r.initiator] with state := .blocked } else s.initiators }

theorem takeViolation_of_write {r : Request} {region : Region} {d : DomainId} (hkind : r.kind = .write)
    (hdomain : regionDomain region = some d) (code : FaultCode) (s : State) :
    takeViolation r region (refusedWith r code (regionWindow region) (regionDomain region) false s) =
      reportViolation d (violated r code region s) := by
  obtain ⟨w, rfl⟩ := regionDomain_eq_some hdomain
  simp only [takeViolation, hkind, applyPolicy_eq]
  rfl

theorem takeViolation_otherwise {r : Request} {region : Region} (h : r.kind = .write → regionDomain region = none)
    (code : FaultCode) (s : State) :
    takeViolation r region (refusedWith r code (regionWindow region) (regionDomain region) false s) =
      violated r code region s := by
  have policy : applyPolicy r.initiator (refusedWith r code (regionWindow region) (regionDomain region) false s) =
      violated r code region s := applyPolicy_eq _ _
  unfold takeViolation
  rw [policy]
  dsimp only
  split
  · exact nomatch h ‹_›
  all_goals rfl

section Hand

variable {d : DomainId} {s : State}

theorem reportViolation_idle (h : s.domains[d].settings.violationAbort = true →
    s.domains[d].state ≠ .opened ∧ s.domains[d].state ≠ .marked) : reportViolation d s = s := by
  unfold reportViolation settingsOf
  split
  · exact causeRollback_otherwise (h ‹_›).1 (h ‹_›).2
  · rfl

variable (habort : s.domains[d].settings.violationAbort = true)
  (hepoch : s.domains[d].state = .opened ∨ s.domains[d].state = .marked)
include habort hepoch

theorem reportViolation_of_epoch : reportViolation d s = enterRollback d s := by
  rw [reportViolation, settingsOf, habort, if_pos rfl, causeRollback_of_epoch hepoch]

end Hand

theorem requestRegion_of_decoded {r : Request} {dec : Decoded} {s : State} (h : decodeRequest s.windows r = some dec) :
    requestRegion r s = dec.region := by
  simp only [requestRegion, h]

/-- A request refused at intake for a violation (R139, R141). -/
theorem exec_upstreamRequest_violation {r : Request} {dec : Decoded} {code : FaultCode} {s : State}
    (hport : accepting s = true) (hwf : r.wellFormed = true) (hdec : decodeRequest s.windows r = some dec)
    (hcheck : intakeChecks r s = some (refusalIn code dec.region)) (hcode : isViolation code = true) :
    exec (.upstreamRequest r) s = .next (takeViolation r dec.region
      (refusedWith r code (regionWindow dec.region) (regionDomain dec.region) false s)) := by
  have plain : decide (code = .dupTag) = false := by
    refine decide_eq_false ?_
    rintro rfl
    exact nomatch hcode
  have handed : refuseIntake r (refusalIn code dec.region) s = takeViolation r (requestRegion r s)
      (refusedWith r code (regionWindow dec.region) (regionDomain dec.region) (decide (code = .dupTag)) s) :=
    if_pos hcode
  rw [exec_upstreamRequest_taken hport hwf, arrive_of_refused hcheck, handed, requestRegion_of_decoded hdec, plain]

/-- Which access check fails first, when one does (Table 8-2). -/
def violationCode (r : Request) (region : Region) (s : State) : FaultCode :=
  if outOfBounds r s then .bounds else if guardedWrite r region then .guardedWrite else .domainDenied

theorem violationCode_isViolation (r : Request) (region : Region) (s : State) :
    isViolation (violationCode r region s) = true := by
  unfold violationCode
  split
  · rfl
  split <;> rfl

theorem accessChecks_of_violation {r : Request} {region : Region} {s : State}
    (h : (outOfBounds r s || guardedWrite r region || domainDenied r region s) = true) :
    accessChecks r region s = some (refusalIn (violationCode r region s) region) := by
  unfold accessChecks violationCode
  by_cases hb : outOfBounds r s = true
  · rw [if_pos hb, if_pos hb]
  by_cases hg : guardedWrite r region = true
  · rw [if_neg hb, if_neg hb, if_pos hg, if_pos hg]
  · have denied : domainDenied r region s = true := by
      simpa [hb, hg] using h
    rw [if_neg hb, if_neg hb, if_neg hg, if_neg hg, if_pos denied]

theorem guardedWrite_eq (r : Request) (region : Region) :
    guardedWrite r region = decide (r.kind = .write ∧ ∃ w, region = .guarded w) := by
  unfold guardedWrite
  split
  · rename_i hkind
    simp [hkind]
  all_goals
    rename_i hkind
    simp [hkind]

theorem domainDenied_eq (r : Request) (region : Region) (s : State) :
    domainDenied r region s = decide (r.kind = .write ∧ ∃ w d, region = .journaled w d ∧
      s.initiators[r.initiator].mask.getLsbD d.val = false) := by
  unfold domainDenied
  split
  all_goals
    rename_i hkind
    simp [hkind]

/-- Settles O28: the check that fails, and the hand-off by the domain's state. -/
theorem violationsAtIntake : Obligations.ViolationsAtIntake := by
  intro r dec s hport hwf hpair henabled hdec bounds guarded denied code refused hviolation
  have hguarded : guardedWrite r dec.region = guarded := guardedWrite_eq r dec.region
  have hdenied : domainDenied r dec.region s = denied := domainDenied_eq r dec.region s
  have hcode : violationCode r dec.region s = code := by
    rw [violationCode, hguarded]
    rfl
  have hrefused : violated r code dec.region s = refused := rfl
  have fails : (outOfBounds r s || guardedWrite r dec.region || domainDenied r dec.region s) = true := by
    rw [hguarded, hdenied]
    exact hviolation
  have taken := exec_upstreamRequest_violation hport hwf hdec
    ((intakeChecks_of_decoded hpair henabled hdec).trans (accessChecks_of_violation fails))
    (violationCode_isViolation r dec.region s)
  rw [hcode] at taken
  refine ⟨fun d hdomain hkind habort hepoch hdrained => ?_, fun d es hdomain hkind habort hepoch hdrained hperm hsorted => ?_,
    fun hidle => ?_⟩
  · rw [taken, takeViolation_of_write hkind hdomain, reportViolation_of_epoch (s := violated r code dec.region s) habort hepoch,
      enterRollback_of_not_drained (s := violated r code dec.region s) hdrained, hrefused]
    rfl
  · rw [taken, takeViolation_of_write hkind hdomain, reportViolation_of_epoch (s := violated r code dec.region s) habort hepoch,
      enterRollback_of_drained (s := violated r code dec.region s) hdrained hperm hsorted, hrefused]
    rfl
  · by_cases handed : r.kind = .write ∧ regionDomain dec.region ≠ none
    · obtain ⟨d, hdomain⟩ := Option.ne_none_iff_exists'.mp handed.2
      rw [taken, takeViolation_of_write handed.1 hdomain, reportViolation_idle (s := violated r code dec.region s)
        (hidle d hdomain handed.1), hrefused]
    · have nothing : r.kind = .write → regionDomain dec.region = none := fun hkind =>
        not_not.mp fun hdomain => handed ⟨hkind, hdomain⟩
      rw [taken, takeViolation_otherwise nothing, hrefused]

end Sys2Proof.Machine
end

