-- ==== Sys2Proof/Proofs/MapSnoop.lean ====
section
/-! SUPPORT. The map snoop of a write: which tiles' map entries it overlaps, and its refusal while a domain is not CLOSED
(R8, R12, R14). -/

namespace Sys2Proof.Machine

/-! ## Map entries and beats -/

theorem mem_coveredBeats {r : Request} {a : Nat} (h : a ∈ coveredBeats r) : a % 8 = 0 ∧ a ≤ lastByte r := by
  unfold coveredBeats at h
  unfold lastByte
  cases hburst : r.burst with
  | incr =>
    rw [hburst] at h
    obtain ⟨k, hk, rfl⟩ := List.mem_map.mp h
    have := List.mem_range.mp hk
    simp only [firstByte]
    omega
  | fixed =>
    rw [hburst] at h
    obtain rfl := List.mem_singleton.mp h
    simp only [firstByte]
    omega

theorem mapBase_toNat (w : Window) : (mapBase w).toNat = w.mapPage.toNat * 4096 := by
  rw [mapBase, BitVec.toNat_append, BitVec.toNat_zero, Nat.or_zero, Nat.shiftLeft_eq]

theorem mapEntryAddress_toNat (w : Window) (tile : Nat) :
    (mapEntryAddress w tile).toNat = ((mapBase w).toNat + 8 * tile) % 2 ^ 40 := by
  rw [mapEntryAddress, BitVec.toNat_add, BitVec.toNat_ofNat, Nat.add_mod_mod]

/-- A beat in the address space is the map entry of a tile of the window just when its distance from the map base is one
of the map area (R8). -/
theorem mapEntry_iff {w : Window} {a : Nat} (haligned : a % 8 = 0) (hspace : a < 2 ^ 40) :
    mapDistance w a < 8 * tileCount w ↔ ∃ tile < tileCount w, (mapEntryAddress w tile).toNat = a := by
  have page : w.mapPage.toNat < 2 ^ 28 := w.mapPage.isLt
  have base := mapBase_toNat w
  simp only [mapEntryAddress_toNat, mapDistance, base]
  constructor
  · intro near
    exact ⟨(a + 2 ^ 40 - w.mapPage.toNat * 4096) % 2 ^ 40 / 8, by omega, by omega⟩
  · rintro ⟨tile, htile, rfl⟩
    omega

theorem overlappedTiles_ne_nil_iff {w : Window} {r : Request} (hspace : lastByte r < 2 ^ 40) :
    overlappedTiles w r ≠ [] ↔ ∃ tile < tileCount w, (mapEntryAddress w tile).toNat ∈ coveredBeats r := by
  constructor
  · intro some
    obtain ⟨tile, htile⟩ := List.exists_mem_of_ne_nil _ some
    obtain ⟨a, ha, hnear⟩ := List.mem_filterMap.mp htile
    obtain ⟨haligned, hlast⟩ := mem_coveredBeats ha
    rw [Option.ite_none_right_eq_some] at hnear
    obtain ⟨tile, hcount, rfl⟩ := (mapEntry_iff haligned (hlast.trans_lt hspace)).mp hnear.1
    exact ⟨tile, hcount, ha⟩
  · rintro ⟨tile, hcount, ha⟩
    obtain ⟨haligned, hlast⟩ := mem_coveredBeats ha
    have near := (mapEntry_iff haligned (hlast.trans_lt hspace)).mpr ⟨tile, hcount, rfl⟩
    exact List.ne_nil_of_mem (List.mem_filterMap.mpr ⟨_, ha, if_pos near⟩)

/-! ## The lowest-numbered busy window -/

theorem find_finRange {n : Nat} {p : Fin n → Bool} {w : Fin n} (hw : p w = true) (hbelow : ∀ v < w, p v = false) :
    (List.finRange n).find? p = some w := by
  rw [List.find?_eq_some_iff_getElem]
  refine ⟨hw, w.val, by simp, by simp, fun j hj => ?_⟩
  have := hbelow ⟨j, hj.trans w.isLt⟩ hj
  simpa using this

/-- A window whose map area refuses a write (R12, R14). -/
def refusesWrite (r : Request) (s : State) (v : WindowId) : Bool :=
  (isMapped s.windows[v] && !(overlappedTiles s.windows[v] r).isEmpty) &&
    decide (domainState s.windows[v].domain s ≠ .closed)

theorem refusesWrite_iff {r : Request} {s : State} {v : WindowId} (hspace : lastByte r < 2 ^ 40) :
    refusesWrite r s v = true ↔
      s.windows[v].enable = true ∧ s.windows[v].kind = .journaled ∧
      (∃ tile, tile < tileCount s.windows[v] ∧ ((mapEntryAddress s.windows[v] tile).toNat ∈ coveredBeats r)) ∧
      s.domains[s.windows[v].domain].state ≠ .closed := by
  rw [← overlappedTiles_ne_nil_iff hspace]
  simp only [refusesWrite, isMapped, Bool.and_eq_true, decide_eq_true_iff, Bool.not_eq_true', List.isEmpty_eq_false_iff,
    and_assoc]
  rfl

theorem busyWindow_eq {r : Request} {s : State} {w : WindowId} (hkind : r.kind = .write)
    (hw : refusesWrite r s w = true) (hbelow : ∀ v < w, refusesWrite r s v = false) : busyWindow r s = some w := by
  simp only [busyWindow, hkind, overlappedWindows, List.find?_filter]
  have same (v : WindowId) : decide ((isMapped s.windows[v] && !(overlappedTiles s.windows[v] r).isEmpty) = true ∧
      decide (domainState s.windows[v].domain s ≠ .closed) = true) = refusesWrite r s v := by
    rw [Bool.decide_and, Bool.decide_eq_true, Bool.decide_eq_true, refusesWrite]
  exact find_finRange ((same w).trans hw) fun v hv => (same v).trans (hbelow v hv)

/-- Settles O29. -/
theorem mapSnoopRefusesBusy : Obligations.MapSnoopRefusesBusy := by
  intro r dec w s hport hwf hpair henabled hdec hbounds hguarded hdenied hkind hspace busy hw hbelow
  have refuses {v : WindowId} : refusesWrite r s v = true ↔ busy v := refusesWrite_iff hspace
  have window : busyWindow r s = some w := busyWindow_eq hkind (refuses.mpr hw) fun v hv =>
    Bool.eq_false_iff.mpr (mt refuses.mp (hbelow v hv))
  have checks : intakeChecks r s = some { code := .mapBusy, window := some w, domain := some s.windows[w].domain } := by
    rw [intakeChecks_of_decoded hpair henabled hdec]
    simp only [accessChecks, hbounds, hguarded, hdenied, Bool.false_eq_true, if_false, window, Option.map_some]
  rw [exec_upstreamRequest_refused hport hwf checks rfl]
  rfl

end Sys2Proof.Machine
end

