-- ==== Sys2Proof/Proofs/Pieces.lean ====
section
/-! SUPPORT. Where a request of a JOURNALED window is cut (R2, R4, R7, R145). -/

namespace Sys2Proof.Machine

theorem regionOf_journaled {ws : Vector Window 8} {selected : Option WindowId} {w : WindowId} {d : DomainId}
    (h : regionOf ws selected = .journaled w d) : selected = some w := by
  cases selected with
  | none => exact nomatch h
  | some v =>
    simp only [regionOf] at h
    split at h
    · exact nomatch h
    · exact nomatch h
    · cases h
      rfl

/-- An address that selects a window lies at or above its effective base (R2). -/
theorem effectiveBase_le {ws : Vector Window 8} {a : Nat} {w : WindowId} (h : selectWindow ws a = some w) :
    effectiveBase ws[w] ≤ a := by
  have hit := List.find?_some h
  simp only [windowHit, Bool.and_eq_true, decide_eq_true_iff] at hit
  rw [effectiveBase, ← hit.2]
  exact Nat.div_mul_le_self ..

theorem decodeRequest_journaled {ws : Vector Window 8} {r : Request} {dec : Decoded} {w : WindowId} {d : DomainId}
    (h : decodeRequest ws r = some dec) (hregion : dec.region = .journaled w d) :
    effectiveBase ws[w] ≤ firstByte r ∧ dec.pieces = cutPieces ws r (.journaled w d) := by
  unfold decodeRequest at h
  simp only [Option.ite_none_right_eq_some] at h
  obtain ⟨-, hdec⟩ := h
  cases hdec
  exact ⟨effectiveBase_le (regionOf_journaled hregion), congrArg (cutPieces ws r) hregion⟩

section Cut

variable {ws : Vector Window 8} {r : Request} {w : WindowId} (d : DomainId)

theorem tileOffset_boundary (window : Window) (n : Nat) :
    tileOffset window (effectiveBase window + 4096 * n) = 0 := by
  rw [tileOffset, Nat.add_sub_cancel_left]
  refine BitVec.eq_of_toNat_eq ?_
  rw [BitVec.toNat_ofNat]
  exact Nat.mul_mod_right ..

theorem tileIndex_boundary (window : Window) (n : Nat) : tileIndex window (effectiveBase window + 4096 * n) = n := by
  rw [tileIndex, Nat.add_sub_cancel_left]
  exact Nat.mul_div_cancel_left n (by decide)

theorem cutPieces_whole (h : ¬ (r.burst = .incr ∧ tileIndex ws[w] (lastByte r) ≠ tileIndex ws[w] (firstByte r))) :
    cutPieces ws r (.journaled w d) =
      [{ place := .oneOfOne, address := requestAddress r, skip := 0, count := r.length,
         tile := tileIndex ws[w] (firstByte r), offset := tileOffset ws[w] (firstByte r) }] := if_neg h

/-- A request that runs over a tile boundary, `ahead` bytes past its first byte. -/
theorem cutPieces_split {ahead : Nat} (hincr : r.burst = .incr)
    (hcut : tileIndex ws[w] (lastByte r) ≠ tileIndex ws[w] (firstByte r))
    (hahead : effectiveBase ws[w] + 4096 * (tileIndex ws[w] (firstByte r) + 1) = firstByte r + ahead) :
    cutPieces ws r (.journaled w d) =
      [{ place := .oneOfTwo, address := requestAddress r, skip := 0, count := ahead / 8,
         tile := tileIndex ws[w] (firstByte r), offset := tileOffset ws[w] (firstByte r) },
       { place := .twoOfTwo, address := BitVec.ofNat 40 (firstByte r + ahead), skip := ahead / 8,
         count := r.length - ahead / 8, tile := tileIndex ws[w] (firstByte r) + 1, offset := 0 }] := by
  have length : effectiveBase ws[w] + 4096 * (tileIndex ws[w] (firstByte r) + 1) - firstByte r = ahead := by
    rw [hahead, Nat.add_sub_cancel_left]
  refine (if_pos ⟨hincr, hcut⟩).trans ?_
  simp only [Config.tileBytes, tileIndex_boundary, tileOffset_boundary, length]
  rw [hahead]

end Cut

/-- Settles O34: the tile of the request's last byte, against the tile of its first. -/
theorem requestsAreCutAtTileBoundaries : Obligations.RequestsAreCutAtTileBoundaries := by
  intro ws r dec w d hlow hhigh hmin hmax hdec hregion offset
  obtain ⟨hbase, hpieces⟩ := decodeRequest_journaled hdec hregion
  have first : tileIndex ws[w] (firstByte r) = offset / 4096 := rfl
  refine ⟨fun hwhole => ?_, fun ⟨hincr, hcut⟩ => ?_⟩
  · have whole : ¬ (r.burst = .incr ∧ tileIndex ws[w] (lastByte r) ≠ tileIndex ws[w] (firstByte r)) := by
      rintro ⟨hincr, hcut⟩
      have fits := hwhole.resolve_left (by rw [hincr]; exact fun h => nomatch h)
      refine hcut ?_
      simp only [tileIndex, lastByte, hincr, Config.tileBytes]
      omega
    rw [hpieces, cutPieces_whole d whole]
    rfl
  · have last : tileIndex ws[w] (lastByte r) ≠ tileIndex ws[w] (firstByte r) := by
      simp only [tileIndex, lastByte, hincr, Config.tileBytes]
      omega
    have ahead : effectiveBase ws[w] + 4096 * (tileIndex ws[w] (firstByte r) + 1) =
        firstByte r + (4096 - offset % 4096) := by
      rw [first]
      omega
    rw [hpieces, cutPieces_split d hincr last ahead]
    rfl

end Sys2Proof.Machine
end

