-- ==== Sys2Proof/Proofs/Lookups.lean ====
section
/-! SUPPORT. The translation of a request's pieces: the lookup of one, the first piece that is not forwarded, and what
becomes of the request at its arrival or when it leaves a rank (R18 to R23, R48 to R52, R118, R124, R146). -/

namespace Sys2Proof.Machine

/-! ## The lookup of a piece -/

section Lookup

variable {kind : Kind} {w : WindowId} {p : Piece} {onWrite : CacheEntry → State → PieceOutcome × State} {s : State}

theorem lookup_of_change {e : ChangeEntry} (h : findChange w p.tile s = some e) :
    lookup kind w p onWrite s = (routeChanged kind p e, s) := by
  simp only [lookup, h]

variable (hchange : findChange w p.tile s = none)
include hchange

theorem lookup_of_miss (hcache : findCache w p.tile s = none) :
    lookup kind w p onWrite s = (.park (.walk w p.tile), postWalk w p.tile s) := by
  simp only [lookup, hchange, hcache]

theorem lookup_read_of_hit {c : CacheEntry} (hcache : findCache w p.tile s = some c) :
    lookup .read w p onWrite s = (.forward (c.frame ++ p.offset), s) := by
  simp only [lookup, hchange, hcache]
  rfl

theorem lookup_write_of_hit {c : CacheEntry} (hcache : findCache w p.tile s = some c) (hwrite : c.writable = true) :
    lookup .write w p onWrite s = onWrite c s := by
  simp only [lookup, hchange, hcache, hwrite, if_true]

theorem lookup_write_of_readonly {c : CacheEntry} (hcache : findCache w p.tile s = some c)
    (hwrite : c.writable = false) : lookup .write w p onWrite s = (.refuse .tileReadonly, s) := by
  simp only [lookup, hchange, hcache, hwrite, Bool.false_eq_true, if_false]

end Lookup

theorem routeChanged_copying_read {e : ChangeEntry} (h : isCopying e = true) (p : Piece) :
    routeChanged .read p e = .forward (e.oldFrame ++ p.offset) := by
  unfold isCopying at h
  unfold routeChanged
  split at h
  · rename_i hstate
    rw [hstate]
    rfl
  all_goals exact nomatch h

theorem routeChanged_copying_write {e : ChangeEntry} (h : isCopying e = true) (p : Piece) :
    routeChanged .write p e = .park (.copy e.window e.tile) := by
  unfold isCopying at h
  unfold routeChanged
  split at h
  · rename_i hstate
    rw [hstate]
  all_goals exact nomatch h

theorem routeChanged_copied {e : ChangeEntry} (h : isCopying e = false) (kind : Kind) (p : Piece) :
    routeChanged kind p e = .forward (e.newFrame ++ p.offset) := by
  unfold isCopying at h
  unfold routeChanged
  split at h
  · exact nomatch h
  all_goals
    rename_i hstate
    rw [hstate]
    rfl

/-! ## The domain's state first -/

section Piece

variable {kind : Kind} {w : WindowId} {d : DomainId} {p : Piece} {s : State}

theorem translatePiece_closed (h : domainState d s = .closed) :
    translatePiece kind w d p s = lookup kind w p (closedWrite d p) s := by
  simp only [translatePiece, h]

theorem translatePiece_epoch (h : domainState d s = .opened ∨ domainState d s = .marked) :
    translatePiece kind w d p s = lookup kind w p (firstWrite d) s := by
  obtain h | h := h <;> simp only [translatePiece, h]

theorem translatePiece_committing_write
    (h : domainState d s = .committing .drain ∨ domainState d s = .committing .publish) :
    translatePiece .write w d p s = (.park .domain, s) := by
  obtain h | h := h <;> simp only [translatePiece, h]

theorem translatePiece_rollingBack (h : domainState d s = .rollingBack) :
    translatePiece kind w d p s = (.park .domain, s) := by
  simp only [translatePiece, h]

theorem translatePiece_faulted (h : domainState d s = .faulted) :
    translatePiece kind w d p s = (.refuse .domainFaulted, s) := by
  simp only [translatePiece, h]

/-- Outside the states that stop a piece before any lookup, a piece is looked up; a write that then finds its committed
translation in a CLOSED domain is decided by R48. -/
theorem translatePiece_looks_up (hr : domainState d s ≠ .rollingBack) (hf : domainState d s ≠ .faulted)
    (hw : kind = .write → domainState d s ≠ .committing .drain ∧ domainState d s ≠ .committing .publish) :
    ∃ onWrite, translatePiece kind w d p s = lookup kind w p onWrite s ∧
      (domainState d s = .closed → onWrite = closedWrite d p) := by
  cases hstate : domainState d s with
  | closed => exact ⟨_, translatePiece_closed hstate, fun _ => rfl⟩
  | opened => exact ⟨_, translatePiece_epoch (.inl hstate), fun h => (nomatch h)⟩
  | marked => exact ⟨_, translatePiece_epoch (.inr hstate), fun h => (nomatch h)⟩
  | rollingBack => exact absurd hstate hr
  | faulted => exact absurd hstate hf
  | committing phase =>
    cases kind with
    | read =>
      refine ⟨fun _ s' => (.park .domain, s'), ?_, fun h => (nomatch h)⟩
      simp only [translatePiece, hstate]
    | write =>
      obtain ⟨hdrain, hpublish⟩ := hw rfl
      cases phase with
      | drain => exact absurd hstate hdrain
      | publish => exact absurd hstate hpublish

theorem translatePiece_of_forwards {a : Address} (h : Forwards kind w d p a s) :
    translatePiece kind w d p s = (.forward a, s) := by
  obtain ⟨hr, hf, hw, hfound⟩ := h
  obtain ⟨onWrite, hlookup, hclosed⟩ := translatePiece_looks_up (w := w) (p := p) hr hf hw
  rw [hlookup]
  obtain ⟨e, hchange, ⟨hcopying, rfl, rfl⟩ | ⟨hcopied, rfl⟩⟩ | ⟨hchange, c, hcache, rfl, rfl | ⟨hwrite, hstate, hallow⟩⟩ :=
    hfound
  · rw [lookup_of_change hchange, routeChanged_copying_read hcopying]
  · rw [lookup_of_change hchange, routeChanged_copied hcopied]
  · exact lookup_read_of_hit hchange hcache
  · cases kind with
    | read => exact lookup_read_of_hit hchange hcache
    | write =>
      rw [lookup_write_of_hit hchange hcache hwrite, hclosed hstate]
      simp only [closedWrite, hallow]
      rfl

end Piece

/-! ## The pieces of a request -/

section Pieces

variable {kind : Kind} {w : WindowId} {d : DomainId} {s : State}

theorem translatePieces_of_forwards {a : Piece → Address} {ps : List Piece}
    (h : ∀ p ∈ ps, Forwards kind w d p (a p) s) :
    translatePieces kind w d ps s = (.forward (ps.map fun p => (p, a p)), s) := by
  induction ps with
  | nil => rfl
  | cons p ps ih =>
    simp only [translatePieces, translatePiece_of_forwards (h p List.mem_cons_self),
      ih fun q hq => h q (List.mem_cons_of_mem p hq), List.map_cons]

variable {before : List Piece} (hbefore : ∀ q ∈ before, ∃ a, Forwards kind w d q a s) {p : Piece} (ps : List Piece)
  {t : State}
include hbefore

theorem translatePieces_of_park {reason : WaitReason} (hp : translatePiece kind w d p s = (.park reason, t)) :
    translatePieces kind w d (before ++ p :: ps) s = (.park reason, t) := by
  induction before with
  | nil => simp only [List.nil_append, translatePieces, hp]
  | cons q qs ih =>
    obtain ⟨a, ha⟩ := hbefore q List.mem_cons_self
    simp only [List.cons_append, translatePieces, translatePiece_of_forwards ha,
      ih fun x hx => hbefore x (List.mem_cons_of_mem q hx)]

theorem translatePieces_of_refuse {code : FaultCode} (hp : translatePiece kind w d p s = (.refuse code, t)) :
    translatePieces kind w d (before ++ p :: ps) s = (.refuse code, t) := by
  induction before with
  | nil => simp only [List.nil_append, translatePieces, hp]
  | cons q qs ih =>
    obtain ⟨a, ha⟩ := hbefore q List.mem_cons_self
    simp only [List.cons_append, translatePieces, translatePiece_of_forwards ha,
      ih fun x hx => hbefore x (List.mem_cons_of_mem q hx)]

end Pieces

/-! ## What becomes of the request -/

section Settle

variable {r : Request} {dec : Decoded} {s t : State}

theorem settle_of_room {targets : List (Piece × Address)} (he : evaluate r dec s = (.forward targets, t))
    (hroom : t.transit.length + targets.length ≤ 32) :
    settle r dec s = (none, claimEntries r dec.region targets t) := by
  simp only [settle, he]
  exact if_pos hroom

theorem settle_of_no_room {targets : List (Piece × Address)} (he : evaluate r dec s = (.forward targets, t))
    (hroom : 32 < t.transit.length + targets.length) : settle r dec s = (some .transit, t) := by
  simp only [settle, he]
  exact if_neg (not_le.mpr hroom)

theorem settle_of_park {reason : WaitReason} (he : evaluate r dec s = (.park reason, t)) :
    settle r dec s = (some reason, t) := by
  simp only [settle, he]

theorem settle_of_refuse {code : FaultCode} (he : evaluate r dec s = (.refuse code, t)) :
    settle r dec s = (none, refuseTranslated r dec.region code t) := by
  simp only [settle, he]

end Settle

/-! ## Arrival and leaving -/

section Arrival

variable {r : Request} {dec : Decoded} {s t : State}

theorem snoopInvalidate_read (h : r.kind = .read) (s : State) : snoopInvalidate r s = s := by
  simp only [snoopInvalidate, h]

theorem snoopInvalidate_ranks (r : Request) (s : State) : (snoopInvalidate r s).ranks = s.ranks := by
  unfold snoopInvalidate
  split <;> simp

theorem snoopInvalidate_transit (r : Request) (s : State) : (snoopInvalidate r s).transit = s.transit := by
  unfold snoopInvalidate
  split <;> simp

theorem exec_upstreamRequest_taken_in (hport : accepting s = true) (hwf : r.wellFormed = true)
    (hchecks : intakeChecks r s = none) (hdec : decodeRequest s.windows r = some dec) :
    exec (.upstreamRequest r) s = .next (takeIn r dec (snoopInvalidate r s)) := by
  rw [exec_upstreamRequest_taken hport hwf]
  simp only [arrive, hchecks, hdec]

theorem exec_upstreamRequest_settled {u : State} (h : Admitted r dec s) (hsnoop : snoopInvalidate r s = u)
    (hsettle : settle r dec u = (none, t)) : exec (.upstreamRequest r) s = .next t := by
  subst hsnoop
  obtain ⟨hport, hwf, hchecks, hdec, hrank⟩ := h
  have alone : hasRank r.initiator (snoopInvalidate r s) = false := by
    rw [← hrank, hasRank, hasRank, snoopInvalidate_ranks]
  rw [exec_upstreamRequest_taken_in hport hwf hchecks hdec]
  simp only [takeIn, alone, Bool.false_eq_true, if_false, hsettle]

theorem exec_upstreamRequest_parked {reason : WaitReason} {u : State} (h : Admitted r dec s)
    (hsnoop : snoopInvalidate r s = u) (hsettle : settle r dec u = (some reason, t)) (hranks : t.ranks = s.ranks) :
    exec (.upstreamRequest r) s =
      .next { t with ranks := s.ranks ++ [{ request := r, decoded := dec, state := .parked reason }] } := by
  subst hsnoop
  obtain ⟨hport, hwf, hchecks, hdec, hrank⟩ := h
  have alone : hasRank r.initiator (snoopInvalidate r s) = false := by
    rw [← hrank, hasRank, hasRank, snoopInvalidate_ranks]
  rw [exec_upstreamRequest_taken_in hport hwf hchecks hdec]
  simp only [takeIn, alone, Bool.false_eq_true, if_false, hsettle, addRank, hranks]

end Arrival

section Leaving

variable {n : Nat} {k : Rank} {s t : State} (hk : s.ranks[n]? = some k) (hel : k.state = .eligible)
include hk hel

theorem exec_rankLeave_eligible : exec (.rankLeave n) s = .next (leaveRank n k s) := by
  simp only [exec, execRankLeave, hk, hel]

theorem exec_rankLeave_settled (hsettle : settle k.request k.decoded s = (none, t)) :
    exec (.rankLeave n) s = .next { t with ranks := endOrder k.request.initiator (t.ranks.eraseIdx n) } := by
  rw [exec_rankLeave_eligible hk hel]
  simp only [leaveRank, hsettle]
  rfl

/-- A rank that parks again keeps its age (R118). -/
theorem exec_rankLeave_parked {reason : WaitReason} (hsettle : settle k.request k.decoded s = (some reason, t))
    (hranks : t.ranks = s.ranks) :
    exec (.rankLeave n) s = .next { t with ranks := s.ranks.set n { k with state := .parked reason } } := by
  have again : t.ranks.modify n (fun k => { k with state := .parked reason }) =
      s.ranks.set n { k with state := .parked reason } := by
    rw [hranks, List.modify_eq_set_getElem?, hk]
    rfl
  rw [exec_rankLeave_eligible hk hel]
  simp only [leaveRank, hsettle, parkAgain, again]

end Leaving

theorem postWalk_eq (w : WindowId) (tile : Nat) (s : State) :
    postWalk w tile s = { s with walkJobs :=
      if (∃ j ∈ s.walkJobs, j.window = w ∧ j.tile = tile) then s.walkJobs
      else s.walkJobs ++ [{ window := w, tile := tile, mapAddress := mapEntryAddress s.windows[w] tile,
                            domain := s.windows[w].domain, status := .pending }] } := by
  have listed : s.walkJobs.any (jobKey w tile) = true ↔ ∃ j ∈ s.walkJobs, j.window = w ∧ j.tile = tile := by
    simp only [List.any_eq_true, jobKey, decide_eq_true_iff]
  rw [postWalk, if_congr listed rfl rfl]

end Sys2Proof.Machine
end

