-- ==== Sys2Proof/Proofs/Arrivals.lean ====
section
/-! SUPPORT. A request that passes intake: untranslated, behind a rank of its initiator, with its pieces forwarded, and a
read that is not (R5, R6, R13, R18, R23, R51, R52, R118, R119, R146). -/

namespace Sys2Proof.Machine

/-! ## Untranslated requests -/

theorem snoopInvalidate_eq (r : Request) (s : State) :
    snoopInvalidate r s = { s with
      cache := Vector.ofFn fun i => s.cache[i].filter fun c =>
        !(decide (r.kind = .write) && s.windows[c.window].enable && decide (s.windows[c.window].kind = .journaled) &&
          (overlappedTiles s.windows[c.window] r).contains c.tile) } := by
  unfold snoopInvalidate
  cases hkind : r.kind with
  | read =>
    have kept : (Vector.ofFn fun i : Fin 32 => s.cache[i].filter fun _ => true) = s.cache :=
      vector_ext_fin fun i => by rw [vector_ofFn_get]; cases s.cache[i] <;> rfl
    simp only [reduceCtorEq, decide_false, Bool.false_and, Bool.not_false, kept]
  | write =>
    simp only [decide_true, Bool.true_and]
    rfl

theorem decodeRequest_untranslated {ws : Vector Window 8} {r : Request} {dec : Decoded}
    (h : decodeRequest ws r = some dec) (hregion : regionDomain dec.region = none) :
    dec.pieces = [{ place := .oneOfOne, address := requestAddress r, skip := 0, count := r.length, tile := 0,
                    offset := 0 }] := by
  unfold decodeRequest at h
  simp only [Option.ite_none_right_eq_some] at h
  obtain ⟨-, hdec⟩ := h
  cases hdec
  unfold cutPieces
  dsimp only at hregion ⊢
  split
  · rename_i journaled
    rw [journaled] at hregion
    exact nomatch hregion
  all_goals rfl

/-- A request carries no more beats than its length (Table 9-1). -/
theorem beats_length_le {r : Request} (h : r.wellFormed = true) : r.beats.length ≤ r.length := by
  simp only [Request.wellFormed, Bool.and_eq_true] at h
  obtain ⟨-, hbeats⟩ := h
  split at hbeats
  · simp [List.isEmpty_iff.mp hbeats]
  · exact (beq_iff_eq.mp hbeats).le

/-- Settles O30: the one piece of the request, at its own address. -/
theorem untranslatedRequestIssues : Obligations.UntranslatedRequestIssues := by
  intro r dec s h hregion snooped
  have hsnoop : snoopInvalidate r s = snooped := snoopInvalidate_eq r s
  have transit : snooped.transit = s.transit := rfl
  have ranks : snooped.ranks = s.ranks := rfl
  have evaluated := evaluate_untranslated (r := r) hregion (snoopInvalidate r s)
  rw [decodeRequest_untranslated h.2.2.2.1 hregion, hsnoop] at evaluated
  have whole : (r.beats.drop 0).take r.length = r.beats := by
    rw [List.drop_zero, List.take_of_length_le (beats_length_le h.2.1)]
  clear_value snooped
  refine ⟨fun hroom => ?_, fun hfull => ?_⟩
  · rw [exec_upstreamRequest_settled h hsnoop (settle_of_room evaluated (by rw [transit]; exact hroom))]
    simp only [claimEntries, transitEntry, List.map_cons, List.map_nil, whole, hregion, transit, requestAddress]
  · exact exec_upstreamRequest_parked h hsnoop (settle_of_no_room evaluated
      (by rw [transit]; exact Nat.lt_succ_of_le hfull)) ranks

/-! ## Behind a rank of its initiator -/

/-- Settles O31. -/
theorem requestWaitsInOrder : Obligations.RequestWaitsInOrder := by
  intro r dec s hport hwf hchecks hdec hrank
  have behind : hasRank r.initiator (snoopInvalidate r s) = true := by
    rw [hasRank, snoopInvalidate_ranks]
    obtain ⟨k, hk, hinitiator⟩ := hrank
    exact List.any_eq_true.mpr ⟨k, hk, decide_eq_true hinitiator⟩
  rw [exec_upstreamRequest_taken_in hport hwf hchecks hdec, takeIn, behind, if_pos rfl, addRank, snoopInvalidate_ranks]

/-! ## Forwarded pieces -/

theorem evaluate_of_forwards {r : Request} {dec : Decoded} {w : WindowId} {d : DomainId} {a : Piece → Address} {s : State}
    (hregion : dec.region = .journaled w d) (h : ∀ p ∈ dec.pieces, Forwards r.kind w d p (a p) s) :
    evaluate r dec s = (.forward (dec.pieces.map fun p => (p, a p)), s) := by
  rw [evaluate_journaled hregion, translatePieces_of_forwards h]

/-- Settles O32. -/
theorem translatedRequestIssues : Obligations.TranslatedRequestIssues := by
  intro r dec w d a s h hregion hforwards
  have evaluated := evaluate_of_forwards hregion hforwards
  have transit := snoopInvalidate_transit r s
  refine ⟨fun hroom => ?_, fun hfull => ?_⟩
  · rw [exec_upstreamRequest_settled h rfl (settle_of_room evaluated (by rw [transit, List.length_map]; exact hroom))]
    simp only [claimEntries, List.map_map, transit, hregion]
    rfl
  · exact exec_upstreamRequest_parked h rfl (settle_of_no_room evaluated
      (by rw [transit, List.length_map]; exact hfull)) (snoopInvalidate_ranks r s)

/-! ## Refusals at translation -/

section Refusals

variable {r : Request} {region : Region} {code : FaultCode}

theorem refuseTranslated_plain (hv : isViolation code = false) (ho : isOverflow code = false) (s : State) :
    refuseTranslated r region code s = refusedWith r code (regionWindow region) (regionDomain region) false s := by
  unfold refuseTranslated
  simp only [hv, ho, Bool.false_eq_true, if_false]
  split <;> rfl

end Refusals

/-! ## Reads that are not forwarded -/

section Reads

variable {r : Request} {dec : Decoded} {w : WindowId} {d : DomainId} {before ps : List Piece} {p : Piece} {s : State}
  (hregion : dec.region = .journaled w d) (hpieces : dec.pieces = before ++ p :: ps)
  (hbefore : ∀ q ∈ before, ∃ a, Forwards r.kind w d q a s)
include hregion hpieces hbefore

theorem settle_of_piece_parked {reason : WaitReason} {t : State}
    (hp : translatePiece r.kind w d p s = (.park reason, t)) : settle r dec s = (some reason, t) := by
  refine settle_of_park ?_
  rw [evaluate_journaled hregion, hpieces, translatePieces_of_park hbefore ps hp]

theorem settle_of_piece_refused {code : FaultCode} {t : State}
    (hp : translatePiece r.kind w d p s = (.refuse code, t)) :
    settle r dec s = (none, refuseTranslated r dec.region code t) := by
  refine settle_of_refuse ?_
  rw [evaluate_journaled hregion, hpieces, translatePieces_of_refuse hbefore ps hp]

theorem settle_of_rollingBack (h : s.domains[d].state = .rollingBack) : settle r dec s = (some .domain, s) :=
  settle_of_piece_parked hregion hpieces hbefore (translatePiece_rollingBack h)

theorem settle_of_faulted (h : s.domains[d].state = .faulted) :
    settle r dec s = (none, refusedWith r .domainFaulted (some w) (some d) false s) := by
  rw [settle_of_piece_refused hregion hpieces hbefore (translatePiece_faulted h), refuseTranslated_plain rfl rfl, hregion]
  rfl

/-- A request whose tile has no translation waits for a walk of it (R23, R30). -/
theorem settle_of_missed (hr : s.domains[d].state ≠ .rollingBack) (hf : s.domains[d].state ≠ .faulted)
    (hw : r.kind = .write → s.domains[d].state ≠ .committing .drain ∧ s.domains[d].state ≠ .committing .publish)
    (hchange : findChange w p.tile s = none) (hcache : findCache w p.tile s = none) :
    settle r dec s = (some (.walk w p.tile), { s with walkJobs :=
      if (∃ j ∈ s.walkJobs, j.window = w ∧ j.tile = p.tile) then s.walkJobs
      else s.walkJobs ++ [{ window := w, tile := p.tile, mapAddress := mapEntryAddress s.windows[w] p.tile,
                            domain := s.windows[w].domain, status := .pending }] }) := by
  obtain ⟨onWrite, hlookup, -⟩ := translatePiece_looks_up (w := w) (p := p) hr hf hw
  refine settle_of_piece_parked hregion hpieces hbefore ?_
  rw [hlookup, lookup_of_miss hchange hcache, postWalk_eq]

end Reads

/-- Settles O33: what the first piece not forwarded decides, at the arrival and when the rank leaves. -/
theorem readParksOrIsRefused : Obligations.ReadParksOrIsRefused := by
  intro before p ps w d s hbefore posted missed
  refine ⟨fun r hkind => ?_, fun n k hk hel hkind hregion hpieces => ?_⟩
  · intro dec h
    have hsnoop := snoopInvalidate_read hkind s
    have forwards : ∀ q ∈ before, ∃ a, Forwards r.kind w d q a s := by rwa [hkind]
    have reads (hw : r.kind = .write) : s.domains[d].state ≠ .committing .drain ∧ s.domains[d].state ≠ .committing .publish :=
      nomatch hkind.symm.trans hw
    refine ⟨fun ⟨hr, hf, hchange, hcache⟩ => ?_, fun hr => ?_, fun hf => ?_⟩
    · exact exec_upstreamRequest_parked h hsnoop (settle_of_missed rfl rfl forwards hr hf reads hchange hcache) rfl
    · exact exec_upstreamRequest_parked h hsnoop (settle_of_rollingBack rfl rfl forwards hr) rfl
    · exact exec_upstreamRequest_settled h hsnoop (settle_of_faulted rfl rfl forwards hf)
  · have forwards : ∀ q ∈ before, ∃ a, Forwards k.request.kind w d q a s := by rwa [hkind]
    have reads (hw : k.request.kind = .write) :
        s.domains[d].state ≠ .committing .drain ∧ s.domains[d].state ≠ .committing .publish :=
      nomatch hkind.symm.trans hw
    refine ⟨fun ⟨hr, hf, hchange, hcache⟩ => ?_, fun hr => ?_, fun hf => ?_⟩
    · exact exec_rankLeave_parked hk hel (settle_of_missed hregion hpieces forwards hr hf reads hchange hcache) rfl
    · exact exec_rankLeave_parked hk hel (settle_of_rollingBack hregion hpieces forwards hr) rfl
    · exact exec_rankLeave_settled hk hel (settle_of_faulted hregion hpieces forwards hf)

end Sys2Proof.Machine
end

