-- ==== Sys2Proof/Proofs/YoungestRank.lean ====
section
/-! SUPPORT. An arrival that is evaluated is decided as the leaving of the same request from a new youngest rank: the
evaluation does not look at the ranks, and what it wakes leaves an ELIGIBLE rank as it is (R118, R119, R124). -/

namespace Sys2Proof.Machine

/-! ## What does not look at the ranks -/

/-- An evaluation whose outcome does not depend on the ranks, and which leaves them. -/
def IgnoresRanks {α : Type} (f : State → α × State) : Prop :=
  ∀ (ks : List Rank) (s : State), f { s with ranks := ks } = ((f s).1, { (f s).2 with ranks := ks })

theorem firstWrite_ignoresRanks (d : DomainId) (c : CacheEntry) : IgnoresRanks (firstWrite d c) := by
  intro ks s
  have slot : freeSlot { s with ranks := ks } = freeSlot s := rfl
  unfold firstWrite
  rw [slot]
  dsimp only
  split
  · rfl
  split
  · rfl
  split
  · rfl
  cases freeSlot s <;> rfl

theorem closedWrite_ignoresRanks (d : DomainId) (p : Piece) (c : CacheEntry) : IgnoresRanks (closedWrite d p c) := by
  intro ks s
  have settings : settingsOf d { s with ranks := ks } = settingsOf d s := rfl
  unfold closedWrite
  rw [settings]
  cases (settingsOf d s).closedWrite <;> rfl

theorem lookup_ignoresRanks (kind : Kind) (w : WindowId) (p : Piece) {onWrite : CacheEntry → State → PieceOutcome × State}
    (h : ∀ c, IgnoresRanks (onWrite c)) : IgnoresRanks (lookup kind w p onWrite) := by
  intro ks s
  have change : findChange w p.tile { s with ranks := ks } = findChange w p.tile s := rfl
  have cache : findCache w p.tile { s with ranks := ks } = findCache w p.tile s := rfl
  unfold lookup
  rw [change, cache]
  cases findChange w p.tile s with
  | some e => rfl
  | none =>
    cases findCache w p.tile s with
    | none => rfl
    | some c =>
      cases kind with
      | read => rfl
      | write =>
        dsimp only
        split
        · exact h c ks s
        · rfl

theorem translatePiece_ignoresRanks (kind : Kind) (w : WindowId) (d : DomainId) (p : Piece) :
    IgnoresRanks (translatePiece kind w d p) := by
  intro ks s
  have state : domainState d { s with ranks := ks } = domainState d s := rfl
  unfold translatePiece
  rw [state]
  split
  · exact lookup_ignoresRanks _ w p (closedWrite_ignoresRanks d p) ks s
  · exact lookup_ignoresRanks _ w p (firstWrite_ignoresRanks d) ks s
  · exact lookup_ignoresRanks _ w p (firstWrite_ignoresRanks d) ks s
  · exact lookup_ignoresRanks _ w p (fun _ _ _ => rfl) ks s
  all_goals rfl

theorem translatePieces_ignoresRanks (kind : Kind) (w : WindowId) (d : DomainId) (ps : List Piece) :
    IgnoresRanks (translatePieces kind w d ps) := by
  intro ks s
  induction ps generalizing s with
  | nil => rfl
  | cons p ps ih =>
    unfold translatePieces
    rw [translatePiece_ignoresRanks kind w d p ks s]
    rcases translatePiece kind w d p s with ⟨outcome, t⟩
    cases outcome with
    | park | refuse => rfl
    | forward a =>
      dsimp only
      rw [ih t]
      rcases translatePieces kind w d ps t with ⟨verdict, u⟩
      cases verdict <;> rfl

theorem evaluate_ignoresRanks (r : Request) (dec : Decoded) : IgnoresRanks (evaluate r dec) := by
  intro ks s
  unfold evaluate
  split
  · exact translatePieces_ignoresRanks r.kind _ _ dec.pieces ks s
  all_goals rfl

/-! ## What leaves an ELIGIBLE rank -/

/-- An update that does the same beside a youngest rank that is ELIGIBLE. -/
def KeepsYoungest (f : State → State) : Prop :=
  ∀ (k : Rank) (s : State), k.state = .eligible → f (addRank k s) = addRank k (f s)

theorem KeepsYoungest.comp {f g : State → State} (hg : KeepsYoungest g) (hf : KeepsYoungest f) :
    KeepsYoungest fun s => g (f s) := fun k s hk => (congrArg g (hf k s hk)).trans (hg k (f s) hk)

theorem discardDomain_keepsYoungest (d : DomainId) : KeepsYoungest (discardDomain d) := by
  intro k s hk
  have asleep : wake (parkedOnDomain d) k = k := if_neg fun parked => by
    rw [(parkedOnDomain_iff.mp parked).2] at hk
    exact nomatch hk
  have woken : (s.ranks ++ [k]).map (wake (parkedOnDomain d)) = s.ranks.map (wake (parkedOnDomain d)) ++ [k] := by
    rw [List.map_append, List.map_singleton, asleep]
  simp only [discardDomain_eq, addRank, woken]
  rfl

theorem testRollbackDrain_keepsYoungest (d : DomainId) : KeepsYoungest (testRollbackDrain d) := by
  intro k s hk
  have state : domainState d (addRank k s) = domainState d s := rfl
  have drained : rollbackDrained d (addRank k s) = rollbackDrained d s := rfl
  unfold testRollbackDrain
  rw [state, drained]
  split
  · exact discardDomain_keepsYoungest d k s hk
  · rfl

theorem enterRollback_keepsYoungest (d : DomainId) : KeepsYoungest (enterRollback d) := fun k s hk =>
  testRollbackDrain_keepsYoungest d k (stopped d .rollingBack s) hk

theorem causeRollback_keepsYoungest (d : DomainId) : KeepsYoungest (causeRollback d) := by
  intro k s hk
  have epoch : inEpoch d (addRank k s) = inEpoch d s := rfl
  unfold causeRollback
  rw [epoch]
  split
  · exact enterRollback_keepsYoungest d k s hk
  · rfl

theorem reportViolation_keepsYoungest (d : DomainId) : KeepsYoungest (reportViolation d) := by
  intro k s hk
  have settings : settingsOf d (addRank k s) = settingsOf d s := rfl
  unfold reportViolation
  rw [settings]
  split
  · exact causeRollback_keepsYoungest d k s hk
  · rfl

theorem takeViolation_keepsYoungest (r : Request) (region : Region) : KeepsYoungest (takeViolation r region) := by
  intro k s hk
  have policy : applyPolicy r.initiator (addRank k s) = addRank k (applyPolicy r.initiator s) := rfl
  unfold takeViolation
  rw [policy]
  dsimp only
  split
  · exact reportViolation_keepsYoungest _ k _ hk
  all_goals rfl

theorem reportOverflow_keepsYoungest (d : DomainId) : KeepsYoungest (reportOverflow d) := by
  intro k s hk
  have settings : settingsOf d (addRank k s) = settingsOf d s := rfl
  unfold reportOverflow
  rw [settings]
  split
  · exact causeRollback_keepsYoungest d k s hk
  · rfl

theorem refuseTranslated_keepsYoungest (r : Request) (region : Region) (code : FaultCode) :
    KeepsYoungest (refuseTranslated r region code) := by
  have violation : KeepsYoungest fun t => if isViolation code then takeViolation r region t else t := by
    intro k s hk
    dsimp only
    split
    · exact takeViolation_keepsYoungest r region k s hk
    · rfl
  have overflow (d : DomainId) : KeepsYoungest fun t => if isOverflow code then reportOverflow d t else t := by
    intro k s hk
    dsimp only
    split
    · exact reportOverflow_keepsYoungest d k s hk
    · rfl
  intro k s hk
  unfold refuseTranslated
  cases regionDomain region with
  | none => exact violation k (refusedWith r code (regionWindow region) none false s) hk
  | some d => exact (overflow d).comp violation k (refusedWith r code (regionWindow region) (some d) false s) hk

/-! ## The arrival -/

/-- The evaluation of a request beside a youngest rank that is ELIGIBLE. -/
theorem settle_addRank (r : Request) (dec : Decoded) {k : Rank} (hk : k.state = .eligible) (s : State) :
    settle r dec (addRank k s) = ((settle r dec s).1, addRank k (settle r dec s).2) := by
  have evaluated := evaluate_ignoresRanks r dec (s.ranks ++ [k]) s
  have kept := (evaluate_frame r dec s).ranks
  unfold settle
  rw [addRank, evaluated]
  rcases he : evaluate r dec s with ⟨verdict, t⟩
  rw [he] at kept
  dsimp only at kept ⊢
  rw [← kept]
  cases verdict with
  | park reason => rfl
  | refuse code =>
    exact congrArg (Prod.mk none) (refuseTranslated_keepsYoungest r dec.region code k t hk)
  | forward targets =>
    dsimp only
    split <;> rfl

theorem settle_woken {r : Request} {dec : Decoded} {s t : State} (h : settle r dec s = (none, t)) : RanksWoken s t := by
  have settled := settle_settled r dec s
  rw [h] at settled
  cases settled with
  | issued targets _ _ => exact RanksWoken.of_eq rfl
  | refused code => exact refuseTranslated_woken r dec.region code s

theorem settle_parked_ranks {r : Request} {dec : Decoded} {s t : State} {reason : WaitReason}
    (h : settle r dec s = (some reason, t)) : t.ranks = s.ranks := by
  have settled := settle_settled r dec s
  rw [h] at settled
  cases settled with
  | noRoom _ => rfl
  | waits d reason t _ hw =>
    cases hw with
    | created c f k _ _ _ _ _ _ => rw [createEntry_ranks]
    | _ => rfl

theorem RanksWoken.hasRank {s t : State} (h : RanksWoken s t) {i : InitiatorId} (hs : hasRank i s = false) :
    Machine.hasRank i t = false := by
  unfold Machine.hasRank at hs ⊢
  unfold RanksWoken at h
  generalize s.ranks = l, t.ranks = m at h hs
  induction h with
  | nil => rfl
  | cons hab _ ih =>
    rw [List.any_cons, Bool.or_eq_false_iff] at hs ⊢
    obtain ⟨hfirst, hrest⟩ := hs
    refine ⟨?_, ih hrest⟩
    obtain rfl | ⟨-, rfl⟩ := hab
    · exact hfirst
    · exact hfirst

/-- The end of ORDER changes nothing when the initiator has no rank (R123). -/
theorem endOrder_of_absent {i : InitiatorId} {ks : List Rank} (h : ∀ k ∈ ks, k.request.initiator ≠ i) :
    endOrder i ks = ks := by
  induction ks with
  | nil => rfl
  | cons k ks ih =>
    rw [endOrder, if_neg (h k List.mem_cons_self), ih fun x hx => h x (List.mem_cons_of_mem k hx)]

theorem eraseIdx_length_append {α : Type} (l : List α) (a : α) : (l ++ [a]).eraseIdx l.length = l := by
  rw [List.eraseIdx_append_of_length_le le_rfl, Nat.sub_self, List.eraseIdx_cons_zero, List.append_nil]

/-- An arrival that is evaluated is a RANK_LEAVE of a new youngest rank (R118, R124). -/
theorem exec_upstreamRequest_eq_rankLeave {r : Request} {dec : Decoded} {s : State} (h : Admitted r dec s) :
    exec (.upstreamRequest r) s = exec (.rankLeave s.ranks.length)
      { snoopInvalidate r s with ranks := s.ranks ++ [{ request := r, decoded := dec, state := .eligible }] } := by
  have ranks := snoopInvalidate_ranks r s
  have youngest : (s.ranks ++ [({ request := r, decoded := dec, state := .eligible } : Rank)])[s.ranks.length]? =
      some { request := r, decoded := dec, state := .eligible } := List.getElem?_concat_length
  have added : { snoopInvalidate r s with ranks := s.ranks ++ [{ request := r, decoded := dec, state := .eligible }] } =
      addRank { request := r, decoded := dec, state := .eligible } (snoopInvalidate r s) := by rw [addRank, ranks]
  have alone : hasRank r.initiator (snoopInvalidate r s) = false := by
    rw [← h.2.2.2.2, hasRank, hasRank, ranks]
  have settled := settle_addRank r dec (k := { request := r, decoded := dec, state := .eligible }) rfl
    (snoopInvalidate r s)
  rcases hs : settle r dec (snoopInvalidate r s) with ⟨reason | reason, t⟩
  · have woken := settle_woken hs
    have length : t.ranks.length = s.ranks.length := by rw [← woken.length_eq, ranks]
    have absent := List.any_eq_false.mp (woken.hasRank alone)
    rw [hs, ← added] at settled
    rw [exec_upstreamRequest_settled h rfl hs, exec_rankLeave_settled youngest rfl settled]
    have freed : endOrder r.initiator ((addRank { request := r, decoded := dec, state := .eligible } t).ranks.eraseIdx
        s.ranks.length) = t.ranks := by
      rw [← length, addRank_ranks, eraseIdx_length_append]
      exact endOrder_of_absent fun k hk hi => absent k hk (decide_eq_true hi)
    rw [freed]
    rfl
  · have kept : t.ranks = s.ranks := (settle_parked_ranks hs).trans ranks
    rw [hs, ← added] at settled
    rw [exec_upstreamRequest_parked h rfl hs kept,
      exec_rankLeave_parked youngest rfl settled (by rw [addRank_ranks, kept]),
      List.set_append_right _ _ le_rfl, Nat.sub_self]
    rfl

end Sys2Proof.Machine
end

