-- ==== Sys2Proof/Proofs/RankLeaves.lean ====
section
/-! SUPPORT. RANK_LEAVE: the issue of a request, the end of ORDER, and the first write of a tile (R54 to R59, R117, R123,
R124, R146). -/

namespace Sys2Proof.Machine

/-! ## The end of ORDER -/

theorem endOrder_reaches {i : InitiatorId} {before : List Rank} (hbefore : ∀ x ∈ before, x.request.initiator ≠ i)
    {k : Rank} (hk : k.request.initiator = i) (after : List Rank) :
    endOrder i (before ++ k :: after) = before ++ wake (parkedOn .order) k :: after := by
  induction before with
  | nil => exact if_pos hk
  | cons x xs ih =>
    rw [List.cons_append, endOrder, if_neg (hbefore x List.mem_cons_self),
      ih fun y hy => hbefore y (List.mem_cons_of_mem x hy)]
    rfl

theorem wake_of_parked {reason : WaitReason} {k : Rank} (h : k.state = .parked reason) :
    wake (parkedOn reason) k = { k with state := .eligible } := if_pos (decide_eq_true h)

theorem wake_of_not_parked {reason : WaitReason} {k : Rank} (h : k.state ≠ .parked reason) :
    wake (parkedOn reason) k = k := if_neg fun parked => h (of_decide_eq_true parked)

/-! ## Issue -/

/-- Settles O35: the issue by the room in the Transit Table, an arrival as a leaving, and the end of ORDER at the
initiator's first rank. -/
theorem rankLeaveIssues : Obligations.RankLeaveIssues := by
  refine ⟨fun n k p s hk hel hregion hpieces => ?_, fun n k w d a s hk hel hregion hforwards => ?_,
    fun r dec s h => exec_upstreamRequest_eq_rankLeave h, fun i before k after hbefore => ?_⟩
  · have evaluated := evaluate_untranslated (r := k.request) hregion s
    rw [hpieces] at evaluated
    refine ⟨fun hroom => ?_, fun hfull => ?_⟩
    · rw [exec_rankLeave_settled hk hel (settle_of_room evaluated hroom)]
      simp only [claimEntries, transitEntry, List.map_cons, List.map_nil, hregion]
    · exact exec_rankLeave_parked hk hel (settle_of_no_room evaluated (Nat.lt_succ_of_le hfull)) rfl
  · have evaluated := evaluate_of_forwards (r := k.request) hregion hforwards
    refine ⟨fun hroom => ?_, fun hfull => ?_⟩
    · rw [exec_rankLeave_settled hk hel (settle_of_room evaluated (by rw [List.length_map]; exact hroom))]
      simp only [claimEntries, List.map_map, hregion]
      rfl
    · exact exec_rankLeave_parked hk hel (settle_of_no_room evaluated (by rw [List.length_map]; exact hfull)) rfl
  · refine ⟨fun hk hparked => ?_, fun hk hparked => ?_, endOrder_of_absent hbefore⟩
    · rw [endOrder_reaches hbefore hk, wake_of_parked hparked]
    · rw [endOrder_reaches hbefore hk, wake_of_not_parked hparked]

/-! ## The first write of a tile -/

section FirstWrite

variable {d : DomainId} {c : CacheEntry} {s : State}

theorem quotaHolds_iff {r : DomainRecord} :
    quotaHolds r = true ↔ r.entryCount < r.settings.quota ∧ r.sequenceSpent = false := by
  simp only [quotaHolds, Bool.and_eq_true, decide_eq_true_iff, Bool.not_eq_true']

theorem firstWrite_over_quota (h : ¬ quotaHolds s.domains[d] = true) : firstWrite d c s = (.refuse .journalFull, s) := by
  rw [firstWrite, Bool.not_eq_true _ |>.mp h]
  rfl

theorem firstWrite_table_full (h : quotaHolds s.domains[d] = true) (hfull : 256 ≤ s.changes.length) :
    firstWrite d c s = (.refuse .journalFull, s) := by
  rw [firstWrite, h]
  exact if_pos hfull

variable (hquota : quotaHolds s.domains[d] = true) (hroom : s.changes.length < 256)
include hquota hroom

theorem firstWrite_pool_empty (h : s.freeFrames = []) : firstWrite d c s = (.refuse .poolEmpty, s) := by
  have room : ¬ s.changes.length ≥ Config.changeEntries := not_le.mpr hroom
  simp only [firstWrite, hquota, Bool.not_true, Bool.false_eq_true, if_false, room, h]

theorem firstWrite_no_slot {f : Frame} {fs : List Frame} (h : s.freeFrames = f :: fs) (hslot : freeSlot s = none) :
    firstWrite d c s = (.park .slot, s) := by
  have room : ¬ s.changes.length ≥ Config.changeEntries := not_le.mpr hroom
  simp only [firstWrite, hquota, Bool.not_true, Bool.false_eq_true, if_false, room, h, hslot]

theorem firstWrite_creates {f : Frame} {fs : List Frame} {b : SlotId} (h : s.freeFrames = f :: fs)
    (hslot : freeSlot s = some b) : firstWrite d c s = (.park (.copy c.window c.tile), createEntry d c f b s) := by
  have room : ¬ s.changes.length ≥ Config.changeEntries := not_le.mpr hroom
  simp only [firstWrite, hquota, Bool.not_true, Bool.false_eq_true, if_false, room, h, hslot]

end FirstWrite

theorem freeSlot_eq_some {s : State} {b : SlotId}
    (h : (s.slots[(0 : SlotId)] = none ∧ b = 0) ∨
      (s.slots[(0 : SlotId)] ≠ none ∧ s.slots[(1 : SlotId)] = none ∧ b = 1)) : freeSlot s = some b := by
  obtain ⟨h0, rfl⟩ | ⟨h0, h1, rfl⟩ := h
  · rw [freeSlot, h0]
    rfl
  · rw [freeSlot, if_neg (by simpa using h0), h1]
    rfl

theorem takeSequence_eq {r : DomainRecord} (h : r.sequenceSpent = false) :
    takeSequence r = { r with
      entryCount := r.entryCount + 1
      nextSequence := if r.nextSequence < 255 then r.nextSequence + 1 else r.nextSequence
      sequenceSpent := decide (255 ≤ r.nextSequence) } := by
  rw [takeSequence, h, Bool.false_or, ← decide_not]
  simp only [not_lt]

theorem createEntry_eq {d : DomainId} {c : CacheEntry} {f : Frame} {fs : List Frame} {b : SlotId} {s : State}
    (hframes : s.freeFrames = f :: fs) (hspent : s.domains[d].sequenceSpent = false) :
    createEntry d c f b s = { s with
      changes := s.changes ++
        [{ domain := d, window := c.window, tile := c.tile, oldFrame := c.frame, newFrame := f, savedW := c.writable,
           savedSw := c.sw, sequence := s.domains[d].nextSequence, state := .copying b }]
      domains := s.domains.set d
        { s.domains[d] with
          entryCount := s.domains[d].entryCount + 1
          nextSequence := if s.domains[d].nextSequence < 255 then s.domains[d].nextSequence + 1
            else s.domains[d].nextSequence
          sequenceSpent := decide (255 ≤ s.domains[d].nextSequence) }
      freeFrames := fs
      latches := if fs.length + 1 = s.poolThreshold then s.latches ||| 2#18 else s.latches
      cache := Vector.ofFn fun i => s.cache[i].filter fun x => decide (x.frame ≠ f)
      slots := s.slots.set b
        (some { window := c.window, tile := c.tile, source := c.frame, destination := f, nextRead := 0, chunks := [],
                progress := 0, stopping := false }) } := by
  have mask : alertMask .poolLow = 2#18 := rfl
  simp only [createEntry, setSlot, dropCache, modifyDomain, takeFrame, takeSequence_eq hspent, hframes, mask, newCopy,
    List.tail_cons, List.length_cons, ne_eq, decide_not]

/-- Settles O36: the first write's checks hold, its slot is the lowest free one, and its rank parks again. -/
theorem firstWriteCreatesEntry : Obligations.FirstWriteCreatesEntry := by
  intro n k before p ps w d c f fs b s hk hel hkind hregion hpieces hbefore hepoch hchange hcache hwrite hquota hspent
    hroom hframes hslot
  obtain ⟨hwindow, htile⟩ := findCache_key hcache
  have created := firstWrite_creates (c := c) (quotaHolds_iff.mpr ⟨hquota, hspent⟩) hroom hframes (freeSlot_eq_some hslot)
  have translated : translatePiece k.request.kind w d p s = (.park (.copy w p.tile), createEntry d c f b s) := by
    rw [hkind, translatePiece_epoch hepoch, lookup_write_of_hit hchange hcache hwrite, created, hwindow, htile]
  have forwards : ∀ q ∈ before, ∃ a, Forwards k.request.kind w d q a s := by rwa [hkind]
  rw [exec_rankLeave_parked hk hel (settle_of_piece_parked hregion hpieces forwards translated) (createEntry_ranks ..),
    createEntry_eq hframes hspent, hwindow, htile, hwrite]

end Sys2Proof.Machine
end

