-- ==== Sys2Proof/Proofs/RefusedWrites.lean ====
section
/-! SUPPORT. The writes that are refused, that start a rollback, or that wait (R22, R23, R48 to R57, R87, R139, R141). -/

namespace Sys2Proof.Machine

/-! ## Refusals with consequences -/

theorem isViolation_of_overflow {code : FaultCode} (h : isOverflow code = true) : isViolation code = false := by
  cases code <;> trivial

theorem refuseTranslated_overflow {r : Request} {region : Region} {code : FaultCode} {d : DomainId}
    (hcode : isOverflow code = true) (hregion : regionDomain region = some d) (s : State) :
    refuseTranslated r region code s =
      reportOverflow d (refusedWith r code (regionWindow region) (regionDomain region) false s) := by
  unfold refuseTranslated
  rw [hregion]
  simp only [isViolation_of_overflow hcode, hcode, Bool.false_eq_true, if_false, if_true]
  rfl

theorem refuseTranslated_violation {r : Request} {region : Region} {code : FaultCode} {d : DomainId}
    (hcode : isViolation code = true) (hkind : r.kind = .write) (hregion : regionDomain region = some d) (s : State) :
    refuseTranslated r region code s = reportViolation d (violated r code region s) := by
  have plain : isOverflow code = false := by
    refine Bool.eq_false_iff.mpr fun ho => ?_
    rw [isViolation_of_overflow ho] at hcode
    exact nomatch hcode
  rw [← takeViolation_of_write hkind hregion]
  unfold refuseTranslated
  simp only [hcode, plain, Bool.false_eq_true, if_false, if_true]
  split <;> rfl

theorem reportOverflow_refuse {d : DomainId} {s : State} (h : s.domains[d].settings.overflow = .refuse) :
    reportOverflow d s = s := if_neg (by rw [settingsOf, h]; exact fun h => nomatch h)

theorem reportOverflow_rollback {d : DomainId} {s : State} (h : s.domains[d].settings.overflow = .rollback)
    (hepoch : s.domains[d].state = .opened ∨ s.domains[d].state = .marked) :
    reportOverflow d s = enterRollback d s := (if_pos h).trans (causeRollback_of_epoch hepoch)

/-! ## A first write that fails a check -/

theorem firstWrite_full {d : DomainId} {c : CacheEntry} {s : State}
    (h : s.domains[d].settings.quota ≤ s.domains[d].entryCount ∨ s.domains[d].sequenceSpent = true ∨
      256 ≤ s.changes.length) : firstWrite d c s = (.refuse .journalFull, s) := by
  by_cases hquota : quotaHolds s.domains[d] = true
  · obtain ⟨hcount, hspent⟩ := quotaHolds_iff.mp hquota
    refine firstWrite_table_full hquota ((h.resolve_left (not_le.mpr hcount)).resolve_left ?_)
    rw [hspent]
    exact Bool.false_ne_true
  · exact firstWrite_over_quota hquota

theorem freeSlot_eq_none {s : State} (h0 : s.slots[(0 : SlotId)] ≠ none) (h1 : s.slots[(1 : SlotId)] ≠ none) :
    freeSlot s = none := by
  rw [freeSlot, if_neg (by simpa using h0), if_neg (by simpa using h1)]

section Leaving

variable {n : Nat} {k : Rank} {before ps : List Piece} {p : Piece} {w : WindowId} {d : DomainId} {s : State}
  (hk : s.ranks[n]? = some k) (hel : k.state = .eligible) (hkind : k.request.kind = .write)
  (hregion : k.decoded.region = .journaled w d) (hpieces : k.decoded.pieces = before ++ p :: ps)
  (hbefore : ∀ q ∈ before, ∃ a, Forwards .write w d q a s)
include hk hel hkind hregion hpieces hbefore

theorem rankLeave_of_piece_parked {reason : WaitReason} (hp : translatePiece .write w d p s = (.park reason, s)) :
    exec (.rankLeave n) s = .next { s with ranks := s.ranks.set n { k with state := .parked reason } } :=
  exec_rankLeave_parked hk hel (settle_of_piece_parked hregion hpieces (hkind.symm ▸ hbefore) (hkind.symm ▸ hp)) rfl

theorem rankLeave_of_piece_refused {code : FaultCode} {t : State}
    (hp : translatePiece .write w d p s = (.refuse code, s))
    (ht : refuseTranslated k.request (.journaled w d) code s = t) :
    exec (.rankLeave n) s = .next { t with ranks := endOrder k.request.initiator (t.ranks.eraseIdx n) } := by
  have settled := settle_of_piece_refused (r := k.request) hregion hpieces (hkind.symm ▸ hbefore) (hkind.symm ▸ hp)
  rw [hregion, ht] at settled
  exact exec_rankLeave_settled hk hel settled

end Leaving

/-- A write whose domain looks its pieces up (R48). -/
theorem translatePiece_write_looks_up {w : WindowId} {d : DomainId} {p : Piece} {s : State}
    (h : s.domains[d].state = .closed ∨ s.domains[d].state = .opened ∨ s.domains[d].state = .marked) :
    ∃ onWrite, translatePiece .write w d p s = lookup .write w p onWrite s := by
  obtain h | h | h := h
  · exact ⟨_, translatePiece_closed h⟩
  · exact ⟨_, translatePiece_epoch (.inl h)⟩
  · exact ⟨_, translatePiece_epoch (.inr h)⟩

/-- Settles O37: the first piece that is not forwarded, by its domain's state and what its tile's lookup finds. -/
theorem writesThatAreNotForwarded : Obligations.WritesThatAreNotForwarded := by
  refine ⟨fun n k before p ps w d c s hk hel hkind hregion hpieces hbefore hepoch hchange hcache hwrite => ?_,
    fun n k before p ps w d s hk hel hkind hregion hpieces hbefore => ?_⟩
  · intro full refused rolledBack discarded
    have first {outcome : PieceOutcome} (h : firstWrite d c s = (outcome, s)) :
        translatePiece .write w d p s = (outcome, s) := by
      rw [translatePiece_epoch hepoch, lookup_write_of_hit hchange hcache hwrite, h]
    have fails {code : FaultCode} (hcode : isOverflow code = true) (h : firstWrite d c s = (.refuse code, s)) {t : State}
        (ht : reportOverflow d (refusedWith k.request code (some w) (some d) false s) = t) :=
      rankLeave_of_piece_refused hk hel hkind hregion hpieces hbefore (first h)
        ((refuseTranslated_overflow hcode rfl s).trans ht)
    have quota (h : ¬ full) : quotaHolds s.domains[d] = true ∧ s.changes.length < 256 := by
      obtain ⟨hcount, hrest⟩ := not_or.mp h
      obtain ⟨hspent, hroom⟩ := not_or.mp hrest
      exact ⟨quotaHolds_iff.mpr ⟨not_le.mp hcount, Bool.not_eq_true _ |>.mp hspent⟩, not_le.mp hroom⟩
    have empty (h : ¬ full) (hpool : s.freeFrames = []) : firstWrite d c s = (.refuse .poolEmpty, s) :=
      firstWrite_pool_empty (quota h).1 (quota h).2 hpool
    refine ⟨fun hpolicy => ?_, fun hpolicy hdrained => ?_, fun es hpolicy hdrained hperm hsorted => ?_,
      fun hnot hpool h0 h1 => ?_⟩
    · have kept (code : FaultCode) := reportOverflow_refuse
        (s := refusedWith k.request code (some w) (some d) false s) hpolicy
      exact ⟨fun hfull => fails rfl (firstWrite_full hfull) (kept _), fun hnot hpool => fails rfl (empty hnot hpool) (kept _)⟩
    · have rolls (code : FaultCode) := (reportOverflow_rollback
        (s := refusedWith k.request code (some w) (some d) false s) hpolicy hepoch).trans
          (enterRollback_of_not_drained hdrained)
      exact ⟨fun hfull => fails rfl (firstWrite_full hfull) (rolls _), fun hnot hpool => fails rfl (empty hnot hpool) (rolls _)⟩
    · have rolls (code : FaultCode) := (reportOverflow_rollback
        (s := refusedWith k.request code (some w) (some d) false s) hpolicy hepoch).trans
          (enterRollback_of_drained hdrained hperm hsorted)
      exact ⟨fun hfull => fails rfl (firstWrite_full hfull) (rolls _), fun hnot hpool => fails rfl (empty hnot hpool) (rolls _)⟩
    · obtain ⟨f, fs, hframes⟩ := List.exists_cons_of_ne_nil hpool
      exact rankLeave_of_piece_parked hk hel hkind hregion hpieces hbefore
        (first (firstWrite_no_slot (quota hnot).1 (quota hnot).2 hframes (freeSlot_eq_none h0 h1)))
  · intro refused lookedUp readonly
    have parks {reason : WaitReason} (hp : translatePiece .write w d p s = (.park reason, s)) :=
      rankLeave_of_piece_parked hk hel hkind hregion hpieces hbefore hp
    have refuses {code : FaultCode} (hv : isViolation code = false) (ho : isOverflow code = false)
        (hp : translatePiece .write w d p s = (.refuse code, s)) :=
      rankLeave_of_piece_refused hk hel hkind hregion hpieces hbefore hp (refuseTranslated_plain hv ho s)
    refine ⟨fun c hchange hcache hwrite hlook => ?_, fun hlook ⟨e, hchange, hcopying⟩ => ?_, fun hlook hchange hcache => ?_,
      fun hf => refuses rfl rfl (translatePiece_faulted hf), fun c hchange hcache hwrite hclosed hpolicy => ?_, fun hwaits => ?_⟩
    · obtain ⟨onWrite, hlookup⟩ := translatePiece_write_looks_up (w := w) (p := p) hlook
      have violates {t : State} (ht : reportViolation d (violated k.request .tileReadonly (.journaled w d) s) = t) :=
        rankLeave_of_piece_refused hk hel hkind hregion hpieces hbefore
          (hlookup.trans (lookup_write_of_readonly hchange hcache hwrite))
          ((refuseTranslated_violation rfl hkind rfl s).trans ht)
      refine ⟨fun hidle => violates (reportViolation_idle fun habort => ?_), fun habort hnot => ?_⟩
      · have hclosed : s.domains[d].state = .closed :=
          hidle.resolve_left fun off => Bool.false_ne_true (off.symm.trans habort)
        exact ⟨fun h => (nomatch hclosed.symm.trans h), fun h => (nomatch hclosed.symm.trans h)⟩
      · have hepoch : s.domains[d].state = .opened ∨ s.domains[d].state = .marked := hlook.resolve_left hnot
        have rolls := reportViolation_of_epoch (s := violated k.request .tileReadonly (.journaled w d) s) habort hepoch
        exact ⟨fun hdrained => violates (rolls.trans (enterRollback_of_not_drained hdrained)),
          fun es hdrained hperm hsorted => violates (rolls.trans (enterRollback_of_drained hdrained hperm hsorted))⟩
    · obtain ⟨onWrite, hlookup⟩ := translatePiece_write_looks_up (w := w) (p := p) hlook
      obtain ⟨-, hwindow, htile⟩ := findChange_mem hchange
      have copies : translatePiece .write w d p s = (.park (.copy w p.tile), s) := by
        rw [hlookup, lookup_of_change hchange, routeChanged_copying_write hcopying, hwindow, htile]
      exact parks copies
    · have other {st : DomainState} (h : st ≠ .closed ∧ st ≠ .opened ∧ st ≠ .marked) : s.domains[d].state ≠ st := by
        rintro rfl
        exact hlook.elim h.1 fun hepoch => hepoch.elim h.2.1 h.2.2
      exact exec_rankLeave_parked hk hel (settle_of_missed hregion hpieces (hkind.symm ▸ hbefore) (other (by decide))
        (other (by decide)) (fun _ => ⟨other (by decide), other (by decide)⟩) hchange hcache) rfl
    · exact refuses rfl rfl (by
        rw [translatePiece_closed hclosed, lookup_write_of_hit hchange hcache hwrite]
        simp only [closedWrite, settingsOf, hpolicy])
    · obtain h | h | h := hwaits
      · exact parks (translatePiece_committing_write (.inl h))
      · exact parks (translatePiece_committing_write (.inr h))
      · exact parks (translatePiece_rollingBack h)

end Sys2Proof.Machine
end

