-- ==== Sys2Proof/Proofs/CacheFills.lean ====
section
/-! SUPPORT. The victim of a cache fill and the round-robin pointer (R25, R26). -/

namespace Sys2Proof.Machine

section Fill

variable {c : CacheEntry} {s : State}

/-- A fill that takes entry `i` and does not move the pointer. -/
theorem fillCache_at {i : Fin 32} (hvictim : fillVictim c.window c.tile s = i)
    (hpointer : pointerAfterFill c.window c.tile s = s.cachePointer) :
    fillCache c s = { s with cache := s.cache.set i (some c) } := by
  simp only [fillCache, hvictim, hpointer]

theorem cacheSlotOf_of_unique {i : Fin 32} {x : CacheEntry} (hi : s.cache[i] = some x)
    (hkey : cacheKey c.window c.tile x = true) (hunique : CacheKeysUnique s) :
    cacheSlotOf c.window c.tile s = some i := by
  have key {y : CacheEntry} : cacheKey c.window c.tile y = true ↔ y.window = c.window ∧ y.tile = c.tile :=
    decide_eq_true_iff
  refine find_finRange (by rw [hi]; exact hkey) fun j hj => Bool.eq_false_iff.mpr fun hany => ?_
  obtain ⟨y, hy, hykey⟩ := (Option.any_eq_true ..).mp hany
  obtain ⟨hxw, hxt⟩ := key.mp hkey
  obtain ⟨hyw, hyt⟩ := key.mp hykey
  exact absurd (hunique j i y x hy hi (hyw.trans hxw.symm) (hyt.trans hxt.symm)) hj.ne

theorem cacheSlotOf_of_absent (h : ∀ (i : Fin 32) (x : CacheEntry), s.cache[i] = some x →
    ¬ (x.window = c.window ∧ x.tile = c.tile)) : cacheSlotOf c.window c.tile s = none := by
  refine List.find?_eq_none.mpr fun i _ hany => ?_
  obtain ⟨x, hx, hkey⟩ := (Option.any_eq_true ..).mp hany
  exact h i x hx (of_decide_eq_true hkey)

theorem lowestInvalid_eq {i : Fin 32} (hi : s.cache[i] = none) (hbelow : ∀ j : Fin 32, j < i → s.cache[j] ≠ none) :
    lowestInvalid s = some i :=
  find_finRange (by rw [hi]; rfl) fun j hj => Option.isNone_eq_false_iff.mpr (Option.isSome_iff_ne_none.mpr (hbelow j hj))

theorem lowestInvalid_of_full (h : ∀ i : Fin 32, s.cache[i] ≠ none) : lowestInvalid s = none :=
  List.find?_eq_none.mpr fun i _ hnone => h i (Option.isNone_iff_eq_none.mp hnone)

end Fill

/-- Settles O42: the victim by what the tile and the cache hold. -/
theorem cacheFillVictim : Obligations.CacheFillVictim := by
  refine fun c s => ⟨fun i x hi hwindow htile hunique => ?_, fun habsent => ⟨fun i hi hbelow => ?_, fun hfull => ?_⟩,
    fun e i hi => ?_⟩
  · have slot := cacheSlotOf_of_unique (c := c) hi (decide_eq_true ⟨hwindow, htile⟩) hunique
    refine fillCache_at ?_ ?_
    · simp only [fillVictim, slot]
    · simp only [pointerAfterFill, slot, Option.isSome_some, Bool.true_or, if_true]
  · have slot := cacheSlotOf_of_absent habsent
    have lowest := lowestInvalid_eq hi hbelow
    refine fillCache_at ?_ ?_
    · simp only [fillVictim, slot, lowest, Option.getD_some]
    · simp only [pointerAfterFill, slot, lowest, Option.isSome_some, Bool.or_true, if_true]
  · have slot := cacheSlotOf_of_absent habsent
    have lowest := lowestInvalid_of_full hfull
    have advanced : s.cachePointer + 1 = Fin.ofNat 32 (s.cachePointer.val + 1) := by
      refine Fin.ext ?_
      simp [Fin.val_add]
    simp only [fillCache, fillVictim, pointerAfterFill, slot, lowest, Option.getD_none, Option.isSome_none, Bool.or_false,
      Bool.false_eq_true, if_false, advanced]
  · rw [publishToCache, vector_ofFn_get, hi]
    rfl

end Sys2Proof.Machine
end

