-- ==== Sys2Proof/Proofs/WalkOutcomes.lean ====
section
/-! SUPPORT. What the completion of a walk does to its job, to the bound ranks and to the cache (R34 to R36, R27). -/

namespace Sys2Proof.Machine

/-- The answer to every rank parked with a reason, written out (R125, R123). -/
theorem answerRanks_parkedOn (reason : WaitReason) (status : ResponseStatus) (s : State) :
    answerRanks (parkedOn reason) status s =
      { s with
        responses := s.responses ++ (s.ranks.filter fun k => decide (k.state = .parked reason)).map fun k =>
          { initiator := k.request.initiator, tag := k.request.tag, status := status, dup := false, beats := [] }
        ranks := ((s.ranks.filter fun k => decide (k.state = .parked reason)).map (·.request.initiator)).foldl
          (fun ks i => endOrder i ks) (s.ranks.filter fun k => decide (k.state ≠ .parked reason)) } := by
  simp only [ne_eq, decide_not]
  rfl

/-- Reports commute with the answers to the bound ranks and the removal of their job. -/
theorem reportFaults_answered (f : Rank → FaultReport) (ks : List Rank) {jobs : List WalkJob}
    {responses : List Response} {ranks : List Rank} (s : State) :
    reportFaults (ks.map f) { s with walkJobs := jobs, responses := responses, ranks := ranks } =
      { ks.foldl (fun t k => reportFault (f k) t) s with walkJobs := jobs, responses := responses, ranks := ranks } := by
  induction ks generalizing s with
  | nil => rfl
  | cons k ks ih => exact ih (reportFault (f k) s)

section Completion

variable {tag : LinkTag} {entry : Beat} {j : WalkJob} {s : State}

/-- The entry gives a translation: V is set, the high bits are zero, and the frame is no unpublished new frame. -/
theorem walkUsable_iff : walkUsable entry s = true ↔ entry.getLsbD 0 = true ∧ entry.extractLsb' 40 24 = 0 ∧
    ∀ e ∈ s.changes, e.newFrame = entry.extractLsb' 12 28 → e.state = .published := by
  have frames : isUnpublishedFrame (mapFrame entry) s = false ↔
      ∀ e ∈ s.changes, e.newFrame = mapFrame entry → e.state = .published := by
    simp only [isUnpublishedFrame, ne_eq, List.any_eq_false, Bool.and_eq_true, decide_eq_true_eq, not_and, not_not]
  rw [walkUsable_eq_true_iff, frames, mapUsable, Bool.and_eq_true, decide_eq_true_iff, and_assoc]
  rfl

theorem completeWalk_usable (h : walkUsable entry s = true) : completeWalk j .okay entry s =
    { fillCache { window := j.window, tile := j.tile, frame := entry.extractLsb' 12 28,
                  writable := entry.getLsbD 1, sw := entry.extractLsb' 2 10 } s with
      walkJobs := s.walkJobs.eraseP (jobKey j.window j.tile)
      ranks := s.ranks.map (wake (parkedOn (.walk j.window j.tile))) } := by
  rw [completeWalk_of_usable h]
  rfl

theorem completeWalk_unusable (h : walkUsable entry s = false) : completeWalk j .okay entry s =
    walkInvalid j { s with walkJobs := s.walkJobs.eraseP (jobKey j.window j.tile) } :=
  if_neg (Bool.eq_false_iff.mp h)

end Completion

/-- Settles O43: the three outcomes of a walk. -/
theorem walkCompletionResolves : Obligations.WalkCompletionResolves := by
  intro tag entry j s hdrain htag hjob jobs bound answered left usable
  refine ⟨fun h => ?_, fun h => ?_, ?_⟩
  · rw [exec_walkCompletion_of_not_draining hdrain htag hjob, completeWalk_usable (walkUsable_iff.mpr h)]
  · have unusable : walkUsable entry s = false := Bool.eq_false_iff.mpr fun hu => h (walkUsable_iff.mp hu)
    rw [exec_walkCompletion_of_not_draining hdrain htag hjob, completeWalk_unusable unusable, walkInvalid,
      answerRanks_parkedOn]
    exact congrArg _ (reportFaults_answered (fun k => requestFault .tileInvalid k.request (some j.window)
      (some j.domain) s) bound s)
  · rw [exec_walkCompletion_of_not_draining hdrain htag hjob]
    refine congrArg _ ?_
    rw [show completeWalk j .failed entry s = walkFailed j { s with walkJobs := jobs } from rfl, walkFailed,
      answerRanks_parkedOn]
    rfl

end Sys2Proof.Machine
end

