-- ==== Sys2Proof/Proofs/PublishOutcomes.lean ====
section
/-! SUPPORT. The completion of a publish write: within its pass, at a pass that leaves an entry LIVE, and at the pass that
ends the commit (R26, R33, R73, R74, R76 to R79). -/

namespace Sys2Proof.Machine

/-! ## The outcome at the entry and at the cache -/

/-- The entry of a tile is PUBLISHED (R73). -/
def publishTile (w : WindowId) (tile : Nat) (y : ChangeEntry) : ChangeEntry :=
  if y.window = w ∧ y.tile = tile then { y with state := .published } else y

/-- A publish write has completed OKAY: its entry is PUBLISHED and the cached translation of its tile follows it
(R73, R26). -/
def tilePublished (p : PublishWrite) (e : ChangeEntry) (s : State) : State :=
  { s with
    publishWrite := none
    changes := s.changes.map (publishTile p.window p.tile)
    cache := Vector.ofFn fun i => s.cache[i].map fun c =>
      if c.window = p.window ∧ c.tile = p.tile then
        { c with frame := e.newFrame, writable := e.savedW, sw := e.savedSw }
      else c }

/-- A publish write has FAILED: its entry stays LIVE and MAP_WRITE is reported (R74). -/
def publishFailed (p : PublishWrite) (s : State) : State :=
  { reportFault { code := .mapWrite, source := .internal, address := p.mapAddress, window := some p.window,
                  domain := some p.domain, epoch := some s.domains[p.domain].epoch } s with
    publishWrite := none }

section Outcome

variable {p : PublishWrite} {e y : ChangeEntry} {s : State}

theorem publishTile_of_tile {w : WindowId} {tile : Nat} (hw : y.window = w) (ht : y.tile = tile) :
    publishTile w tile y = { y with state := .published } :=
  if_pos ⟨hw, ht⟩

theorem publishTile_of_other {w : WindowId} {tile : Nat} (h : ¬ (y.window = w ∧ y.tile = tile)) :
    publishTile w tile y = y :=
  if_neg h

@[simp] theorem publishTile_domain (w : WindowId) (tile : Nat) : (publishTile w tile y).domain = y.domain := by
  unfold publishTile
  split <;> rfl

@[simp] theorem publishTile_sequence (w : WindowId) (tile : Nat) : (publishTile w tile y).sequence = y.sequence := by
  unfold publishTile
  split <;> rfl

@[simp] theorem publishTile_oldFrame (w : WindowId) (tile : Nat) : (publishTile w tile y).oldFrame = y.oldFrame := by
  unfold publishTile
  split <;> rfl

theorem publishOutcome_okay (he : findChange p.window p.tile s = some e) :
    publishOutcome p .okay { s with publishWrite := none } = tilePublished p e s := by
  obtain ⟨-, hw, ht⟩ := findChange_mem he
  have found : findChange p.window p.tile { s with publishWrite := none } = some e := he
  simp only [publishOutcome, found, publishToCache, setEntryState, cacheKey, changeKey, hw, ht, decide_eq_true_eq]
  rfl

theorem publishOutcome_failed : publishOutcome p .failed { s with publishWrite := none } = publishFailed p s := rfl

/-- The LIVE entries after an OKAY publish write are those of the other tiles. -/
theorem live_tilePublished :
    y ∈ (tilePublished p e s).changes ∧ y.state = .live ↔
      y ∈ s.changes ∧ y.state = .live ∧ ¬ (y.window = p.window ∧ y.tile = p.tile) := by
  constructor
  · rintro ⟨hy, hlive⟩
    obtain ⟨x, hx, rfl⟩ := List.mem_map.mp hy
    by_cases hkey : x.window = p.window ∧ x.tile = p.tile
    · rw [publishTile_of_tile hkey.1 hkey.2] at hlive
      exact (nomatch hlive)
    · rw [publishTile_of_other hkey] at hlive ⊢
      exact ⟨hx, hlive, hkey⟩
  · rintro ⟨hy, hlive, hkey⟩
    exact ⟨List.mem_map.mpr ⟨y, hy, publishTile_of_other hkey⟩, hlive⟩

end Outcome

@[simp] theorem tilePublished_publication (p : PublishWrite) (e : ChangeEntry) (s : State) :
    (tilePublished p e s).publication = s.publication := by dsimp only [tilePublished]
@[simp] theorem publishFailed_publication (p : PublishWrite) (s : State) :
    (publishFailed p s).publication = s.publication := by dsimp only [publishFailed, reportFault]
@[simp] theorem publishFailed_changes (p : PublishWrite) (s : State) :
    (publishFailed p s).changes = s.changes := by dsimp only [publishFailed, reportFault]

theorem publishFailed_latches (p : PublishWrite) (s : State) :
    (publishFailed p s).latches = if s.fault = none then s.latches ||| 1#18 else s.latches := by
  cases hf : s.fault with
  | none => simp only [publishFailed, reportFault, hf]; rfl
  | some f => simp only [publishFailed, reportFault, hf]; rfl

/-! ## The end of a pass -/

section Pass

variable {d : DomainId} {q : Publication} {x : ChangeEntry} {s : State}

/-- A pass with a LIVE entry above its cursor goes on (R32). -/
theorem continuePass_of_more (hq : q ∈ s.publication) (hqd : q.domain = d) (hx : x ∈ s.changes) (hd : x.domain = d)
    (hlive : x.state = .live) (habove : aboveCursor q.cursor x = true) : continuePass d s = s := by
  have next : (nextPublish q s).isSome = true := by
    refine Option.isSome_iff_ne_none.mpr fun hnone => ?_
    have member := (bySequence_perm _).mem_iff.mpr (mem_publishable.mpr ⟨hx, hd.trans hqd.symm, hlive, habove⟩)
    rw [List.head?_eq_none_iff.mp hnone] at member
    exact List.not_mem_nil member
  refine if_pos (List.any_eq_true.mpr ⟨q, hq, ?_⟩)
  rw [decide_eq_true hqd, next]
  rfl

/-- At the last write of a pass the domain leaves the publication order (R76). -/
theorem continuePass_of_last (h : ∀ q ∈ s.publication, q.domain = d → ∀ y ∈ s.changes, y.domain = d →
    y.state = .live → aboveCursor q.cursor y = false) : continuePass d s =
      endPass d { s with publication := s.publication.filter fun q => !decide (q.domain = d) } := by
  refine if_neg fun hany => ?_
  obtain ⟨q, hq, hnext⟩ := List.any_eq_true.mp hany
  obtain ⟨hqd, hsome⟩ := Bool.and_eq_true_iff.mp hnext
  rw [nextPublish_eq_none fun y hy hyd => h q hq (of_decide_eq_true hqd) y hy (hyd.trans (of_decide_eq_true hqd))]
    at hsome
  exact (nomatch hsome)

/-- A pass that leaves an entry LIVE leaves its domain FAULTED (R76, R79). -/
theorem continuePass_faults (h : ∀ q ∈ s.publication, q.domain = d → ∀ y ∈ s.changes, y.domain = d →
    y.state = .live → aboveCursor q.cursor y = false) (hx : x ∈ s.changes) (hd : x.domain = d)
    (hlive : x.state = .live) : continuePass d s =
      { s with
        publication := s.publication.filter fun q => !decide (q.domain = d)
        domains := s.domains.set d { s.domains[d] with state := .faulted }
        latches := s.latches ||| 1#18 <<< (14 + d.val)
        ranks := s.ranks.map (wake (parkedOnDomain d)) } := by
  rw [continuePass_of_last h]
  exact if_pos (List.any_eq_true.mpr ⟨x, mem_entriesOf.mpr ⟨hx, hd⟩, decide_eq_true hlive⟩)

/-- A pass that leaves no entry LIVE ends in RELEASE (R76, R77). -/
theorem continuePass_releases (h : ∀ x ∈ s.changes, x.domain = d → x.state ≠ .live) : continuePass d s =
    releaseDomain d { s with publication := s.publication.filter fun q => !decide (q.domain = d) } := by
  rw [continuePass_of_last fun _ _ _ y hy hyd hlive => absurd hlive (h y hy hyd)]
  refine if_neg fun hany => ?_
  obtain ⟨x, hx, hlive⟩ := List.any_eq_true.mp hany
  obtain ⟨hmem, hd⟩ := mem_entriesOf.mp hx
  exact h x hmem hd (of_decide_eq_true hlive)

end Pass

/-- The completion of a publish write outside a drain. -/
theorem exec_publishWriteCompletion_of_not_draining {tag : LinkTag} {p : PublishWrite} {s : State}
    (hdrain : s.draining = false) (htag : tag ∉ s.abandoned) (hp : s.publishWrite = some p) (hpt : p.tag = tag)
    (status : Completion) : exec (.publishWriteCompletion tag status) s =
      .next (continuePass p.domain (publishOutcome p status { s with publishWrite := none })) := by
  rw [exec_publishWriteCompletion_matched htag hp hpt,
    endDrainIfDone_of_not_draining ((publishCompletion_frame p status s).draining.trans hdrain)]

/-- Settles O44: the entry of the completed write, then whether the pass goes on. -/
theorem publishWriteCompletesOrFaults : Obligations.PublishWriteCompletesOrFaults := by
  refine ⟨fun tag p q e x s hdrain htag hp hpt he hq hqd hx hxd hlive habove hother => ⟨?_, ?_⟩,
    fun tag p e s hdrain htag hp hpt he hed hlive hlast => ?_,
    fun tag p e x s hdrain htag hp hpt he hx hxd hlive hother hlast => ?_⟩
  · obtain ⟨hx', hlive'⟩ := live_tilePublished.mpr ⟨hx, hlive, hother⟩
    rw [exec_publishWriteCompletion_of_not_draining hdrain htag hp hpt, publishOutcome_okay he,
      continuePass_of_more (by rwa [tilePublished_publication]) hqd hx' hxd hlive' habove]
    rfl
  · rw [exec_publishWriteCompletion_of_not_draining hdrain htag hp hpt, publishOutcome_failed,
      continuePass_of_more (by rwa [publishFailed_publication]) hqd (by rwa [publishFailed_changes]) hxd hlive habove]
    rfl
  · rw [exec_publishWriteCompletion_of_not_draining hdrain htag hp hpt, publishOutcome_failed,
      continuePass_faults (by rwa [publishFailed_publication, publishFailed_changes])
        (by rwa [publishFailed_changes]) hed hlive, publishFailed_latches]
    rfl
  · obtain ⟨hx', hlive'⟩ := live_tilePublished.mpr ⟨hx, hlive, hother⟩
    rw [exec_publishWriteCompletion_of_not_draining hdrain htag hp hpt, publishOutcome_okay he,
      continuePass_faults (fun q hq hqd y hy hyd hylive => ?_) hx' hxd hlive']
    · dsimp only [tilePublished]
      rfl
    · rw [tilePublished_publication] at hq
      obtain ⟨hmem, -, hkey⟩ := live_tilePublished.mp ⟨hy, hylive⟩
      exact hlast q hq hqd y hmem hyd hylive hkey

/-! ## The end of a commit -/

section Release

variable {p : PublishWrite} {e : ChangeEntry} {s : State}

theorem releasedFrames_of_tilePublished {d : DomainId} {es : List ChangeEntry} {t : State}
    (h : t.changes = s.changes.map (publishTile p.window p.tile)) (hperm : es.Perm (entriesOf d s))
    (hsorted : es.Pairwise fun a b => a.sequence < b.sequence) : releasedFrames d t = es.map (·.oldFrame) := by
  have entries : entriesOf d t = (entriesOf d s).map (publishTile p.window p.tile) := by
    simp only [entriesOf, h, List.filter_map, Function.comp_def, publishTile_domain]
  rw [releasedFrames_eq (es := es.map (publishTile p.window p.tile)) (entries ▸ hperm.map _)
    (List.pairwise_map.mpr (by simpa only [publishTile_sequence] using hsorted)), List.map_map]
  exact List.map_congr_left fun y _ => publishTile_oldFrame ..

/-- The entries of the other domains are none of the published tile, whose only entry is of this domain. -/
theorem others_tilePublished (h : KeysUnique s) (he : e ∈ s.changes) (hw : e.window = p.window) (ht : e.tile = p.tile)
    (hd : e.domain = p.domain) :
    ((tilePublished p e s).changes.filter fun x => !decide (x.domain = p.domain)) =
      s.changes.filter fun x => !decide (x.domain = p.domain) := by
  simp only [tilePublished, List.filter_map, Function.comp_def, publishTile_domain]
  refine (List.map_congr_left fun y hy => publishTile_of_other fun hkey => ?_).trans (List.map_id _)
  obtain ⟨hmem, hother⟩ := List.mem_filter.mp hy
  have same := entry_eq_of_tile h hmem he (hkey.1.trans hw.symm) (hkey.2.trans ht.symm)
  rw [same, hd] at hother
  simp at hother

theorem findChange_of_mem (h : KeysUnique s) (he : e ∈ s.changes) : findChange e.window e.tile s = some e := by
  cases hf : findChange e.window e.tile s with
  | none => exact absurd (changeKey_iff.mpr ⟨rfl, rfl⟩) (List.find?_eq_none.mp hf e he)
  | some x =>
    obtain ⟨hx, hw, ht⟩ := findChange_mem hf
    rw [entry_eq_of_tile h hx he hw ht]

end Release

/-- Settles O45: with every other entry PUBLISHED the pass ends in RELEASE. -/
theorem lastPublishReleases : Obligations.LastPublishReleases := by
  intro tag p e es s hdrain htag hp hpt hunique he hw ht hd hothers hperm hsorted r
  have found : findChange p.window p.tile s = some e := hw ▸ ht ▸ findChange_of_mem hunique he
  have noLive : ∀ x ∈ (tilePublished p e s).changes, x.domain = p.domain → x.state ≠ .live := by
    intro x hx hxd hlive
    obtain ⟨hmem, -, hkey⟩ := live_tilePublished.mp ⟨hx, hlive⟩
    obtain rfl | published := hothers x hmem hxd
    · exact hkey ⟨hw, ht⟩
    · exact (nomatch hlive.symm.trans published)
  have kept := others_tilePublished hunique he hw ht hd
  rw [exec_publishWriteCompletion_of_not_draining hdrain htag hp hpt, publishOutcome_okay found,
    continuePass_releases noLive, releaseDomain_eq, releasedFrames_of_tilePublished (p := p) rfl hperm hsorted, kept]
  dsimp only [tilePublished]
  rfl

end Sys2Proof.Machine
end

