-- ==== Sys2Proof/Proofs/ChunkCompletions.lean ====
section
/-! SUPPORT. The completion of a chunk operation: the slot that its link tag selects, the completions that advance a copy,
and the starvation counter beside them (R110, R154, R157). -/

namespace Sys2Proof.Machine

/-! ## The chunk of a link tag -/

section Chunk

variable {tag : LinkTag} {k : SlotId} {c : CopyJob} {x : ChunkInProgress} {s : State}

theorem chunkUnder_eq_some (hx : x ∈ c.chunks) (hxt : chunkTag x = some tag)
    (hunique : ∀ y ∈ c.chunks, chunkTag y = some tag → y = x) : chunkUnder tag c = some x := by
  cases hfound : chunkUnder tag c with
  | none => exact absurd (beq_iff_eq.mpr hxt) (List.find?_eq_none.mp hfound x hx)
  | some y =>
    have found := List.find?_some hfound
    rw [hunique y (List.mem_of_find?_eq_some hfound) (beq_iff_eq.mp found)]

theorem findChunk_eq_some (hk : s.slots[k] = some c) (hx : x ∈ c.chunks) (hxt : chunkTag x = some tag)
    (hslot : ∀ (j : SlotId) (c' : CopyJob), s.slots[j] = some c' → ∀ y ∈ c'.chunks, chunkTag y = some tag → j = k)
    (hunique : ∀ y ∈ c.chunks, chunkTag y = some tag → y = x) : findChunk tag s = some (k, c, x) := by
  have here : ((s.slots[k]).bind fun c => (chunkUnder tag c).map fun x => (k, c, x)) = some (k, c, x) := by
    rw [hk, Option.bind_some, chunkUnder_eq_some hx hxt hunique, Option.map_some]
  cases hfound : findChunk tag s with
  | none =>
    have absent := List.findSome?_eq_none_iff.mp hfound k (List.mem_finRange k)
    exact (nomatch absent.symm.trans here)
  | some found =>
    obtain ⟨j, -, hj⟩ := List.exists_of_findSome?_eq_some hfound
    obtain ⟨c', hc', hmap⟩ := Option.bind_eq_some_iff.mp hj
    obtain ⟨y, hy, -⟩ := Option.map_eq_some_iff.mp hmap
    have hyt := List.find?_some (p := fun x => chunkTag x == some tag) hy
    have same : j = k := hslot j c' hc' y (List.mem_of_find?_eq_some hy) (beq_iff_eq.mp hyt)
    rw [same, here] at hj
    exact hj.symm

/-- The completion of a chunk operation outside a drain. -/
theorem exec_chunkCompletion_of_not_draining (hdrain : s.draining = false) (htag : tag ∉ s.abandoned)
    (hfound : findChunk tag s = some (k, c, x)) (status : Completion) (data : Chunk) :
    exec (.chunkCompletion tag status data) s =
      .next (settleStarvation s (completeChunk k c tag x status data s)) := by
  rw [exec_chunkCompletion_matched htag hfound,
    endDrainIfDone_of_not_draining ((chunkCompletion_frame k c tag x status data s).draining.trans hdrain)]

end Chunk

/-! ## The starvation counter beside a completion -/

/-- A copy has an operation ready: a held chunk, or room for the next read (R109). -/
theorem readyOperation_isSome_iff {c : CopyJob} : (readyOperation c).isSome = true ↔ c.stopping = false ∧
    ((∃ x ∈ c.chunks, ∃ data, x.phase = .held data) ∨ (c.chunks.length < 2 ∧ c.nextRead < 64)) := by
  unfold readyOperation
  cases c.stopping with
  | true => simp
  | false =>
    cases hlow : lowestHeld c.chunks with
    | none =>
      have none_held := lowestHeld_eq_none_iff.mp hlow
      have no : ¬ ∃ x ∈ c.chunks, ∃ data, x.phase = .held data := fun ⟨x, hx, data, h⟩ => none_held x hx data h
      simp [no, Config.chunksPerTile]
    | some found =>
      have held : ∃ x ∈ c.chunks, ∃ data, x.phase = .held data := by
        by_contra hno
        refine absurd hlow ?_
        rw [lowestHeld_eq_none_iff.mpr fun x hx data h => hno ⟨x, hx, data, h⟩]
        exact Option.some_ne_none _ ∘ Eq.symm
      simp [held]

/-- A slot that stays ready leaves the Copy Engine waiting when it was (R156). -/
theorem copyWaits_setSlot {k : SlotId} {c c' : CopyJob} {s : State} (hk : s.slots[k] = some c)
    (hready : (readyOperation c).isSome = true → (readyOperation c').isSome = true) (h : copyWaits s = true) :
    copyWaits (setSlot k (some c') s) = true := by
  obtain ⟨j, hj⟩ := (copyWaits_iff s).mp h
  refine (copyWaits_iff _).mpr ⟨j, ?_⟩
  unfold slotWaits at hj ⊢
  rw [setSlot, vector_set_get]
  by_cases same : k = j
  · subst same
    rw [hk] at hj
    rw [if_pos rfl]
    exact hready hj
  · rw [if_neg same]
    exact hj

theorem settleStarvation_of_waits {s t : State} (h : copyWaits s = true → copyWaits t = true) :
    settleStarvation s t = t := by
  have no : (copyWaits s && !copyWaits t) = false := by
    cases hs : copyWaits s with
    | false => rfl
    | true => rw [h hs]; rfl
  rw [settleStarvation, no, if_neg Bool.false_ne_true]

/-! ## The completions that advance a copy -/

section Advance

variable {tag : LinkTag} {k : SlotId} {c : CopyJob} {s : State}

theorem setChunkPhase_eq (phase : ChunkPhase) : setChunkPhase tag phase c =
    { c with chunks := c.chunks.map fun x => if chunkTag x = some tag then { x with phase := phase } else x } := by
  simp only [setChunkPhase, beq_iff_eq]

theorem finishChunk_eq : finishChunk tag c =
    { c with chunks := c.chunks.filter fun x => decide (chunkTag x ≠ some tag), progress := c.progress + 1 } := by
  simp only [finishChunk, beq_eq_decide, ne_eq, decide_not]

/-- A read's bytes are ready to be written (R110). -/
theorem readyOperation_held {x : ChunkInProgress} (hx : x ∈ c.chunks) (hxt : chunkTag x = some tag)
    (hrunning : c.stopping = false) (data : Chunk) :
    (readyOperation (setChunkPhase tag (.held data) c)).isSome = true := by
  rw [setChunkPhase_eq]
  exact readyOperation_isSome_iff.mpr ⟨hrunning, .inl ⟨_, List.mem_map_of_mem hx, data, by rw [if_pos hxt]⟩⟩

/-- A chunk whose write completes was not held, and leaves room (R109, R110). -/
theorem readyOperation_finishChunk (h : (readyOperation c).isSome = true) :
    (readyOperation (finishChunk tag c)).isSome = true := by
  obtain ⟨hrunning, hready⟩ := readyOperation_isSome_iff.mp h
  rw [finishChunk_eq]
  refine readyOperation_isSome_iff.mpr ⟨hrunning, hready.imp (fun ⟨x, hx, data, hheld⟩ => ⟨x, ?_, data, hheld⟩)
    fun ⟨hroom, hnext⟩ => ⟨lt_of_le_of_lt (List.length_filter_le ..) hroom, hnext⟩⟩
  refine List.mem_filter.mpr ⟨hx, decide_eq_true ?_⟩
  rw [chunkTag, hheld]
  exact Option.some_ne_none _ ∘ Eq.symm

end Advance

/-- Settles O46: a read's bytes are held, a write's chunk leaves. -/
theorem chunkCompletionsAdvanceCopy : Obligations.ChunkCompletionsAdvanceCopy := by
  intro tag k c n data held s hdrain htag hk hrunning hslot
  refine ⟨fun hx hunique => ?_, fun hx hunique hprogress => ?_⟩
  · have found := findChunk_eq_some hk hx rfl (fun j c' hc' y hy hyt => (hslot j c' hc' y hy hyt).1) hunique
    have complete : completeChunk k c tag { number := n, phase := .reading tag } .okay data s =
        setSlot k (some (setChunkPhase tag (.held data) c)) s := by
      rw [completeChunk, hrunning, if_neg Bool.false_ne_true]
    rw [exec_chunkCompletion_of_not_draining hdrain htag found, complete,
      settleStarvation_of_waits (copyWaits_setSlot hk fun _ => readyOperation_held hx rfl hrunning data),
      setChunkPhase_eq]
    rfl
  · have found := findChunk_eq_some hk hx rfl (fun j c' hc' y hy hyt => (hslot j c' hc' y hy hyt).1) hunique
    have complete : completeChunk k c tag { number := n, phase := .writing tag held } .okay data s =
        setSlot k (some (finishChunk tag c)) s := by
      rw [completeChunk, hrunning, if_neg Bool.false_ne_true]
      exact if_neg hprogress
    rw [exec_chunkCompletion_of_not_draining hdrain htag found, complete,
      settleStarvation_of_waits (copyWaits_setSlot hk readyOperation_finishChunk), finishChunk_eq]
    rfl

end Sys2Proof.Machine
end

