-- ==== Sys2Proof/Proofs/CopyOutcomes.lean ====
section
/-! SUPPORT. How a copy ends: complete at its 64th chunk, or failed, at once or when its other operation has returned
(R111 to R113, R46). -/

namespace Sys2Proof.Machine

/-! ## A test of a DRAIN condition beside the starvation counter -/

theorem endPass_starvation (d : DomainId) (n : Nat) (s : State) :
    endPass d { s with starvation := n } = { endPass d s with starvation := n } := by
  have entries : entriesOf d { s with starvation := n } = entriesOf d s := rfl
  unfold endPass
  rw [entries, releaseDomain_eq, releaseDomain_eq]
  split <;> rfl

theorem enterPublish_starvation (d : DomainId) (n : Nat) (s : State) :
    enterPublish d { s with starvation := n } = { enterPublish d s with starvation := n } := by
  have entries : entriesOf d { s with starvation := n } = entriesOf d s := rfl
  unfold enterPublish
  rw [entries]
  split
  · rfl
  · exact endPass_starvation d n (stopDeadline d (setDomainState d (.committing .publish) s))

/-- A test of a DRAIN condition neither looks at the starvation counter nor moves it. -/
theorem testDrain_starvation (d : DomainId) (n : Nat) (s : State) :
    testDrain d { s with starvation := n } = { testDrain d s with starvation := n } := by
  have state : domainState d { s with starvation := n } = domainState d s := rfl
  have commits : commitDrained d { s with starvation := n } = commitDrained d s := rfl
  have rollsBack : rollbackDrained d { s with starvation := n } = rollbackDrained d s := rfl
  unfold testDrain testCommitDrain testRollbackDrain
  rw [state, commits, rollsBack]
  split
  · split
    · exact enterPublish_starvation d n (endDomainWaits d s)
    · rfl
  · split <;> rfl
  all_goals rfl

/-- The starvation counter as the end of an event leaves it (R157). -/
def settledStarvation (s : State) (slots : Vector (Option CopyJob) 2) : Nat :=
  if copyWaits s = true ∧ copyWaits { s with slots := slots } = false then 0 else s.starvation

theorem settleStarvation_eq {s t : State} (h : t.starvation = s.starvation) :
    settleStarvation s t = { t with starvation := settledStarvation s t.slots } := by
  have same : copyWaits { s with slots := t.slots } = copyWaits t := copyWaits_of_slots rfl
  rw [settleStarvation, settledStarvation, same, h]
  simp only [Bool.and_eq_true, Bool.not_eq_true']

theorem settleStarvation_testDrain {d : DomainId} {s t : State} (h : t.starvation = s.starvation) :
    settleStarvation s (testDrain d t) = testDrain d { t with starvation := settledStarvation s t.slots } := by
  have frame := testDrain_frame d t
  refine (settleStarvation_eq (frame.starvation.trans h)).trans (Eq.trans ?_ (testDrain_starvation d _ t).symm)
  exact congrArg (fun slots => { testDrain d t with starvation := settledStarvation s slots }) frame.slots

/-! ## A copy that completes -/

section Complete

variable {k : SlotId} {c : CopyJob} {e : ChangeEntry} {s : State}

theorem wake_parkedOn_twice (reason₁ reason₂ : WaitReason) (ks : List Rank) :
    (ks.map (wake (parkedOn reason₁))).map (wake (parkedOn reason₂)) =
      ks.map fun x => if x.state = .parked reason₁ ∨ x.state = .parked reason₂ then { x with state := .eligible } else x := by
  rw [List.map_map]
  refine List.map_congr_left fun x _ => (wake_or _ _ (parkedOn_eligible reason₂) x).trans ?_
  simp only [wake, parkedOn, Bool.or_eq_true, decide_eq_true_eq]

theorem completeCopy_eq (he : findChange c.window c.tile s = some e) : completeCopy k c s = testDrain e.domain
    { s with
      slots := s.slots.set k none
      changes := s.changes.map fun x =>
        if x.window = c.window ∧ x.tile = c.tile then { x with state := .live } else x
      ranks := s.ranks.map fun x =>
        if x.state = .parked (.copy c.window c.tile) ∨ x.state = .parked .slot then { x with state := .eligible }
        else x } := by
  simp only [completeCopy, he, endWaits, setSlot, setEntryState, wake_parkedOn_twice, changeKey, decide_eq_true_eq]

end Complete

/-! ## A copy that fails -/

section Fail

variable {k : SlotId} {c : CopyJob} {e : ChangeEntry} {tag : LinkTag} {s : State}

/-- What the failure of a copy leaves, before its DRAIN test (R113). -/
def copyFailed (k : SlotId) (c : CopyJob) (e : ChangeEntry) (s : State) : State :=
  { reportFault { code := .copyFailed, source := .internal, address := tileAddress s.windows[c.window] c.tile,
                  window := some c.window, domain := some e.domain, epoch := some s.domains[e.domain].epoch } s with
    slots := s.slots.set k none
    changes := s.changes.eraseP fun y => decide (y.window = c.window ∧ y.tile = c.tile)
    domains := s.domains.set e.domain
      { s.domains[e.domain] with entryCount := s.domains[e.domain].entryCount - 1 }
    freeFrames := s.freeFrames ++ [e.newFrame]
    responses := s.responses ++ (s.ranks.filter fun y => decide (y.state = .parked (.copy c.window c.tile))).map fun y =>
      { initiator := y.request.initiator, tag := y.request.tag, status := .failed, dup := false, beats := [] }
    ranks := (((s.ranks.filter fun y => decide (y.state = .parked (.copy c.window c.tile))).map
      (·.request.initiator)).foldl (fun ks i => endOrder i ks)
        (s.ranks.filter fun y => decide (y.state ≠ .parked (.copy c.window c.tile)))).map (wake (parkedOn .slot)) }

theorem failCopy_eq (he : findChange c.window c.tile s = some e) :
    failCopy k c s = testDrain e.domain (copyFailed k c e s) := by
  obtain ⟨-, hw, ht⟩ := findChange_mem he
  have key : changeKey e.window e.tile = fun y => decide (y.window = c.window ∧ y.tile = c.tile) := by
    rw [hw, ht]
    rfl
  simp only [failCopy, he, answerRanks_parkedOn, removeEntry, appendFrames, modifyDomain, internalFault, epochFor,
    Option.map_some, vector_set_get_self, key]
  rfl

/-- With an operation besides `tag`'s outstanding, the slot waits for it (R112); with none, the failure is finished
(R113). -/
theorem outstandingChunks_ended {stopping : Bool} :
    outstandingChunks { setChunkPhase tag .ended c with stopping := stopping } = 0 ↔
      ∀ y ∈ c.chunks, chunkTag y = none ∨ chunkTag y = some tag := by
  rw [setChunkPhase_eq, outstandingChunks, List.countP_eq_zero]
  simp only [List.forall_mem_map]
  refine forall₂_congr fun y _ => ?_
  by_cases hy : chunkTag y = some tag
  · rw [if_pos hy]
    exact iff_of_true Bool.false_ne_true (.inr hy)
  · rw [if_neg hy, Option.isSome_iff_ne_none, not_not]
    exact (or_iff_left hy).symm

/-- A completion in a STOPPING slot, or a FAILED one, leaves a STOPPING copy whose chunk has ended (R112). -/
theorem completeChunk_stops {x : ChunkInProgress} {status : Completion} {data : Chunk}
    (h : c.stopping = true ∨ status = .failed) : completeChunk k c tag x status data s =
      stopCopy k { setChunkPhase tag .ended c with stopping := true } s := by
  unfold completeChunk
  by_cases stops : c.stopping = true
  · have same : ({ setChunkPhase tag .ended c with stopping := true } : CopyJob) = setChunkPhase tag .ended c := by
      rw [← stops]
      rfl
    rw [if_pos stops, same]
  · obtain rfl := h.resolve_left stops
    rw [if_neg stops]

end Fail

/-- Settles O47: the two ends of a copy. -/
theorem copyCompletesOrFails : Obligations.CopyCompletesOrFails := by
  refine ⟨fun tag k c n data held e s hdrain htag hk hrunning hx hprogress hslot he => ?_,
    fun tag k c x status data e s hdrain htag hk hx hxt hslot hstops he => ?_⟩
  · intro slots
    have found := findChunk_eq_some hk hx rfl (fun j c' hc' y hy hyt => (hslot j c' hc' y hy hyt).1)
      fun y hy hyt => (hslot k c hk y hy hyt).2
    have complete : completeChunk k c tag { number := n, phase := .writing tag held } .okay data s =
        completeCopy k (finishChunk tag c) s := by
      rw [completeChunk, hrunning, if_neg Bool.false_ne_true]
      exact if_pos (congrArg (· + 1) hprogress)
    rw [exec_chunkCompletion_of_not_draining hdrain htag found, complete,
      completeCopy_eq (c := finishChunk tag c) he,
      settleStarvation_testDrain]
    all_goals rfl
  · have found := findChunk_eq_some hk hx hxt (fun j c' hc' y hy hyt => (hslot j c' hc' y hy hyt).1)
      fun y hy hyt => (hslot k c hk y hy hyt).2
    rw [exec_chunkCompletion_of_not_draining hdrain htag found, completeChunk_stops hstops]
    refine ⟨?_, ?_⟩
    · rintro ⟨y, hy, hsome, hother⟩ slots
      have busy : outstandingChunks { setChunkPhase tag .ended c with stopping := true } ≠ 0 := fun h =>
        (outstandingChunks_ended.mp h y hy).elim hsome hother
      rw [stopCopy, if_neg busy, settleStarvation_eq, setChunkPhase_eq]
      all_goals rfl
    · intro hnone slots bound
      have failed := failCopy_eq (k := k) (c := { setChunkPhase tag .ended c with stopping := true }) he
      rw [stopCopy, if_pos (outstandingChunks_ended.mpr hnone), failed, settleStarvation_testDrain]
      all_goals rfl

end Sys2Proof.Machine
end

