-- ==== Sys2Proof/Proofs/ForwardedCompletions.lean ====
section
/-! SUPPORT. The completion of a forwarded operation: its freed entry, its fault, and the response that its request's last
piece sends (R148, R149, R158, R159). -/

namespace Sys2Proof.Machine

/-! ## The response -/

section Response

variable {e : TransitEntry} {q : PieceResult} {earlier : List PieceResult} {beats : List Beat}

theorem pieceResult_okay : pieceResult e .okay beats =
    { initiator := e.initiator, tag := e.tag, place := e.place, status := .okay,
      beats := if e.kind = .read then beats else [] } := by
  cases hk : e.kind with
  | read => simp only [pieceResult, handedOn, hk, if_true]
  | write => simp only [pieceResult, handedOn, hk, reduceCtorEq, if_false]

theorem pieceResult_failed : pieceResult e .failed beats =
    { initiator := e.initiator, tag := e.tag, place := e.place, status := .failed, beats := [] } := by
  cases hk : e.kind with
  | read => simp only [pieceResult, handedOn, hk]
  | write => simp only [pieceResult, handedOn, hk]

/-- With every piece OKAY the response is OKAY, with the beats of a READ (R158). -/
theorem issuedResponse_okay (hq : q.status = .okay) (hearlier : ∀ x ∈ earlier, x.status = .okay) :
    issuedResponse e q earlier =
      { initiator := e.initiator, tag := e.tag, status := .okay, dup := false,
        beats := if e.kind = .read then joinBeats q earlier else [] } := by
  have all : ((q :: earlier).all fun x => decide (x.status = .okay)) = true :=
    List.all_eq_true.mpr (List.forall_mem_cons.mpr ⟨decide_eq_true hq, fun x hx => decide_eq_true (hearlier x hx)⟩)
  rw [issuedResponse, if_pos all]
  cases hk : e.kind with
  | read => rw [if_pos rfl]
  | write => rw [if_neg (nofun)]

/-- A FAILED piece makes the response FAILED, without data (R158). -/
theorem issuedResponse_failed {x : PieceResult} (hx : x ∈ q :: earlier) (hfailed : x.status = .failed) :
    issuedResponse e q earlier =
      { initiator := e.initiator, tag := e.tag, status := .failed, dup := false, beats := [] } := by
  refine if_neg fun hall => ?_
  have okay := of_decide_eq_true (List.all_eq_true.mp hall x hx)
  exact (nomatch hfailed.symm.trans okay)

theorem joinBeats_alone : joinBeats q [] = q.beats := by simp [joinBeats]

theorem joinBeats_second {x : PieceResult} (hx : x.place = .oneOfTwo) (hq : q.place = .twoOfTwo) :
    joinBeats q [x] = x.beats ++ q.beats := by simp [joinBeats, placeOrder, hx, hq]

theorem joinBeats_first {x : PieceResult} (hx : x.place = .twoOfTwo) (hq : q.place = .oneOfTwo) :
    joinBeats q [x] = q.beats ++ x.beats := by simp [joinBeats, placeOrder, hx, hq]

end Response

/-! ## The freed entry and the answer -/

section Freed

variable {tag : LinkTag} {e : TransitEntry} {status : Completion} {beats : List Beat} {s : State}

/-- The entry is free, the TRANSIT waits have ended, and the fault of a FAILED operation is reported (R158, R159). -/
def transitFreed (e : TransitEntry) (tag : LinkTag) (status : Completion) (s : State) : State :=
  { reportMemory e status s with
    transit := s.transit.eraseP (sentUnder tag)
    ranks := s.ranks.map (wake (parkedOn .transit)) }

theorem reportMemory_freed (left : List TransitEntry) : reportMemory e status { s with transit := left } =
    { reportMemory e status s with transit := left } := by
  cases status <;> rfl

/-- The last piece of a request sends its response (R158). -/
theorem transitAnswered_last (h : ¬ ∃ x ∈ s.transit.eraseP (sentUnder tag), x.initiator = e.initiator ∧ x.tag = e.tag) :
    transitAnswered e tag status beats s =
      { transitFreed e tag status s with
        responses := s.responses ++ [issuedResponse e (pieceResult e status beats) (resultsOf e.initiator e.tag s)]
        collected := s.collected.filter fun q => !decide (q.initiator = e.initiator ∧ q.tag = e.tag) } := by
  have last : ¬ ((s.transit.eraseP (sentUnder tag)).any (ofPair e.initiator e.tag) = true) := fun hany => by
    obtain ⟨x, hx, hpair⟩ := List.any_eq_true.mp hany
    exact h ⟨x, hx, of_decide_eq_true hpair⟩
  rw [transitAnswered, reportMemory_freed, answerPiece, if_neg last]
  cases status <;> rfl

/-- An earlier piece's result is held (R158; log entry 24). -/
theorem transitAnswered_earlier (h : ∃ x ∈ s.transit.eraseP (sentUnder tag), x.initiator = e.initiator ∧ x.tag = e.tag) :
    transitAnswered e tag status beats s =
      { transitFreed e tag status s with collected := s.collected ++ [pieceResult e status beats] } := by
  obtain ⟨x, hx, hpair⟩ := h
  have another : (s.transit.eraseP (sentUnder tag)).any (ofPair e.initiator e.tag) = true :=
    List.any_eq_true.mpr ⟨x, hx, decide_eq_true hpair⟩
  rw [transitAnswered, reportMemory_freed, answerPiece, if_pos another]
  cases status <;> rfl

/-- The completion of a forwarded operation outside a drain. -/
theorem exec_transitCompletion_of_not_draining (hdrain : s.draining = false) (htag : tag ∉ s.abandoned)
    (he : s.transit.find? (sentUnder tag) = some e) (status : Completion) (beats : List Beat) :
    exec (.transitCompletion tag status beats) s = .next (tellFreed e (transitAnswered e tag status beats s)) := by
  rw [exec_transitCompletion_matched htag he,
    endDrainIfDone_of_not_draining ((completeTransit_frame e tag status beats s).draining.trans hdrain),
    completeTransit_eq]

end Freed

/-- Settles O48: the response by what is held of the request's other piece. -/
theorem transitCompletionAnswers : Obligations.TransitCompletionAnswers := by
  intro tag beats e s hdrain htag he left other held tested freed failed answer
  have told (t : State) : tellFreed e t = tested t := by
    cases hd : e.domain <;> cases hk : e.kind <;> simp only [tellFreed, tested, hd, hk]
  have last (hlast : ¬ other) (status : Completion) (st : ResponseStatus) (data : List Beat)
      (h : issuedResponse e (pieceResult e status beats) held =
        { initiator := e.initiator, tag := e.tag, status := st, dup := false, beats := data }) :
      exec (.transitCompletion tag status beats) s = .next (tested (answer st data (transitFreed e tag status s))) := by
    have response : issuedResponse e (pieceResult e status beats) (resultsOf e.initiator e.tag s) = _ := h
    rw [exec_transitCompletion_of_not_draining hdrain htag he, transitAnswered_last hlast, told, response]
  have failedLast (hlast : ¬ other) :
      exec (.transitCompletion tag .failed beats) s = .next (tested (answer .failed [] failed)) :=
    last hlast .failed .failed [] (issuedResponse_failed List.mem_cons_self rfl)
  refine ⟨fun hlast hheld => ⟨last hlast .okay .okay _ ?_, failedLast hlast⟩, fun q hlast hheld =>
    ⟨failedLast hlast, fun hq => last hlast .okay .failed _ ?_, fun hq hk => last hlast .okay .okay _ ?_,
      fun hq hk hfirst hsecond => last hlast .okay .okay _ ?_, fun hq hk hsecond hfirst => last hlast .okay .okay _ ?_⟩,
    fun hother => ⟨?_, ?_⟩⟩
  · rw [hheld, issuedResponse_okay rfl (List.forall_mem_nil _), joinBeats_alone, pieceResult_okay]
    split <;> rfl
  · rw [hheld, issuedResponse_failed (List.mem_cons_of_mem _ List.mem_cons_self) hq]
  · rw [hheld, issuedResponse_okay rfl (List.forall_mem_singleton.mpr hq), hk, if_neg nofun]
  · rw [hheld, issuedResponse_okay rfl (List.forall_mem_singleton.mpr hq), if_pos hk, joinBeats_second hfirst hsecond,
      pieceResult_okay, if_pos hk]
  · rw [hheld, issuedResponse_okay rfl (List.forall_mem_singleton.mpr hq), if_pos hk, joinBeats_first hsecond hfirst,
      pieceResult_okay, if_pos hk]
  · rw [exec_transitCompletion_of_not_draining hdrain htag he, transitAnswered_earlier hother, told, pieceResult_okay]
    rfl
  · rw [exec_transitCompletion_of_not_draining hdrain htag he, transitAnswered_earlier hother, told, pieceResult_failed]
    rfl

end Sys2Proof.Machine
end

