-- ==== Sys2Proof/Proofs/NoEvents.lean ====
section
/-! SUPPORT. What is presented and does not occur: a request that is not taken, a rank that cannot leave, a completion that
no operation on the link waits for (R124, R126, R142, R154, R161). -/

namespace Sys2Proof.Machine

/-! ## Requests and ranks -/

theorem not_accepting {s : State} (h : s.ranks.length ≥ 8 ∨ s.draining = true) : accepting s = false := by
  obtain full | drains := h
  · rw [accepting, decide_eq_false (show ¬ s.ranks.length < Config.holdRanks from not_lt.mpr full), Bool.false_and]
  · rw [accepting, drains, Bool.not_true, Bool.and_false]

theorem not_wellFormed {r : Request} (h : r.length = 0 ∨ 16 < r.length ∨ (r.kind = .write ∧ r.beats.length ≠ r.length) ∨
    (r.kind = .read ∧ r.beats ≠ [])) : r.wellFormed = false := by
  obtain none | many | ⟨hkind, hbeats⟩ | ⟨hkind, hbeats⟩ := h
  · simp [Request.wellFormed, none]
  · simp [Request.wellFormed, not_le.mpr many]
  · simp [Request.wellFormed, hkind, hbeats]
  · simp [Request.wellFormed, hkind, hbeats]

theorem exec_upstreamRequest_not_taken {r : Request} {s : State} (h : accepting s = false ∨ r.wellFormed = false) :
    exec (.upstreamRequest r) s = .next s := by
  have no : ¬ ((accepting s && r.wellFormed) = true) := by
    obtain h | h := h <;> simp [h]
  exact congrArg _ (if_neg no)

theorem exec_rankLeave_absent {n : Nat} {s : State} (h : ∀ k, s.ranks[n]? = some k → k.state ≠ .eligible) :
    exec (.rankLeave n) s = .next s := by
  simp only [exec, execRankLeave]
  cases hk : s.ranks[n]? with
  | none => rfl
  | some k =>
    dsimp only
    cases hstate : k.state with
    | eligible => exact absurd hstate (h k hk)
    | parked reason => rfl

/-! ## Completions under a link tag that nothing holds -/

section Unheld

variable {tag : LinkTag} {s : State}

theorem walkJob_unheld (h : tag ∉ outstandingTags s) : s.walkJobs.find? (fun k => walkTag k == some tag) = none :=
  List.find?_eq_none.mpr fun j hj hjt => h (mem_outstandingTags.mpr (.inl ⟨j, hj, beq_iff_eq.mp hjt⟩))

theorem publishWrite_unheld (h : tag ∉ outstandingTags s) (p : PublishWrite) (hp : s.publishWrite = some p) :
    p.tag ≠ tag := fun hpt => h (mem_outstandingTags.mpr (.inr (.inl ⟨p, hp, hpt⟩)))

theorem transitEntry_unheld (h : tag ∉ outstandingTags s) : s.transit.find? (sentUnder tag) = none :=
  List.find?_eq_none.mpr fun e he het =>
    h (mem_outstandingTags.mpr (.inr (.inr (.inl ⟨e, he, of_decide_eq_true het⟩))))

theorem findChunk_unheld (h : tag ∉ outstandingTags s) : findChunk tag s = none := by
  refine List.findSome?_eq_none_iff.mpr fun k _ => ?_
  cases hk : s.slots[k] with
  | none => rfl
  | some c =>
    have slot : some c ∈ s.slots := hk ▸ Vector.getElem_mem k.isLt
    have nothing : chunkUnder tag c = none := List.find?_eq_none.mpr fun x hx hxt =>
      h (mem_outstandingTags.mpr (.inr (.inr (.inr ⟨c, slot, x, hx, beq_iff_eq.mp hxt⟩))))
    rw [Option.bind_some, nothing, Option.map_none]

end Unheld

theorem dropAbandoned_eq (tag : LinkTag) (s : State) :
    dropAbandoned tag s = { s with abandoned := s.abandoned.filter fun x => decide (x ≠ tag) } := by
  simp only [dropAbandoned, ne_eq, decide_not]

/-- Settles O26: each event by what keeps it from occurring. -/
theorem eventsThatDoNotOccur : Obligations.EventsThatDoNotOccur := by
  refine ⟨fun r s h => ?_, fun n s h => exec_rankLeave_absent h, fun tag status s hheld => ?_, fun tag s hlost => ?_⟩
  · refine exec_upstreamRequest_not_taken ?_
    obtain full | drains | request := h
    · exact .inl (not_accepting (.inl full))
    · exact .inl (not_accepting (.inr drains))
    · exact .inr (not_wellFormed request)
  · have nowhere : ¬ (tag ∈ outstandingTags s ∨ tag ∈ s.abandoned) := fun h =>
      Bool.false_ne_true (hheld.symm.trans (tagHeld_iff.mpr h))
    obtain ⟨idle, kept⟩ := not_or.mp nowhere
    exact ⟨fun entry => exec_walkCompletion_unmatched kept (walkJob_unheld idle) status entry,
      exec_publishWriteCompletion_unmatched kept (publishWrite_unheld idle) status,
      fun data => exec_chunkCompletion_unmatched kept (findChunk_unheld idle) status data,
      fun beats => exec_transitCompletion_unmatched kept (transitEntry_unheld idle) status beats⟩
  · intro returned
    have dropped : dropAbandoned tag s = returned := dropAbandoned_eq tag s
    rw [← dropped]
    exact ⟨exec_walkCompletion_abandoned hlost, exec_publishWriteCompletion_abandoned hlost,
      exec_chunkCompletion_abandoned hlost, exec_transitCompletion_abandoned hlost,
      exec_grant_held (tagHeld_iff.mpr (.inr hlost))⟩

end Sys2Proof.Machine
end
